-- ==== Sys2Proof/Word.lean ====
section
/-! DEFINITION. The word types of the Vyldalet X96 and their plainest arithmetic (R4: bit 0 is the
least significant bit, multi-byte values are little-endian). -/

namespace Sys2Proof

/-- A register or half of a pair: 32 bits (R106, R107). -/
abbrev Word := BitVec 32
/-- A 64-bit value: an aligned pair, an address, a descriptor word (R107). -/
abbrev DWord := BitVec 64
/-- The smallest addressable unit of every space (R30). -/
abbrev Byte := BitVec 8

/-- `lo` bits from `at_` of a natural number: the range [at_+len-1 : at_] of R4. -/
def fld (w at_ len : Nat) : Nat := w / 2 ^ at_ % 2 ^ len

/-- The low half of a 64-bit value (R107). -/
def lo32 (x : DWord) : Word := x.setWidth 32
/-- The high half of a 64-bit value (R107). -/
def hi32 (x : DWord) : Word := (x >>> 32).setWidth 32
/-- A 64-bit value from its halves, the low half first (R107). -/
def mk64 (lo hi : Word) : DWord := hi ++ lo

end Sys2Proof
end

