-- ==== Sys2Proof/Syntax.lean ====
section
/-! DEFINITION. The syntax: one constructor of `Instr` for each row of spec/opcode_table.json. The
first part of the rows are the instructions that a strand issues (64-bit words, R154 to R169); the rest are
the machine's own events, the packets a queue carries and what the host and the board do to the device. -/

namespace Sys2Proof

/-- What a 7-bit register field names (R106). -/
inductive Reg
  | v (n : Fin 96) | s (n : Fin 24) | q (n : Fin 6) | sap | zero
deriving DecidableEq, Repr, Inhabited

/-- The guard of an instruction: bits ge, gn and gp (R156). -/
inductive Guard
  | always | onTrue (p : Fin 16) | onFalse (p : Fin 16)
deriving DecidableEq, Repr, Inhabited

/-- The common fields other than op and fn: the rb bit (R157) and the guard (R156). -/
structure Hd where
  rb : Bool
  guard : Guard
deriving DecidableEq, Repr, Inhabited

/-- The second source: the rb field in the R form, imm27 in the I form (R159, R172). -/
inductive RegImm
  | reg (r : Reg) | imm (v : BitVec 27)
deriving DecidableEq, Repr, Inhabited

/-- The type field of a typed integer instruction (R168 layout T). -/
inductive ITy | u32 | i32 | b64
deriving DecidableEq, Repr, Inhabited

/-- The type field of a floating-point instruction (R168 layout F, R196). -/
inductive FTy | f32 | f16x2 | bf16x2
deriving DecidableEq, Repr, Inhabited

/-- The conditions of cmp (R181). -/
inductive Cond | eq | ne | lt | le | gt | ge
deriving DecidableEq, Repr, Inhabited

/-- The conditions of fcmp (R201). -/
inductive FCond | eq | ne | lt | le | gt | ge | unordered | ordered
deriving DecidableEq, Repr, Inhabited

/-- The operations of scan (R186). -/
inductive ScanOp | add | min | max | and | or | xor
deriving DecidableEq, Repr, Inhabited

/-- The modes of xch (R185). -/
inductive XchMode | idx | xor | up | down
deriving DecidableEq, Repr, Inhabited

/-- The rounding field (R147): the six modes and the dynamic one. -/
inductive Rm | rn | rz | ru | rd | ra | ro | dyn
deriving DecidableEq, Repr, Inhabited

/-- The formats of R135, in the order of their codes 0x01 to 0x0d. -/
inductive Fmt
  | fp32 | fp16 | bf16 | e4m3 | e5m2 | e3m2 | e2m3 | e2m1 | i32 | i8 | u8 | i4 | o4
deriving DecidableEq, Repr, Inhabited

/-- One side of a conversion: a format code in fn, or a format slot (R203). -/
inductive FmtSel
  | fmt (f : Fmt) | slot (i : Fin 8)
deriving DecidableEq, Repr, Inhabited

/-- The size field of the M form (R162). -/
inductive Size | u8 | i8 | u16 | i16 | u32 | b64 | b128
deriving DecidableEq, Repr, Inhabited

/-- The seven scopes (R3, R165). -/
inductive Scope | thread | strand | grove | copse | stand | forest | system
deriving DecidableEq, Repr, Inhabited

/-- The orders of an atomic (R165). -/
inductive Order | relaxed | acquire | release | acqRel | sc
deriving DecidableEq, Repr, Inhabited

/-- The order of a plain load or store: relaxed at thread scope, or ordered (acquire for a load, release
for a store) at a scope (R165). -/
inductive POrd | relaxed | ordered (sc : Scope)
deriving DecidableEq, Repr, Inhabited

/-- The spaces that sp selects (R162). -/
inductive Space | global | scratch
deriving DecidableEq, Repr, Inhabited

/-- The orders that fence accepts (R231). -/
inductive FOrd | acquire | release | acqRel | sc
deriving DecidableEq, Repr, Inhabited

/-- The levels of bar (R232). -/
inductive BarLevel | grove | copse | stand
deriving DecidableEq, Repr, Inhabited

/-- The payload types of bar (R168 layout Y). -/
inductive BarTy | u32 | i32 | f32
deriving DecidableEq, Repr, Inhabited

/-- The reduction of bar: none, or an operation on a payload type (R232). -/
inductive BarRed | none | red (op : ScanOp) (ty : BarTy)
deriving DecidableEq, Repr, Inhabited

/-- The attach modes (R240). -/
inductive AttachMode | read | write | create
deriving DecidableEq, Repr, Inhabited

/-- The variants of pack (R207). -/
inductive PackVar | f16 | bf16 | b16
deriving DecidableEq, Repr, Inhabited

/-- The variants of unpack (R208). -/
inductive UnpackVar | f16 | bf16 | u16 | i16
deriving DecidableEq, Repr, Inhabited

/-- The pixel formats of pout and smp (R273, R276). -/
inductive PixFmt | rgba8 | rgba16f
deriving DecidableEq, Repr, Inhabited

/-- The part of a packet that every kind carries, and where the packet came from (R308): the queue and the
index, the deadline, the signal address and the completion fields of the header. -/
structure PktHd where
  queue : Nat
  index : Nat
  deadline : Nat
  signal : Nat
  nidx : Nat
  ne : Bool
  bar : Bool
deriving DecidableEq, Repr, Inhabited

/-- A doorbell write: the queue, and the world whose function makes the write (R306, R386). -/
structure Doorbell where
  queue : Nat
  requester : Nat
deriving DecidableEq, Repr, Inhabited

/-- The header of a flit: its sequence number, its channel and the length of its payload (R399). -/
structure FlitHead where
  seq : Nat
  channel : Nat
  len : Nat
deriving DecidableEq, Repr, Inhabited

/-- The steps of the part. The rounding, type and order fields that the text restricts are restricted again by
`Instr.WellFormed`. -/
inductive Instr
  -- integer (R174 to R180)
  | add (h : Hd) (ty : ITy) (sat : Bool) (rd ra : Reg) (b : RegImm)
  | sub (h : Hd) (ty : ITy) (sat : Bool) (rd ra : Reg) (b : RegImm)
  | mul (h : Hd) (ty : ITy) (sat : Bool) (rd ra : Reg) (b : RegImm)
  | mulhi (h : Hd) (ty : ITy) (rd ra : Reg) (b : RegImm)
  | mad (h : Hd) (ty : ITy) (sat : Bool) (rd ra rb rc : Reg)
  | div (h : Hd) (ty : ITy) (sat : Bool) (rd ra : Reg) (b : RegImm)
  | rem (h : Hd) (ty : ITy) (rd ra : Reg) (b : RegImm)
  | min (h : Hd) (ty : ITy) (rd ra : Reg) (b : RegImm)
  | max (h : Hd) (ty : ITy) (rd ra : Reg) (b : RegImm)
  | abs (h : Hd) (sat : Bool) (rd ra : Reg)
  | neg (h : Hd) (ty : ITy) (sat : Bool) (rd ra : Reg)
  | and (h : Hd) (ty : ITy) (rd ra : Reg) (b : RegImm)
  | or (h : Hd) (ty : ITy) (rd ra : Reg) (b : RegImm)
  | xor (h : Hd) (ty : ITy) (rd ra : Reg) (b : RegImm)
  | not (h : Hd) (ty : ITy) (rd ra : Reg)
  | andn (h : Hd) (ty : ITy) (rd ra : Reg) (b : RegImm)
  | shl (h : Hd) (ty : ITy) (sat : Bool) (rd ra : Reg) (b : RegImm)
  | shr (h : Hd) (ty : ITy) (rd ra : Reg) (b : RegImm)
  | sar (h : Hd) (ty : ITy) (rd ra : Reg) (b : RegImm)
  | rotl (h : Hd) (ty : ITy) (rd ra : Reg) (b : RegImm)
  | bfx (h : Hd) (ty : ITy) (rd ra : Reg) (b : RegImm)
  | bfi (h : Hd) (ty : ITy) (rd ra rb rc : Reg)
  | clz (h : Hd) (ty : ITy) (rd ra : Reg)
  | popc (h : Hd) (ty : ITy) (rd ra : Reg)
  | brev (h : Hd) (ty : ITy) (rd ra : Reg)
  | ilv (h : Hd) (ty : ITy) (rd ra rb rc : Reg)
  | dilv (h : Hd) (ty : ITy) (rd ra : Reg) (b : RegImm)
  | lea (h : Hd) (ty : ITy) (rd ra rb rc : Reg)
  | mov (h : Hd) (ty : ITy) (rd : Reg) (a : RegImm)
  | movi (h : Hd) (ty : ITy) (rd : Reg) (imm : Word)
  | mulw (h : Hd) (ty : ITy) (rd ra : Reg) (b : RegImm)
  -- compare, predicates, select, vote, exchange, scan (R181 to R186)
  | cmp (h : Hd) (ty : ITy) (c : Cond) (pd : Fin 16) (ra : Reg) (b : RegImm)
  | pand (h : Hd) (n : Bool) (pd pa pb : Fin 16)
  | por (h : Hd) (n : Bool) (pd pa pb : Fin 16)
  | pxor (h : Hd) (n : Bool) (pd pa pb : Fin 16)
  | pnot (h : Hd) (pd pa : Fin 16)
  | pmov (h : Hd) (pd pa : Fin 16)
  | sel (h : Hd) (b64 : Bool) (rd ra rb : Reg) (pc : Fin 16)
  | voteAny (h : Hd) (pd pa : Fin 16)
  | voteAll (h : Hd) (pd pa : Fin 16)
  | voteBallot (h : Hd) (rd : Reg) (pa : Fin 16)
  | xch (h : Hd) (mode : XchMode) (rd ra : Reg) (b : RegImm)
  | scan (h : Hd) (ty : ITy) (sat : Bool) (op : ScanOp) (rd : Reg) (x : RegImm)
  -- control (R187 to R194)
  | bra (h : Hd) (off : Word)
  | braU (h : Hd) (off : Word)
  | brx (h : Hd) (ra : Reg)
  | call (h : Hd) (fc : BitVec 7) (off : Word)
  | callx (h : Hd) (ra : Reg)
  | ret (h : Hd)
  | meet (h : Hd) (off : Word)
  | meetPop (h : Hd)
  | exit (h : Hd)
  | wait (rbBit : Bool) (loads stores chains matrix : Fin 64)
  | nop (h : Hd)
  -- floating point (R196 to R202)
  | fadd (h : Hd) (ty : FTy) (rm : Rm) (rd ra rb : Reg)
  | fsub (h : Hd) (ty : FTy) (rm : Rm) (rd ra rb : Reg)
  | fmul (h : Hd) (ty : FTy) (rm : Rm) (rd ra rb : Reg)
  | fma (h : Hd) (ty : FTy) (rm : Rm) (rd ra rb rc : Reg)
  | fmin (h : Hd) (ty : FTy) (rd ra rb : Reg)
  | fmax (h : Hd) (ty : FTy) (rd ra rb : Reg)
  | fabs (h : Hd) (ty : FTy) (rd ra : Reg)
  | fneg (h : Hd) (ty : FTy) (rd ra : Reg)
  | fcmp (h : Hd) (ty : FTy) (c : FCond) (pd : Fin 16) (ra rb : Reg)
  | fclass (h : Hd) (ty : FTy) (rd ra : Reg)
  -- conversion and special functions (R203 to R213)
  | cvt (h : Hd) (dst src : FmtSel) (rm : Rm) (rd ra rb rc : Reg)
  | cvtScaleComputing (h : Hd) (slot : Fin 8) (src : FmtSel) (rm : Rm) (rd ra rb rc : Reg)
  | pack6 (h : Hd) (rd ra : Reg)
  | unpack6 (h : Hd) (rd ra : Reg)
  | pack (h : Hd) (var : PackVar) (rm : Rm) (rd ra rb : Reg)
  | unpack (h : Hd) (var : UnpackVar) (rd ra : Reg)
  | sinr (h : Hd) (rd ra : Reg)
  | cosr (h : Hd) (rd ra : Reg)
  | exp2 (h : Hd) (rd ra : Reg)
  | log2 (h : Hd) (rd ra : Reg)
  | rcp (h : Hd) (rd ra : Reg)
  | rsqrt (h : Hd) (rd ra : Reg)
  | sqrt (h : Hd) (rm : Rm) (rd ra : Reg)
  -- memory (R215 to R223)
  | ld (h : Hd) (na : Bool) (ord : POrd) (size : Size) (rd ra rb : Reg) (off : BitVec 16)
  | lds (h : Hd) (ord : POrd) (size : Size) (rd ra rb : Reg) (off : BitVec 16)
  | st (h : Hd) (na : Bool) (ord : POrd) (size : Size) (rd ra rb : Reg) (off : BitVec 16)
  | sts (h : Hd) (ord : POrd) (size : Size) (rd ra rb : Reg) (off : BitVec 16)
  | ldw (h : Hd) (size : Size) (rd ra rb : Reg) (off : BitVec 16)
  | pref (h : Hd) (l2 : Bool) (ra rb : Reg) (off : BitVec 16)
  -- atomics (R225 to R230)
  | atomAdd (h : Hd) (nr : Bool) (o : Order) (sc : Scope) (sp : Space) (wide : Bool) (rd ra rb : Reg) (off : BitVec 16)
  | atomMin (h : Hd) (signed nr : Bool) (o : Order) (sc : Scope) (sp : Space) (wide : Bool) (rd ra rb : Reg) (off : BitVec 16)
  | atomMax (h : Hd) (signed nr : Bool) (o : Order) (sc : Scope) (sp : Space) (wide : Bool) (rd ra rb : Reg) (off : BitVec 16)
  | atomAnd (h : Hd) (nr : Bool) (o : Order) (sc : Scope) (sp : Space) (wide : Bool) (rd ra rb : Reg) (off : BitVec 16)
  | atomOr (h : Hd) (nr : Bool) (o : Order) (sc : Scope) (sp : Space) (wide : Bool) (rd ra rb : Reg) (off : BitVec 16)
  | atomXor (h : Hd) (nr : Bool) (o : Order) (sc : Scope) (sp : Space) (wide : Bool) (rd ra rb : Reg) (off : BitVec 16)
  | atomXchg (h : Hd) (nr : Bool) (o : Order) (sc : Scope) (sp : Space) (wide : Bool) (rd ra rb : Reg) (off : BitVec 16)
  | atomCas (h : Hd) (nr : Bool) (o : Order) (sc : Scope) (sp : Space) (wide : Bool) (rd ra rb : Reg) (off : BitVec 16)
  | atomInc (h : Hd) (nr : Bool) (o : Order) (sc : Scope) (sp : Space) (wide : Bool) (rd ra rb : Reg) (off : BitVec 16)
  | atomFadd (h : Hd) (nr : Bool) (o : Order) (sc : Scope) (sp : Space) (rd ra rb : Reg) (off : BitVec 16)
  -- synchronisation (R231 to R239)
  | fence (h : Hd) (o : FOrd) (sc : Scope)
  | bar (h : Hd) (level : BarLevel) (red : BarRed) (rd ra : Reg)
  | waitn (h : Hd) (rd ra rb rc : Reg)
  | waitnTake (h : Hd) (rd ra rb rc : Reg)
  | ntfy (h : Hd) (ra rb : Reg)
  | graft (h : Hd) (pd : Fin 16) (ra rb : Reg)
  -- segments and engine (R240 to R246)
  | attach (h : Hd) (mode : AttachMode) (pd : Fin 16) (ra : Reg)
  | detach (h : Hd) (ra : Reg)
  | segfree (h : Hd) (pd : Fin 16) (ra : Reg)
  | enq (h : Hd) (ch : Fin 4) (w : Bool) (rd ra : Reg)
  | seqw (h : Hd) (ch : Fin 4) (w : Bool) (rd ra : Reg)
  -- matrix (R257 to R265); the rc field `zero` selects the default maps
  | mz (h : Hd) (tile : Fin 8)
  | mma (h : Hd) (tile : Fin 8) (ra rb rc : Reg) (sa sb : Fin 8)
  | mmaSp (h : Hd) (tile : Fin 8) (ra rb rc : Reg) (sa sb : Fin 8)
  | mconv (h : Hd) (tile : Fin 8) (ra rb rc : Reg) (sa sb : Fin 8)
  | mld (h : Hd) (fmt : FmtSel) (tile : Fin 8) (ra rb : Reg)
  | mst (h : Hd) (fmt : FmtSel) (tile : Fin 8) (ra rb : Reg)
  -- graphics, ray queries, neural requests (R272 to R282)
  | bin (h : Hd) (rd ra : Reg)
  | pout (h : Hd) (fmt : PixFmt) (out : Fin 4) (ra : Reg)
  | discard (h : Hd)
  | smp (h : Hd) (zeroEdge : Bool) (fmt : PixFmt) (rd ra rb : Reg)
  | rqOpen (h : Hd) (cull opq closest : Bool) (rd ra rb : Reg)
  | rqNext (h : Hd) (rd ra : Reg)
  | rqClose (h : Hd)
  | nreq (h : Hd) (rd ra rb rc : Reg)
  | nget (h : Hd) (rd ra : Reg)
  -- system (R284 to R287)
  | mfs (h : Hd) (rd : Reg) (num : Fin 40)
  | mts (h : Hd) (rd : Reg) (num : Fin 40)
  | bkpt (h : Hd)
  | trap (h : Hd) (ra : Reg)
  | fret (h : Hd) (rd ra rb : Reg)
  -- events of faults, walks and lanes; a strand is named by its home identity (R27, R28)
  | faultRecordDeferredWrite (world : Nat)
  | haltRelease (world : Nat)
  | walkComplete (id : Nat)
  | parkWake (strand : Nat)
  | laneGrant (core limb lane : Nat)
  | forcedIssue (strand : Nat)
  | graftDeadlockBreak (grove : Nat)
  | barrierArrival (strand : Nat)
  | waitnTimeout (strand : Nat)
  | memoryAccessComplete (id : Nat)
  | epochWrap
  | wsRefreshWindow (group : Nat)
  | controlEccKill (strand : Nat)
  -- events of the matrix, traversal and copy engines and of segments
  | matrixOpStart (core limb : Nat)
  | matrixOpComplete (core limb : Nat)
  | nreqBatchStart (core limb : Nat)
  | nreqComplete (core limb id : Nat)
  | traversalReturn (strand : Nat)
  | cardAdmit (core : Nat)
  | cardStart (core inst : Nat)
  | cardComplete (core inst : Nat)
  | seqCardComplete (core inst : Nat)
  | peerCopyAck (core inst : Nat)
  | segmentLineLand (world : Nat) (name : DWord) (line : Nat)
  | segmentEvictionComplete (world : Nat) (name : DWord)
  -- events of strands
  | strandEnd (strand : Nat)
  | contextSave (strand : Nat)
  | contextRestore (strand limb lane slot : Nat)
  | strandRestart (strand : Nat)
  | strandWindowWrite (strand offset : Nat) (value : Word)
  -- queues and packets (R305 to R313)
  | doorbellWrite (bell : Doorbell)
  | queueExamination (queue : Nat)
  | packetTake (queue : Nat)
  | launch (p : PktHd) (record : DWord)
  | graph (p : PktHd) (first count : Nat)
  | draw (p : PktHd) (mesh pixel : DWord) (outs : DWord) (entries : Nat)
  | notify (p : PktHd) (index : Nat) (addend : Word)
  | present (p : PktHd) (head plane desc frame : Nat)
  | segdef (p : PktHd) (name backing word2 : DWord)
  | wsload (p : PktHd) (source : DWord) (region dies offset length : Nat)
  | wsloadRegionWrite (queue index : Nat)
  | qdef (p : PktHd) (queue : Nat) (desc : DWord)
  | qreset (p : PktHd) (queue : Nat) (index : DWord)
  | tlbinv (p : PktHd) (world : Nat) (base length : DWord)
  | tlbInvalidationComplete (queue index : Nat)
  | nodedef (p : PktHd) (first count : Nat) (source : DWord)
  | nmap (p : PktHd) (first count : Nat) (source : DWord)
  | budget (p : PktHd) (world owner : Nat) (cycles bytes : DWord) (reserve : Nat)
  | maprect (p : PktHd) (head plane owner x0 y0 w h : Nat)
  | desc (p : PktHd) (index : Nat) (source : DWord)
  | grant (p : PktHd) (entry : Nat) (source : DWord)
  | withdraw (p : PktHd) (entry : Nat)
  | plane (p : PktHd) (head plane : Nat) (source : DWord)
  | head (p : PktHd) (head : Nat) (source : DWord)
  | grantFree (entry : Nat)
  | packetCompletion (queue index : Nat)
  | nodeComplete (node : Nat)
  | deficitRoundRobin
  | grovePlacement
  | preemption
  | budgetPeriod
  | notifyWrite (index : Nat) (addend : Word) (requester : Nat)
  -- tiles and composition (R352 to R364)
  | tileResolve (draw core : Nat)
  | tileSecondResolution (draw tile : Nat)
  | tileOutputWrite (draw tile : Nat)
  | latch (head : Nat)
  | compositionComplete (head : Nat)
  -- firmware mailbox (R391); the operands stand in the mailbox words
  | worldCreate
  | worldBind
  | worldUnbind
  | worldDestroy
  | fwStage
  | fwActivate
  | mailboxUndefinedCommand
  -- interface states, invalidation, entropy, links (R393 to R399)
  | lockInterface (world : Nat)
  | startInterface (world : Nat)
  | stopInterface (world : Nat)
  | quiesce (world : Nat)
  | resume (world : Nat)
  | tdiError (world : Nat)
  | atsInvalidateRequest (world : Nat) (base length : DWord)
  | atsInvalidateCompletion (id : Nat)
  | atsDrainTimeout (id : Nat)
  | entropyHealthFail
  | entropyReseed
  | entropyStartupRerun
  | flitReceive (port : Nat) (head : FlitHead) (payload : List Byte) (tag : Nat)
  | keyUpdate (port : Nat)
  | spdmSession (port : Nat)
  -- resets, power, thermal limits, registers (R403 to R410)
  | fundamentalReset
  | pfFlr
  | vfFlr (world : Nat)
  | featureCommit
  | latencyToleranceWrite (ns : Word)
  | powerStateEntry
  | powerEntryComplete
  | powerStateExit
  | s0Reached
  | sensorRead (compute : Nat × Nat) (base power : Nat)
  | clockStep
  | thermalTrip
  | registerWrite (offset : Nat) (value : Word)
  | dpLinkTraining (head : Nat) (t0 period : DWord)
  | cxlMemHostAccess (pa : Nat) (write : Option Byte)
  | atsTranslationCompletion (id : Nat) (result : Option Nat)
  | ideStreamKeying (world : Nat)
deriving DecidableEq, Repr, Inhabited

/-- What acts next. The part has many agents and one deterministic step: the State holds a list of turns, and each
step takes one. An `event` is a row of the table; an `issue` lets the strand that holds a lane issue its next
instruction; the rest are the acts that the manual gives to time, to the caches, to the host and to system
software without giving them a row. Log 2. -/
inductive Turn
  | event (i : Instr)
  | issue (core limb lane : Nat)
  /-- the next issue of a lane pauses before its thread-step of number `steps` where it has so many, for the device to act
  between two of them (R122, R133) -/
  | issuePart (core limb lane steps : Nat)
  /-- device time advances by n ticks (R1, R5) -/
  | pass (ticks : Nat)
  /-- the core data cache writes back and drops a line early (R294) -/
  | evictCore (core line : Nat)
  /-- an L2 slice writes back and drops a line early (R294) -/
  | evictSlice (cluster line : Nat)
  /-- a TLB entry of a core is dropped: capacity (R41) -/
  | evictTlb (core index : Nat)
  /-- the host or a peer writes a byte of memory (R304, R306) -/
  | hostStore (pa : Nat) (b : Byte)
  /-- the system world writes an entry of the tag table (R34, R45) -/
  | tagWrite (page : Nat) (entry : Byte)
  /-- the system world writes a 32-bit word of a world's fault block (R324), at a byte offset within it -/
  | faultBlockWrite (world offset : Nat) (value : Word)
  /-- firmware gives world 0 its page-table root and its first privileged queue, whose eight descriptor words are
  given; the manual does not say how the first queue comes to be -/
  | firmwareQueue (queue : Nat) (root : DWord) (words : List DWord)
  /-- a double-bit error in a word of memory (R336) -/
  | eccMemory (pa : Nat)
  /-- a double-bit error in a word of scratch (R336) -/
  | eccScratch (core offset : Nat)
  /-- a double-bit error in a register of a strand's stack (R336) -/
  | eccRegister (strand slot tix : Nat)
  /-- a double-bit error in a uniform register, a run temporary or `sap` of a strand (R336) -/
  | eccUniform (strand n : Nat)
  | eccTemporary (strand k tix : Nat)
  | eccSap (strand : Nat)
  /-- a double-bit error in a 32-bit word of a line of a core data cache or of an L2 slice (R336) -/
  | eccCore (core line word : Nat)
  | eccSlice (cluster line word : Nat)
  /-- a double-bit error in a tile element (R336) -/
  | eccTile (strand index : Nat)
  /-- a double-bit error in the weight store (R336) -/
  | eccWeight (die offset : Nat)
  /-- a grove whose strands have all ended, and whose chains have completed, exits (R61, R101) -/
  | groveExit (grove : Nat)
  /-- a link port is trained by firmware (R404 step 5) -/
  | portTrain (port : Nat)
  /-- the next step of the boot order (R404) -/
  | bootStep
  /-- the neighbour accepts the oldest flit of a link's window, or finds that its tag fails (R399) -/
  | flitAccepted (port : Nat)
  | flitFailed (port : Nat)
  /-- byte k of an `mst` under way is written before the rest (R269, R270) -/
  | matrixStoreByte (core limb k : Nat)
  /-- a 32-bit read of BAR 0 by the physical function, and of the notify aperture by a function (R313, R386, R391) -/
  | registerRead (offset : Nat)
  | notifyRead (offset requester : Nat)
  /-- the system world reads a word of the segment directory, and of a core's segment table (R93, R94) -/
  | directoryRead (world : Nat) (name : DWord) (word : Nat)
  | segmentTableRead (core entry word : Nat)
  /-- the system world reads a word of a head record back (R365) -/
  | headRead (head word : Nat)
  /-- the device's power is cycled (R403, R410) -/
  | powerCycle
  /-- the fabric between the compute dies sends a flit of its traffic over the UCIe link (R399) -/
  | linkSend (payload : List Byte)
deriving DecidableEq, Repr, Inhabited

end Sys2Proof
end

