-- ==== Sys2Proof/Config.lean ====
section
/-! DEFINITION. What the manual leaves open, as constants without a body: nothing in Lean can
evaluate them, so a theorem holds for every value of them. Each is named in the assumption log. -/

namespace Sys2Proof.Config

/-- An undefined 32-bit value (R6), one for each nonce, place and position within it. -/
opaque freeWord : Nat → Nat → Nat → Word
/-- An undefined byte (R6): log 3. -/
opaque freeByte : Nat → Nat → Byte
/-- A free choice of the hardware among outcomes the manual allows alike (old or new byte, order of
agents): log 4. -/
opaque freeChoice : Nat → Nat → Nat
/-- The bits a special function returns for an operation, an operand and an `fmode` (R212: "Any value
within a bound conforms … the same bits for the same input and fmode every time"): log 5. -/
opaque special : Nat → Word → Word → Word
/-- The key bits and other random values that the DRBG draws (R397). -/
opaque freeKey : Nat → DWord
/-- Whether an AES-GCM tag, a Falcon signature or an entropy health test passes: the arithmetic of
these is outside the manual. -/
opaque cryptoCheck : Nat → List Nat → Bool
/-- The limits in the board's configuration ROM (R410): 0 the junction limit Tj, 1 the critical limit Tc, 2 the
power cap in watts. -/
opaque boardLimit : Nat → Nat
/-- Which agent acts next when the State's list of turns is empty: the manual fixes no order among agents that
it does not tie together, and no time at which the host acts. Log 2. -/
opaque freeTurn : Nat → Turn

end Sys2Proof.Config
end

