-- ==== Sys2Proof/Machine/State.lean ====
section
/-! DEFINITION. The state of the device as plain data, and the state after reset. Every piece of state that
the manual gives the part is here; fields marked "model's own" are not the manual's. INVENTORY.md lists each with
its rule. Collections are lists of records or of (key, value) pairs in rising key order. -/

namespace Sys2Proof.Machine

/-- Pairs of a key and a value, keys strictly rising. -/
abbrev Map (α : Type) := List (Nat × α)

/-- Bytes by address: addresses strictly rising, no entry equal to 0, which is what an unlisted address reads as
(log 6). -/
abbrev Mem := List Host.Cell

/-! ### Strands -/

/-- A place of a value within a strand: stack slot j of thread t at key 64 j + t, q k of thread t at key 64 k + t,
a uniform register, or `sap` (R106). -/
inductive RKey
  | v (key : Nat)
  | q (key : Nat)
  | s (n : Nat)
  | sap
deriving DecidableEq, Repr, Inhabited

/-- A neural request of a thread, from nreq until its nget (R282). -/
structure Ticket where
  no : Nat
  done : Bool
  poison : Bool
deriving DecidableEq, Repr, Inhabited

/-- The control state of a thread (R15, R108, R112, R116, R278, R333). -/
structure Thread where
  pc : DWord
  exited : Bool := false
  preds : BitVec 16 := 0
  meet : Word := 0xffffffff
  mstack : List Word := []
  /-- meet-stack entries at or above the count, as the strand window wrote them since the stack last moved (R333) -/
  mrest : Map Word := []
  /-- lane cycles since the thread last took part in an issue (R129) -/
  waiting : Nat := 0
  height : Nat := 0
  floor : Nat := 0
  base : Nat := 0
  fsize : Nat := 0
  /-- query level and excess count (R278) -/
  ql : Nat := 0
  qe : Nat := 0
  tickets : List Ticket := []
deriving DecidableEq, Repr, Inhabited

/-- The pixel a pixel thread works on (R353, R354). -/
structure Pixel where
  x : Nat
  y : Nat
  prim : Nat
deriving DecidableEq, Repr, Inhabited

/-- The kind of a strand (R271): the draw it belongs to, and for a pixel strand its tile, its pass and its pixels
(none for a thread after the last pixel). -/
inductive Kind
  | compute
  | mesh (draw : Nat)
  | pixel (draw tile : Nat) (shading : Bool) (pixels : List (Option Pixel))
deriving DecidableEq, Repr, Inhabited

/-- Why a strand is parked. -/
inductive Park
  | walk (id : Nat)                      -- R43
  | ats (page va need : Nat)             -- R387, R396: and the access (1 read, 2 write, 3 both, 4 fetch, 0 an enq)
  | line (core line : Nat)               -- R89
  | counterFull (cls : Nat)              -- R125
  | matrixQueue (core limb : Nat)        -- R249
  | acquire                              -- R221: an acquire of the strand has not completed
  | drain                                -- R231, R237: loads and stores
  | drainStores                          -- R245: stores
  | channel (core ch : Nat)              -- R60
  | chains                               -- R61
  | detach (name : DWord)                -- R242
  | eviction (name : DWord)              -- R98
  | requestSlot (core limb : Nat)        -- R282
  | ticket (tix no : Nat)                -- R282
  | traversal                            -- R280
  | release                              -- R297: a release of the strand has not been performed
  | budget                               -- R320: its world or owner has used up its bytes
deriving DecidableEq, Repr, Inhabited

/-- A barrier arrival in the making (R232, R234). -/
structure BarWait where
  level : BarLevel
  red : BarRed
  rd : Reg
  pc : DWord
  payload : List (Nat × Word)
  /-- `fmode` as the issue sampled it (R150) -/
  fmode : Word := 0
  arrived : Bool
deriving DecidableEq, Repr, Inhabited

/-- A waitn in progress (R236). -/
structure NotifyWait where
  index : Nat
  threshold : Nat
  take : Bool
  rd : Reg
  lead : Nat
  until_ : Option Nat
  arrival : Nat
deriving DecidableEq, Repr, Inhabited

/-- A graft in progress (R117). -/
structure GraftWait where
  pc : DWord
  partner : Nat
  count : Int
  pd : Fin 16
  arrival : Nat
deriving DecidableEq, Repr, Inhabited

/-- A seqw in progress (R246). -/
structure SeqWait where
  ch : Nat
  target : Nat
  wide : Bool
  rd : Reg
  lead : Nat
deriving DecidableEq, Repr, Inhabited

/-- What a fault record says of a strand's stop (R327, R328). -/
structure FaultInfo where
  cls : Nat
  cause : Nat
  detail : Nat := 0
  pc : DWord
  addr : DWord := 0
  step : Nat := 0
  pre : Bool := false
deriving DecidableEq, Repr, Inhabited

/-- What a strand is doing (R126). -/
inductive Status
  | ready
  | parked (c : Park)
  | faulted (f : FaultInfo)
  | waitBar (b : BarWait)
  | waitNotify (n : NotifyWait)
  | waitGraft (g : GraftWait)
  | waitSeq (q : SeqWait)
  | restarting                            -- R330: waits for its outstanding work
deriving DecidableEq, Repr, Inhabited

/-- A load, store or atomic instruction outstanding (R125, R219): its tag, its counter (0 loads, 1 stores), and the
requests of it not yet performed. -/
structure Outstanding where
  tag : Nat
  cls : Nat
  left : Nat
deriving DecidableEq, Repr, Inhabited

/-- The state of a strand at the start of its current run (R321, R330). -/
structure RunEntry where
  threads : List Thread
  vregs : Map Word
  sregs : Map Word
  sap : Word
  fmode : Word := 0
  fstat : Word := 0
  slim : DWord := 0
  /-- the registers that awaited a load, and those that held poison -/
  shadow : List (RKey × Nat) := []
  poisoned : List RKey := []
  /-- model's own: matrix operations of a lower number were issued in earlier runs (R153) -/
  mark : Nat := 0
deriving DecidableEq, Repr, Inhabited

/-- Model's own: an issue under way, of which some thread-steps have been performed and nothing has stopped it (log 9): its
instruction, the threads and the thread registers as they stood when it began (R122), its active threads, the thread after
the last one performed, and the cycles so far (R121). -/
structure Begun where
  instr : Instr
  threads : List Thread
  vregs : Map Word
  qregs : Map Word
  shadow : List (RKey × Nat)
  active : List Nat
  next : Nat
  cycles : Nat
deriving DecidableEq, Repr, Inhabited

/-- What a thread has asked of the traversal unit (R279): to open a query, to go on with one, or, where the query
depth clamps, to answer a miss. -/
inductive RqAsk
  | open_ (ray : List Byte) (root : DWord) (mode : Nat)
  | next (accept : Bool)
  | clamp
  | miss
deriving DecidableEq, Repr, Inhabited

/-- A query handed to the traversal unit by a thread-step of an rq issue that has not returned (R280). -/
structure Query where
  tix : Nat
  pc : DWord
  rd : Reg
  ask : RqAsk
  /-- its ray record, or the header it goes on from, was poisoned (R336) -/
  poison : Bool := false
deriving DecidableEq, Repr, Inhabited

/-- A strand: its place, its registers, its threads and what it waits for. -/
structure Strand where
  /-- home identity h = 9 (128 c + 32 m + n) + k (R27, R28) and generation (R329) -/
  home : Nat
  gen : Nat := 0
  /-- where it resides: core, limb, lane, partition slot (R13, R28); `resident` is false when switched out -/
  core : Nat
  limb : Nat
  lane : Nat
  slot : Nat
  resident : Bool := true
  world : Nat
  owner : Nat
  launch : Nat
  grove : Nat
  kind : Kind := .compute
  sidx : Nat := 0
  width : Nat
  depth : Nat
  entry : Nat
  ntiles : Nat := 0
  diverge : Nat := 0
  threads : List Thread
  /-- stack slot j of thread t at key 64 j + t; a slot with no entry has not been written (R9) -/
  vregs : Map Word := []
  /-- q k of thread t at key 64 k + t, of the current run (R107) -/
  qregs : Map Word := []
  sregs : Map Word := []
  sap : Word := 0
  /-- element (m, n) of tile a at key 1024 a + 32 m + n (R108) -/
  tiles : Map Word := []
  fmode : Word := 0
  fstat : Word := 0
  slim : DWord := 0
  spill : DWord := 0
  status : Status := .ready
  /-- step index, and whether an instruction is interrupted at it (R127, R131, R332): its PC is that of the thread
  whose `tix` is the step index -/
  step : Nat := 0
  interrupted : Bool := false
  /-- the tag of a memory instruction that stopped part-way -/
  partTag : Option Nat := none
  stepm : Nat := 0
  /-- the breakpoint that stopped it, which its first issue after a resume does not meet (R330) -/
  skipBp : Option Nat := none
  /-- model's own: the thread-steps after which its issue pauses, for the device to act between two of them (R133), and its
  instruction -/
  cut : Option Nat := none
  doing : Option Instr := none
  /-- no issue of its current run has completed: a `wait` issued now heads the run (R10) -/
  runHead : Bool := true
  /-- the segment, by its number, whose eviction an `attach` of the strand has waited for (R98, R105) -/
  evictionOf : Option Nat := none
  halted : Bool := false
  /-- the instruction that waits carries the rb bit: its run ends when it completes (R124) -/
  rbWait : Bool := false
  runEntry : Option RunEntry := none
  outs : List Outstanding := []
  /-- registers that a load has not yet made readable: register key and tag (R10) -/
  shadow : List (RKey × Nat) := []
  /-- registers and tile elements that hold poison (R336) -/
  poisoned : List RKey := []
  tpoison : List Nat := []
  /-- it started in stores that nothing has used since they were zeroed (R390): a stack slot below this one that it has not
  written reads 0, and so do its tile elements -/
  blank : Nat := 0
  blankTiles : Bool := false
  chains : Nat := 0
  matrix : Nat := 0
  /-- the queries of an rq issue in flight, and the guard-false threads that passed it (R280) -/
  queries : List Query := []
  rqPassed : List Nat := []
  /-- the watchpoint stop that follows an rq issue whose traversals are under way (R334) -/
  stopAfter : Option FaultInfo := none
  /-- pre-empted: it is granted no lane, and is switched out once its work is done (R321, R331) -/
  toSave : Bool := false
  /-- switched out with its state in its save area (R331) -/
  inArea : Bool := false
  killed : Bool := false
deriving DecidableEq, Repr, Inhabited

/-! ### Groves, launches, segments -/

/-- A segment attached to a grove (R85, R99). -/
structure Attach where
  uid : Nat
  name : DWord
  mode : AttachMode
deriving DecidableEq, Repr, Inhabited

/-- A grove placed on a core (R17, R18, R85). -/
structure Grove where
  id : Nat
  launch : Nat
  lin : Nat
  core : Nat
  world : Nat
  owner : Nat
  base : Nat
  size : Nat
  /-- the strands it began with -/
  count : Nat := 0
  attached : List Attach := []
  gx : Nat := 0
  gy : Nat := 0
  gz : Nat := 0
deriving DecidableEq, Repr, Inhabited

/-- A launch record as the front end read it (R22 to R24). -/
structure LaunchRec where
  code : DWord := 0
  stand : Nat := 0
  place : Nat := 0
  copse : Nat := 1
  scratch : Nat := 0
  tframe : Nat := 0
  tclamp : Bool := false
  preempt : Nat := 0
  tdepth : Nat := 0
  acc : Nat := 0
  diverge : Nat := 0
  depth : Nat := 8
  frame : Nat := 1
  width : Nat := 16
  gX : Nat := 1
  gY : Nat := 1
  gZ : Nat := 1
  x : Nat := 16
  y : Nat := 1
  z : Nat := 1
  spill : DWord := 0
  stride : Nat := 0
  segs : List (AttachMode × DWord) := []
  args : List Word := []
  /-- words 0 and 1 of format slots f0 to f7 (R145) -/
  slots : List (DWord × DWord) := []
deriving DecidableEq, Repr, Inhabited

/-- Where a launch came from (R310, R312, R347, R352). -/
inductive Source
  | packet (queue index : Nat)
  | node (n : Nat)
  | mesh (draw : Nat)
  | tilePass (draw tile : Nat) (shading : Bool)
deriving DecidableEq, Repr, Inhabited

/-- A launch: ready work in the heap, or running (R315, R317). -/
structure Launch where
  id : Nat
  src : Source
  queue : Nat
  world : Nat
  owner : Nat
  cls : Nat
  /-- the owner's frame in which it was taken (R277, R371) -/
  frame : Nat
  record : LaunchRec
  key : Nat
  /-- the next linear grove index to place (R317) -/
  next : Nat := 0
  total : Nat
  inHeap : Bool := true
  since : Nat := 0
  killed : Bool := false
  overrun : Bool := false
  /-- work of the current real-time period, in parts of a core's tick as `workScale` says (R316, R320, R410) -/
  work : Nat := 0
  /-- the real-time period that `work` counts in -/
  rtPeriod : Nat := 0
  paused : Bool := false
  /-- the cores that have had a grove of it: its end is a phase boundary of each (R294) -/
  cores : List Nat := []
  /-- the core on which the next grove has to be placed (R95), or that its draw's resolver is on (R353) -/
  waitCore : Option Nat := none
  /-- the core on which evictions have made room for the next grove (R104) -/
  evictCore : Option Nat := none
  /-- the listed segments, by number, whose eviction its next placement has waited for (R96, R105) -/
  awaited : List Nat := []
deriving DecidableEq, Repr, Inhabited

/-- States of a named segment (R93). -/
inductive SegState | defined | loading | resident | evicting | evicted | damaged
deriving DecidableEq, Repr, Inhabited

/-- Lifetimes of a named segment (R91). -/
inductive Life | kernel | kept | pinned
deriving DecidableEq, Repr, Inhabited

/-- A directory entry (R93), with the core table entry of its storage (R94) where it has any. -/
structure Segment where
  /-- model's own number of the entry: a name freed while attached may be defined again (R102) -/
  uid : Nat
  world : Nat
  name : DWord
  backing : DWord
  owner : Nat
  life : Life
  state : SegState
  core : Nat
  swizzle : Nat
  size : Nat
  vbase : Nat
  dtime : Nat := 0
  /-- storage is held, at physical base pbase (bytes) of the core (R94) -/
  stored : Bool := false
  pbase : Nat := 0
  /-- its entry of the core's segment table (R94) -/
  entry : Nat := 0
  attaches : Nat := 0
  /-- segfree deferred until the count reaches 0 (R102): unknown to lookups -/
  freed : Bool := false
  /-- lines of a load in progress that have not landed -/
  pending : List Nat := []
deriving DecidableEq, Repr, Inhabited

/-! ### Memory system -/

/-- A line of a core data cache or an L2 slice (R46). Valid and dirty masks are lists of byte offsets below 128 in
the form of 128-bit masks. -/
structure Line where
  place : Nat
  line : Nat
  world : Nat
  valid : BitVec 128
  dirty : BitVec 128
  data : List Byte
  stamp : Nat := 0
  writers : BitVec 8 := 0
  poison : BitVec 128 := 0
deriving DecidableEq, Repr, Inhabited

/-- A translation held by a TLB (R41): the core, the world, the page's virtual and physical base, its size, and the
attributes of the leaf. -/
structure TlbEntry where
  core : Nat
  world : Nat
  va : Nat
  pa : Nat
  size : Nat
  r : Bool
  w : Bool
  x : Bool
  cache : Nat
  dirty : Bool
  /-- physical address of the leaf entry, for its d bit (R40) -/
  pte : Nat
deriving DecidableEq, Repr, Inhabited

/-- A page walk outstanding (R43): merged by world and 4 KiB page within a cluster; the accesses that wait. -/
structure Walk where
  id : Nat
  cluster : Nat
  core : Nat
  world : Nat
  page : Nat
  /-- the strands that wait, by home identity, and the access that each makes: 1 read, 2 write, 3 both, 4 fetch; its
  virtual address -/
  waiters : List (Nat × Nat × Nat)
deriving DecidableEq, Repr, Inhabited

/-- A walk-cache entry (R41): the L0 table found for a 2 MiB region of a world. -/
structure WalkCache where
  cluster : Nat
  world : Nat
  region : Nat
  table : Nat
deriving DecidableEq, Repr, Inhabited

/-- What an access does to its bytes. -/
inductive AccOp
  | load
  | store (value : List Byte)
  | atom (op : Nat) (signed : Bool) (operand cmp : Nat)
  /-- a read of a texel (R276): whether the image has 16-bit channels, and the form has -/
  | texel (from16 to16 : Bool)
deriving DecidableEq, Repr, Inhabited

/-- The place of an access: the physical address of a global access with the caching of its page, a physical
scratch offset, or a weight-store offset. -/
inductive AccPlace
  | global (pa : Nat) (cache : Nat)
  | scratch (off : Nat)
  | weight (off : Nat)
deriving DecidableEq, Repr, Inhabited

/-- A request that has left the lane and has not been performed (R218, R221). -/
structure Access where
  id : Nat
  strand : Nat
  tix : Nat
  tag : Nat
  core : Nat
  world : Nat
  place : AccPlace
  len : Nat
  op : AccOp
  /-- sign- or zero-extension of a load (R216) -/
  signed : Bool := false
  rd : Reg
  /-- where the value goes: register keys of the destination words, as the register stood at issue -/
  dest : List RKey := []
  order : Order := .relaxed
  scope : Scope := .thread
  /-- every thread's value is written to the uniform destination once -/
  uniform : Bool := false
deriving DecidableEq, Repr, Inhabited

/-- A region of the weight store given to a world (R54). -/
structure WRegion where
  die : Nat
  entry : Nat
  base : Nat
  len : Nat
  world : Nat
deriving DecidableEq, Repr, Inhabited

/-- A place that holds poison (R336). -/
inductive Poison
  | memory (word : Nat)
  | scratch (core word : Nat)
  | weight (die word : Nat)
deriving DecidableEq, Repr, Inhabited

/-! ### Copy engines -/

/-- A region of a card (R64): write, space, base, length. -/
abbrev Region := Bool × Nat × Nat × Nat

/-- A card as its chain holds it: its view offset and its 128 bytes (R63). -/
structure Card where
  off : Nat
  bytes : List Byte
deriving DecidableEq, Repr, Inhabited

/-- Where a chain stands in a list of cards: the next card, and for a LOOP body its card, head, iteration, count and
steps; the advance of the addresses (R70), and the footprints of the LOOP cards around it. -/
structure Frame where
  at_ : Option Nat
  loop : Option Nat := none
  head : Nat := 0
  iter : Nat := 0
  count : Nat := 1
  srcStep : Int := 0
  dstStep : Int := 0
  srcAdv : Int := 0
  dstAdv : Int := 0
  bounds : List (List Region) := []
deriving DecidableEq, Repr, Inhabited

/-- A FOOTPRINT fault (R79, R327): its cause, the code of TRANSLATE, the card and its note byte, the address. -/
structure ChainFault where
  cause : Nat
  code : Nat := 0
  off : Nat := 0
  note : Nat := 0
  addr : Nat := 0
deriving DecidableEq, Repr, Inhabited

/-- A chain handed to a channel and not complete (R58 to R61, R80, R81). -/
structure Chain where
  core : Nat
  ch : Nat
  world : Nat
  seq : Nat
  strand : Nat
  gen : Nat
  launch : Nat
  grove : Nat
  /-- innermost first; none when every card has been admitted -/
  frames : List Frame
  /-- the cards that the walk visited (R78), and the offsets of those that still count as pending writers (R77) -/
  cards : List Card
  pending : List Nat
  fault : Option ChainFault := none
  /-- rejected at its walk, and its turn has not come (R80) -/
  rejected : Bool := false
deriving DecidableEq, Repr, Inhabited

/-- A card instance in flight (R58, R75), or a segment load or eviction (R103), which has no channel: the number of the
segment and whether it is an eviction. -/
structure Inst where
  id : Nat
  core : Nat
  ch : Nat
  world : Nat
  seq : Nat
  grove : Nat
  card : Card
  srcAdv : Int := 0
  dstAdv : Int := 0
  bounds : List (List Region) := []
  started : Bool := false
  /-- the tick at which it started: from then on it occupies its channel (R316) -/
  since : Nat := 0
  segment : Option (Nat × Bool) := none
deriving DecidableEq, Repr, Inhabited

/-- The counters of a channel for a world on a core (R59, R62). -/
structure Channel where
  core : Nat
  ch : Nat
  world : Nat
  issued : Nat := 0
  completed : Nat := 0
  /-- chains finished out of order -/
  ahead : List Nat := []
  err : Bool := false
deriving DecidableEq, Repr, Inhabited

/-! ### Matrix unit, neural requests, traversal -/

/-- The operand layout of a matrix operation, from the default maps or a map record (R252, R253). -/
structure OpMap where
  kn : Nat := 1
  bws : Bool := false
  aws : Bool := false
  bt : Bool := false
  at_ : Bool := false
  bstride : Nat := 0
  astride : Nat := 0
  bscale : Nat := 0
  ascale : Nat := 0
  bbits : Nat := 0
  abits : Nat := 0
  kstart : Nat := 0
  shape : Nat := 0
  oext : List Nat := []
  ostart : Nat := 0
  /-- rank, channel extent, and extent, source stride, kernel, padding, dilation and stride of each dimension of the
  shape record (mconv) -/
  dims : List (Nat × Int × Nat × Nat × Nat × Nat) := []
deriving DecidableEq, Repr, Inhabited

/-- The kinds of matrix operation. -/
inductive MxKind | mz | mma | mmaSp | mconv | mld | mst
deriving DecidableEq, Repr, Inhabited

/-- A matrix operation queued or running (R249). -/
structure MxOp where
  id : Nat
  core : Nat
  limb : Nat
  strand : Nat
  grove : Nat
  world : Nat
  kind : MxKind
  tile : Nat
  a : Nat := 0
  b : Nat := 0
  map : OpMap := {}
  slotA : DWord := 0
  slotB : DWord := 0
  fmode : Word := 0
  running : Bool := false
  /-- stores that the strand issued before it and that it waits for (R269) -/
  after : List Nat := []
  /-- the map or shape record that it was issued with was poisoned (R268) -/
  poison : Bool := false
  /-- the tick at which it started (R316), and its core's scratch as it stood then: a byte written meanwhile is read as
  it was or as it is (R269, R270) -/
  since : Nat := 0
  seen : Mem := []
  /-- the bytes of its rows, by number, that an `mst` has written early (R269, R270) -/
  written : List Nat := []
deriving DecidableEq, Repr, Inhabited

/-- A neural request (R281, R282). -/
structure NReq where
  id : Nat
  core : Nat
  limb : Nat
  world : Nat
  strand : Nat
  grove : Nat
  tix : Nat
  ticket : Nat
  input : Nat
  output : Nat
  net : Nat
  wofs : List Nat
  relu : Bool
  slot : DWord
  fmode : Word
  queued : Nat
  /-- the input bytes, once its batch has started, and whether one of them is poisoned -/
  started : Option (List Byte) := none
  poison : Bool := false
  dropped : Bool := false
deriving DecidableEq, Repr, Inhabited

/-! ### Front end -/

/-- A queue descriptor (R305) and what the front end keeps of a queue. -/
structure Queue where
  no : Nat
  ring : DWord
  rdaddr : DWord
  wraddr : DWord
  world : Nat
  owner : Nat
  cls : Nat
  lsize : Nat
  weight : Nat
  paced : Bool
  period : Nat
  cost : Nat
  lead : Nat
  pin : DWord
  pinlen : Nat
  /-- deficit in 1/128 core-cycles (R316) -/
  deficit : Int := 0
  /-- a kind 0x05 record has been written since the queue last took a packet (R307) -/
  faulted : Bool := false
  /-- the numbers of the lines that are pinned for it (R319) -/
  pinLines : List Nat := []
deriving DecidableEq, Repr, Inhabited

/-- A packet taken and not completed (R307 to R309): the world and owner of its queue, what it does, and whether it has
begun; `status` is set when its work is done. -/
structure Packet where
  hd : PktHd
  act : Instr
  world : Nat
  owner : Nat
  begun : Bool := false
  status : Option Nat := none
deriving DecidableEq, Repr, Inhabited

/-- A launch node (R311). -/
structure Node where
  record : DWord := 0
  succ : List Nat := []
  armed : Bool := false
  queue : Nat := 0
  init : Nat := 0
  count : Nat := 0
  last : Nat := 0
  rdl : Nat := 0
  /-- model's own bookkeeping: the queue and index of the GRAPH that armed it; the node has become ready and its work
  runs; its final status -/
  run : Nat × Nat := (0, 0)
  /-- the world of the GRAPH's queue, and the frame of the node's owner, as they stood when the GRAPH armed it (R277, R312) -/
  world : Nat := 0
  frame : Nat := 0
  ready : Bool := false
  done : Option Nat := none
deriving DecidableEq, Repr, Inhabited

/-- A GRAPH packet at work: its range and the first failing status (R312). -/
structure GraphRun where
  queue : Nat
  index : Nat
  first : Nat
  count : Nat
  failed : Option Nat := none
deriving DecidableEq, Repr, Inhabited

/-- A notify table entry (R313). -/
structure NotifyEntry where
  world : Nat
  arm : Bool
  node : Nat
  thresh : Nat
deriving DecidableEq, Repr, Inhabited

/-- The budget of an owner, or of a world (owner 255) (R320); caps set by BUDGET apply from the next period. -/
structure Budget where
  world : Nat
  owner : Nat
  cycles : Nat := 0
  bytes : Nat := 0
  nextCycles : Nat := 0
  nextBytes : Nat := 0
  usedCycles : Nat := 0
  usedBytes : Nat := 0
deriving DecidableEq, Repr, Inhabited

/-- A WSLOAD waiting for the groves of the world to end (R55). -/
structure WsLoad where
  queue : Nat
  index : Nat
  world : Nat
  source : DWord
  region : Nat
  dies : Nat
  offset : Nat
  len : Nat
deriving DecidableEq, Repr, Inhabited

/-- A TLB invalidation in progress (R45): the accesses that used an old translation. -/
structure TlbInv where
  queue : Nat
  index : Nat
  world : Nat
  base : Nat
  len : Nat
  accesses : List Nat
  insts : List Nat
deriving DecidableEq, Repr, Inhabited

/-! ### Graphics -/

/-- A primitive record as binned (R272, R349). -/
structure Prim where
  id : Nat
  /-- snapped x, y in units of 2^-8 -/
  xs : List Int
  ys : List Int
  zs : List Word
  attr : Word
  mayDiscard : Bool
  tiles : List Nat
deriving DecidableEq, Repr, Inhabited

/-- A tile in resolution (R352, R355). -/
structure Tile where
  index : Nat
  core : Nat
  /-- pixels (q, p) whose coverage thread discarded -/
  discards : List (Nat × Nat) := []
  shading : Bool := false
  /-- written pixels: key 1024 output + pixel within the tile, the raw pixel value -/
  out : Map DWord := []
  done : Bool := false
deriving DecidableEq, Repr, Inhabited

/-- A surface descriptor (R366). -/
structure Desc where
  base : DWord := 0
  width : Nat := 1
  height : Nat := 1
  pitch : Nat := 0
  world : Nat := 0
  owner : Nat := 0
  kind : Nat := 0
  fmt : Nat := 0
  head : Nat := 0
  plane : Nat := 0
  reader : Nat := 0
deriving DecidableEq, Repr, Inhabited

/-- A DRAW in progress (R347). -/
structure Draw where
  id : Nat
  queue : Nat
  index : Nat
  world : Nat
  owner : Nat
  frame : Nat
  key : Nat
  mesh : LaunchRec
  pixel : LaunchRec
  /-- descriptor index and copy of outputs 0 to 3 -/
  outs : List (Option (Nat × Desc))
  entries : Nat
  used : Nat := 0
  overflow : Nat := 0
  prims : List Prim := []
  binned : Bool := false
  nextTile : Nat := 0
  tiles : List Tile := []
  killed : Bool := false
deriving DecidableEq, Repr, Inhabited

/-! ### Ownership and composition -/

/-- A head record (R363). -/
structure Head where
  width : Nat := 1
  height : Nat := 1
  en : Bool := false
  cap : Bool := false
  shead : Nat := 0
  capr : Nat := 0
  t0 : Nat := 0
  guard : Nat := 0
  period : Nat := 0
  fill : Word := 0
  bg : Word := 0
  odesc : Nat := 0
  nidx : Nat := 0
  ne : Bool := false
  /-- the output descriptor in use: a DESC that clears v does not take it away (R369) -/
  out : Option Desc := none
  /-- the index of the next latch (R364) -/
  nextLatch : Nat := 0
  /-- t0 and period written by HEAD or by firmware, in effect at the next latch (R365, R368) -/
  newTiming : Option (Nat × Nat) := none
deriving DecidableEq, Repr, Inhabited

/-- A plane record (R363). -/
structure Plane where
  omap : DWord := 0
  opac : Nat := 0
  en : Bool := false
deriving DecidableEq, Repr, Inhabited

/-- States of a grant (R372). -/
inductive GrantState | free | active | withdrawn
deriving DecidableEq, Repr, Inhabited

/-- A grant entry (R372). -/
structure Grant where
  first : Nat := 0
  expiry : Nat := 0
  wframe : Nat := 0xffffffff
  surface : Nat := 0
  grantee : Nat := 0
  grantor : Nat := 0
  capture : Bool := false
  sample : Bool := false
  state : GrantState := .free
deriving DecidableEq, Repr, Inhabited

/-- The latest PRESENT of an owner-plane (R376): key of owner, head and plane; its descriptor's index, and the descriptor
as it stood when the PRESENT was taken (R369); the packet while it waits. -/
structure Present where
  owner : Nat
  head : Nat
  plane : Nat
  desc : Nat
  image : Desc
  waiting : Option (Nat × Nat) := none
deriving DecidableEq, Repr, Inhabited

/-- A composition in progress: the latch, the head's record as it stood at it, and the pixels formed (R364, R377). -/
structure Composition where
  head : Nat
  latch : Nat
  end_ : Nat
  record : Head
  pixels : List Word
  /-- backdrops formed: the descriptor as it stood at the latch, and pixels (R374) -/
  backdrops : List (Desc × List Word)
deriving DecidableEq, Repr, Inhabited

/-! ### Worlds, host, links, power -/

/-- The fault block of a world (R324). -/
structure FaultBlock where
  ring : DWord := 0
  nidx : Nat := 0
  ne : Bool := false
  allstop : Bool := false
  halted : Bool := false
  lsize : Nat := 0
  lost : Nat := 0
  wridx : DWord := 0
  rdidx : DWord := 0
  save : DWord := 0
  wpen : Nat := 0
  bpen : Nat := 0
  bp : List DWord := [0, 0, 0, 0]
  wa : List DWord := [0, 0]
  wc : List DWord := [0, 0]
deriving DecidableEq, Repr, Inhabited

/-- Interface states (R389, R393). -/
inductive TState | unlocked | locked | run | error | quiesced
deriving DecidableEq, Repr, Inhabited

/-- A world descriptor (R389) and what the device keeps of a world. -/
structure World where
  no : Nat
  root : DWord := 0
  conf : Bool := false
  live : Bool := true
  tdi : Nat := 0
  tstate : TState := .unlocked
  quota : Nat := 0
  fb : FaultBlock := {}
  /-- the key pair of the world's lines (R36, R397); none once teardown has destroyed it (R392) -/
  key : Option Nat := some 0
  /-- strand-fault records held by a full ring, oldest first: the record's words (R326) -/
  heldRecords : List (List DWord) := []
  /-- stopping for teardown, quiescing: no packet is taken (R392, R394) -/
  quiescing : Bool := false
  /-- torn down: its strands are killed, and what it has in flight drains (R392) -/
  dying : Bool := false
  /-- quiesced for a firmware hand-over, which resumes it (R401) -/
  forFirmware : Bool := false
  ideKeyed : Bool := false
deriving DecidableEq, Repr, Inhabited

/-- An address translation obtained from the host through ATS (R387), and requests for one. -/
structure Ats where
  id : Nat
  world : Nat
  page : Nat
  /-- translated page; none while the request is outstanding -/
  host : Option Nat
deriving DecidableEq, Repr, Inhabited

/-- An ATS invalidation being drained (R396). -/
structure AtsInv where
  id : Nat
  world : Nat
  base : Nat
  len : Nat
  arrived : Nat
  accesses : List Nat
  insts : List Nat
deriving DecidableEq, Repr, Inhabited

/-- A flit sent or to be sent (R399): the counter under which it is sealed, whose low 32 bits are its sequence number, its
virtual channel and its payload; whether it carries poison (R336), and the card instance whose bytes it carries (R74). -/
structure Flit where
  counter : Nat := 0
  channel : Nat := 0
  payload : List Byte
  poison : Bool := false
  inst : Option Nat := none
deriving DecidableEq, Repr, Inhabited

/-- A protected link (R399): an Oxzer port, or the UCIe link between the compute dies. -/
structure Port where
  trained : Bool := false
  session : Bool := false
  keys : Bool := false
  /-- flits received in a row that failed their tag, and flits sent in a row that failed at the neighbour -/
  failures : Nat := 0
  refused : Nat := 0
  /-- flit counters sent and received -/
  sent : Nat := 0
  received : Nat := 0
  /-- the replay window: flits sent and not yet accepted, oldest first; and flits that have no room in it yet -/
  window : List Flit := []
  backlog : List Flit := []
  salt : Nat := 0
  /-- a session could not be made for want of random values: firmware retries it (R398) -/
  retry : Bool := false
deriving DecidableEq, Repr, Inhabited

/-- Power states (R406). -/
inductive PState | s0 | s1 | s2 | s3
deriving DecidableEq, Repr, Inhabited

/-- The registers of R405 to R410 and the power manager. -/
structure Power where
  state : PState := .s0
  entering : Option PState := none
  /-- an exit is under way, and the tick at which S0 is reached -/
  exiting : Option Nat := none
  pendingExit : Bool := false
  tolerance : Nat := 0
  mhz : Nat := 3200
  crit : Bool := false
  pwr : Bool := false
  therm : Bool := false
  /-- last sensor readings: the compute dies and the base die -/
  sensors : List Nat := [0, 0, 0]
  /-- readings of the board's power in the last 10 ms, each with its tick -/
  watts : List (Nat × Nat) := []
  /-- tick at which a die was found above Tc -/
  critSince : Option Nat := none
  lastStep : Nat := 0
  lastSensor : Nat := 0
  /-- held in fundamental reset until power is cycled (R410) -/
  tripped : Bool := false
deriving DecidableEq, Repr, Inhabited

/-- The firmware mailbox, features, entropy and firmware complexes (R391, R398, R400, R404, R405). -/
structure HostIf where
  mailbox : List DWord := [0, 0, 0, 0, 0, 0, 0, 0]
  offered : List DWord := []
  accepted : List DWord := [0, 0, 0, 0]
  committed : Bool := false
  seeded : Bool := true
  sourceOk : Bool := true
  /-- tick of a health failure whose reseeds are under way, and reseeds tried -/
  reseeding : Option (Nat × Nat) := none
  lastRerun : Nat := 0
  creations : Nat := 0
  activeB : Bool := false
  staged : Option Nat := none
  svn : Nat := 0
  /-- the always-on latch: notify writes and doorbells in arrival order (R408) -/
  latch : List (Nat × Word × Nat) := []
  /-- posted writes that the port has not accepted, because the latch is full: link flow control holds them (R408) -/
  held : List Instr := []
  /-- the step of the boot order that comes next, 1 to 7; 0 once it is complete (R404) -/
  bootStep : Nat := 0
  /-- both copies of the image have failed in step 1: the device stays there (R404) -/
  noImage : Bool := false
  /-- the HDM ranges that firmware has placed in the CXL window: first page and pages (R32) -/
  hdm : List (Nat × Nat) := []
  /-- what is added to device time to give the host's time, found under PTM at boot (R404) -/
  ptm : DWord := 0
  /-- model's own: what the last read through BAR 0 or BAR 2 returned; none for a read that completed as an unsupported
  request (R386, R393) -/
  readout : Option DWord := none
deriving DecidableEq, Repr, Inhabited

/-- A lane: the strand that holds it, the issues of the grant, the slot granted last (R124, R126); model's own: the issue of
its grant that has paused between two thread-steps. -/
structure Lane where
  granted : Option Nat := none
  issues : Nat := 0
  last : Nat := 0
  begun : Option Begun := none
deriving DecidableEq, Repr, Inhabited

/-- A store of a limb (R13, R16, R390): the main partition and the understory partition of a lane, by the lane's index; the
accumulator store and the control store, by 4 core + limb. -/
inductive Store
  | main (lane : Nat)
  | understory (lane : Nat)
  | tiles (limb : Nat)
  | control (limb : Nat)
deriving DecidableEq, Repr, Inhabited

/-- The whole device. -/
structure State where
  /-- model's own: what acts next (log 2), the number of the next free turn, the number that undefined values of this step have,
  and the strand whose issue is being carried out -/
  turns : List Turn
  turnNo : Nat
  free : Nat
  issuer : Nat
  /-- records that hardware has still to write in this step, with their world (R325); bytes moved at the memory
  controllers in this step (R320) -/
  due : List (Nat × List DWord)
  moved : Nat
  /-- device time in ticks (R1); its low 64 bits are what software reads -/
  time : Nat
  /-- model's own: everything else of the current tick has happened; latches, and what times out, come last in their tick
  (R247, R376) -/
  closing : Bool
  -- memory and protection
  mem : Mem
  tags : Map Byte
  /-- the world and key of a line of LPDDR-6 or CXL memory, by line number (R36) -/
  lineKeys : Map Nat
  poison : List Poison
  dcache : List Line
  slices : List Line
  acquire : Map Nat
  tlb : List TlbEntry
  utlb : List TlbEntry
  walks : List Walk
  walkCache : List WalkCache
  pend : List Access
  nextId : Nat
  weight : List Mem
  wregions : List WRegion
  -- scratch
  scratch : List (Nat × Mem)
  writers : Map Nat
  segments : List Segment
  -- binding
  limbWorld : Map Nat
  groupWorld : Map Nat
  /-- limbs, as 4 core + limb, whose register file, understory partition, accumulator store and control store were zeroed
  (R390), and those of their stores that a strand has left something in since -/
  cleared : List Nat
  used : List Store
  worlds : List World
  -- work
  lanes : Map Lane
  strands : List Strand
  gens : Map Nat
  groves : List Grove
  launches : List Launch
  nextLaunch : Nat
  -- engines
  channels : List Channel
  chains : List Chain
  insts : List Inst
  rr : Map Nat
  mx : List MxOp
  nreqs : List NReq
  -- front end
  queues : List Queue
  packets : List Packet
  nodes : Map Node
  graphs : List GraphRun
  notify : Map Word
  ntable : Map NotifyEntry
  qrr : Nat
  budgets : List Budget
  period : Nat
  ures : Nat
  wsloads : List WsLoad
  tlbinvs : List TlbInv
  -- graphics and ownership
  draws : List Draw
  heads : Map Head
  planes : Map Plane
  descs : Map Desc
  grants : Map Grant
  lf : Map Nat
  presents : List Present
  pacing : Map Nat
  suppressed : Map Nat
  discardSeen : List Nat
  composing : List Composition
  /-- the last frame of each head: scanned out, or written to memory (R364) -/
  frames : Map (List Word)
  -- host side
  ats : List Ats
  atsinvs : List AtsInv
  ports : List Port
  host : HostIf
  power : Power
deriving DecidableEq, Repr, Inhabited

/-- A stop of the model that is no exception of the part: none of the part's own faults, which are next states. -/
inductive Fault
  /-- No strand of the state is the issuing one: raised by an instruction executed outside an issue. Safe: the part
  issues an instruction only for a strand (R120). -/
  | noStrand
deriving DecidableEq, Repr

/-- A refusal of the model. -/
inductive Refusal
  /-- Raised by exec's arms alone: the instruction has no meaning in this model. Safe. -/
  | notModelled (mnemonic : String)
deriving DecidableEq, Repr

/-- The offered feature words (R405): hbmp reports 12,288 pages for each stack, lpp the pages of 256 GB; the port
trained as PCIe and every feature bit but cxl offered (log 7). -/
def featureWords : List DWord := [0x3e, 0x3000300030003000, 122070, 0]

/-- The accepted vector before commit: words 1 to 3 copy the offered ones (R405). -/
def acceptedReset (offered : List DWord) : List DWord := [0, offered.getD 1 0, offered.getD 2 0, offered.getD 3 0]

/-- The device once the boot order of R404 is complete: device time 0, every SRAM and tag zeroed, world 0 created,
every limb and bank group bound to none, Oxzer ports trained, S0 with tolerance 0, mailbox status 0. -/
def State.reset : State :=
  { turns := [], turnNo := 0, free := 0, issuer := 0, due := [], moved := 0, time := 0, closing := false
    mem := [], tags := [], lineKeys := [], poison := [], dcache := [], slices := [], acquire := [], tlb := [], utlb := []
    walks := [], walkCache := [], pend := [], nextId := 0, weight := [[], []], wregions := []
    scratch := [], writers := [], segments := []
    limbWorld := [], groupWorld := [], cleared := [], used := [], worlds := [{ no := 0 }]
    lanes := [], strands := [], gens := [], groves := [], launches := [], nextLaunch := 0
    channels := [], chains := [], insts := [], rr := [], mx := [], nreqs := []
    queues := [], packets := [], nodes := [], graphs := [], notify := [], ntable := [], qrr := 0, budgets := [], period := 0
    ures := 0, wsloads := [], tlbinvs := []
    draws := [], heads := [], planes := [], descs := [], grants := [], lf := [], presents := [], pacing := []
    suppressed := [], discardSeen := [], composing := [], frames := []
    ats := [], atsinvs := [], ports := List.replicate 9 { trained := true }
    host := { offered := featureWords, accepted := acceptedReset featureWords }, power := {} }

end Sys2Proof.Machine
end

