-- ==== Sys2Proof/Machine/Mem.lean ====
section
/-! DEFINITION. Collections, bytes of memory, tags and keys (R32 to R36), and what the core data caches and L2
slices do (R46 to R53). -/

namespace Sys2Proof.Machine

/-! ### Collections -/

def mapGet {α : Type} : Map α → Nat → Option α
  | [], _ => none
  | (k', v) :: r, k => if k' = k then some v else mapGet r k

def mapGetD {α : Type} (m : Map α) (k : Nat) (d : α) : α := (mapGet m k).getD d

def mapSet {α : Type} : Map α → Nat → α → Map α
  | [], k, v => [(k, v)]
  | (k', v') :: r, k, v =>
    if k' = k then (k, v) :: r else if k < k' then (k, v) :: (k', v') :: r else (k', v') :: mapSet r k v

def mapErase {α : Type} (m : Map α) (k : Nat) : Map α := m.filter fun e => e.1 != k

/-- The byte at an address: what no entry lists reads 0 (log 6). -/
def memGet : Mem → Nat → Byte
  | [], _ => 0
  | (k', v) :: r, k => if k' = k then v else memGet r k

/-- Removes what is listed at an address. -/
def memErase (m : Mem) (k : Nat) : Mem := m.filter fun e => e.1 != k

/-- Lists a byte at its place. -/
def memInsert : Mem → Nat → Byte → Mem
  | [], k, v => [(k, v)]
  | (k', v') :: r, k, v =>
    if k' = k then (k, v) :: r else if k < k' then (k, v) :: (k', v') :: r else (k', v') :: memInsert r k v

/-- Writes a byte; writing 0 removes the entry. -/
def memSet (m : Mem) (k : Nat) (v : Byte) : Mem := if v = 0 then memErase m k else memInsert m k v

/-- The canonical form: addresses strictly rising from above `lo`, no entry 0. -/
def memWfFrom : Option Nat → Mem → Bool
  | _, [] => true
  | lo, (k, v) :: r => (match lo with | none => true | some l => decide (l < k)) && v != 0 && memWfFrom (some k) r

/-- Memory.wf: addresses strictly rising, no entry equal to what an unlisted address reads as. -/
def Memory.wf (m : Mem) : Bool := memWfFrom none m

def memRead (m : Mem) (a : Nat) : Nat → List Byte
  | 0 => []
  | n + 1 => memGet m a :: memRead m (a + 1) n

def memWrite (m : Mem) (a : Nat) : List Byte → Mem
  | [] => m
  | b :: r => memWrite (memSet m a b) (a + 1) r

/-- A little-endian value (R4). -/
def leVal : List Byte → Nat
  | [] => 0
  | b :: r => b.toNat + 256 * leVal r

/-- The n low bytes of a value, little-endian (R4). -/
def leList : Nat → Nat → List Byte
  | 0, _ => []
  | n + 1, v => BitVec.ofNat 8 v :: leList n (v / 256)

/-! ### Devices, worlds, tags, keys -/

/-- What lies at a physical address (R32). -/
inductive Tier | hbm | lpddr | cxl | host | bad
deriving DecidableEq, Repr

/-- A word of the offered feature vector (R405). -/
def feature (s : State) (i : Nat) : Nat := (s.host.offered.getD i 0).toNat

/-- R32: populated parts of the windows. -/
def tierOf (s : State) (pa : Nat) : Tier :=
  if pa < 0x2000000000 then
    (if pa % 0x800000000 < fld (feature s 1) (16 * (pa / 0x800000000)) 16 * 0x200000 then .hbm
     else .bad)
  else if pa < 0x4000000000 then .bad
  else if pa < 0x8000000000 then
    (if pa - 0x4000000000 < fld (feature s 2) 0 32 * 0x200000 then .lpddr else .bad)
  else if pa < 0x10000000000 then .bad
  else if pa < 0x30000000000 then
    (if pa - 0x10000000000 < fld (feature s 2) 32 32 * 0x200000 then .cxl else .bad)
  else if pa < 0x800000000000 then .bad
  else if pa < 0x1000000000000 then .host
  else .bad

def getWorld (s : State) (w : Nat) : World := (s.worlds.find? (·.no == w)).getD { no := w, live := false, key := none }

/-- R393: a world whose strands run and whose packets are taken. World 0 has no interface, and always runs. -/
def worldRuns (s : State) (w : Nat) : Bool := (getWorld s w).live && (w == 0 || (getWorld s w).tstate == .run)

/-- R393: the device writes memory for a world whose interface runs, and for one that is being torn down, whose work
completes with KILLED (R392). -/
def mayDma (s : State) (w : Nat) : Bool := worldRuns s w || (getWorld s w).dying

def setWorld (s : State) (x : World) : State :=
  { s with worlds := s.worlds.map fun y => if y.no = x.no then x else y }

/-- The tag of the HBM4 page that holds a physical address (R34). -/
def pageTag (s : State) (pa : Nat) : Byte := mapGetD s.tags (pa / 0x200000) 0

/-- R34: a tag is valid and names a world; its reserved bit is ignored (R8). -/
def tagNames (t : Byte) (w : Nat) : Bool := t.toNat / 128 == 1 && t.toNat % 64 == w % 64

/-- R35, R42: the tag of an HBM4 page is valid and names the world. -/
def tagOk (s : State) (w pa : Nat) : Bool :=
  match tierOf s pa with
  | .hbm => tagNames (pageTag s pa) w
  | _ => true

def encrypted (s : State) (pa : Nat) : Bool :=
  match tierOf s pa with
  | .lpddr | .cxl => true
  | _ => false

/-- The line at an address was written under the key that a world has now (R36). -/
def ownLine (s : State) (w pa : Nat) : Bool :=
  match (getWorld s w).key with
  | some k => mapGet s.lineKeys (pa / 128) == some k
  | none => false

/-- A byte as a world reads it at memory: a line under another key reads undefined (R36). -/
def plainByte (s : State) (w pa : Nat) : Byte :=
  if encrypted s pa && !ownLine s w pa then Config.freeByte s.free pa else memGet s.mem pa

/-- Bytes at memory as world w reads them, with no tag check. -/
def rawRead (s : State) (w pa : Nat) : Nat → List Byte
  | 0 => []
  | n + 1 => plainByte s w pa :: rawRead s w (pa + 1) n

/-- R36: a line written under another key first takes undefined bytes. -/
def rekey (s : State) (w pa : Nat) : State :=
  if encrypted s pa && !ownLine s w pa then
    { s with
      mem := memWrite s.mem (pa / 128 * 128) ((List.range 128).map fun i => Config.freeByte s.free (pa / 128 * 128 + i))
      lineKeys := match (getWorld s w).key with
        | some k => mapSet s.lineKeys (pa / 128) k
        | none => mapErase s.lineKeys (pa / 128) }
  else s

/-- Poison of the 32-bit words that the bytes touch (R336). -/
def memPoisoned (s : State) (pa len : Nat) : Bool :=
  s.poison.any fun
    | .memory k => decide (pa < 4 * k + 4) && decide (4 * k < pa + len)
    | _ => false

/-- After a write: a word written whole is no longer poisoned unless the data carry poison. -/
def memPoisonWrite (s : State) (pa len : Nat) (bad : Bool) : State :=
  if bad then
    { s with poison := s.poison ++ ((List.range (len / 4 + 2)).map fun i => Poison.memory (pa / 4 + i)).filter fun
        | .memory k => decide (pa < 4 * k + 4) && decide (4 * k < pa + len)
        | _ => false }
  else if s.poison.isEmpty then s
  else { s with poison := s.poison.filter fun
        | .memory k => !(decide (pa ≤ 4 * k) && decide (4 * k + 4 ≤ pa + len))
        | _ => true }

/-- Writes bytes at memory under world w's key, with no tag check. The bytes lie in one line. -/
def rawWrite (s : State) (w pa : Nat) (bs : List Byte) : State :=
  { rekey s w pa with mem := memWrite (rekey s w pa).mem pa bs }

/-- Writes bytes that may span lines. -/
def rawWriteAll (s : State) (w pa : Nat) : List Byte → State
  | [] => s
  | b :: r => rawWriteAll (rawWrite s w pa [b]) w (pa + 1) r

/-! ### Caches -/

def getLine (ls : List Line) (place line : Nat) : Option Line :=
  ls.find? fun l => l.place == place && l.line == line

def dropLine (ls : List Line) (place line : Nat) : List Line :=
  ls.filter fun l => !(l.place == place && l.line == line)

def putLine (ls : List Line) (x : Line) : List Line := x :: dropLine ls x.place x.line

/-- The mask of len bytes from offset o (R46). -/
def byteMask (o len : Nat) : BitVec 128 := BitVec.ofNat 128 ((2 ^ len - 1) * 2 ^ o)

/-- Bytes bs put over data at offset o. -/
def overlay : List Byte → Nat → List Byte → List Byte
  | d :: ds, 0, b :: bs => b :: overlay ds 0 bs
  | d :: ds, o + 1, bs => d :: overlay ds o bs
  | ds, _, _ => ds

/-- Bytes of a where the mask is set, else of b. -/
def blend (m : BitVec 128) (a b : List Byte) : List Byte :=
  (List.range 128).map fun i => if m.getLsbD i then a.getD i 0 else b.getD i 0

/-- The current fill epoch (R51). -/
def epoch (s : State) : Nat := s.time / 1024 % 2 ^ 34

/-- A record that hardware is about to write for a world (R325). -/
def oweRecord (s : State) (w : Nat) (words : List DWord) : State := { s with due := s.due ++ [(w, words)] }

/-- Word 3 of a record (R327). -/
def recordWord3 (kind cls cause detail world owner step pre : Nat) : DWord :=
  BitVec.ofNat 64 (kind * 2 ^ 56 + cls * 2 ^ 48 + cause * 2 ^ 40 + detail % 0x10000 * 2 ^ 24 + world * 2 ^ 18 + owner * 2 ^ 10
    + step * 16 + pre * 8)

/-- R35: the memory controller's refusal goes to the system world's fault queue. -/
def refuseTag (s : State) (w pa : Nat) : State :=
  oweRecord s 0 [BitVec.ofNat 64 pa, 0, 0, recordWord3 2 2 4 0 w 0 0 0]

/-- What a request for len bytes does at the memory controller besides moving the bytes: it is counted (R320), and
refused under another world's tag (R35). -/
def ctlNote (s : State) (w pa len : Nat) : State :=
  let s := { s with moved := s.moved + len }
  if tagOk s w pa then s else refuseTag s w pa

/-- R387: a world other than 0 reaches the host only while its interface is in RUN. -/
def hostBarred (s : State) (w pa : Nat) : Bool :=
  tierOf s pa == .host && w != 0 && (getWorld s w).tstate != .run

/-- A request of the world at a physical address is served (R35, R387). -/
def served (s : State) (w pa : Nat) : Bool := tagOk s w pa && !hostBarred s w pa

/-- R35: a read at the memory controller: refused reads return zeros. -/
def ctlRead (s : State) (w pa len : Nat) : List Byte :=
  if served s w pa then rawRead s w pa len else List.replicate len 0

/-- Poison of the bytes of a read at the memory controller (R336): the zeros of a refused read carry none. -/
def ctlPoisoned (s : State) (w pa len : Nat) : Bool := served s w pa && memPoisoned s pa len

/-- R35: a write of the masked bytes of one line at the memory controller; refused writes are dropped. -/
def ctlWriteMasked (s : State) (w line : Nat) (m : BitVec 128) (data : List Byte) (poison : BitVec 128) : State :=
  if m = 0 then s
  else if served s w (line * 128) then
    (List.range 128).foldl (fun s i =>
      if m.getLsbD i then memPoisonWrite (rawWrite s w (line * 128 + i) [data.getD i 0]) (line * 128 + i) 1 (poison.getLsbD i)
      else s) (ctlNote s w (line * 128) (((List.range 128).filter fun i => m.getLsbD i).length))
  else if tagOk s w (line * 128) then s
  else refuseTag s w (line * 128)

/-- The 8-bit writer mask bit of a core (R46). -/
def coreBit (core : Nat) : BitVec 8 := BitVec.ofNat 8 (2 ^ (core % 8))

/-- R319: the line is one of the pinned lines of a real-time queue. -/
def pinned (s : State) (line : Nat) : Bool := s.queues.any fun q => q.pinLines.contains line

/-- A slice writes back a line's dirty bytes, under the line's own world, and clears its masks (R47, R51). -/
def sliceWriteBack (s : State) (l : Line) : State :=
  { ctlWriteMasked s l.world l.line l.dirty l.data l.poison with
    slices := putLine s.slices { l with dirty := 0, writers := 0 } }

/-- R52: a slice publishes a line for core c: its dirty bytes go to memory, and c leaves its writer mask. -/
def slicePublish (core : Nat) (s : State) (l : Line) : State :=
  { ctlWriteMasked s l.world l.line l.dirty l.data l.poison with
    slices := putLine s.slices { l with dirty := 0, writers := l.writers &&& ~~~coreBit core } }

/-- A slice writes back and drops a line. The place of a pinned line stays held for it, with no byte valid (R319). -/
def sliceFlush (s : State) (cl line : Nat) : State :=
  match getLine s.slices cl line with
  | none => s
  | some l =>
    { ctlWriteMasked s l.world l.line l.dirty l.data l.poison with
      slices := if pinned s line then putLine s.slices { l with valid := 0, dirty := 0, writers := 0, poison := 0 }
        else dropLine s.slices cl line }

/-- The sets of a core data cache and of an L2 slice, of 16 ways each (R46). -/
def coreSets : Nat := 128
def sliceSets : Nat := 4096

/-- The other lines of the set in which a cache has a line (R46). -/
def setMates (ls : List Line) (sets place line : Nat) : List Line :=
  ls.filter fun l => l.place == place && l.line % sets == line % sets && l.line != line

/-- R46: the line that a cache drops to take one in: one of its set's 16, where all are taken, and no pinned one (R319).
Which is free (log 14). Where all 16 lines of a slice's set are pinned the manual does not say what a further line does: here
none is dropped, and the set holds that line beside them (log 14). -/
def lineVictim (s : State) (ls : List Line) (sets place line : Nat) : Option Line :=
  let mates := setMates ls sets place line
  if mates.length < 16 then none
  else
    let may := mates.filter fun l => sets != sliceSets || !pinned s l.line
    may[Config.freeChoice s.free (0x10000 + line) % may.length]?

/-- A slice takes a line in (R46). -/
def slicePut (s : State) (x : Line) : State :=
  let s := match lineVictim s s.slices sliceSets x.place x.line with
    | some v => sliceFlush s v.place v.line
    | none => s
  { s with slices := putLine s.slices x }

/-- R47: a line of another world is written back and dropped before the access. -/
def sliceEvictOther (s : State) (cl line w : Nat) : State :=
  match getLine s.slices cl line with
  | none => s
  | some l => if l.world = w then s else sliceFlush s cl line

/-- Poison of a line's bytes as a world reads them at memory, as a byte mask. -/
def linePoison (s : State) (w line : Nat) : BitVec 128 :=
  if s.poison.isEmpty then 0
  else BitVec.ofNat 128 (((List.range 128).map fun i =>
    if ctlPoisoned s w (line * 128 + i) 1 then 2 ^ i else 0).foldl (· + ·) 0)

/-- Fetches the line's bytes that are not dirty from memory and restamps it (R51). -/
def sliceFill (s : State) (cl line w : Nat) : State :=
  let old := (getLine s.slices cl line).getD
    { place := cl, line := line, world := w, valid := 0, dirty := 0, data := List.replicate 128 0 }
  let s := ctlNote s w (line * 128) 128
  slicePut s { old with
    world := w
    valid := BitVec.allOnes 128
    data := blend old.dirty old.data (ctlRead s w (line * 128) 128)
    poison := (old.poison &&& old.dirty) ||| (linePoison s w line &&& ~~~old.dirty)
    stamp := epoch s }

/-- R51: a read made for core c that wants the masked bytes: the slice's state after it has served it. -/
def sliceServe (s : State) (core line w : Nat) (m : BitVec 128) : State :=
  let cl := core / 8
  let s := sliceEvictOther s cl line w
  match getLine s.slices cl line with
  | none => sliceFill s cl line w
  | some l =>
    if l.stamp < mapGetD s.acquire core 0 then sliceFill (sliceWriteBack s l) cl line w
    else if m &&& ~~~l.valid = 0 then s
    else sliceFill s cl line w

/-- The data of a slice's line, and its poison. -/
def sliceData (s : State) (cl line : Nat) : List Byte × BitVec 128 :=
  match getLine s.slices cl line with
  | none => (List.replicate 128 0, 0)
  | some l => (l.data, l.poison)

/-- A line of the host's memory. -/
def hostLine (s : State) (line : Nat) : Bool := tierOf s (line * 128) == .host

/-- Masked bytes put into a line that a cache holds. -/
def putBytes (l : Line) (m : BitVec 128) (data : List Byte) (poison : BitVec 128) : Line :=
  { l with valid := l.valid ||| m, data := blend m data l.data, poison := (l.poison &&& ~~~m) ||| (poison &&& m) }

/-- R304: a store to the host is performed at the root port when its slice has it; a copy that the slice holds takes the
bytes. -/
def sliceThrough (s : State) (core line w : Nat) (m : BitVec 128) (data : List Byte) (poison : BitVec 128) : State :=
  if served s w (line * 128) then
    let s := ctlWriteMasked s w line m data poison
    match getLine s.slices (core / 8) line with
    | some l => { s with slices := putLine s.slices (putBytes l m data poison) }
    | none => s
  else s

/-- Merges dirty bytes of core c into its slice (R50): the line is allocated if it is not there. -/
def sliceMerge (s : State) (core line w : Nat) (m : BitVec 128) (data : List Byte) (poison : BitVec 128) : State :=
  if m = 0 then s else
  let cl := core / 8
  let s := sliceEvictOther s cl line w
  if hostLine s line then sliceThrough s core line w m data poison else
  let old := (getLine s.slices cl line).getD
    { place := cl, line := line, world := w, valid := 0, dirty := 0, data := List.replicate 128 0, stamp := epoch s }
  slicePut s { putBytes old m data poison with world := w, dirty := old.dirty ||| m, writers := old.writers ||| coreBit core }

/-- A core cache writes a line's dirty bytes back to its slice. -/
def coreWriteBack (s : State) (l : Line) : State :=
  let s := sliceMerge s l.place l.line l.world l.dirty l.data l.poison
  { s with dcache := putLine s.dcache { l with dirty := 0 } }

/-- A core cache writes back and drops its copy of a line (R53). -/
def coreFlush (s : State) (core line : Nat) : State :=
  match getLine s.dcache core line with
  | none => s
  | some l =>
    let s := sliceMerge s core line l.world l.dirty l.data l.poison
    { s with dcache := dropLine s.dcache core line }

/-- R47 at the core cache. -/
def coreEvictOther (s : State) (core line w : Nat) : State :=
  match getLine s.dcache core line with
  | none => s
  | some l => if l.world = w then s else sliceFlush (coreFlush s core line) (core / 8) line

/-- A core data cache takes a line in (R46). -/
def corePut (s : State) (x : Line) : State :=
  let s := match lineVictim s s.dcache coreSets x.place x.line with
    | some v => coreFlush s v.place v.line
    | none => s
  { s with dcache := putLine s.dcache x }

/-- How an access reaches memory: the cache field of its page (R48), and hint 01 on a cached page, which is served on a
hit and is as streaming on a miss (R217). -/
inductive Caching | cached | uncached | streaming | hinted
deriving DecidableEq, Repr

def cachingOf (cache : Nat) (na : Bool) : Caching :=
  if cache = 1 then .uncached else if cache = 2 then .streaming else if na then .hinted else .cached

/-- A global read performed for core c (R47, R48, R51): the bytes, whether they are poisoned, the state after. Where the core
does not hold all of its bytes, it is served whole by the slice, but for those that the core has written (R293, R299); a copy
of the line that the core holds takes the slice's bytes too, so that no later read meets an earlier write (R292). -/
def globalRead (s : State) (core w : Nat) (k : Caching) (pa len : Nat) : List Byte × Bool × State :=
  let line := pa / 128
  let m := byteMask (pa % 128) len
  match k with
  | .uncached => (ctlRead s w pa len, ctlPoisoned s w pa len, ctlNote s w pa len)
  | _ =>
    let s := coreEvictOther s core line w
    let old := (getLine s.dcache core line).getD
      { place := core, line := line, world := w, valid := 0, dirty := 0, data := List.replicate 128 0 }
    if m &&& ~~~old.valid = 0 then
      ((old.data.drop (pa % 128)).take len, old.poison &&& m != 0, s)
    else
      let s := sliceServe s core line w m
      let (d, p) := sliceData s (core / 8) line
      let d := blend old.dirty old.data d
      let p := (old.poison &&& old.dirty) ||| (p &&& ~~~old.dirty)
      let s := if k = .cached then corePut s { old with valid := BitVec.allOnes 128, data := d, poison := p }
        else if old.valid = 0 then s
        else { s with dcache := putLine s.dcache { old with data := d, poison := p &&& old.valid } }
      ((d.drop (pa % 128)).take len, p &&& m != 0, s)

/-- A global write performed for core c (R47, R48). A store to a streaming page goes to the slice, and a copy of its line
that the core holds takes the bytes, clean. So does a store to a cached page of the host, whose stores reach the root port in
program order (R304, log 14). -/
def globalWrite (s : State) (core w : Nat) (k : Caching) (pa : Nat) (bs : List Byte) (poison : Bool) : State :=
  let line := pa / 128
  let m := byteMask (pa % 128) bs.length
  let data := overlay (List.replicate 128 0) (pa % 128) bs
  let pm : BitVec 128 := if poison then m else 0
  match k with
  | .uncached => ctlWriteMasked s w line m data pm
  | _ =>
    let s := coreEvictOther s core line w
    let put (l : Line) (dirty : BitVec 128) : Line :=
      { l with valid := l.valid ||| m, dirty := dirty, data := overlay l.data (pa % 128) bs, poison := (l.poison &&& ~~~m) ||| pm }
    match (if hostLine s line then .streaming else k), getLine s.dcache core line with
    | .streaming, none | .hinted, none => sliceMerge s core line w m data pm
    | .streaming, some l => sliceMerge { s with dcache := putLine s.dcache (put l (l.dirty &&& ~~~m)) } core line w m data pm
    | _, some l => { s with dcache := putLine s.dcache (put l (l.dirty ||| m)) }
    | _, none =>
      corePut s (put { place := core, line := line, world := w, valid := 0, dirty := 0, data := List.replicate 128 0 } m)

/-- A read by a card instance, the traversal unit or instruction fetch of core c: through the cluster's slice
(R49, R51, R302). -/
def sliceRead (s : State) (core w pa len : Nat) : List Byte × Bool × State :=
  let s := sliceServe s core (pa / 128) w (byteMask (pa % 128) len)
  let (d, p) := sliceData s (core / 8) (pa / 128)
  ((d.drop (pa % 128)).take len, p &&& byteMask (pa % 128) len != 0, s)

/-- R319: a pinned line that a slice has dropped is fetched again. -/
def repin (s : State) (cl line : Nat) : State :=
  match s.queues.find? (·.pinLines.contains line) with
  | some q => sliceServe s (8 * cl) line q.world (BitVec.allOnes 128)
  | none => s

/-- R319: fetches the pinned lines of every queue into every slice. -/
def refillPins (s : State) : State :=
  s.queues.foldl (fun (s : State) (q : Queue) => q.pinLines.foldl (fun (s : State) (line : Nat) =>
    (List.range 12).foldl (fun (s : State) (cl : Nat) => sliceServe s (8 * cl) line q.world (BitVec.allOnes 128)) s) s) s

/-- The core's clean copy of some bytes of a line is no longer valid. -/
def coreForget (s : State) (core line : Nat) (m : BitVec 128) : State :=
  match getLine s.dcache core line with
  | none => s
  | some l =>
    let v := l.valid &&& ~~~(m &&& ~~~l.dirty)
    { s with dcache := if v = 0 then dropLine s.dcache core line else putLine s.dcache { l with valid := v } }

/-- A write by a card instance of core c, at the cluster's slice (R302). Its core reads the bytes there from then on: the
card is an agent of the core (R290, R299). -/
def sliceWrite (s : State) (core w pa : Nat) (bs : List Byte) (poison : Bool) : State :=
  let m := byteMask (pa % 128) bs.length
  let s := coreForget s core (pa / 128) m
  sliceMerge s core (pa / 128) w m (overlay (List.replicate 128 0) (pa % 128) bs) (if poison then m else 0)

/-! ### Releases and acquires (R52) -/

/-- The scope is copse or wider. -/
def scopeWide : Scope → Bool
  | .copse | .stand | .forest | .system => true
  | _ => false

def scopeStand : Scope → Bool
  | .stand | .forest | .system => true
  | _ => false

/-- R52: the phase boundary of core c. -/
def publish (s : State) (core : Nat) : State :=
  let s := (s.dcache.filter fun l => l.place == core && l.dirty != 0).foldl coreWriteBack s
  (s.slices.filter fun l => l.place == core / 8 && l.writers &&& coreBit core != 0).foldl (slicePublish core) s

/-- R52: the release actions of a scope. -/
def releaseActs (s : State) (core : Nat) (sc : Scope) : State := if scopeWide sc then publish s core else s

/-- R52: the acquire actions of a scope. -/
def acquireActs (s : State) (core : Nat) (sc : Scope) : State :=
  if scopeWide sc then
    let d := (s.dcache.map fun l => if l.place = core then { l with valid := l.dirty } else l).filter
      fun l => !(l.place == core && l.valid == 0)
    { s with dcache := d
             acquire := if scopeStand sc then mapSet s.acquire core (epoch s + 1) else s.acquire }
  else s

end Sys2Proof.Machine
end

