-- ==== Sys2Proof/Machine/Translate.lean ====
section
/-! DEFINITION. Translation of global addresses: page tables, translation lookaside buffers, walks and their
faults (R37 to R45), and host addresses (R387, R396). -/

namespace Sys2Proof.Machine

/-- What an access needs of its page (R42): 1 read, 2 write, 3 both (an atomic), 4 fetch. -/
def needRead : Nat := 1
def needWrite : Nat := 2
def needBoth : Nat := 3
def needFetch : Nat := 4

/-- A fault's class and cause (R328). -/
abbrev Cause := Nat × Nat

def causeNoncanon : Cause := (1, 1)
def causeNotMapped : Cause := (1, 2)
def causeBadPte : Cause := (1, 3)
def causeBadPa : Cause := (1, 4)
def causeReadDenied : Cause := (2, 1)
def causeWriteDenied : Cause := (2, 2)
def causeExecDenied : Cause := (2, 3)
def causeTag : Cause := (2, 4)
def causeEccWalk : Cause := (0x0f, 8)

/-- R37: bits [63:52] all equal bit 51. -/
def canonical (va : Nat) : Bool := fld va 51 13 == 0 || fld va 51 13 == 0x1fff

/-- A leaf entry as a walk finds it (R38): the page it maps, its attributes and the entry's own address. -/
structure Leaf where
  va : Nat
  pa : Nat
  size : Nat
  r : Bool
  w : Bool
  x : Bool
  cache : Nat
  d : Bool
  pte : Nat
deriving DecidableEq, Repr

/-- R38, R39: a valid entry of a level is malformed. Bits 15:12 of the address of a c-marked L0 entry are not tested: the
page of such a group is 64 KiB, but its 16 entries hold the consecutive 4 KiB frames that R39 asks for (log 12). -/
def malformed (level e : Nat) : Bool :=
  fld e 1 1 != 0 || fld e 9 3 != 0 || fld e 48 8 != 0 || fld e 58 6 != 0 || fld e 56 2 == 3
    || (level == 3 && fld e 2 1 == 1) || (level == 0 && fld e 2 1 == 0) || (level != 0 && fld e 8 1 == 1)
    || (level == 2 && fld e 2 1 == 1 && fld e 12 18 != 0) || (level == 1 && fld e 2 1 == 1 && fld e 12 9 != 0)

/-- The world that owns the page of a table, as its tag names it (R34, R40). -/
def tableOwner (s : State) (pa : Nat) : Nat := (pageTag s pa).toNat % 64

/-- R35, R40: the walker reads and marks a table as the world that owns its page: only a page assigned to none refuses it. -/
def tableServed (s : State) (pa : Nat) : Bool := tagOk s (tableOwner s pa) pa

/-- An entry read at memory as the world that owns its page (R40), or why it cannot be used: a refused read returns
zeros (R35), an entry that is not valid. R40 has software keep tables in HBM4; of a table elsewhere the manual does not say how
it is read: here its bytes are read and marked as they stand, whatever the key of their line, and through no ATS (log 12). -/
def readEntry (s : State) (level pa : Nat) : Except Cause Nat :=
  if tierOf s pa = .bad then .error causeBadPa
  else if !tableServed s pa then .error causeNotMapped
  else if memPoisoned s pa 8 then .error causeEccWalk
  else
    let e := leVal (memRead s.mem pa 8)
    if fld e 0 1 = 0 then .error causeNotMapped
    else if malformed level e then .error causeBadPte
    else .ok e

/-- The table or page address of an entry. -/
def entryPa (e : Nat) : Nat := fld e 12 36 * 4096

def leafOf (e pte va pa size : Nat) : Leaf :=
  { va := va / size * size, pa := pa, size := size, r := fld e 3 1 == 1, w := fld e 4 1 == 1, x := fld e 5 1 == 1
    cache := fld e 56 2, d := fld e 6 1 == 1, pte := pte }

/-- The page that an entry of a 64 KiB group gives an address: the group's, whose first frame it says, but the 4 KiB piece
that is used where the group's frames do not lie in one 2 MiB page, so that each piece receives its own tag check (R42). -/
def groupLeaf (e pte k va : Nat) : Leaf :=
  let base := (entryPa e + 0x1000000000000 - k * 4096) % 0x1000000000000
  if base % 0x200000 + 0x10000 ≤ 0x200000 then leafOf e pte va base 0x10000
  else leafOf e pte va ((base + fld va 12 4 * 4096) % 0x1000000000000) 0x1000

/-- The L0 entry of an address. A member of a 64 KiB group may be translated through any c-marked entry of it (R39):
which one is free (log 4). -/
def leafL0 (s : State) (table va : Nat) : Except Cause Leaf := do
  let i := fld va 12 9
  let pte := table + 8 * i
  let e ← readEntry s 0 pte
  if fld e 8 1 = 1 then
    let g := i / 16 * 16 + Config.freeChoice s.free 16 % 16
    match readEntry s 0 (table + 8 * g) with
    | .ok e' =>
      if fld e' 8 1 = 1 then .ok (groupLeaf e' (table + 8 * g) (g % 16) va) else .ok (groupLeaf e pte (i % 16) va)
    | .error _ => .ok (groupLeaf e pte (i % 16) va)
  else .ok (leafOf e pte va (entryPa e) 0x1000)

/-- R37: the walk of a canonical address from a world's root; with the L0 table where it reaches one. A 1 GiB leaf
in HBM4 is cached as the 2 MiB piece used (R41). -/
def walkTables (s : State) (w va : Nat) : Except Cause (Leaf × Option Nat) := do
  let root := (getWorld s w).root.toNat
  let e3 ← readEntry s 3 (root + 8 * fld va 39 13)
  let p2 := entryPa e3 + 8 * fld va 30 9
  let e2 ← readEntry s 2 p2
  if fld e2 2 1 = 1 then
    let pa := entryPa e2 + fld va 21 9 * 0x200000
    if tierOf s pa = .hbm then .ok (leafOf e2 p2 va pa 0x200000, none)
    else .ok (leafOf e2 p2 va (entryPa e2) 0x40000000, none)
  else
    let p1 := entryPa e2 + 8 * fld va 21 9
    let e1 ← readEntry s 1 p1
    if fld e1 2 1 = 1 then .ok (leafOf e1 p1 va (entryPa e1) 0x200000, none)
    else
      let l ← leafL0 s (entryPa e1) va
      .ok (l, some (entryPa e1))

/-- R42: permissions in the order of R44. -/
def permit (r w x : Bool) (need : Nat) : Option Cause :=
  if need % 2 = 1 && !r then some causeReadDenied
  else if need / 2 % 2 = 1 && !w then some causeWriteDenied
  else if need / 4 % 2 = 1 && !x then some causeExecDenied
  else none

/-- R42, R44: whether the leaf serves an access of world w to va. -/
def leafCheck (s : State) (w va need : Nat) (l : Leaf) : Option Cause :=
  let pa := l.pa + va % l.size
  if tierOf s pa = .bad then some causeBadPa
  else match permit l.r l.w l.x need with
    | some c => some c
    | none => if tagOk s w pa then none else some causeTag

/-- R40: sets the accessed bit, and the dirty bit for a write, with an atomic OR at memory; one that the controller
refuses is dropped (R35). -/
def markLeaf (s : State) (pte need : Nat) : State :=
  let b := memGet s.mem pte ||| (if need / 2 % 2 = 1 then 0xc0 else 0x80)
  if !tableServed s pte then refuseTag s (tableOwner s pte) pte
  else if memGet s.mem pte = b then s else { s with mem := memSet s.mem pte b }

/-- The tables that a walk reads, from the root down: their entries' addresses. -/
def tableAddresses (s : State) (w va : Nat) : List Nat :=
  let p3 := (getWorld s w).root.toNat + 8 * fld va 39 13
  match readEntry s 3 p3 with
  | .error _ => [p3]
  | .ok e3 =>
    let p2 := entryPa e3 + 8 * fld va 30 9
    match readEntry s 2 p2 with
    | .error _ => [p3, p2]
    | .ok e2 =>
      let p1 := entryPa e2 + 8 * fld va 21 9
      if fld e2 2 1 = 1 then [p3, p2]
      else match readEntry s 1 p1 with
        | .error _ => [p3, p2, p1]
        | .ok e1 => if fld e1 2 1 = 1 then [p3, p2, p1] else [p3, p2, p1, entryPa e1 + 8 * fld va 12 9]

/-- R35: a walk that fails because the controller refused it a table leaves a record of the refusal. -/
def noteTables (s : State) (w va : Nat) : State :=
  if canonical va then
    match (tableAddresses s w va).find? fun p => !tableServed s p with
    | some p => refuseTag s (tableOwner s p) p
    | none => s
  else s

/-- A walk for world w with its checks, without any TLB: what the front end and the fault rings use. -/
def walkChecked (s : State) (w va need : Nat) : Except Cause (Leaf × Option Nat) :=
  if !canonical va then .error causeNoncanon
  else match walkTables s w va with
    | .error c => .error c
    | .ok (l, t) =>
      match leafCheck s w va need l with
      | some c => .error c
      | none => .ok (l, t)

/-- The walk that a cluster's walker makes: through its walk cache where that holds the region (R41). -/
def walkCluster (s : State) (cluster w va need : Nat) : Except Cause (Leaf × Option Nat) :=
  match s.walkCache.find? fun c => c.cluster == cluster && c.world == w && c.region == va / 0x200000 with
  | none => walkChecked s w va need
  | some c =>
    match leafL0 s c.table va with
    | .error e => .error e
    | .ok l =>
      match leafCheck s w va need l with
      | some e => .error e
      | none => .ok (l, some c.table)

/-- R41: fills the TLB of a core, 2,048 entries. A full one drops the entry filled longest ago, which the manual leaves
open (log 14). -/
def fillTlb (s : State) (core w : Nat) (need : Nat) (l : Leaf) : State :=
  let e : TlbEntry := { core := core, world := w, va := l.va, pa := l.pa, size := l.size, r := l.r, w := l.w, x := l.x
                        cache := l.cache, dirty := l.d || need / 2 % 2 == 1, pte := l.pte }
  let mine := s.tlb.filter fun x => x.core == core && !(x.world == w && x.va == l.va && x.size == l.size)
  { s with tlb := e :: (mine.take 2047 ++ s.tlb.filter fun x => x.core != core) }

/-- R41: the cluster's walk cache takes the L0 table found for a region. The manual gives no size and no replacement: here
it keeps every entry until it is invalidated (log 14). -/
def noteWalkCache (s : State) (cluster w va : Nat) (t : Option Nat) : State :=
  match t with
  | none => s
  | some t =>
    { s with walkCache := { cluster := cluster, world := w, region := va / 0x200000, table := t } ::
        s.walkCache.filter fun c => !(c.cluster == cluster && c.world == w && c.region == va / 0x200000) }

/-- A walk that fills the core's TLB (R40, R42), or its fault. -/
def walkFill (s : State) (core w va need : Nat) : Except Cause State :=
  match walkCluster s (core / 8) w va need with
  | .error c => .error c
  | .ok (l, t) => .ok (noteWalkCache (fillTlb (markLeaf s l.pte need) core w need l) (core / 8) w va t)

/-- What translation answers: a physical address with its page's cache field; a miss of the core TLB; a host page
whose translation through ATS is wanting (R387) or blocked (R396); or a fault. -/
inductive Trans
  | ok (pa cache : Nat)
  | miss
  | ats (page : Nat)
  | bad (c : Cause)
deriving DecidableEq, Repr

/-- R387, R396: where a host address of world w leads. -/
def hostAddress (s : State) (w pa : Nat) : Trans :=
  if w = 0 then .ok pa 1
  else if (getWorld s w).tstate ≠ .run then .bad causeTag
  else
    let page := (pa - 0x800000000000) / 4096
    if s.atsinvs.any fun i => i.world == w && decide (i.base ≤ page * 4096 + 4095) && decide (page * 4096 < i.base + i.len)
    then .ats page
    else match s.ats.find? fun a => a.world == w && a.page == page && a.host.isSome with
      | some a => .ok (0x800000000000 + a.host.getD 0 * 4096 + pa % 4096) 1
      | none => .ats page

/-- The use of a cached entry (R42), with the causes in the order of R44. -/
def useEntry (s : State) (e : TlbEntry) (w va need : Nat) : Trans × State :=
  let pa := e.pa + (va - e.va)
  match tierOf s pa with
  | .bad => (.bad causeBadPa, s)
  | t =>
    match permit e.r e.w e.x need with
    | some c => (.bad c, s)
    | none =>
      let s := if need / 2 % 2 = 1 && !e.dirty then
          { markLeaf s e.pte need with
            tlb := s.tlb.map fun x => if x.pte = e.pte ∧ x.world = e.world then { x with dirty := true } else x
            utlb := s.utlb.map fun x => if x.pte = e.pte ∧ x.world = e.world then { x with dirty := true } else x }
        else s
      if t = .host then
        match hostAddress s w pa with
        | .ok p _ => (.ok p e.cache, s)
        | r => (r, s)
      else (.ok pa e.cache, s)

def hits (e : TlbEntry) (place w va : Nat) : Bool :=
  e.core == place && e.world == w && decide (e.va ≤ va) && decide (va < e.va + e.size)

/-- R41, R42: the translation of one access made by a limb of a core. A hit in the core's TLB fills the limb's micro-TLB of
32 entries, which drops the one filled longest ago where it is full (log 14). -/
def translate (s : State) (core limb w va need : Nat) : Trans × State :=
  if !canonical va then (.bad causeNoncanon, s)
  else match s.utlb.find? (hits · (4 * core + limb) w va) with
    | some e => useEntry s e w va need
    | none =>
      match s.tlb.find? (hits · core w va) with
      | some e =>
        let place := 4 * core + limb
        let s := { s with utlb := { e with core := place } ::
          ((s.utlb.filter fun x => x.core == place).take 31 ++ s.utlb.filter fun x => x.core != place) }
        useEntry s e w va need
      | none => (.miss, s)

/-- R44: a card, a segment load or eviction, the traversal unit or a spill translates through its core's TLB, and
its miss runs a walk that fills it. -/
def translateEngine (s : State) (core w va need : Nat) : Trans × State :=
  if !canonical va then (.bad causeNoncanon, s)
  else match s.tlb.find? (hits · core w va) with
    | some e => useEntry s e w va need
    | none =>
      match walkFill s core w va need with
      | .error c => (.bad c, noteTables s w va)
      | .ok s =>
        match s.tlb.find? (hits · core w va) with
        | some e => useEntry s e w va need
        | none => (.miss, s)

/-- The front end, the composer and the fault rings translate at memory, with no TLB. -/
def translateFront (s : State) (w va need : Nat) : Trans × State :=
  match walkChecked s w va need with
  | .error c => (.bad c, noteTables s w va)
  | .ok (l, _) =>
    let s := markLeaf s l.pte need
    let pa := l.pa + va % l.size
    if tierOf s pa = .host then (hostAddress s w pa, s) else (.ok pa l.cache, s)

/-- R43: a strand waits on the walk of its page; walks of one world and page in a cluster merge. -/
def startWalk (s : State) (core w va need home : Nat) : Nat × State :=
  match s.walks.find? fun k => k.cluster == core / 8 && k.world == w && k.page == va / 4096 with
  | some k =>
    (k.id, { s with walks := s.walks.map fun x =>
      if x.id = k.id then { x with waiters := x.waiters ++ [(home, need, va)] } else x })
  | none =>
    (s.nextId, { s with
      walks := s.walks ++ [{ id := s.nextId, cluster := core / 8, core := core, world := w, page := va / 4096
                             waiters := [(home, need, va)] }]
      nextId := s.nextId + 1 })

/-- R387: asks for the translation of a host page, once. -/
def requestAts (s : State) (w page : Nat) : State :=
  if s.ats.any fun a => a.world == w && a.page == page then s
  else { s with ats := s.ats ++ [{ id := s.nextId, world := w, page := page, host := none }], nextId := s.nextId + 1 }

/-- What the front end meets at a host page whose translation it has still to obtain (R387): it asks for it and
tries again at a later examination. -/
def causeAts (page : Nat) : Cause := (0xff, page)

/-- Reads bytes of a world's global memory at memory, for the front end. -/
def frontRead (s : State) (w va : Nat) : Nat → Except Cause (List Byte × State)
  | 0 => .ok ([], s)
  | n + 1 =>
    match translateFront s w va needRead with
    | (.ok pa _, s) =>
      match frontRead s w (va + 1) n with
      | .ok (r, s') => .ok (plainByte s w pa :: r, s')
      | .error c => .error c
    | (.bad c, _) => .error c
    | (.miss, _) => .error causeNotMapped
    | (.ats p, _) => .error (causeAts p)

/-- What a read of the front end that comes to nothing leaves: the bits that its translations set (R40), and the record of
a table that was refused (R35). -/
def readEffects (s : State) (w va : Nat) : Nat → State
  | 0 => s
  | n + 1 =>
    match translateFront s w va needRead with
    | (.ok _ _, s) => readEffects s w (va + 1) n
    | (_, s) => s

/-- What a write of the front end that comes to nothing leaves. -/
def writeEffects (s : State) (w va : Nat) : State := (translateFront s w va needWrite).2

/-- Writes bytes within one page of a world's global memory at memory, for the front end. -/
def frontWrite (s : State) (w va : Nat) (bs : List Byte) : Except Cause State :=
  match translateFront s w va needWrite with
  | (.ok pa _, s) => .ok (memPoisonWrite (rawWriteAll s w pa bs) pa bs.length false)
  | (.bad c, _) => .error c
  | (.miss, _) => .error causeNotMapped
  | (.ats p, _) => .error (causeAts p)

/-- The words of a byte list, 8 bytes each, little-endian. -/
def dwords : List Byte → List DWord
  | b0 :: b1 :: b2 :: b3 :: b4 :: b5 :: b6 :: b7 :: r =>
    BitVec.ofNat 64 (leVal [b0, b1, b2, b3, b4, b5, b6, b7]) :: dwords r
  | _ => []

end Sys2Proof.Machine
end

