-- ==== Sys2Proof/Machine/Launch.lean ====
section
/-! DEFINITION. Launch records (R22 to R26), the checks of named segments at a launch (R97), the deadline heap
(R315, R318), and launch nodes that become ready (R311, R312). -/

namespace Sys2Proof.Machine

def getLaunch (s : State) (id : Nat) : Option Launch := s.launches.find? (·.id == id)

def setLaunch (s : State) (l : Launch) : State :=
  { s with launches := s.launches.map fun x => if x.id = l.id then l else x }

def getQueue (s : State) (q : Nat) : Option Queue := s.queues.find? (·.no == q)

def setQueue (s : State) (q : Queue) : State :=
  { s with queues := s.queues.map fun x => if x.no = q.no then q else x }

/-! ### Completion statuses (R309) -/

def stOk : Nat := 0
def stBadPacket : Nat := 1
def stBadRecord : Nat := 2
def stSegMiss : Nat := 3
def stSegConflict : Nat := 4
def stDenied : Nat := 5
def stRefused : Nat := 6
def stKilled : Nat := 7
def stOverrun : Nat := 8

/-! ### Launch records -/

def attachModeOf (m : Nat) : Option AttachMode :=
  if m = 1 then some .read else if m = 2 then some .write else if m = 3 then some .create else none

/-- The fields of a launch record (R22 to R24) from its 32 words. -/
def parseRecord (ws : List DWord) : LaunchRec :=
  let w (i : Nat) : Nat := (ws.getD i 0).toNat
  let c := w 1
  { code := ws.getD 0 0, stand := fld c 57 2, place := fld c 55 2, copse := fld c 52 3 + 1, scratch := fld c 40 12
    tframe := fld c 32 8, tclamp := fld c 28 1 == 1, preempt := fld c 26 2, tdepth := fld c 23 3, acc := fld c 19 4
    diverge := fld c 15 4, depth := 8 * fld c 9 6, frame := fld c 2 7, width := 16 * 2 ^ fld c 0 2
    gX := fld (w 2) 0 32, gY := fld (w 2) 32 16, gZ := fld (w 2) 48 16
    x := fld (w 3) 0 11, y := fld (w 3) 11 11, z := fld (w 3) 22 10
    spill := ws.getD 4 0, stride := fld (w 5) 0 32
    segs := (List.range 4).filterMap fun i => (attachModeOf (fld (w 6) (2 * i) 2)).map fun m => (m, ws.getD (12 + i) 0)
    args := (List.range 8).map fun i => if i % 2 = 0 then lo32 (ws.getD (8 + i / 2) 0) else hi32 (ws.getD (8 + i / 2) 0)
    slots := (List.range 8).map fun i => (ws.getD (16 + 2 * i) 0, ws.getD (17 + 2 * i) 0) }

/-- The bytes of a world's bank groups on one core, at most over the cores (R25). -/
def worldScratch (s : State) (w : Nat) : Nat :=
  (List.range 96).foldl (fun m c =>
    max m (((List.range 4).filter fun g => mapGet s.groupWorld (4 * c + g) == some w).length * 0x40000)) 0

/-- R25, R26: the record breaks a rule. -/
def recordBad (s : State) (world : Nat) (ws : List DWord) : Bool :=
  let w (i : Nat) : Nat := (ws.getD i 0).toNat
  let r := parseRecord ws
  let c := w 1
  fld c 0 2 == 3 || decide (2 ≤ r.place) || fld c 59 5 != 0 || fld c 29 3 != 0
    || decide (8 < r.acc) || decide (8 < r.diverge) || decide (4 < r.tdepth)
    || r.frame == 0 || decide (96 < r.frame) || decide (r.depth < r.frame) || decide (22528 < r.width * r.depth * 4)
    || decide (worldScratch s world < r.scratch * 256)
    || r.gX == 0 || r.gY == 0 || r.gZ == 0 || r.x == 0 || r.y == 0 || r.z == 0
    || decide (1024 < r.x * r.y * r.z) || r.x * r.y * r.z % r.width != 0
    || r.gX * r.gY * r.gZ % r.copse != 0
    || hi32 (ws.getD 3 0) != 0 || hi32 (ws.getD 5 0) != 0 || decide (256 ≤ w 6) || w 7 != 0
    || w 0 % 8 != 0 || w 4 % 64 != 0
    || (r.preempt == 3 && (r.width != 16 || decide (32 < r.depth) || r.acc != 0))

/-- Reads a launch record (R25), its words changed by a function before the checks: the record, or the status with
which it fails. -/
def readRecordAs (change : List DWord → List DWord) (s : State) (world : Nat) (addr : DWord) :
    Except Cause (Except Nat LaunchRec × State) :=
  if addr.toNat % 64 ≠ 0 then .ok (.error stBadRecord, s)
  else match frontRead s world addr.toNat 256 with
    | .error c =>
      if c.1 = 0xff then .error c
      else .ok (.error (if c = causeTag then stDenied else stBadRecord), readEffects s world addr.toNat 256)
    | .ok (bs, s) =>
      let ws := change (dwords bs)
      .ok (if recordBad s world ws then .error stBadRecord else .ok (parseRecord ws), s)

def readRecord (s : State) (world : Nat) (addr : DWord) : Except Cause (Except Nat LaunchRec × State) :=
  readRecordAs id s world addr

/-! ### Named segments at a launch (R97) -/

/-- The directory entry of a name that lookups know (R93, R102). -/
def findSegment (s : State) (world : Nat) (name : DWord) : Option Segment :=
  s.segments.find? fun g => g.world == world && g.name == name && !g.freed

/-- R93: the owner field admits an owner. -/
def admits (g : Segment) (owner : Nat) : Bool := g.owner == 255 || g.owner == owner

/-- Two byte ranges overlap. -/
def overlaps (a la b lb : Nat) : Bool := decide (a < b + lb) && decide (b < a + la)

def isCreate : AttachMode → Bool
  | .create => true
  | _ => false

/-- R97: the status with which the listed segments fail a launch, or OK. -/
def segmentStatus (s : State) (world owner : Nat) (r : LaunchRec) : Nat :=
  let found := r.segs.map fun (m, n) => (m, findSegment s world n)
  let miss := found.any fun (m, g) => match g with
    | none => true
    | some g =>
      ((g.state == .defined || g.state == .damaged) && !isCreate m) || !admits g owner
        || (g.life == .pinned && decide ((getWorld s world).quota < g.size))
  let gs := found.filterMap (·.2)
  let overlap := gs.any (fun g => overlaps (g.vbase * 1024) (g.size * 1024) 0 (r.scratch * 256))
    || (List.range gs.length).any fun i => (List.range gs.length).any fun j => decide (i < j) &&
      (match gs[i]?, gs[j]? with
       | some a, some b => overlaps (a.vbase * 1024) (a.size * 1024) (b.vbase * 1024) (b.size * 1024)
       | _, _ => false)
  let cores := (gs.filter (·.stored)).map (·.core)
  if miss then stSegMiss
  else if overlap || cores.any (fun c => c != cores.headD 0) then stSegConflict
  else stOk

/-! ### Deadlines and the heap -/

/-- The first latch time of a series that is strictly after a tick (R364). -/
def latchAfter (t0 period now : Nat) : Nat :=
  if now < t0 then t0 else if period = 0 then t0 else t0 + ((now - t0) / period + 1) * period

/-- The first latch time of a head strictly after a tick (R378): a timing that waits is in force after the head's next
latch (R368). -/
def nextLatch (h : Head) (now : Nat) : Nat :=
  match h.newTiming with
  | none => latchAfter h.t0 h.period now
  | some (t0, p) =>
    let next := h.t0 + h.nextLatch * h.period
    if now < next then next else latchAfter t0 p now

/-- R318: the deadline of work that becomes ready now. -/
def pacedDeadline (s : State) (q : Queue) (deadline : Nat) : Nat :=
  if deadline ≠ 0 || !q.paced then deadline
  else match mapGet s.pacing q.owner with
    | none => 0
    | some h =>
      let l := nextLatch (mapGetD s.heads h {}) s.time
      if l ≤ q.lead then 1 else l - q.lead

/-- R315: the key of a deadline. -/
def deadlineKey (d : Nat) : Nat := if d = 0 then 2 ^ 64 - 1 else d

/-- Entries of the deadline heap in use. -/
def heapUsed (s : State) : Nat := (s.launches.filter (·.inHeap)).length

/-- R315: the door through which a class enters stands open. -/
def heapOpen (s : State) (cls : Nat) : Bool :=
  if cls = 1 then decide (heapUsed s < 256) else decide (heapUsed s + 32 < 256)

/-- The frame an owner's work taken now runs in (R371). -/
def currentFrame (s : State) (owner : Nat) : Nat := (mapGetD s.lf owner 0xffffffff + 1) % 2 ^ 32

/-- Ready work made of a record, in a frame of its owner: real-time and privileged work enters the heap at once where its
door is open (R315); best-effort work waits for its queue's deficit. -/
def makeLaunchIn (frame : Nat) (s : State) (src : Source) (q : Queue) (r : LaunchRec) (deadline : Nat) : State :=
  let enter := q.cls != 0 && heapOpen s q.cls
  let l : Launch :=
    { id := s.nextLaunch, src := src, queue := q.no, world := q.world, owner := q.owner, cls := q.cls
      frame := frame, record := r, key := deadlineKey (pacedDeadline s q deadline)
      total := r.gX * r.gY * r.gZ, inHeap := enter, since := s.time }
  { s with launches := s.launches ++ [l], nextLaunch := s.nextLaunch + 1 }

/-- Ready work of a packet, in the frame in which it is taken (R371). -/
def makeLaunch (s : State) (src : Source) (q : Queue) (r : LaunchRec) (deadline : Nat) : State :=
  makeLaunchIn (currentFrame s q.owner) s src q r deadline

/-- Work enters the heap now: entries of equal key keep their order of entry (R315), the order of the list. -/
def enterNow (s : State) (l : Launch) : State :=
  { s with launches := s.launches.filter (·.id != l.id) ++ [{ l with inHeap := true }] }

/-- The launch is a pass of a tile (R352). Its groves are placed on the resolver's core (R353); it is no entry of the heap. -/
def isPass (l : Launch) : Bool := match l.src with
  | .tilePass .. => true
  | _ => false

/-- R315: work that waits for its class's door enters the heap, in order; best-effort work does not pass here. -/
def enterHeap (s : State) : State :=
  s.launches.foldl (fun s l =>
    match getLaunch s l.id with
    | some l =>
      if !l.inHeap && !isPass l && l.cls != 0 && l.next == 0 && decide (0 < l.total) && !l.killed && heapOpen s l.cls then
        enterNow s l
      else s
    | none => s) s

/-! ### Launch nodes -/

/-- R312: a node whose count has reached 0 becomes ready: a relay node is done; a record is read and checked, and
its work is ready work of the node's queue, in the frame in which the GRAPH was taken (R277), or the node is done with the
status that the checks give. A queue that has come to another world since the arming gives DENIED. A record in host memory
whose translation is wanting is read at the next decrement or examination. -/
def nodeReady (s : State) (n : Nat) : State :=
  match mapGet s.nodes n with
  | none => s
  | some nd =>
    if !nd.armed || nd.ready || decide (0 < nd.count) then s
    else
      let finish (s : State) (st : Nat) : State :=
        { s with nodes := mapSet s.nodes n { nd with ready := true, done := some st } }
      match getQueue s nd.queue with
      | none => finish s stDenied
      | some q =>
        if q.world ≠ nd.world then finish s stDenied
        else if nd.record = 0 then finish s stOk
        else match readRecord s q.world nd.record with
          | .error c => requestAts (readEffects s q.world nd.record.toNat 256) q.world c.2
          | .ok (.error st, s) => finish s st
          | .ok (.ok r, s) =>
            let st := segmentStatus s q.world q.owner r
            if st ≠ stOk then finish s st
            else
              makeLaunchIn nd.frame { s with nodes := mapSet s.nodes n { nd with ready := true } } (.node n) q r
                (if nd.rdl = 0 then 0 else s.time + nd.rdl)

/-- R312, R314: a decrement of a launch node: ignored unless it is armed and its count is above 0. -/
def decrementNode (s : State) (n : Nat) : State :=
  match mapGet s.nodes n with
  | none => s
  | some nd =>
    if nd.armed && decide (0 < nd.count) then
      nodeReady { s with nodes := mapSet s.nodes n { nd with count := nd.count - 1 } } n
    else s

end Sys2Proof.Machine
end

