-- ==== Sys2Proof/WellFormed.lean ====
section
/-! DEFINITION. Which terms of `Instr` are instructions of the part: the static conditions of R164 to R169
and of each instruction's chapter (types, `.sat`, pairs, groups, conditions, limits placed at decode). Limits
that depend on the launch record, on a format slot or on data are checked by the machine. -/

namespace Sys2Proof

/-! ### Register codes and roles (R106, R107, R164) -/

/-- The 7-bit code of a register (R106). -/
def Reg.code : Reg → Nat
  | .v n => n.val
  | .s n => 96 + n.val
  | .q n => 120 + n.val
  | .sap => 126
  | .zero => 127

/-- The register of a 7-bit code (R106). -/
def Reg.ofCode (c : Nat) : Reg :=
  if h : c < 96 then .v ⟨c, h⟩
  else if h : c - 96 < 24 then .s ⟨c - 96, h⟩
  else if h : c - 120 < 6 then .q ⟨c - 120, h⟩
  else if c = 126 then .sap else .zero

/-- A code that may stand in a pair field: even and not 126 (R107). -/
def pairCode (c : Nat) : Bool := c % 2 == 0 && c < 126
/-- Four consecutive v registers (R162, R276, R279). -/
def quadCode (c : Nat) : Bool := c % 4 == 0 && c ≤ 92
/-- The register names an aligned pair (R107). -/
def Reg.isPair (r : Reg) : Bool := pairCode r.code
/-- The register names a group of four v registers. -/
def Reg.isQuad (r : Reg) : Bool := quadCode r.code
/-- A thread register: one value for each thread (R106). -/
def Reg.isThread : Reg → Bool
  | .v _ | .q _ => true
  | _ => false
/-- A uniform destination (R107): s0 to s23 or sap. -/
def Reg.isUniform : Reg → Bool
  | .s _ | .sap => true
  | _ => false

/-! ### The typed integer shapes -/

/-- What a typed integer instruction accepts (R172, R174 to R180): its types, the types that take `.sat`, the I
form, and which of its register fields are pairs under a type. -/
structure TSpec where
  types : List ITy
  sats : List ITy
  iForm : Bool
  pd : ITy → Bool
  pa : ITy → Bool
  pb : ITy → Bool
  pc : ITy → Bool

/-- A field that is a pair exactly under b64. -/
def wideB : ITy → Bool
  | .b64 => true
  | _ => false
/-- A field that is single under every type. -/
def single (_ : ITy) : Bool := false
/-- A field that is a pair under every type. -/
def always64 (_ : ITy) : Bool := true

/-- All three types. -/
def tAll : List ITy := [.u32, .i32, .b64]

/-- add, sub, mul, mad (R174). -/
def sArith : TSpec := ⟨tAll, [.u32, .i32], true, wideB, wideB, wideB, wideB⟩
/-- mulhi, rem, min, max (R174). -/
def sNarrow : TSpec := ⟨[.u32, .i32], [], true, single, single, single, single⟩
/-- div (R174). -/
def sDiv : TSpec := ⟨[.u32, .i32], [.i32], true, single, single, single, single⟩
/-- abs (R174). -/
def sAbs : TSpec := ⟨[.i32], [.i32], false, single, single, single, single⟩
/-- neg (R174). -/
def sNeg : TSpec := ⟨[.i32, .b64], [.i32], false, wideB, wideB, single, single⟩
/-- and, or, xor, not, andn (R176). -/
def sLogic : TSpec := ⟨tAll, [], true, wideB, wideB, wideB, wideB⟩
/-- shl (R176): the amount is single. -/
def sShl : TSpec := ⟨tAll, [.u32, .i32], true, wideB, wideB, single, single⟩
/-- shr, rotl (R176). -/
def sShr : TSpec := ⟨[.u32, .b64], [], true, wideB, wideB, single, single⟩
/-- sar (R176). -/
def sSar : TSpec := ⟨[.i32, .b64], [], true, wideB, wideB, single, single⟩
/-- bfx (R177): the control word is single. -/
def sBfx : TSpec := ⟨tAll, [], true, wideB, wideB, single, single⟩
/-- bfi (R177). -/
def sBfi : TSpec := ⟨[.u32, .b64], [], false, wideB, wideB, wideB, single⟩
/-- clz, popc (R178): rd is single. -/
def sCount : TSpec := ⟨[.u32, .b64], [], false, single, wideB, single, single⟩
/-- brev (R178). -/
def sBrev : TSpec := ⟨[.u32, .b64], [], false, wideB, wideB, single, single⟩
/-- ilv (R179): the sources are single. -/
def sIlv : TSpec := ⟨[.u32, .b64], [], false, wideB, single, single, single⟩
/-- dilv (R179): rd is single. -/
def sDilv : TSpec := ⟨[.u32, .b64], [], true, single, wideB, single, single⟩
/-- lea (R180): rd and ra are pairs. -/
def sLea : TSpec := ⟨[.u32, .i32], [], false, always64, always64, single, single⟩
/-- mulw (R174): rd is a pair. -/
def sMulw : TSpec := ⟨[.u32, .i32], [], true, always64, single, single, single⟩

/-- A register that is a pair where the shape asks for one. -/
def okPair (p : Bool) (r : Reg) : Bool := !p || r.isPair

/-- A second source that suits the shape: an immediate only in the I form. -/
def okB (iForm p : Bool) : RegImm → Bool
  | .reg r => okPair p r
  | .imm _ => iForm

/-- The type and sat fields suit the shape. -/
def TSpec.okTy (t : TSpec) (ty : ITy) (sat : Bool) : Bool :=
  t.types.contains ty && (!sat || t.sats.contains ty)

/-- A two-source instruction of the shape. -/
def TSpec.okBin (t : TSpec) (ty : ITy) (sat : Bool) (rd ra : Reg) (b : RegImm) : Bool :=
  t.okTy ty sat && okPair (t.pd ty) rd && okPair (t.pa ty) ra && okB t.iForm (t.pb ty) b
/-- A one-source instruction of the shape. -/
def TSpec.okUn (t : TSpec) (ty : ITy) (sat : Bool) (rd ra : Reg) : Bool :=
  t.okTy ty sat && okPair (t.pd ty) rd && okPair (t.pa ty) ra
/-- A three-source instruction of the shape. -/
def TSpec.okTer (t : TSpec) (ty : ITy) (sat : Bool) (rd ra rb rc : Reg) : Bool :=
  t.okTy ty sat && okPair (t.pd ty) rd && okPair (t.pa ty) ra && okPair (t.pb ty) rb && okPair (t.pc ty) rc

/-! ### Other shapes -/

/-- Elements per 32-bit register (R203). -/
def Fmt.perReg : Fmt → Nat
  | .fp32 | .i32 => 1
  | .fp16 | .bf16 => 2
  | .e4m3 | .e5m2 | .e3m2 | .e2m3 | .i8 | .u8 => 4
  | .e2m1 | .i4 | .o4 => 8

/-- A conversion group of `n` registers may start at `r` (R203): v registers, the first a multiple of n. -/
def groupOk (n : Nat) (r : Reg) : Bool :=
  n ≤ 1 || match r with
    | .v k => k.val % n == 0
    | _ => false

/-- The register groups of a conversion between two formats (R203). -/
def cvtGroups (dst src : Fmt) (rd ra : Reg) : Bool :=
  groupOk (Nat.max src.perReg dst.perReg / dst.perReg) rd && groupOk (Nat.max src.perReg dst.perReg / src.perReg) ra

/-- A side of a conversion with no slot uses no scale register: its field holds code 0 (R204). -/
def FmtSel.scaleReg (f : FmtSel) (r : Reg) : Bool :=
  match f with
  | .fmt _ => r.code == 0
  | .slot _ => true

/-- The static conditions of cvt (R203, R204). -/
def okCvt (dst src : FmtSel) (rd ra rb rc : Reg) : Bool :=
  src.scaleReg rb && dst.scaleReg rc &&
    match dst, src with
    | .fmt d, .fmt s => cvtGroups d s rd ra
    | _, _ => true

/-- Sizes a store accepts (R216). -/
def Size.storeOk : Size → Bool
  | .i8 | .i16 => false
  | _ => true

/-- rd of a load or store under its size (R162). -/
def Size.rdOk (z : Size) (r : Reg) : Bool :=
  match z with
  | .b64 => r.isPair
  | .b128 => r.isQuad
  | _ => true

/-- The base register of an address (R162): a pair in the global space. -/
def Space.baseOk (sp : Space) (ra : Reg) : Bool :=
  match sp with
  | .global => ra.isPair
  | .scratch => true

/-- rd of an atomic other than cas (R227). -/
def atomRd (wide : Bool) (rd : Reg) : Bool := !wide || rd.isPair
/-- rd of atom.cas (R227). -/
def casRd (wide : Bool) (rd : Reg) : Bool :=
  if wide then rd.code % 4 == 0 && rd.code ≤ 116 else rd.isPair

/-- A reduction that bar accepts (R232). -/
def BarRed.ok : BarRed → Bool
  | .red .and .f32 | .red .or .f32 | .red .xor .f32 => false
  | _ => true

/-- The special-register numbers that R110 assigns. -/
def srAssigned : List Nat :=
  [0x00, 0x01, 0x02, 0x03, 0x04, 0x05, 0x06, 0x07, 0x08, 0x09, 0x0a, 0x0b, 0x0c, 0x0d, 0x10, 0x12, 0x14, 0x15,
   0x16, 0x18, 0x1a, 0x1c, 0x1e, 0x20, 0x22, 0x23, 0x24, 0x25, 0x26, 0x27]
/-- The 64-bit ones (R110). -/
def srWide : List Nat := [0x10, 0x12, 0x18, 0x1a, 0x1c, 0x1e, 0x20]
/-- The writable ones (R110): fmode, fstat, eflag, slim. -/
def srWritable : List Nat := [0x14, 0x15, 0x16, 0x20]

/-- A register suits a special register's width (R284). -/
def srRegOk (num : Nat) (r : Reg) : Bool := !srWide.contains num || r.isPair

/-- The static well-formedness of an instruction. An event, a packet or a host's act has no instruction word; its
own limits are checked where it takes effect. -/
def Instr.wf : Instr → Bool
  | .add _ ty sat rd ra b | .sub _ ty sat rd ra b | .mul _ ty sat rd ra b => sArith.okBin ty sat rd ra b
  | .mulhi _ ty rd ra b | .rem _ ty rd ra b | .min _ ty rd ra b | .max _ ty rd ra b => sNarrow.okBin ty false rd ra b
  | .mad _ ty sat rd ra rb rc => sArith.okTer ty sat rd ra rb rc
  | .div _ ty sat rd ra b => sDiv.okBin ty sat rd ra b
  | .abs _ sat rd ra => sAbs.okUn .i32 sat rd ra
  | .neg _ ty sat rd ra => sNeg.okUn ty sat rd ra
  | .and _ ty rd ra b | .or _ ty rd ra b | .xor _ ty rd ra b | .andn _ ty rd ra b => sLogic.okBin ty false rd ra b
  | .not _ ty rd ra => sLogic.okUn ty false rd ra
  | .shl _ ty sat rd ra b => sShl.okBin ty sat rd ra b
  | .shr _ ty rd ra b | .rotl _ ty rd ra b => sShr.okBin ty false rd ra b
  | .sar _ ty rd ra b => sSar.okBin ty false rd ra b
  | .bfx _ ty rd ra b => sBfx.okBin ty false rd ra b
  | .bfi _ ty rd ra rb rc => sBfi.okTer ty false rd ra rb rc
  | .clz _ ty rd ra | .popc _ ty rd ra => sCount.okUn ty false rd ra
  | .brev _ ty rd ra => sBrev.okUn ty false rd ra
  | .ilv _ ty rd ra rb rc => sIlv.okTer ty false rd ra rb rc
  | .dilv _ ty rd ra b => sDilv.okBin ty false rd ra b
  | .lea _ ty rd ra rb rc => sLea.okTer ty false rd ra rb rc
  | .mov _ ty rd a => okPair (wideB ty) rd && okB true (wideB ty) a
  | .movi _ ty rd _ => okPair (wideB ty) rd
  | .mulw _ ty rd ra b => sMulw.okBin ty false rd ra b
  | .cmp _ ty _ _ ra b => okPair (wideB ty) ra && okB true (wideB ty) b
  | .pand .. | .por .. | .pxor .. | .pnot .. | .pmov .. => true
  | .sel _ b64 rd ra rb _ => okPair b64 rd && okPair b64 ra && okPair b64 rb
  | .voteAny .. | .voteAll .. => true
  | .voteBallot _ rd _ => rd.isPair
  | .xch .. => true
  | .scan _ ty sat op rd _ => !wideB ty && (!sat || op == .add) && !rd.isUniform
  | .bra .. | .braU .. | .brx .. | .callx .. | .ret .. | .meet .. | .meetPop .. | .exit .. | .nop .. => true
  | .call _ fc _ => 1 ≤ fc.toNat && fc.toNat ≤ 96
  | .wait .. => true
  | .fadd .. | .fsub .. | .fmul .. | .fma .. | .fmin .. | .fmax .. | .fabs .. | .fneg .. | .fclass .. => true
  | .fcmp _ ty _ pd _ _ => ty == .f32 || pd.val % 2 == 0
  | .cvt _ dst src _ rd ra rb rc => okCvt dst src rd ra rb rc
  | .cvtScaleComputing _ d src _ rd ra rb rc => okCvt (.slot d) src rd ra rb rc
  | .pack6 .. | .unpack6 .. => true
  | .pack _ var rm _ _ _ => var != .b16 || rm == .rn
  | .unpack _ _ rd _ => rd.isPair
  | .sinr .. | .cosr .. | .exp2 .. | .log2 .. | .rcp .. | .rsqrt .. | .sqrt .. => true
  | .ld _ _ _ z rd ra _ _ => z.rdOk rd && ra.isPair
  | .lds _ _ z rd _ _ _ | .ldw _ z rd _ _ _ => z.rdOk rd
  | .st _ _ _ z rd ra _ _ => z.storeOk && z.rdOk rd && ra.isPair
  | .sts _ _ z rd _ _ _ => z.storeOk && z.rdOk rd
  | .pref _ _ ra _ _ => ra.isPair
  | .atomAdd _ _ _ _ sp wide rd ra _ _ | .atomAnd _ _ _ _ sp wide rd ra _ _ | .atomOr _ _ _ _ sp wide rd ra _ _
  | .atomXor _ _ _ _ sp wide rd ra _ _ | .atomXchg _ _ _ _ sp wide rd ra _ _ | .atomInc _ _ _ _ sp wide rd ra _ _ =>
    atomRd wide rd && sp.baseOk ra
  | .atomMin _ _ _ _ _ sp wide rd ra _ _ | .atomMax _ _ _ _ _ sp wide rd ra _ _ => atomRd wide rd && sp.baseOk ra
  | .atomCas _ _ _ _ sp wide rd ra _ _ => casRd wide rd && sp.baseOk ra
  | .atomFadd _ _ _ _ sp _ ra _ _ => sp.baseOk ra
  | .fence .. => true
  | .bar _ _ red rd ra => red.ok && (red != .none || (rd.code == 0 && ra.code == 0))
  | .waitn .. | .waitnTake .. | .ntfy .. | .graft .. => true
  | .attach _ _ _ ra | .detach _ ra | .segfree _ _ ra => ra.isPair
  | .enq _ _ w rd _ => okPair w rd
  | .seqw _ _ w rd ra => okPair w rd && okPair w ra
  | .mz .. | .mma .. => true
  | .mmaSp _ _ _ _ rc _ _ | .mconv _ _ _ _ rc _ _ => rc != .zero
  | .mld .. | .mst .. => true
  | .bin .. | .discard .. => true
  | .pout _ fmt _ ra => fmt == .rgba8 || ra.isPair
  | .smp _ _ fmt rd _ _ => if fmt == .rgba8 then rd.isPair else rd.isQuad
  | .rqOpen _ _ _ _ rd _ rb => rd.isQuad && rb.isPair
  | .rqNext _ rd _ => rd.isQuad
  | .rqClose .. | .nreq .. | .nget .. => true
  | .mfs _ rd n => srAssigned.contains n.val && srRegOk n.val rd
  | .mts _ rd n => srWritable.contains n.val && srRegOk n.val rd
  | .bkpt .. | .trap .. | .fret .. => true
  | _ => true

/-- The well-formed terms. -/
abbrev Instr.WellFormed (i : Instr) : Prop := i.wf = true

/-- The rows that have an instruction word: the instructions a strand issues. `cvtScaleComputing` shares cvt's
words; which of the two a word is depends on a format slot (R204, R205). -/
def Instr.isWord : Instr → Bool
  | .cvtScaleComputing .. => false
  | .faultRecordDeferredWrite .. | .haltRelease .. | .walkComplete .. | .parkWake .. | .laneGrant .. | .forcedIssue ..
  | .graftDeadlockBreak .. | .barrierArrival .. | .waitnTimeout .. | .memoryAccessComplete .. | .epochWrap
  | .wsRefreshWindow .. | .controlEccKill .. | .matrixOpStart .. | .matrixOpComplete .. | .nreqBatchStart ..
  | .nreqComplete .. | .traversalReturn .. | .cardAdmit .. | .cardStart .. | .cardComplete .. | .seqCardComplete ..
  | .peerCopyAck .. | .segmentLineLand .. | .segmentEvictionComplete .. | .strandEnd .. | .contextSave ..
  | .contextRestore .. | .strandRestart .. | .strandWindowWrite .. | .doorbellWrite .. | .queueExamination ..
  | .packetTake .. | .launch .. | .graph .. | .draw .. | .notify .. | .present .. | .segdef .. | .wsload ..
  | .wsloadRegionWrite .. | .qdef .. | .qreset .. | .tlbinv .. | .tlbInvalidationComplete .. | .nodedef .. | .nmap ..
  | .budget .. | .maprect .. | .desc .. | .grant .. | .withdraw .. | .plane .. | .head .. | .grantFree ..
  | .packetCompletion .. | .nodeComplete .. | .deficitRoundRobin | .grovePlacement | .preemption | .budgetPeriod
  | .notifyWrite .. | .tileResolve .. | .tileSecondResolution .. | .tileOutputWrite .. | .latch ..
  | .compositionComplete .. | .worldCreate | .worldBind | .worldUnbind | .worldDestroy | .fwStage | .fwActivate
  | .mailboxUndefinedCommand | .lockInterface .. | .startInterface .. | .stopInterface .. | .quiesce .. | .resume ..
  | .tdiError .. | .atsInvalidateRequest .. | .atsInvalidateCompletion .. | .atsDrainTimeout .. | .entropyHealthFail
  | .entropyReseed | .entropyStartupRerun | .flitReceive .. | .keyUpdate .. | .spdmSession .. | .fundamentalReset
  | .pfFlr | .vfFlr .. | .featureCommit | .latencyToleranceWrite .. | .powerStateEntry | .powerEntryComplete
  | .powerStateExit | .s0Reached | .sensorRead .. | .clockStep | .thermalTrip | .registerWrite .. | .dpLinkTraining ..
  | .cxlMemHostAccess .. | .atsTranslationCompletion .. | .ideStreamKeying .. => false
  | _ => true

end Sys2Proof
end

