-- ==== Sys2Proof/Machine/Ops.lean ====
section
/-! DEFINITION. Operations over strands and their registers (R106 to R112), notify registers and fault records
(R313, R314, R325 to R329), taking an exception and returning from one (R131, R132, R330), and the issue of an
instruction (R120 to R132). -/

namespace Sys2Proof.Machine

/-! ### Strands, launches, groves -/

def getStrand (s : State) (h : Nat) : Option Strand := s.strands.find? (·.home == h)

def setStrand (s : State) (st : Strand) : State :=
  { s with strands := s.strands.map fun x => if x.home = st.home then st else x }

def getGrove (s : State) (id : Nat) : Option Grove := s.groves.find? (·.id == id)

def setGrove (s : State) (g : Grove) : State :=
  { s with groves := s.groves.map fun x => if x.id = g.id then g else x }

/-- The launch record of a strand's launch. -/
def strandRecord (s : State) (st : Strand) : LaunchRec := ((getLaunch s st.launch).map (·.record)).getD {}

/-- The index of a lane: 128 c + 32 m + n (R27). -/
def laneIndex (core limb lane : Nat) : Nat := 128 * core + 32 * limb + lane

/-- R27: the home identity of slot k of a lane. -/
def homeOf (core limb lane slot : Nat) : Nat := 9 * laneIndex core limb lane + slot

def strandLane (st : Strand) : Nat := laneIndex st.core st.limb st.lane

/-! ### Zeroed stores (R390) -/

/-- The limb of a store, as 4 core + limb. -/
def storeLimb : Store → Nat
  | .main lane | .understory lane => lane / 32
  | .tiles limb | .control limb => limb

/-- The store was zeroed, and nothing has been left in it since (R390). -/
def storeZero (s : State) (x : Store) : Bool := s.cleared.contains (storeLimb x) && !s.used.contains x

/-- Something is left in a store. -/
def useStore (s : State) (x : Store) : State := if s.used.contains x then s else { s with used := x :: s.used }

/-- The part of its lane that holds a strand's registers (R13). -/
def strandStore (st : Strand) : Store := if st.slot = 8 then .understory (strandLane st) else .main (strandLane st)

/-- A strand leaves its stores, with what it wrote there. -/
def leaveStores (s : State) (st : Strand) : State :=
  if st.resident then
    let s := useStore (useStore s (strandStore st)) (.control (4 * st.core + st.limb))
    if st.ntiles = 0 then s else useStore s (.tiles (4 * st.core + st.limb))
  else s

/-- R329: the handle of an identity and generation. -/
def handleOf (home gen : Nat) : Nat :=
  gen * 2 ^ 24 + home / 9 / 128 * 2 ^ 17 + home / 9 / 32 % 4 * 2 ^ 15 + home / 9 % 32 * 2 ^ 10 + home % 9 * 2 ^ 6

/-! ### Threads and registers -/

def getThread (st : Strand) (t : Nat) : Thread := st.threads.getD t { pc := 0, exited := true }

def setThread (st : Strand) (t : Nat) (th : Thread) : Strand := { st with threads := st.threads.set t th }

/-- The link below the current frame (R113): the caller's frame size, where there is a caller. -/
def linkWord (st : Strand) (th : Thread) (t : Nat) : Option Word :=
  if th.base = 0 then none else mapGet st.vregs (64 * (th.base - 1) + t)

/-- R112: the stack slot that vn names, where it lies in the window. -/
def windowSlot (st : Strand) (t n : Nat) : Option Nat :=
  let th := getThread st t
  if n < th.fsize then some (th.base + n)
  else match linkWord st th t with
    | none => none
    | some l =>
      let f' := fld l.toNat 0 7
      if n < th.fsize + f' ∧ f' < th.base then some (th.base - 1 - f' + (n - th.fsize)) else none

/-- R10: the register awaits the value of a load that no `wait` has counted. -/
def shadowed (st : Strand) (k : RKey) : Bool := st.shadow.any (·.1 == k)

/-- The key of a register of thread t; none for `zero` and outside the window. -/
def regKey (st : Strand) (t : Nat) : Reg → Option RKey
  | .v n => (windowSlot st t n).map fun j => .v (64 * j + t)
  | .s n => some (.s n)
  | .q n => some (.q (64 * n + t))
  | .sap => some .sap
  | .zero => none

/-- What a stack slot holds that has not been written: an undefined value (R9), but 0 in a store that nothing has used since
it was zeroed (R390). -/
def slotInit (free : Nat) (st : Strand) (n : Nat) : Word := if n / 64 < st.blank then 0 else Config.freeWord free 0 n

/-- What a tile element holds that has not been written (R108, R390). -/
def tileInit (free : Nat) (st : Strand) (n : Nat) : Word := if st.blankTiles then 0 else Config.freeWord free 7 n

/-- The value at a key; `free` numbers the undefined values of this step (R6). -/
def readKey (free : Nat) (st : Strand) (k : RKey) : Word :=
  if shadowed st k then
    (match k with
     | .v n => Config.freeWord free 0 n
     | .q n => Config.freeWord free 1 n
     | .s n => Config.freeWord free 2 n
     | .sap => Config.freeWord free 3 0)
  else match k with
    | .v n => mapGetD st.vregs n (slotInit free st n)
    | .q n => mapGetD st.qregs n (Config.freeWord free 1 n)
    | .s n => mapGetD st.sregs n 0
    | .sap => st.sap

/-- Reads a register for thread t (R106, R107, R112). -/
def readReg (free : Nat) (st : Strand) (t : Nat) (r : Reg) : Word :=
  match r with
  | .zero => 0
  | r => match regKey st t r with
    | some k => readKey free st k
    | none => Config.freeWord free 4 t

/-- Writes the value at a key; a write ends its poison. -/
def writeKey (st : Strand) (k : RKey) (v : Word) : Strand :=
  let st := if st.poisoned.isEmpty then st else { st with poisoned := st.poisoned.filter (· != k) }
  match k with
  | .v n => { st with vregs := mapSet st.vregs n v }
  | .q n => { st with qregs := mapSet st.qregs n v }
  | .s n => { st with sregs := mapSet st.sregs n v }
  | .sap => { st with sap := v }

/-- Writes a register for thread t: `zero` and names outside the window discard the value (R107, R112). -/
def writeReg (st : Strand) (t : Nat) (r : Reg) (v : Word) : Strand :=
  match regKey st t r with
  | some k => writeKey st k v
  | none => st

/-- The register with the next code: the high half of a pair (R107). -/
def nextReg (r : Reg) : Reg := Reg.ofCode (r.code + 1)

def regAfter (r : Reg) : Nat → Reg
  | 0 => r
  | n + 1 => nextReg (regAfter r n)

/-- Reads an aligned pair, the low half first (R107); `zero` reads 0. -/
def readPair (free : Nat) (st : Strand) (t : Nat) (r : Reg) : DWord :=
  match r with
  | .zero => 0
  | r => mk64 (readReg free st t r) (readReg free st t (nextReg r))

def writePair (st : Strand) (t : Nat) (r : Reg) (v : DWord) : Strand :=
  match r with
  | .zero => st
  | r => writeReg (writeReg st t r (lo32 v)) t (nextReg r) (hi32 v)

/-- R107: the destination makes the instruction execute once. -/
def isUniform : Reg → Bool
  | .s _ => true
  | .sap => true
  | _ => false

def getPred (st : Strand) (t : Nat) (p : Fin 16) : Bool := (getThread st t).preds.getLsbD p

def setPred (st : Strand) (t : Nat) (p : Fin 16) (b : Bool) : Strand :=
  let th := getThread st t
  let m : BitVec 16 := BitVec.ofNat 16 (2 ^ p.val)
  setThread st t { th with preds := if b then th.preds ||| m else th.preds &&& ~~~m }

/-- R156: the guard of a thread. -/
def guardTrue (st : Strand) (t : Nat) : Guard → Bool
  | .always => true
  | .onTrue p => getPred st t p
  | .onFalse p => !getPred st t p

/-- R128: where a meeting value points. -/
def meetPc (code : DWord) (m : Word) : DWord := code + 8 * m.setWidth 64

/-- R128: a thread is held. -/
def held (code : DWord) (st : Strand) (t : Nat) : Bool :=
  let th := getThread st t
  th.meet != 0xffffffff && th.pc == meetPc code th.meet
    && (List.range st.threads.length).any fun u =>
      u != t && !(getThread st u).exited && (getThread st u).meet == th.meet && (getThread st u).pc != meetPc code th.meet

/-- The thread of the highest waiting count at or above 256, ties to the lower `tix` (R129). -/
def mostWaiting (code : DWord) (st : Strand) : Option Nat :=
  (List.range st.threads.length).foldl (fun best t =>
    let th := getThread st t
    if th.exited || held code st t || th.waiting < 256 then best
    else match best with
      | none => some t
      | some b => if (getThread st b).waiting < th.waiting then some t else best) none

/-- The lowest PC among threads that have not exited and are not held (R127). -/
def lowestPc (code : DWord) (st : Strand) : Option DWord :=
  (List.range st.threads.length).foldl (fun best t =>
    let th := getThread st t
    if th.exited || held code st t then best
    else match best with
      | none => some th.pc
      | some b => if th.pc.toNat < b.toNat then some th.pc else best) none

/-- R127: the PC that the strand issues next. -/
def issuePc (code : DWord) (st : Strand) : Option DWord :=
  if st.interrupted then some (getThread st st.step).pc
  else match mostWaiting code st with
    | some t => some (getThread st t).pc
    | none => lowestPc code st

/-! ### Runs -/

/-- R124, R107: a new run begins: run temporaries lapse; under preempt mode 01 its entry is kept (R321). -/
def newRun (s : State) (st : Strand) : Strand :=
  { st with
    qregs := []
    rbWait := false
    runHead := true
    runEntry := if (strandRecord s st).preempt = 1 then
        some { threads := st.threads, vregs := st.vregs, sregs := st.sregs, sap := st.sap, fmode := st.fmode, fstat := st.fstat
               slim := st.slim, shadow := st.shadow, poisoned := st.poisoned, mark := s.nextId }
      else none }

/-- The strand after an issue that has completed: the rb bit begins a new run (R124). -/
def nextRun (s : State) (st : Strand) (rb : Bool) : Strand := if rb then newRun s st else { st with runHead := false }

/-! ### Lanes and charges -/

def getLane (s : State) (i : Nat) : Lane := mapGetD s.lanes i {}

/-- The lane's grant ends (R124). -/
def endGrant (s : State) (lane : Nat) : State :=
  { s with lanes := mapSet s.lanes lane { getLane s lane with granted := none, issues := 0, begun := none } }

/-- The grant of the strand's lane ends if the strand holds it. -/
def ungrant (s : State) (st : Strand) : State :=
  if (getLane s (strandLane st)).granted = some st.home then endGrant s (strandLane st) else s

/-- R320: charges n units of 1/128 core-cycle to the budgets of an owner and of its world. -/
def chargeBudget (s : State) (world owner n : Nat) : State :=
  { s with budgets := s.budgets.map fun b =>
      if b.world = world ∧ (b.owner = owner ∨ b.owner = 255) then { b with usedCycles := b.usedCycles + n } else b }

/-- R320: charges the bytes moved at the memory controllers in this step. -/
def chargeBytes (s : State) (world owner : Nat) : State :=
  if s.moved = 0 then s
  else { s with
    moved := 0
    budgets := s.budgets.map fun b =>
      if b.world = world ∧ (b.owner = owner ∨ b.owner = 255) then { b with usedBytes := b.usedBytes + s.moved } else b }

/-- R320: a cap on bytes is exhausted for an owner or its world: new memory requests are held. -/
def bytesExhausted (s : State) (world owner : Nat) : Bool :=
  s.budgets.any fun b => b.world == world && (b.owner == owner || b.owner == 255) && b.bytes != 0
    && decide (b.bytes ≤ b.usedBytes)

/-- R316: the deficit never falls below -2^40 core-cycles. -/
def debit (d : Int) (n : Nat) : Int := max (-(2 : Int) ^ 47) (d - n)

/-- lcm(1 … 32): what every clock, a multiple of 100 MHz up to 3.2 GHz, divides into whole parts. -/
def workScale : Nat := 144403552893600

/-- R410: a launch's work is held to its cost in ticks, and its cycles are longer while the clock is slowed. The parts of
1/128 of a core-cycle at the current clock: 128 × `workScale` / 10 of them are a core's tick. -/
def cycleParts (s : State) : Nat := 100 * workScale / s.power.mhz

/-- R316, R320: charges n units of 1/128 core-cycle of work to a launch, its queue and its budgets. -/
def chargeWork (s : State) (launch n : Nat) : State :=
  match getLaunch s launch with
  | none => s
  | some l =>
    let q := (getQueue s l.queue)
    let period := (q.map (·.period)).getD 0
    let rp := if period = 0 then 0 else s.time / period
    let work := (if l.rtPeriod = rp then l.work else 0) + n * cycleParts s
    let late := l.cls == 1 && decide (10 * work > 128 * workScale * (q.map (·.cost)).getD 0)
    let s := setLaunch s { l with work := work, rtPeriod := rp, overrun := l.overrun || late }
    let s := { s with queues := s.queues.map fun q =>
      if q.no = l.queue ∧ q.cls = 0 then { q with deficit := debit q.deficit n } else q }
    chargeBudget s l.world l.owner n

/-- R316: the cycles from a tick until now, one at least: what a card instance or a matrix operation has occupied its
channel or unit for. -/
def cyclesSince (s : State) (since : Nat) : Nat := max 1 ((s.time - since) * s.power.mhz / 1000)

/-! ### Taking an exception, and returning from one -/

def isFaulted (st : Strand) : Bool :=
  match st.status with
  | .faulted _ => true
  | _ => false

/-- R327: the record of a strand's stop. -/
def faultRecord (st : Strand) (f : FaultInfo) : List DWord :=
  [f.pc, BitVec.ofNat 64 (handleOf st.home st.gen * 2 ^ 32), f.addr,
    recordWord3 0 f.cls f.cause f.detail st.world st.owner (if f.pre then 0 else f.step) (if f.pre then 1 else 0)]

/-- R335: under allstop every other strand of the world stops. -/
def haltWorld (s : State) (w home : Nat) : State :=
  let x := getWorld s w
  if x.fb.allstop then
    let s := setWorld s { x with fb := { x.fb with halted := true } }
    let others := s.strands.filter fun st => st.world == w && st.home != home
    let s := { s with strands := s.strands.map fun st =>
      if st.world = w ∧ st.home ≠ home then { st with halted := true } else st }
    others.foldl ungrant s
  else s

/-- TAKING AN EXCEPTION (R131, R132, R325, R335): the strand stops where it stands, its lane is released, its
record is owed to its world's ring, and the world halts under allstop. The part has no handler address: what
runs next is system software's. Halted strands write no record. -/
def takeException (s : State) (st : Strand) (f : FaultInfo) : State :=
  let s := ungrant (setStrand s { st with status := .faulted f }) st
  if (getWorld s st.world).fb.halted then s
  else haltWorld (oweRecord s st.world (faultRecord st f)) st.world st.home

/-- RETURNING FROM AN EXCEPTION (R330, resume): the strand is eligible again and reissues at its step index. A
strand stopped by a hardware breakpoint is not checked against that one on its first issue. -/
def resumeStrand (s : State) (st : Strand) : State :=
  match st.status with
  | .faulted f =>
    setStrand s { st with status := .ready, skipBp := if f.cls = 0x0e ∧ f.cause = 2 then some f.detail else none }
  | _ => s

/-- R334: instruction stepping stops the strand after an issue that has completed, thread-step stepping after a
single thread-step. -/
def stepStop (s : State) (st : Strand) (pc : DWord) : State :=
  takeException s st { cls := 0x0e, cause := 4, pc := pc, step := st.step }

/-- R334: a completed instruction of a strand that is stepped stops it. -/
def stepped (s : State) (home : Nat) (pc : DWord) : State :=
  match getStrand s home with
  | some st => if st.stepm = 1 ∨ st.stepm = 2 then stepStop s st pc else s
  | none => s

/-! ### Notify registers (R314) and waits that end -/

/-- The threads that move past a strand's waiting instruction: at its PC and not held (R171). -/
def moveWaiters (code : DWord) (st : Strand) (pc : DWord) : Strand :=
  { st with threads := (List.range st.threads.length).map fun t =>
      let th := getThread st t
      if !th.exited && th.pc == pc && !held code st t then { th with pc := pc + 8 } else th }

/-- A waiting instruction at pc completes: its threads move on and the strand is eligible again. -/
def completeWait (s : State) (st : Strand) (pc : DWord) : State :=
  let st := { moveWaiters (strandRecord s st).code st pc with status := .ready }
  stepped (setStrand s (nextRun s st st.rbWait)) st.home pc

/-- The PC at which a strand waits: that of its lead thread. -/
def leadPc (st : Strand) (lead : Nat) : DWord := (getThread st lead).pc

/-- Writes a 32-bit result of a strand-wide instruction for its lead thread (R107). -/
def writeLead (st : Strand) (lead : Nat) (rd : Reg) (v : Word) : Strand := writeReg st lead rd v

/-- Insertion into a list of strands by order of arrival. -/
def insertByArrival (key : Strand → Nat) (x : Strand) : List Strand → List Strand
  | [] => [x]
  | y :: r => if key x < key y then x :: y :: r else y :: insertByArrival key x r

def notifyArrival (st : Strand) : Nat :=
  match st.status with
  | .waitNotify n => n.arrival
  | _ => 0

/-- The strands that wait on a notify register, in order of arrival (R236). -/
def notifyWaiters (s : State) (k : Nat) : List Strand :=
  (s.strands.filter fun st => match st.status with
    | .waitNotify n => n.index == k
    | _ => false).foldl (fun acc st => insertByArrival notifyArrival st acc) []

/-- R236: serves one waiter of register k. -/
def serveWaiter (k : Nat) (s : State) (st : Strand) : State :=
  match st.status with
  | .waitNotify n =>
    let x := mapGetD s.notify k 0
    if n.threshold ≤ x.toNat then
      let s := if n.take then { s with notify := mapSet s.notify k (x - BitVec.ofNat 32 n.threshold) } else s
      let s := acquireActs s st.core .system
      completeWait s (writeLead st n.lead n.rd x) (leadPc st n.lead)
    else s
  | _ => s

def serveWaiters (s : State) (k : Nat) : State := (notifyWaiters s k).foldl (serveWaiter k) s

/-- R314: a notify write of addend a to register k. -/
def notifyAdd (s : State) (k : Nat) (a : Word) : State :=
  let x := mapGetD s.notify k 0 + a
  let e := mapGetD s.ntable k { world := 0, arm := false, node := 0, thresh := 0 }
  let th := if e.thresh = 0 then 1 else e.thresh
  let s := if e.arm && decide (th ≤ x.toNat) then
      decrementNode { s with notify := mapSet s.notify k (x - BitVec.ofNat 32 th) } e.node
    else { s with notify := mapSet s.notify k x }
  serveWaiters s k

/-! ### Fault records (R325, R326) -/

/-- R326: the world has a ring. -/
def hasRing (fb : FaultBlock) : Bool := fb.ring != 0 && decide (4 ≤ fb.lsize) && decide (fb.lsize ≤ 15)

/-- R326: a record is dropped and counted. -/
def loseRecord (s : State) (w : Nat) : State :=
  let x := getWorld s w
  setWorld s { x with fb := { x.fb with lost := min (x.fb.lost + 1) 0xffffffff } }

def ringFull (fb : FaultBlock) : Bool := (fb.wridx - fb.rdidx).toNat == 2 ^ fb.lsize

/-- R325: writes a record to the next slot of a ring with room, then the write index, then makes the notify add. -/
def putRecord (s : State) (w : Nat) (words : List DWord) : State :=
  let x := getWorld s w
  let slot := x.fb.ring.toNat + 32 * (x.fb.wridx.toNat % 2 ^ x.fb.lsize)
  let count := x.fb.wridx.toNat % 2 ^ 32
  let ws := match words with
    | a :: b :: r => a :: (b ||| BitVec.ofNat 64 count) :: r
    | ws => ws
  match frontWrite s 0 slot (ws.flatMap fun v => leList 8 v.toNat) with
  | .error _ => loseRecord s w
  | .ok s =>
    let s := setWorld s { x with fb := { x.fb with wridx := x.fb.wridx + 1 } }
    if x.fb.ne then notifyAdd s x.fb.nidx 1 else s

/-- The kind of a record (R327). -/
def recordKind (words : List DWord) : Nat := (words.getD 3 0).toNat / 2 ^ 56

/-- R326: a record meets its ring: dropped without a ring; on a full one a strand-fault record waits. -/
def writeRecord (s : State) (wr : Nat × List DWord) : State :=
  let x := getWorld s wr.1
  if !hasRing x.fb then loseRecord s wr.1
  else if ringFull x.fb then
    (if recordKind wr.2 = 0 then setWorld s { x with heldRecords := x.heldRecords ++ [wr.2] } else loseRecord s wr.1)
  else putRecord s wr.1 wr.2

/-- Writes the records that this step owes, in their order. -/
def flushRecords (s : State) : State := s.due.foldl writeRecord { s with due := [] }

/-- A record's notify add may end a wait, and a strand that is stepped then owes a record of its own. Each round stops
a stepped strand more, so the last case has nothing to lose. -/
def flushAll : Nat → State → State
  | 0, s => { s with due := [] }
  | n + 1, s => if s.due.isEmpty then s else flushAll n (flushRecords s)

/-! ### The issue of an instruction -/

/-- What a thread-step, or a uniform instruction, does. -/
inductive StepOut
  /-- it completes; the threads that took it move to `next`, or to pc + 8; a watchpoint may have matched: its number and
  the watched access's address -/
  | ok (s : State) (st : Strand) (next : Option DWord) (watch : Option (Nat × Nat))
  /-- it stops the strand at this step, which has done nothing (R131) -/
  | park (s : State) (st : Strand) (c : Park)
  /-- it parks the strand before its first thread-step -/
  | parkPre (s : State) (st : Strand) (c : Park)
  | fault (s : State) (st : Strand) (c : Cause) (detail : Nat) (addr : DWord)
  /-- an instruction that executes once faults at its issue, before any effect -/
  | preFault (s : State) (st : Strand) (c : Cause) (detail : Nat) (addr : DWord)
  /-- the strand begins to wait in a barrier, graft, waitn or seqw -/
  | wait (s : State) (st : Strand) (w : Status)

/-- A step that a watchpoint matches (R334): it completes, and says so. -/
def StepOut.watched (w : Option (Nat × Nat)) : StepOut → StepOut
  | .ok s st next none => .ok s st next w
  | o => o

/-- A park that an issue meets before it reads any register: on a counter, a queue or a drain (R60, R61, R125, R221, R231,
R249, R282, R297). -/
def Park.beforeSteps : Park → Bool
  | .counterFull _ | .acquire | .release | .drain | .drainStores | .channel .. | .chains | .matrixQueue .. | .requestSlot .. => true
  | _ => false

/-- An issue being made: the strand, its PC, the launch record, the threads at the PC from the step index on, and
those of them that are active (R120); the strand as it stood when the issue began (R122). Of an issue that goes on after a
pause: its active threads before the pause, the thread after the last one performed, and the cycles so far (R121). -/
structure Issue where
  st : Strand
  pc : DWord
  lr : LaunchRec
  start : Nat
  present : List Nat
  active : List Nat
  began : Strand := st
  going : Bool := false
  earlier : List Nat := []
  from_ : Nat := 0
  spent : Nat := 0
deriving Repr

/-- The issue that a strand's grant has paused in (log 9). -/
def pausedIssue (s : State) (st : Strand) : Option Begun :=
  if st.interrupted && (getLane s (strandLane st)).granted == some st.home then (getLane s (strandLane st)).begun else none

/-- The strand as it stood when a paused issue of it began. -/
def asBegun (st : Strand) (b : Begun) : Strand :=
  { st with threads := b.threads, vregs := b.vregs, qregs := b.qregs, shadow := b.shadow }

/-- The issue that the issuing strand makes next. A strand has at most 64 threads (R29). -/
def issueOf (s : State) (g : Guard) : Option Issue :=
  match getStrand s s.issuer with
  | none => none
  | some st =>
    let lr := strandRecord s st
    match issuePc lr.code st with
    | none => none
    | some pc =>
      let start := if st.interrupted then st.step else 0
      let present (was : Strand) := (List.range (min st.threads.length 64)).filter fun t =>
        decide (start ≤ t) && !(getThread st t).exited && (getThread st t).pc == pc && !held lr.code was t
      match pausedIssue s st with
      | none =>
        some { st := st, pc := pc, lr := lr, start := start, present := present st
               active := (present st).filter fun t => guardTrue st t g }
      | some b =>
        some { st := st, pc := pc, lr := lr, start := start, present := present (asBegun st b)
               active := (present (asBegun st b)).filter fun t => guardTrue st t g
               began := asBegun st b, going := true, earlier := b.active, from_ := b.next, spent := b.cycles }

/-- R121: the cycles of an issue over the active threads, from a step on. -/
def issueCycles (start : Nat) : List Nat → Nat
  | [] => 0
  | t :: r => max 1 ((t - start + 7) / 8) + issueCycles (t + 1) r

/-- A fault found before any thread-step: class, cause, detail. -/
abbrev PreFault := Nat × Nat × Nat

def illegalOp (detail : Nat) : PreFault := (3, 0, detail)
def formatSlot (cause slot : Nat) : PreFault := (5, cause, slot)
def illegalConvergence : PreFault := (4, 0, 0)

/-- R334: the breakpoint of the strand's world that an issue at pc meets. -/
def breakpointAt (s : State) (st : Strand) (pc : DWord) : Option PreFault :=
  let fb := (getWorld s st.world).fb
  if fb.bpen = 0 then none
  else ((List.range 4).find? fun i => fld fb.bpen i 1 == 1 && fb.bp.getD i 0 == pc && st.skipBp != some i).map fun i =>
    (0x0e, 2, i)

/-- A fault before any thread-step (R132): the threads and the step index stand as they stood. -/
def preFault (s : State) (st : Strand) (pc : DWord) (f : PreFault) (addr : DWord := 0) : State :=
  takeException s st { cls := f.1, cause := f.2.1, detail := f.2.2, pc := pc, addr := addr, pre := true }

/-- R129: waiting counts after an issue of some cycles. -/
def countWaiting (i : Issue) (st : Strand) (cycles : Nat) : Strand :=
  { st with threads := (List.range st.threads.length).map fun t =>
      let th := getThread st t
      if (i.earlier ++ i.active).contains t || held i.lr.code i.began t then { th with waiting := 0 }
      else if th.exited then th
      else { th with waiting := th.waiting + cycles } }

def moveThread (st : Strand) (t : Nat) (pc : DWord) : Strand := setThread st t { getThread st t with pc := pc }

def moveThreads (st : Strand) (ts : List Nat) (pc : DWord) : Strand := ts.foldl (fun st t => moveThread st t pc) st

/-- The strand is no longer inside an instruction. A memory instruction whose requests are all performed has completed
(R125). -/
def clearStep (st : Strand) : Strand :=
  { st with step := 0, interrupted := false, skipBp := none, cut := none, doing := none, partTag := none, outs := st.outs.filter (·.left != 0) }

/-- The strand stopped at thread-step k (R131): the guard-false threads before k have moved on. -/
def stopAt (i : Issue) (st : Strand) (k : Nat) : Strand :=
  let movers := i.present.filter fun t => decide (t < k) && !i.active.contains t
  { moveThreads st movers (i.pc + 8) with step := k, interrupted := true, skipBp := none, cut := none, doing := none }

/-- What a lane keeps of an issue that pauses before thread-step k. -/
def pauseAt (i : Issue) (st : Strand) (k from_ cycles : Nat) : Option Begun :=
  st.doing.map fun ins =>
    { instr := ins, threads := i.began.threads, vregs := i.began.vregs, qregs := i.began.qregs, shadow := i.began.shadow
      active := i.earlier ++ i.active.filter (· < k), next := from_, cycles := cycles }

/-- What an instruction did may have stopped the world under allstop (R335): its own strand is halted as well. -/
def keepHalt (s : State) (st : Strand) : Strand :=
  match getStrand s st.home with
  | some x => if x.halted then { st with halted := true } else st
  | none => st

/-- The lane's account of an issue that has completed (R124): the grant ends at the rb bit, at the 24th issue, and when
every thread has exited; the rb bit ends the run. -/
def afterIssue (s : State) (st : Strand) (rb : Bool) : State :=
  let st := keepHalt s (nextRun s st rb)
  let s := setStrand s st
  let lane := strandLane st
  let l := getLane s lane
  if l.granted = some st.home then
    (if rb || decide (24 ≤ l.issues + 1) || st.threads.all (·.exited) then endGrant s lane
     else { s with lanes := mapSet s.lanes lane { l with issues := l.issues + 1, begun := none } })
  else s

/-- The end of an issue that has completed for all its active threads, but for stepping. -/
def completeIssue (s : State) (i : Issue) (h : Hd) (st : Strand) (cycles : Nat) : State :=
  afterIssue (chargeWork s st.launch (max 1 cycles))
    (countWaiting i (clearStep st) (max 1 cycles)) h.rb

/-- The end of an issue that has completed; under stepping the strand then stops (R334). -/
def endIssue (s : State) (i : Issue) (h : Hd) (st : Strand) (cycles : Nat) : State :=
  stepped (completeIssue s i h st cycles) st.home i.pc

/-- The end of an issue that parks, faults or begins to wait: the grant ends (R124). -/
def stopIssue (s : State) (i : Issue) (st : Strand) (cycles : Nat) : State :=
  let st := keepHalt s (countWaiting i st cycles)
  let s := chargeWork s st.launch cycles
  ungrant (setStrand s st) st

/-- A strand parks (R131). -/
def parkIssue (s : State) (i : Issue) (st : Strand) (c : Park) (cycles : Nat) : State :=
  stopIssue s i { st with status := .parked c } cycles

/-- A strand faults in the course of an issue. -/
def faultIssue (s : State) (i : Issue) (st : Strand) (f : FaultInfo) (cycles : Nat) : State :=
  let s := stopIssue s i st cycles
  match getStrand s st.home with
  | some st => takeException s st f
  | none => s

/-- What has become of an issue's thread-steps. -/
inductive StepsOut
  | done (s : State) (st : Strand) (cycles : Nat)
  | parked (s : State) (st : Strand) (c : Park) (cycles : Nat)
  | parkedPre (s : State) (st : Strand) (c : Park)
  | faultedPre (s : State) (st : Strand) (c : Cause) (detail : Nat) (addr : DWord)
  | faulted (s : State) (st : Strand) (f : FaultInfo) (cycles : Nat)
  /-- a watchpoint, or thread-step stepping, stops the strand after a step; `more` is the next active thread -/
  | after (s : State) (st : Strand) (f : FaultInfo) (more : Option Nat) (cycles : Nat)
  | waiting (s : State) (st : Strand) (w : Status)
  /-- the issue pauses between two thread-steps (R133) -/
  | paused (s : State) (st : Strand) (b : Option Begun)

/-- R336: a thread-step that would read a poisoned register. -/
def readsPoison (st : Strand) (t : Nat) (srcs : List Reg) : Bool :=
  !st.poisoned.isEmpty && srcs.any fun r => match regKey st t r with
    | some k => st.poisoned.contains k
    | none => false

/-- R336: a step that reads a poisoned register faults and has done nothing, unless its issue parks before any step. -/
def poisonChecked (s : State) (st : Strand) (t : Nat) (srcs : List Reg) (out : StepOut) : StepOut :=
  if readsPoison st t srcs then
    (match out with
     | .parkPre s' st' c => if c.beforeSteps then .parkPre s' st' c else .fault s st (0x0f, 1) 0 0
     | _ => .fault s st (0x0f, 1) 0 0)
  else out

/-- One thread-step fewer to come before an issue pauses (R133). -/
def nearerCut (cut : Option Nat) (st : Strand) : Strand := { st with cut := cut.map (· - 1) }

/-- The thread-steps of the active threads, in step order (R120, R131, R132). The inactive threads that the lane skips
before one of them are counted from the thread after the last one performed, or from thread 0 (R121). -/
def runSteps (i : Issue) (srcs : List Reg) (f : State → Strand → Nat → StepOut) :
    List Nat → Nat → Nat → State → Strand → StepsOut
  | [], _, cycles, s, st => .done s st cycles
  | t :: ts, from_, cycles, s, st =>
    if st.cut = some 0 then .paused s (stopAt i st t) (pauseAt i st t from_ cycles)
    else
      let cycles := cycles + max 1 ((t - from_ + 7) / 8)
      match poisonChecked s st t srcs (f s st t) with
      | .ok s st next watch =>
        let st := nearerCut st.cut (moveThread st t (next.getD (i.pc + 8)))
        match watch with
        | some (w, a) =>
          .after s st { cls := 0x0d, cause := 0, detail := w * 256 + t, pc := i.pc, addr := BitVec.ofNat 64 a
                        step := ts.headD 0 } ts.head? cycles
        | none =>
          if st.stepm = 2 ∧ ts ≠ [] then
            .after s st { cls := 0x0e, cause := 4, pc := i.pc, step := ts.headD 0 } ts.head? cycles
          else runSteps i srcs f ts (t + 1) cycles s st
      | .park s st c => .parked s (stopAt i st t) c cycles
      | .parkPre s st c => .parkedPre s st c
      | .preFault s st c detail addr => .faultedPre s st c detail addr
      | .fault s st c detail addr =>
        .faulted s (stopAt i st t) { cls := c.1, cause := c.2, detail := detail, pc := i.pc, addr := addr, step := t } cycles
      | .wait s st w => .waiting s st w

/-- The guard-false threads move on past a completed issue (R171). -/
def moveGuardFalse (i : Issue) (st : Strand) : Strand :=
  moveThreads st (i.present.filter fun t => !i.active.contains t) (i.pc + 8)

/-- The state after the thread-steps. -/
def concludeSteps (i : Issue) (h : Hd) : StepsOut → State
  | .done s st cycles => endIssue s i h (moveGuardFalse i st) cycles
  | .parked s st c cycles => parkIssue s i st c cycles
  | .parkedPre s st c => ungrant (setStrand s { st with status := .parked c }) st
  | .faultedPre s st c detail addr => preFault s st i.pc (c.1, c.2, detail) addr
  | .faulted s st f cycles => faultIssue s i st f cycles
  | .after s st f more cycles =>
    match more with
    | some k => faultIssue s i (stopAt i st k) f cycles
    | none =>
      let s := completeIssue s i h (moveGuardFalse i st) cycles
      match getStrand s st.home with
      | some st => takeException s st f
      | none => s
  | .waiting s st w => stopIssue s i { clearStep st with status := w, rbWait := h.rb } 1
  | .paused s st b =>
    let s := setStrand s (keepHalt s st)
    { s with lanes := mapSet s.lanes (strandLane st) { getLane s (strandLane st) with begun := b } }

/-- The records that a step owes are written when it ends (R325). -/
def settleRecords (s : State) : State := flushAll (s.strands.length + 2) s

/-- Checks before any thread-step (R132 step 1): the instruction's own, then a breakpoint. An issue that goes on after a
pause has passed them. -/
def preChecks (s : State) (i : Issue) (pre : List (Option PreFault)) : Option PreFault :=
  if i.going then none
  else match pre.filterMap id with
    | f :: _ => some f
    | [] => breakpointAt s i.st i.pc

/-- An instruction that runs once for each active thread. -/
def perThread (s : State) (h : Hd) (pre : Issue → List (Option PreFault)) (srcs : List Reg)
    (f : Issue → State → Strand → Nat → StepOut) : Host.Outcome State Fault Refusal :=
  match getStrand s s.issuer with
  | none => .fault .noStrand
  | some _ =>
    match issueOf s h.guard with
    | none => .next s
    | some i =>
      match preChecks s i (pre i) with
      | some p => .next (preFault s i.st i.pc p)
      | none => .next (concludeSteps i h (runSteps i srcs (f i) i.active i.from_ i.spent s i.st))

/-- An instruction that runs once, on the uniform unit, for the lead thread (R107, R123); every thread at the PC
moves on with it. Where it takes other than one cycle, `cycles` says how many (R121). -/
def onceUniform (s : State) (h : Hd) (pre : Issue → List (Option PreFault)) (srcs : List Reg) (cycles : Issue → Nat)
    (f : Issue → State → Strand → Nat → StepOut) : Host.Outcome State Fault Refusal :=
  match getStrand s s.issuer with
  | none => .fault .noStrand
  | some _ =>
    match issueOf s h.guard with
    | none => .next s
    | some i =>
      match preChecks s i (pre i) with
      | some p => .next (preFault s i.st i.pc p)
      | none =>
        match i.active with
        | [] => .next (endIssue s i h (moveGuardFalse i i.st) 1)
        | lead :: _ =>
          match poisonChecked s i.st lead srcs (f i s i.st lead) with
            | .ok s st next none => .next (endIssue s i h (moveThreads st i.present (next.getD (i.pc + 8))) (cycles i))
            | .ok s st next (some (w, a)) =>
              let s := completeIssue s i h (moveThreads st i.present (next.getD (i.pc + 8))) (cycles i)
              (match getStrand s st.home with
               | some st =>
                 .next (takeException s st
                   { cls := 0x0d, cause := 0, detail := w * 256 + lead, pc := i.pc, addr := BitVec.ofNat 64 a })
               | none => .next (s))
            | .park s st c => .next (parkIssue s i (stopAt i st lead) c 1)
            | .parkPre s st c => .next (ungrant (setStrand s { st with status := .parked c }) st)
            | .preFault s st c detail addr => .next (preFault s st i.pc (c.1, c.2, detail) addr)
            | .fault s st c detail addr =>
              .next (faultIssue s i (stopAt i st lead)
                { cls := c.1, cause := c.2, detail := detail, pc := i.pc, addr := addr, step := lead } 1)
            | .wait s st w => .next (stopIssue s i { clearStep st with status := w, rbWait := h.rb } (cycles i))

/-- An instruction that runs once where its destination is uniform, else once for each active thread (R107, R171). -/
def byDest (s : State) (h : Hd) (rd : Reg) (pre : Issue → List (Option PreFault)) (srcs : List Reg)
    (f : Issue → State → Strand → Nat → StepOut) : Host.Outcome State Fault Refusal :=
  if isUniform rd then onceUniform s h pre srcs (fun _ => 1) f else perThread s h pre srcs f

/-- A thread-step that only writes registers of the strand. -/
def plainStep (f : Nat → Strand → Nat → Strand) (_ : Issue) (s : State) (st : Strand) (t : Nat) : StepOut :=
  .ok s (f s.free st t) none none

end Sys2Proof.Machine
end

