-- ==== Sys2Proof/Machine/Flags.lean ====
section
/-! DEFINITION. Number formats, scales, format slot records, rounding, flushing and the flags of `fstat`
(R135 to R153). A finite value is an exact rational with a sign, so zeros keep theirs. -/

namespace Sys2Proof.Machine

/-! ### Flags (R153) -/

abbrev Flags := Word

def flagNv : Flags := 1
def flagDz : Flags := 2
def flagOf : Flags := 4
def flagUf : Flags := 8
def flagNx : Flags := 16

def flagIf (b : Bool) (f : Flags) : Flags := if b then f else 0

/-- R153: hardware only sets flags. -/
def raiseFlags (st : Strand) (f : Flags) : Strand := { st with fstat := st.fstat ||| f }

/-! ### Values -/

/-- A value: a NaN, an infinity, or (-1)^neg num / den. -/
inductive FVal
  | nan (signalling : Bool)
  | inf (neg : Bool)
  | fin (neg : Bool) (num den : Nat)
deriving DecidableEq, Repr, Inhabited

def FVal.zero : FVal := .fin false 0 1

def isNan : FVal → Bool
  | .nan _ => true
  | _ => false

def isSignalling : FVal → Bool
  | .nan s => s
  | _ => false

/-- The signed numerator of a finite value. -/
def sgn (neg : Bool) (n : Nat) : Int := if neg then -(n : Int) else n

/-- A floating-point format (R135, R136): its mantissa and exponent widths, its bias, its specials (0 none, 1 as
IEEE, 2 as E4M3) and the bit of its flush-inputs field in `fmode` (R149). -/
structure FFormat where
  width : Nat
  mbits : Nat
  ebits : Nat
  bias : Nat
  specials : Nat
  flushBit : Nat

/-- R135. -/
def floatFormat : Fmt → Option FFormat
  | .fp32 => some ⟨32, 23, 8, 127, 1, 4⟩
  | .fp16 => some ⟨16, 10, 5, 15, 1, 6⟩
  | .bf16 => some ⟨16, 7, 8, 127, 1, 6⟩
  | .e4m3 => some ⟨8, 3, 4, 7, 2, 8⟩
  | .e5m2 => some ⟨8, 2, 5, 15, 1, 8⟩
  | .e3m2 => some ⟨6, 2, 3, 3, 0, 10⟩
  | .e2m3 => some ⟨6, 3, 2, 1, 0, 10⟩
  | .e2m1 => some ⟨4, 1, 2, 1, 0, 10⟩
  | _ => none

def f32 : FFormat := ⟨32, 23, 8, 127, 1, 4⟩
def f16 : FFormat := ⟨16, 10, 5, 15, 1, 6⟩
def bf16 : FFormat := ⟨16, 7, 8, 127, 1, 6⟩

/-- Bits of an element (R135). -/
def fmtWidth : Fmt → Nat
  | .fp32 | .i32 => 32
  | .fp16 | .bf16 => 16
  | .e4m3 | .e5m2 | .i8 | .u8 => 8
  | .e3m2 | .e2m3 => 6
  | .e2m1 | .i4 | .o4 => 4

/-- 2^e as a rational. -/
def pow2Num (e : Int) : Nat := 2 ^ e.toNat
def pow2Den (e : Int) : Nat := 2 ^ (-e).toNat

/-- The value m 2^e. -/
def dyadic (neg : Bool) (m : Nat) (e : Int) : FVal := .fin neg (m * pow2Num e) (pow2Den e)

/-- The exponent field, the mantissa and the sign of a code. -/
def expField (f : FFormat) (c : Nat) : Nat := fld c f.mbits f.ebits
def mantField (f : FFormat) (c : Nat) : Nat := fld c 0 f.mbits
def signField (f : FFormat) (c : Nat) : Bool := fld c (f.mbits + f.ebits) 1 == 1

/-- R136: the value of a code. -/
def decodeFloat (f : FFormat) (c : Nat) : FVal :=
  let e := expField f c
  let m := mantField f c
  let s := signField f c
  if f.specials = 1 ∧ e = 2 ^ f.ebits - 1 then
    (if m = 0 then .inf s else .nan (fld m (f.mbits - 1) 1 == 0))
  else if f.specials = 2 ∧ e = 2 ^ f.ebits - 1 ∧ m = 2 ^ f.mbits - 1 then .nan false
  else if e = 0 then dyadic s m (1 - (f.bias : Int) - f.mbits)
  else dyadic s (2 ^ f.mbits + m) ((e : Int) - f.bias - f.mbits)

/-- The code is subnormal (R136). -/
def isSubnormal (f : FFormat) (c : Nat) : Bool := expField f c == 0 && mantField f c != 0

/-- R149: a flush bit of `fmode`: of inputs at the format's bit, of results one above. -/
def flushesIn (f : FFormat) (fmode : Word) : Bool := fmode.getLsbD f.flushBit
def flushesOut (f : FFormat) (fmode : Word) : Bool := fmode.getLsbD (f.flushBit + 1)

/-- R150 step 1: the value of a source code. -/
def decodeFlush (f : FFormat) (fmode : Word) (c : Nat) : FVal :=
  if isSubnormal f c && flushesIn f fmode then .fin (signField f c) 0 1 else decodeFloat f c

/-- R136, R152: the canonical NaN; formats without NaN have 0 (R148). -/
def canonicalNan (f : FFormat) : Nat :=
  if f.specials = 1 then (2 ^ f.ebits - 1) * 2 ^ f.mbits + 2 ^ (f.mbits - 1)
  else if f.specials = 2 then 0x7f else 0

def signBit (f : FFormat) (neg : Bool) : Nat := if neg then 2 ^ (f.mbits + f.ebits) else 0

/-- R136: the code of the largest finite magnitude. -/
def largestCode (f : FFormat) : Nat :=
  if f.specials = 1 then (2 ^ f.ebits - 1) * 2 ^ f.mbits - 1
  else if f.specials = 2 then 2 ^ (f.mbits + f.ebits) - 2
  else 2 ^ (f.mbits + f.ebits) - 1

def infCode (f : FFormat) : Nat := if f.specials = 1 then (2 ^ f.ebits - 1) * 2 ^ f.mbits else largestCode f

/-! ### Rounding (R147, R148, R151) -/

/-- The mode of a rounding field, the dynamic one from `fmode`.rm (R147): 0 rn, 1 rz, 2 ru, 3 rd, 4 ra, 5 ro. -/
def modeOf (rm : Rm) (fmode : Word) : Nat :=
  match rm with
  | .rn => 0 | .rz => 1 | .ru => 2 | .rd => 3 | .ra => 4 | .ro => 5
  | .dyn => fld fmode.toNat 0 3

/-- R147: the integer nearest n / d under a mode, on the magnitude of a value of the given sign, and whether it
is inexact. -/
def roundQuot (mode : Nat) (neg : Bool) (n d : Nat) : Nat × Bool :=
  let q := n / d
  let r := n % d
  if r = 0 then (q, false)
  else
    let up : Bool := match mode with
      | 0 => decide (d < 2 * r) || (2 * r == d && q % 2 == 1)
      | 1 => false
      | 2 => !neg
      | 3 => neg
      | 4 => decide (d ≤ 2 * r)
      | _ => q % 2 == 0
    (if up then q + 1 else q, true)

/-- ⌊log2 (n / d)⌋ of a positive rational. -/
def floorLog2 (n d : Nat) : Int :=
  let e : Int := (Nat.log2 n : Int) - Nat.log2 d
  if d * pow2Num e ≤ n * pow2Den e then e else e - 1

/-- R148: what an overflowing result becomes. -/
def overflowCode (f : FFormat) (mode : Nat) (neg : Bool) : Nat :=
  let toInf : Bool := match mode with
    | 0 | 4 => true
    | 2 => !neg
    | 3 => neg
    | _ => false
  signBit f neg + (if toInf then infCode f else largestCode f)

/-- R147, R148, R150 step 4, R151: rounds a finite value into a format: its code and flags. -/
def roundFloat (f : FFormat) (mode : Nat) (flushOut : Bool) (neg : Bool) (n d : Nat) : Nat × Flags :=
  if n = 0 then (signBit f neg, 0)
  else
    let emin : Int := 1 - f.bias
    let q : Int := max (floorLog2 n d) emin - f.mbits
    let (m, inexact) := roundQuot mode neg (n * pow2Den q) (d * pow2Num q)
    -- a carry out of the mantissa raises the exponent
    let carry := m == 2 ^ (f.mbits + 1)
    let m := if carry then m / 2 else m
    let q := if carry then q + 1 else q
    if m < 2 ^ f.mbits then
      -- zero or subnormal
      if m = 0 then (signBit f neg, flagIf inexact flagNx)
      else if flushOut then (signBit f neg, flagUf ||| flagNx)
      else (signBit f neg + m, flagIf inexact (flagUf ||| flagNx))
    else
      let e := (q + f.mbits + f.bias).toNat
      let c := e * 2 ^ f.mbits + (m - 2 ^ f.mbits)
      if largestCode f < c then (overflowCode f mode neg, flagOf ||| flagNx)
      else (signBit f neg + c, flagIf inexact flagNx)

/-- R137: the range of an integer format. -/
def intRange : Fmt → Int × Int
  | .i32 => (-2147483648, 2147483647)
  | .i8 => (-128, 127)
  | .u8 => (0, 255)
  | .i4 => (-8, 7)
  | _ => (-7, 7)

/-- R147, R148: rounds a finite value to an integer format. -/
def roundInt (f : Fmt) (mode : Nat) (neg : Bool) (n d : Nat) : Int × Flags :=
  let (m, inexact) := roundQuot mode neg n d
  let v := sgn neg m
  let (lo, hi) := intRange f
  if f = .u8 ∧ v < 0 then (0, flagNv)
  else if v < lo then (lo, flagOf ||| flagNx)
  else if hi < v then (hi, flagOf ||| flagNx)
  else (v, flagIf inexact flagNx)

/-- The code of an integer in two's complement. -/
def intCode (f : Fmt) (v : Int) : Nat := (v % (2 : Int) ^ fmtWidth f).toNat

/-- R139: the value of an outlier nibble. -/
def outlierVal (n : Nat) : FVal := .fin (fld n 3 1 == 1) (2 ^ (fld n 0 3 + 1)) 1

/-- A two's complement nibble. -/
def twos4 (n : Nat) : FVal := if n < 8 then .fin false n 1 else .fin true (16 - n) 1

/-- R139: an O4 byte. -/
def decodeO4 (b : Nat) : FVal × FVal :=
  let l := fld b 0 4
  let h := fld b 4 4
  if l = 8 then (outlierVal h, .zero)
  else if h = 8 then (.zero, outlierVal l)
  else (twos4 l, twos4 h)

/-- The value of a code of a format other than O4, after R150 step 1. -/
def decodeFmt (f : Fmt) (fmode : Word) (c : Nat) : FVal :=
  match floatFormat f with
  | some ff => decodeFlush ff fmode (c % 2 ^ fmtWidth f)
  | none =>
    let w := fmtWidth f
    let c := c % 2 ^ w
    if f = .u8 then .fin false c 1
    else if c < 2 ^ (w - 1) then .fin false c 1 else .fin true (2 ^ w - c) 1

/-- R148, R152, R206: a value rounded into a format other than O4. -/
def encodeFmt (f : Fmt) (mode : Nat) (fmode : Word) (v : FVal) : Nat × Flags :=
  match floatFormat f with
  | some ff =>
    (match v with
     | .nan _ => (canonicalNan ff, flagIf (ff.specials == 0) flagNv)
     | .inf s => (signBit ff s + infCode ff, flagIf (ff.specials != 1) flagNv)
     | .fin s n d => roundFloat ff mode (flushesOut ff fmode) s n d)
  | none =>
    match v with
    | .nan _ => (0, flagNv)
    | .inf s => (intCode f (if s then (intRange f).1 else (intRange f).2), flagNv)
    | .fin s n d => let (v, fl) := roundInt f mode s n d; (intCode f v, fl)

/-- What an element becomes on its way into O4 (R140): NaN, an infinity, or its rounded magnitude. -/
def o4Rounded (mode : Nat) : FVal → Nat × Bool
  | .nan _ => (0, false)
  | .inf _ => (8, false)
  | .fin s n d => roundQuot mode s n d

def isInf : FVal → Bool
  | .inf _ => true
  | _ => false

def isNeg : FVal → Bool
  | .nan _ => false
  | .inf s => s
  | .fin s _ _ => s

/-- The value is exactly 0. -/
def isZero : FVal → Bool
  | .fin _ n _ => n == 0
  | _ => false

/-- R140: the outlier's exponent, and its flags apart from the mate's. -/
def o4Outlier : FVal → Nat × Flags
  | .fin _ n d =>
    let k := floorLog2 n d
    let k := if 3 * (d * pow2Num k) ≤ 2 * n * pow2Den k then k + 1 else k
    let kc := (min (max k 3) 8).toNat
    (kc, flagIf (n != d * 2 ^ kc) flagNx ||| flagIf (decide (8 < k)) flagOf)
  | _ => (8, flagNv)

/-- R140: two values into an O4 byte. -/
def encodeO4 (mode : Nat) (xl xh : FVal) : Nat × Flags :=
  let (nl, il) := o4Rounded mode xl
  let (nh, ih) := o4Rounded mode xh
  let nan := flagIf (isNan xl || isNan xh) flagNv
  let nib (v : FVal) (n : Nat) : Nat := if isNeg v then (16 - n) % 16 else n
  if nl ≤ 7 ∧ nh ≤ 7 then (nib xl nl + 16 * nib xh nh, nan ||| flagIf (il || ih) flagNx)
  else if 7 < nl ∧ 7 < nh then
    (nib xl 7 + 16 * nib xh 7,
      flagIf (isInf xl || isInf xh) flagNv ||| flagIf (!(isInf xl && isInf xh)) (flagOf ||| flagNx))
  else if 7 < nl then
    let (k, fl) := o4Outlier xl
    (8 + 16 * ((if isNeg xl then 8 else 0) + (k - 1)), nan ||| fl ||| flagIf (!isZero xh) flagNx)
  else
    let (k, fl) := o4Outlier xh
    (128 + ((if isNeg xh then 8 else 0) + (k - 1)), nan ||| fl ||| flagIf (!isZero xl) flagNx)

/-! ### Scales and slots (R141 to R146) -/

/-- A valid format slot record (R145). -/
structure Slot where
  fmt : Fmt
  /-- the per-tensor scale: sign, numerator, denominator -/
  ten : Option (Bool × Nat × Nat) := none
  /-- scale source: 0 none, 1 scale array, 2 constant -/
  ssrc : Nat := 0
  cscale : Nat := 0
deriving DecidableEq, Repr, Inhabited

/-- R135: the format of a code. -/
def fmtOfCode (c : Nat) : Option Fmt :=
  match c with
  | 1 => some .fp32 | 2 => some .fp16 | 3 => some .bf16 | 4 => some .e4m3 | 5 => some .e5m2 | 6 => some .e3m2
  | 7 => some .e2m3 | 8 => some .e2m1 | 9 => some .i32 | 10 => some .i8 | 11 => some .u8 | 12 => some .i4 | 13 => some .o4
  | _ => none

/-- A format that takes no block scale (R146). -/
def noBlockScale : Fmt → Bool
  | .fp32 | .fp16 | .bf16 | .i32 => true
  | _ => false

/-- R146: the slot of a record's two words; none when it is invalid. -/
def parseSlot (w : DWord × DWord) : Option Slot :=
  let w0 := w.1.toNat
  match fmtOfCode (fld w0 0 8) with
  | none => none
  | some f =>
    let blen := fld w0 8 7
    let ten := fld w0 15 1 == 1
    let sfmt := fld w0 16 2
    let ssrc := fld w0 18 2
    let cscale := fld w0 24 8
    let t := fld w0 32 32
    let scaled := blen != 0
    let normal := decide (0 < fld t 23 8) && decide (fld t 23 8 < 255)
    if w.2 != 0 || fld w0 20 4 != 0 || (blen != 0 && blen != 32) || decide (2 ≤ sfmt) || ssrc == 3
      || (scaled != (sfmt != 0)) || (scaled != (ssrc != 0))
      || (ssrc != 2 && cscale != 0) || (scaled && noBlockScale f)
      || (ten && f == .i32) || (ten && !normal) || (!ten && t != 0)
    then none
    else some
      { fmt := f
        ten := if ten then (match decodeFloat f32 t with | .fin s n d => some (s, n, d) | _ => none) else none
        ssrc := ssrc, cscale := cscale }

/-- The record of slot fi of a launch. -/
def slotWords (lr : LaunchRec) (i : Nat) : DWord × DWord := lr.slots.getD i (0, 0)

def slotOf (lr : LaunchRec) (i : Nat) : Option Slot := parseSlot (slotWords lr i)

/-- The product with a signed rational. -/
def mulVal (v : FVal) (s : Bool) (n d : Nat) : FVal :=
  match v with
  | .nan q => .nan q
  | .inf t => .inf (t != s)
  | .fin t a b => .fin (t != s) (a * n) (b * d)

/-- R142: an element's value under a block scale code (none: no block scale) and a tensor scale. -/
def applyScale (v : FVal) (e : Option Nat) (ten : Option (Bool × Nat × Nat)) : FVal :=
  let v := match ten with
    | none => v
    | some (s, n, d) => mulVal v s n d
  match e with
  | none => v
  | some e =>
    if e = 255 then .nan false
    else mulVal v false (pow2Num ((e : Int) - 127)) (pow2Den ((e : Int) - 127))

/-- R144: the value divided by the destination's scales. -/
def divideScale (v : FVal) (e : Option Nat) (ten : Option (Bool × Nat × Nat)) : FVal :=
  let v := match ten with
    | none => v
    | some (s, n, d) => mulVal v s d n
  match e with
  | none => v
  | some e =>
    if e = 255 then .nan false
    else mulVal v false (pow2Den ((e : Int) - 127)) (pow2Num ((e : Int) - 127))

/-- R143: the exponent of the largest power of two that a format holds without an outlier. -/
def emaxOf : Fmt → Int
  | .e4m3 => 8
  | .e5m2 => 15
  | .e3m2 => 4
  | .e2m3 | .e2m1 | .i4 | .o4 => 2
  | .i8 => 6
  | .u8 => 7
  | _ => 0

/-- R143: the scale code of a block. -/
def blockScale (f : Fmt) (vs : List FVal) : Nat :=
  let (an, ad) := vs.foldl (fun (m : Nat × Nat) v => match v with
    | .fin _ n d => if m.1 * d < n * m.2 then (n, d) else m
    | _ => m) (0, 1)
  if an = 0 then 0x7f
  else (min (max (floorLog2 an ad - emaxOf f + 127) 0) 254).toNat

/-! ### Arithmetic (R198 to R202) -/

/-- Adds two finite values exactly; an exact zero takes its sign from the operands and the mode (R198). -/
def addVal (mode : Nat) (s1 : Bool) (n1 d1 : Nat) (s2 : Bool) (n2 d2 : Nat) : FVal :=
  let n : Int := sgn s1 n1 * d2 + sgn s2 n2 * d1
  if n = 0 then .fin (if s1 = s2 then s1 else mode == 3) 0 1
  else .fin (decide (n < 0)) n.natAbs (d1 * d2)

/-- The exact sum of two values, none when it is invalid (R198). -/
def sumVal (mode : Nat) : FVal → FVal → Option FVal
  | .nan s, _ => some (.nan s)
  | _, .nan s => some (.nan s)
  | .inf a, .inf b => if a = b then some (.inf a) else none
  | .inf a, _ => some (.inf a)
  | _, .inf b => some (.inf b)
  | .fin s n d, .fin t m e => some (addVal mode s n d t m e)

/-- The exact product of two values, none when it is invalid (R198). -/
def prodVal : FVal → FVal → Option FVal
  | .nan s, _ => some (.nan s)
  | _, .nan s => some (.nan s)
  | .inf a, .inf b => some (.inf (a != b))
  | .inf a, .fin t m _ => if m = 0 then none else some (.inf (a != t))
  | .fin s n _, .inf b => if n = 0 then none else some (.inf (s != b))
  | .fin s n d, .fin t m e => some (.fin (s != t) (n * m) (d * e))

def negVal : FVal → FVal
  | .nan s => .nan s
  | .inf a => .inf (!a)
  | .fin s n d => .fin (!s) n d

/-- R198: the end of a step: NaN, an invalid operation, or the rounded value. -/
def finishArith (f : FFormat) (mode : Nat) (fmode : Word) (snan anyNan : Bool) (y : Option FVal) : Nat × Flags :=
  let nv := flagIf snan flagNv
  match y with
  | none => (canonicalNan f, nv ||| flagNv)
  | some y =>
    if anyNan then (canonicalNan f, nv)
    else match y with
      | .nan _ => (canonicalNan f, nv)
      | .inf s => (signBit f s + infCode f, nv)
      | .fin s n d => let (c, fl) := roundFloat f mode (flushesOut f fmode) s n d; (c, nv ||| fl)

def fAdd (f : FFormat) (mode : Nat) (fmode : Word) (sub : Bool) (a b : Nat) : Nat × Flags :=
  let x := decodeFlush f fmode a
  let y0 := decodeFlush f fmode b
  let y := if sub then negVal y0 else y0
  finishArith f mode fmode (isSignalling x || isSignalling y) (isNan x || isNan y) (sumVal mode x y)

def fMul (f : FFormat) (mode : Nat) (fmode : Word) (a b : Nat) : Nat × Flags :=
  let x := decodeFlush f fmode a
  let y := decodeFlush f fmode b
  finishArith f mode fmode (isSignalling x || isSignalling y) (isNan x || isNan y) (prodVal x y)

/-- R198: a × b + c, rounded once. 0 × ∞ is invalid even with a quiet NaN c. -/
def fFma (f : FFormat) (mode : Nat) (fmode : Word) (a b c : Nat) : Nat × Flags :=
  let x := decodeFlush f fmode a
  let y := decodeFlush f fmode b
  let z := decodeFlush f fmode c
  finishArith f mode fmode (isSignalling x || isSignalling y || isSignalling z) (isNan x || isNan y || isNan z)
    ((prodVal x y).bind fun p => sumVal mode p z)

/-- An order key: a below b, with -0 below +0. -/
def ltVal : FVal → FVal → Bool
  | .inf a, .inf b => a && !b
  | .inf a, _ => a
  | _, .inf b => !b
  | .fin s n d, .fin t m e =>
    if n == 0 && m == 0 then s && !t else decide (sgn s n * e < sgn t m * d)
  | _, _ => false

/-- A code of a value that is representable, through R150 step 4. -/
def exactCode (f : FFormat) (fmode : Word) : FVal → Nat × Flags
  | .nan _ => (canonicalNan f, 0)
  | .inf s => (signBit f s + infCode f, 0)
  | .fin s n d => roundFloat f 0 (flushesOut f fmode) s n d

/-- R199. -/
def fMinMax (f : FFormat) (fmode : Word) (isMax : Bool) (a b : Nat) : Nat × Flags :=
  let x := decodeFlush f fmode a
  let y := decodeFlush f fmode b
  let nv := flagIf (isSignalling x || isSignalling y) flagNv
  let r := if isNan x then y else if isNan y then x
    else if isMax then (if ltVal x y then y else x) else (if ltVal y x then y else x)
  let (c, fl) := exactCode f fmode r
  (c, nv ||| fl)

/-- R200. -/
def fAbsNeg (f : FFormat) (fmode : Word) (neg : Bool) (a : Nat) : Nat × Flags :=
  match decodeFlush f fmode a with
  | .nan s => (canonicalNan f, flagIf s flagNv)
  | x =>
    let r := if neg then negVal x else match x with
      | .inf _ => .inf false
      | .fin _ n d => .fin false n d
      | y => y
    exactCode f fmode r

/-- R201. -/
def fCompare (f : FFormat) (fmode : Word) (c : FCond) (a b : Nat) : Bool × Flags :=
  let x := decodeFlush f fmode a
  let y := decodeFlush f fmode b
  let un := isNan x || isNan y
  let sn := flagIf (isSignalling x || isSignalling y) flagNv
  let bothZero := isZero x && isZero y
  let lt := !bothZero && ltVal x y
  let gt := !bothZero && ltVal y x
  let ordered (v : Bool) : Bool × Flags := (!un && v, flagIf un flagNv)
  match c with
  | .eq => (!un && !lt && !gt, sn)
  | .ne => (un || lt || gt, sn)
  | .lt => ordered lt
  | .le => ordered (!gt)
  | .gt => ordered gt
  | .ge => ordered (!lt)
  | .unordered => (un, sn)
  | .ordered => (!un, sn)

/-- R202: the class mask of a code as stored. -/
def fClass (f : FFormat) (c : Nat) : Nat :=
  match decodeFloat f c with
  | .nan s => if s then 0x100 else 0x200
  | .inf s => if s then 1 else 0x80
  | .fin s n _ =>
    if n = 0 then (if s then 8 else 0x10)
    else if isSubnormal f c then (if s then 4 else 0x20)
    else (if s then 2 else 0x40)

/-! ### Packed operands (R196) -/

/-- The element format and the number of elements of a type. -/
def typeFormat : FTy → FFormat
  | .f32 => f32
  | .f16x2 => f16
  | .bf16x2 => bf16

/-- An operation on each element of packed registers. -/
def packedOp (ty : FTy) (f : FFormat → Nat → Nat → Nat → Nat × Flags) (a b c : Word) : Word × Flags :=
  let ff := typeFormat ty
  match ty with
  | .f32 => let (r, fl) := f ff a.toNat b.toNat c.toNat; (BitVec.ofNat 32 r, fl)
  | _ =>
    let (r0, g0) := f ff (fld a.toNat 0 16) (fld b.toNat 0 16) (fld c.toNat 0 16)
    let (r1, g1) := f ff (fld a.toNat 16 16) (fld b.toNat 16 16) (fld c.toNat 16 16)
    (BitVec.ofNat 32 (r0 + 65536 * r1), g0 ||| g1)

end Sys2Proof.Machine
end

