-- ==== Sys2Proof/Machine/Operands.lean ====
section
/-! DEFINITION. Operand forms: typed integer operands (R172), second sources (R159), packed and grouped operands
(R138, R203), and the registers that an operand reads (R336). -/

namespace Sys2Proof.Machine

/-- The registers of an operand that is a pair when `wide` holds. -/
def spanRegs (wide : Bool) (r : Reg) : List Reg := if wide then [r, nextReg r] else [r]

def spanB (wide : Bool) : RegImm → List Reg
  | .reg r => spanRegs wide r
  | .imm _ => []

/-- N of a type (R172). -/
def bitsOf : ITy → Nat
  | .b64 => 64
  | _ => 32

/-- A typed operand from a register (R172): u32 and b64 unsigned, i32 signed. -/
def readTyped (free : Nat) (st : Strand) (t : Nat) (ty : ITy) (r : Reg) : Int :=
  match ty with
  | .u32 => (readReg free st t r).toNat
  | .i32 => (readReg free st t r).toInt
  | .b64 => (readPair free st t r).toNat

/-- The immediate sign-extended (R159) and read under the type (R172). -/
def immTyped (ty : ITy) (v : BitVec 27) : Int :=
  match ty with
  | .u32 => (v.signExtend 32).toNat
  | .i32 => v.toInt
  | .b64 => (v.signExtend 64).toNat

/-- The second source b (R172). -/
def readTypedB (free : Nat) (st : Strand) (t : Nat) (ty : ITy) : RegImm → Int
  | .reg r => readTyped free st t ty r
  | .imm v => immTyped ty v

/-- A single second source, 32 bits (R172). -/
def readSingleB (free : Nat) (st : Strand) (t : Nat) : RegImm → Word
  | .reg r => readReg free st t r
  | .imm v => v.signExtend 32

/-- res of R172: clamped under `.sat`, else modulo 2^N. -/
def resInt (ty : ITy) (sat : Bool) (x : Int) : Nat :=
  if sat then
    match ty with
    | .u32 => (min (max x 0) 0xffffffff).toNat
    | .i32 => (min (max x (-2147483648)) 2147483647 % 2 ^ 32).toNat
    | .b64 => (x % 2 ^ 64).toNat
  else (x % 2 ^ bitsOf ty).toNat

/-- Writes a result of the type's width (R107, R172). -/
def writeTyped (st : Strand) (t : Nat) (ty : ITy) (rd : Reg) (v : Nat) : Strand :=
  match ty with
  | .b64 => writePair st t rd (BitVec.ofNat 64 v)
  | _ => writeReg st t rd (BitVec.ofNat 32 v)

/-- Register i of a group that begins at a register (R203): groups of more than one are v registers. -/
def groupReg (r : Reg) (i : Nat) : Reg := if i = 0 then r else regAfter r i

/-- The words of a group. -/
def readGroup (free : Nat) (st : Strand) (t : Nat) (r : Reg) (n : Nat) : List Word :=
  (List.range n).map fun i => readReg free st t (groupReg r i)

def writeGroup (st : Strand) (t : Nat) (r : Reg) (ws : List Word) : Strand :=
  (ws.zip (List.range ws.length)).foldl (fun st (w, i) => writeReg st t (groupReg r i) w) st

/-- R138: elements per 32-bit register. -/
def perReg (f : Fmt) : Nat :=
  match fmtWidth f with
  | 32 => 1
  | 16 => 2
  | 4 => 8
  | _ => 4

/-- R138: element j of a run of registers, as a code. -/
def elementCode (f : Fmt) (ws : List Word) (j : Nat) : Nat :=
  fld (ws.getD (j / perReg f) 0).toNat (j % perReg f * fmtWidth f) (fmtWidth f)

/-- R138: registers from element codes. -/
def packCodes (f : Fmt) (cs : List Nat) : List Word :=
  (List.range ((cs.length + perReg f - 1) / perReg f)).map fun i =>
    BitVec.ofNat 32 (((List.range (perReg f)).map fun j =>
      cs.getD (i * perReg f + j) 0 * 2 ^ (j * fmtWidth f)).foldl (· + ·) 0)

end Sys2Proof.Machine
end

