-- ==== Sys2Proof/Machine/Pixels.lean ====
section
/-! DEFINITION. Pixel values: conversions between formats (R273) and the words of a texel (R276). -/

namespace Sys2Proof.Machine

/-- R273: a 16-bit channel in 8 bits. -/
def channel8 (c : Nat) : Nat :=
  match decodeFloat f16 c with
  | .nan _ => 0
  | .inf s => if s then 0 else 255
  | .fin s n d => if s then 0 else (roundQuot 0 false (min n d * 255) d).1

/-- R273: an 8-bit channel in 16 bits. -/
def channel16 (c : Nat) : Nat := (roundFloat f16 0 false false c 255).1

/-- R273: a pixel of one format in another: four channels, 8 or 16 bits each. -/
def convertPixel (from16 to16 : Bool) (v : Nat) : Nat :=
  if from16 == to16 then v
  else if from16 then
    channel8 (fld v 0 16) + 2 ^ 8 * channel8 (fld v 16 16) + 2 ^ 16 * channel8 (fld v 32 16) + 2 ^ 24 * channel8 (fld v 48 16)
  else
    channel16 (fld v 0 8) + 2 ^ 16 * channel16 (fld v 8 8) + 2 ^ 32 * channel16 (fld v 16 8) + 2 ^ 48 * channel16 (fld v 24 8)

/-- R276: texels in a form's words, then the status. -/
def smpWords (wide : Bool) (v : Nat) (status : Word) : List Word :=
  if wide then [BitVec.ofNat 32 v, BitVec.ofNat 32 (v / 2 ^ 32), status, 0] else [BitVec.ofNat 32 v, status]

end Sys2Proof.Machine
end

