-- ==== Sys2Proof/Machine/Access.lean ====
section
/-! DEFINITION. Memory requests: addresses and their checks (R31, R85, R86, R162, R224), the requests that thread-steps
issue (R218, R219), what performing one does at its place (R46 to R56, R226 to R230), and watchpoints (R334). -/

namespace Sys2Proof.Machine

/-! ### Scratch (R82 to R88) -/

def scratchMem (s : State) (core : Nat) : Mem := mapGetD s.scratch core []

def setScratch (s : State) (core : Nat) (m : Mem) : State := { s with scratch := mapSet s.scratch core m }

/-- R83: the bank group of a physical offset is bound to the world. -/
def scratchOwned (s : State) (core w off : Nat) : Bool := mapGet s.groupWorld (4 * core + off / 0x40000) == some w

/-- R83: a refusal at the scratchpad is recorded for the system world. How many records a refused request of several bytes
makes is left open: here one for an access of a thread and for a read through a view, and one for each byte of a card, of a
segment's line and of a matrix store, whose bytes are accesses of their own (log 15). -/
def refuseScratch (s : State) (w off : Nat) : State :=
  oweRecord s 0 [BitVec.ofNat 64 off, 0, 0, recordWord3 2 2 5 0 w 0 0 0]

def scratchPoisoned (s : State) (core off len : Nat) : Bool :=
  s.poison.any fun
    | .scratch c k => c == core && decide (off < 4 * k + 4) && decide (4 * k < off + len)
    | _ => false

/-- After a scratch write: the words it touches are poisoned, or those it covers are not. -/
def scratchPoisonWrite (s : State) (core off len : Nat) (bad : Bool) : State :=
  if bad then
    { s with poison := s.poison ++ ((List.range (len / 4 + 2)).map fun i => off / 4 + i).filterMap fun k =>
        if off < 4 * k + 4 ∧ 4 * k < off + len then some (Poison.scratch core k) else none }
  else if s.poison.isEmpty then s
  else { s with poison := s.poison.filter fun
        | .scratch c k => !(c == core && decide (off ≤ 4 * k) && decide (4 * k + 4 ≤ off + len))
        | _ => true }

/-- A scratch read at a physical offset (R83): the bytes, whether they are poisoned, the state after. -/
def scratchRead (s : State) (core w off len : Nat) : List Byte × Bool × State :=
  if scratchOwned s core w off then (memRead (scratchMem s core) off len, scratchPoisoned s core off len, s)
  else (List.replicate len 0, false, refuseScratch s w off)

def scratchWrite (s : State) (core w off : Nat) (bs : List Byte) (poison : Bool) : State :=
  if scratchOwned s core w off then
    scratchPoisonWrite (setScratch s core (memWrite (scratchMem s core) off bs)) core off bs.length poison
  else refuseScratch s w off

/-- R86. -/
def swz (o code : Nat) : Nat := if code = 0 then o else o ^^^ ((o / 1024 % 2 ^ code) * 8)

/-- The directory entry of an attached segment. -/
def attachedSegment (s : State) (a : Attach) : Option Segment := s.segments.find? (·.uid == a.uid)

/-- The attached segment whose window holds a view offset, and its mode. -/
def windowAt (s : State) (g : Grove) (v : Nat) : Option (Segment × AttachMode) :=
  g.attached.findSome? fun a =>
    match attachedSegment s a with
    | some x => if x.vbase * 1024 ≤ v ∧ v < (x.vbase + x.size) * 1024 then some (x, a.mode) else none
    | none => none

/-- R85: the physical offset of a view offset, and whether stores are denied there (R99). -/
def viewMap (s : State) (g : Grove) (v : Nat) : Option (Nat × Bool) :=
  if v < g.size then some (g.base + v, false)
  else match windowAt s g v with
    | some (x, m) => some (x.pbase + swz (v - x.vbase * 1024) x.swizzle, m == .read)
    | none => none

/-- Where the bytes of an access at a view offset lie, each 8 of them at a place of their own (R85, R86). -/
def scratchPlace (s : State) (g : Grove) (v : Nat) : Nat → AccPlace := fun o =>
  .scratch (match viewMap s g (v + o) with
    | some (p, _) => p
    | none => 0)

/-- R88: the presence bit of the line of a physical offset is set while no writer is pending. -/
def linePresent (s : State) (core off : Nat) : Bool := mapGetD s.writers (core * 8192 + off / 128) 0 == 0

/-! ### The weight store (R54, R56) -/

/-- The compute die of a core (R11). -/
def dieOf (core : Nat) : Nat := core / 48

/-- R31, R54: the bytes lie within one region of the world on the die. -/
def weightOk (s : State) (die w off len : Nat) : Bool :=
  decide (off < 0x30000000) && s.wregions.any fun r =>
    r.die == die && r.world == w && decide (r.base ≤ off) && decide (off + len ≤ r.base + r.len)

/-- R56: the bank group of an offset refreshes now. -/
def refreshing (s : State) (off : Nat) : Bool := s.time % 64000 / 2000 == off / 0x1800000

/-- R56: a bank group that a line of bytes lies in refreshes now: a line is far shorter than a group. -/
def lineRefreshing (s : State) (off len : Nat) : Bool := len != 0 && (refreshing s off || refreshing s (off + len - 1))

def weightPoisoned (s : State) (die off len : Nat) : Bool :=
  s.poison.any fun
    | .weight d k => d == die && decide (off < 4 * k + 4) && decide (4 * k < off + len)
    | _ => false

/-- R83: a read through a view of bytes in a bank group that is not the world's is refused, with a record. -/
def noteView (s : State) (core w : Nat) (g : Grove) (a n : Nat) : State :=
  match (List.range n).findSome? fun k => (viewMap s g (a + k)).bind fun m =>
      if scratchOwned s core w m.1 then none else some m.1 with
  | some p => refuseScratch s w p
  | none => s

/-! ### Watchpoints (R334) -/

/-- The first enabled watchpoint of the strand's world that an access matches, and the access's address: space 0 global,
1 scratch view. -/
def watchMatch (s : State) (st : Strand) (space : Nat) (write : Bool) (read : Bool) (a len : Nat) : Option (Nat × Nat) :=
  let fb := (getWorld s st.world).fb
  if fb.wpen = 0 then none
  else ((List.range 2).find? fun i =>
    let c := (fb.wc.getD i 0).toNat
    let n := 2 ^ min (fld c 0 6) 12
    let b := (fb.wa.getD i 0).toNat / n * n
    fld fb.wpen i 1 == 1 && fld c 8 1 == space && ((write && fld c 7 1 == 1) || (read && fld c 6 1 == 1))
      && decide (a < b + n) && decide (b < a + len)).map fun i => (i, a)

/-- The first of two matches of a watchpoint. -/
def firstMatch (a b : Option (Nat × Nat)) : Option (Nat × Nat) := if a.isSome then a else b

/-! ### Requests -/

def sizeBytes : Size → Nat
  | .u8 | .i8 => 1
  | .u16 | .i16 => 2
  | .u32 => 4
  | .b64 => 8
  | .b128 => 16

def sizeSigned : Size → Bool
  | .i8 | .i16 => true
  | _ => false

/-- The spaces of R30 that instructions reach. -/
inductive MSpace | global | scratch | weight
deriving DecidableEq, Repr

/-- A memory instruction: its space, its operands, its size, its effect and its order. -/
structure MemReq where
  space : MSpace
  bytes : Nat
  signed : Bool := false
  /-- 0 load, 1 store, 2 atomic -/
  kind : Nat
  atomOp : Nat := 0
  atomSigned : Bool := false
  noResult : Bool := false
  rd : Reg
  ra : Reg
  rb : Reg
  off : BitVec 16
  na : Bool := false
  order : Order := .relaxed
  scope : Scope := .thread
deriving Repr

/-- The registers that hold an atomic's operands (R227). -/
def operandRegs (q : MemReq) : Nat :=
  if q.kind = 0 then 0 else (q.bytes + 3) / 4 * (if q.kind = 2 ∧ q.atomOp = 7 then 2 else 1)

/-- The registers that a thread-step of the instruction reads. -/
def reqSources (q : MemReq) : List Reg :=
  spanRegs (q.space = .global) q.ra ++ [q.rb] ++ (List.range (operandRegs q)).map (groupReg q.rd)

/-- R162: the address. -/
def reqAddress (q : MemReq) (free : Nat) (st : Strand) (t : Nat) : Nat :=
  match q.space with
  | .global => (readPair free st t q.ra + (readReg free st t q.rb).setWidth 64 + q.off.signExtend 64).toNat
  | _ => (readReg free st t q.ra + readReg free st t q.rb + q.off.signExtend 32).toNat

/-- R125: the counter of the instruction: 0 loads, 1 stores. -/
def reqClass (q : MemReq) : Nat := if q.kind = 1 ∨ (q.kind = 2 ∧ q.noResult) then 1 else 0

def isAcquire : Order → Bool
  | .acquire | .acqRel | .sc => true
  | _ => false

def isRelease : Order → Bool
  | .release | .acqRel | .sc => true
  | _ => false

/-- R221: an acquire of the strand has not completed. -/
def acquirePending (s : State) (st : Strand) : Bool := s.pend.any fun a => a.strand == st.home && isAcquire a.order

/-- R297: a phase boundary that the strand has issued has not been performed. -/
def owesRelease (s : State) (st : Strand) : Bool :=
  s.pend.any fun a => a.strand == st.home && isRelease a.order && scopeWide a.scope

/-- The tag of the instruction that the strand is inside, where it has begun to issue requests. -/
def currentTag (st : Strand) (cls : Nat) : Option Nat :=
  match st.partTag with
  | some t => if st.outs.any (fun o => o.tag == t && o.cls == cls) then some t else none
  | none => none

/-- Begins to count an instruction (R125). -/
def beginRequests (cls : Nat) (s : State) (st : Strand) : Nat × State × Strand :=
  match currentTag st cls with
  | some t => (t, s, st)
  | none =>
    (s.nextId, { s with nextId := s.nextId + 1 },
      { st with partTag := some s.nextId, outs := st.outs ++ [{ tag := s.nextId, cls := cls, left := 0 }] })

/-- The low bytes of the data that a store or atomic takes from registers. -/
def reqData (q : MemReq) (free : Nat) (st : Strand) (t : Nat) : List Byte :=
  (readGroup free st t q.rd (operandRegs q)).flatMap fun w => leList 4 w.toNat

def reqOp (q : MemReq) (data : List Byte) (from_ len : Nat) : AccOp :=
  match q.kind with
  | 0 => .load
  | 1 => .store ((data.drop from_).take len)
  | _ =>
    let first := leVal (data.take q.bytes)
    if q.atomOp = 7 then .atom 7 false (leVal (data.drop q.bytes)) first else .atom q.atomOp q.atomSigned first 0

/-- Where each destination word of thread t stands now. -/
def reqDest (q : MemReq) (st : Strand) (t : Nat) : List RKey :=
  if q.kind = 1 ∨ q.noResult = true then []
  else (List.range ((q.bytes + 3) / 4)).filterMap fun i => regKey st t (groupReg q.rd i)

/-- Issues the requests of a thread-step at a place: a 16-byte access is two of 8 bytes, the lower first (R293). -/
def issueRequests (q : MemReq) (tag t : Nat) (place : Nat → AccPlace) (s : State) (st : Strand) : State × Strand :=
  let data := reqData q s.free st t
  let dest := reqDest q st t
  let parts := if q.bytes = 16 then [(0, 8), (8, 8)] else [(0, q.bytes)]
  let accs := (parts.zip (List.range parts.length)).map fun ((o, n), i) =>
    ({ id := s.nextId + i, strand := st.home, tix := t, tag := tag, core := st.core, world := st.world
       place := place o, len := n, op := reqOp q data o n, signed := q.signed, rd := q.rd
       dest := (dest.drop (o / 4)).take ((n + 3) / 4), order := q.order, scope := q.scope
       uniform := isUniform q.rd && q.kind != 1 } : Access)
  ({ s with pend := s.pend ++ accs, nextId := s.nextId + parts.length },
   { st with
     outs := st.outs.map fun o => if o.tag = tag then { o with left := o.left + parts.length } else o
     shadow := st.shadow ++ dest.map fun k => (k, tag) })

/-- R224 steps 2 to 5: where an access goes, or why it does not. -/
inductive Placed
  | at_ (place : Nat → AccPlace) (s : State)
  | stop (o : StepOut)

def placeRequest (q : MemReq) (a : Nat) (s : State) (st : Strand) : Placed :=
  match q.space with
  | .global =>
    let need := if q.kind = 0 then needRead else if q.kind = 1 then needWrite else needBoth
    (match translate s st.core st.limb st.world a need with
     | (.ok pa c, s) => .at_ (fun o => .global (pa + o) (if q.na ∧ c = 0 then 3 else c)) s
     | (.bad c, s) => .stop (.fault s st c 0 (BitVec.ofNat 64 a))
     | (.miss, s) => let (id, s) := startWalk s st.core st.world a need st.home; .stop (.park s st (.walk id))
     | (.ats p, s) => .stop (.park (requestAts s st.world p) st (.ats p a need)))
  | .scratch =>
    (match (getGrove s st.grove).bind fun g => (viewMap s g a).map fun m => (g, m) with
     | none => .stop (.fault s st (2, 5) 0 (BitVec.ofNat 64 a))
     | some (g, p, denied) =>
       if denied && q.kind != 0 then .stop (.fault s st (2, 7) 0 (BitVec.ofNat 64 a))
       else if linePresent s st.core p then .at_ (scratchPlace s g a) s
       else .stop (.park s st (.line st.core (p / 128))))
  | .weight =>
    if weightOk s (dieOf st.core) st.world a q.bytes then .at_ (fun o => .weight (a + o)) s
    else .stop (.fault s st (2, 6) 0 (BitVec.ofNat 64 a))

/-- R218, R224, R227: a thread-step of a memory instruction. -/
def memStep (q : MemReq) (_ : Issue) (s : State) (st : Strand) (t : Nat) : StepOut :=
  let cls := reqClass q
  if (currentTag st cls).isNone && acquirePending s st then .parkPre s st .acquire
  else if (currentTag st cls).isNone && decide (63 ≤ (st.outs.filter (·.cls == cls)).length) then
    .parkPre s st (.counterFull cls)
  else
    let a := reqAddress q s.free st t
    if a % q.bytes ≠ 0 then .fault s st (0x0c, 0) 0 (BitVec.ofNat 64 a)
    else match placeRequest q a s st with
      | .stop o => o
      | .at_ place s =>
        let (tag, s, st) := beginRequests cls s st
        let (s, st) := issueRequests q tag t place s st
        let watch := match q.space with
          | .weight => none
          | sp => watchMatch s st (if sp = .scratch then 1 else 0) (q.kind != 0) (q.kind != 1) a q.bytes
        .ok s st none watch

/-- A memory instruction: loads and atomics with a uniform rd execute once (R107, R218, R227). -/
def memInsn (s : State) (h : Hd) (q : MemReq) : Host.Outcome State Fault Refusal :=
  if q.kind = 1 then perThread s h (fun _ => []) (reqSources q) (memStep q)
  else byDest s h q.rd (fun _ => []) (reqSources q) (memStep q)

/-! ### Performing a request -/

/-- R226, R230: an atomic's new value. -/
def atomNew (op : Nat) (signed : Bool) (bytes old v cmp : Nat) : Nat :=
  let n := 2 ^ (8 * bytes)
  let sg (x : Nat) : Int := if signed && decide (n / 2 ≤ x) then (x : Int) - n else x
  match op with
  | 0 => (old + v) % n
  | 1 => if sg old ≤ sg v then old else v
  | 2 => if sg old ≤ sg v then v else old
  | 3 => old &&& v
  | 4 => old ||| v
  | 5 => old ^^^ v
  | 6 => v
  | 7 => if old = cmp then v else old
  | 8 => if v ≤ old then 0 else old + 1
  | _ => (fAdd f32 0 0 false old v).1

/-- R53, R228: a global atomic at its coherence point: the old bytes, whether they are poisoned, the state after. One
that the memory controller refuses is dropped (R35); the value that it returns then is not stated, and is zeros here, as
for a refused read (log 14). One on an uncached page passes the slice by (R48). A pinned line that the slice has dropped for it is fetched again (R319). -/
def globalAtom (s : State) (core w pa cache : Nat) (sc : Scope) (len : Nat) (f : Nat → Nat) :
    List Byte × Bool × State :=
  let line := pa / 128
  let s := coreFlush s core line
  let m := byteMask (pa % 128) len
  if cache = 1 ∨ scopeStand sc = true then
    let s := if scopeStand sc then sliceFlush s (core / 8) line else s
    let old := ctlRead s w pa len
    let bad := ctlPoisoned s w pa len
    let new := leList len (f (leVal old))
    let s := ctlNote s w pa len
    let s := if served s w pa then
        ctlWriteMasked s w line m (overlay (List.replicate 128 0) (pa % 128) new) (if bad then m else 0)
      else s
    (old, bad, if scopeStand sc then repin s (core / 8) line else s)
  else
    let (old, bad, s) := sliceRead s core w pa len
    let new := leList len (f (leVal old))
    (old, bad, sliceMerge s core line w m (overlay (List.replicate 128 0) (pa % 128) new) (if bad then m else 0))

/-- How an access is cached: 3 is hint 01 on a cached page (R217). -/
def accessCaching (c : Nat) : Caching := if c = 3 then .hinted else cachingOf c false

/-- The value that a request returns, its poison, and the state after. -/
def performAt (s : State) (a : Access) : List Byte × Bool × State :=
  match a.place, a.op with
  | .global pa c, .load | .global pa c, .texel _ _ => globalRead s a.core a.world (accessCaching c) pa a.len
  | .global pa c, .store v => ([], false, globalWrite s a.core a.world (accessCaching c) pa v false)
  | .global pa c, .atom op sg v cmp =>
    globalAtom s a.core a.world pa c a.scope a.len fun old => atomNew op sg a.len old v cmp
  | .scratch off, .load | .scratch off, .texel _ _ => scratchRead s a.core a.world off a.len
  | .scratch off, .store v => ([], false, scratchWrite s a.core a.world off v false)
  | .scratch off, .atom op sg v cmp =>
    let (old, bad, s) := scratchRead s a.core a.world off a.len
    (old, bad, if scratchOwned s a.core a.world off then
        scratchWrite s a.core a.world off (leList a.len (atomNew op sg a.len (leVal old) v cmp)) bad
      else s)
  | .weight off, _ =>
    (memRead (s.weight.getD (dieOf a.core) []) off a.len, weightPoisoned s (dieOf a.core) off a.len, s)

/-- R216, R276: the words that a load or a texel read writes. -/
def loadWords (a : Access) (bs : List Byte) : List Word :=
  let v := leVal bs
  match a.op with
  | .texel from16 to16 => smpWords to16 (convertPixel from16 to16 v) 0
  | _ =>
  if a.len ≤ 2 then
    [if a.signed then (if a.len = 1 then (BitVec.ofNat 8 v).signExtend 32 else (BitVec.ofNat 16 v).signExtend 32)
     else BitVec.ofNat 32 v]
  else if a.len = 4 then [BitVec.ofNat 32 v]
  else [BitVec.ofNat 32 v, BitVec.ofNat 32 (v / 2 ^ 32)]

/-- The words that take the poison of the bytes read (R336): not the status of a texel. -/
def poisonWords (a : Access) : Nat :=
  match a.op with
  | .texel _ to16 => if to16 then 2 else 1
  | _ => a.dest.length

/-- The value reaches its destination, the first `bad` words with poison (R336). -/
def deliver (st : Strand) (dest : List RKey) (ws : List Word) (bad : Nat) : Strand :=
  ((dest.zip ws).zip (List.range ws.length)).foldl (fun st ((k, w), i) =>
    let st := writeKey st k w
    if i < bad then { st with poisoned := k :: st.poisoned } else st) st

/-- A value that reaches a register in a run's entry state. -/
def landKey (e : RunEntry) (k : RKey) (v : Word) (bad : Bool) : RunEntry :=
  let e := { e with poisoned := if bad then k :: e.poisoned else e.poisoned.filter (· != k) }
  match k with
  | .v n => { e with vregs := mapSet e.vregs n v }
  | .s n => { e with sregs := mapSet e.sregs n v }
  | .sap => { e with sap := v }
  | .q _ => e

/-- R10, R321: the value of a load that was outstanding when the current run began reaches the run's entry state as well: it
is there where the run is discarded. -/
def landAtEntry (st : Strand) (tag : Nat) (dest : List RKey) (ws : List Word) (bad : Nat) : Strand :=
  match st.runEntry with
  | none => st
  | some e =>
    { st with runEntry := some (((dest.zip ws).zip (List.range ws.length)).foldl (fun e ((k, w), i) =>
        if e.shadow.contains (k, tag) then landKey e k w (decide (i < bad)) else e) e) }

/-- R219: a request of an instruction has been performed. -/
def countPerformed (st : Strand) (tag : Nat) : Strand :=
  let outs := st.outs.map fun o => if o.tag = tag then { o with left := o.left - 1 } else o
  { st with outs := outs.filter fun o => o.left != 0 || st.partTag == some o.tag }

/-- Two requests touch common bytes of one space (R220). -/
def sameBytes (a b : Access) : Bool :=
  match a.place, b.place with
  | .global p _, .global q _ => overlaps p a.len q b.len
  | .scratch p, .scratch q => a.core == b.core && overlaps p a.len q b.len
  | .weight _, .weight _ => false
  | _, _ => false

/-- R304: stores of one thread to host addresses, which PCIe keeps in program order. -/
def postedPair (s : State) (a b : Access) : Bool :=
  match a.place, a.op, b.place, b.op with
  | .global p _, .store _, .global q _, .store _ => a.tix == b.tix && tierOf s p == .host && tierOf s q == .host
  | _, _, _, _ => false

/-- Two requests of one thread. -/
def sameThread (a b : Access) : Bool := b.strand == a.strand && (b.tix == a.tix || b.uniform || a.uniform)

/-- A request b issued before a is performed before it: common bytes (R220), posted stores (R304), everything before a release
(R221), and a phase boundary before an acquire at stand scope or wider, whose places in the publication order agree with
program order (R297). -/
def performedBefore (s : State) (a b : Access) : Bool :=
  (b.strand == a.strand && (sameBytes a b || postedPair s a b)) || (isRelease a.order && sameThread a b)
    || (isAcquire a.order && scopeStand a.scope && isRelease b.order && scopeWide b.scope && sameThread a b)

/-- R220, R221, R297, R304, R56: the requests before it, in order of issue, let this one be performed now. -/
def mayPerform (s : State) (a : Access) : List Access → Bool
  | [] => false
  | b :: r =>
    if b.id = a.id then
      (match a.place with
       | .weight off => !refreshing s off
       | _ => true)
    else
      !performedBefore s a b && mayPerform s a r

/-- Performs a request and takes it off the list (R218, R221, R229). -/
def performAccess (s : State) (a : Access) : State :=
  let s := if isRelease a.order then releaseActs s a.core a.scope else s
  let (bs, bad, s) := performAt s a
  let s := if isAcquire a.order then acquireActs s a.core a.scope else s
  let s := { s with pend := s.pend.filter (·.id != a.id) }
  match getStrand s a.strand with
  | none => s
  | some st =>
    let st := match a.op with
      | .store _ => st
      | _ =>
        let poison := if bad then poisonWords a else 0
        landAtEntry (deliver st a.dest (loadWords a bs) poison) a.tag a.dest (loadWords a bs) poison
    chargeBytes (setStrand s (countPerformed st a.tag)) st.world st.owner

/-- R320: the request is held: its owner or world has used up its bytes for the period. -/
def requestHeld (s : State) (a : Access) : Bool :=
  match a.place, getStrand s a.strand with
  | .global .., some st => bytesExhausted s st.world st.owner
  | _, _ => false

/-- memoryAccessComplete: a request that may be performed is performed (R218, R219). -/
def execMemoryAccessComplete (id : Nat) (s : State) : Host.Outcome State Fault Refusal :=
  match s.pend.find? (·.id == id) with
  | none => .next s
  | some a => if mayPerform s a s.pend && !requestHeld s a then .next (performAccess s a) else .next s

end Sys2Proof.Machine
end

