-- ==== Sys2Proof/Machine/Atomics.lean ====
section
/-! DEFINITION. Atomics (R225 to R230). -/

namespace Sys2Proof.Machine

def spaceOf : Space → MSpace
  | .global => .global
  | .scratch => .scratch

/-- An atomic (R225 to R229): `op` is its number in the table of R226. -/
def atomReq (op : Nat) (signed nr : Bool) (o : Order) (sc : Scope) (sp : Space) (wide : Bool) (rd ra rb : Reg)
    (off : BitVec 16) : MemReq :=
  { space := spaceOf sp, bytes := if wide then 8 else 4, kind := 2, atomOp := op, atomSigned := signed, noResult := nr
    rd := rd, ra := ra, rb := rb, off := off, order := o, scope := sc }

/-- atom.add (R226). -/
def execAtomAdd (h : Hd) (nr : Bool) (o : Order) (sc : Scope) (sp : Space) (wide : Bool) (rd ra rb : Reg)
    (off : BitVec 16) (s : State) : Host.Outcome State Fault Refusal :=
  memInsn s h (atomReq 0 false nr o sc sp wide rd ra rb off)

/-- atom.min (R226). -/
def execAtomMin (h : Hd) (signed nr : Bool) (o : Order) (sc : Scope) (sp : Space) (wide : Bool) (rd ra rb : Reg)
    (off : BitVec 16) (s : State) : Host.Outcome State Fault Refusal :=
  memInsn s h (atomReq 1 signed nr o sc sp wide rd ra rb off)

/-- atom.max (R226). -/
def execAtomMax (h : Hd) (signed nr : Bool) (o : Order) (sc : Scope) (sp : Space) (wide : Bool) (rd ra rb : Reg)
    (off : BitVec 16) (s : State) : Host.Outcome State Fault Refusal :=
  memInsn s h (atomReq 2 signed nr o sc sp wide rd ra rb off)

/-- atom.and (R226). -/
def execAtomAnd (h : Hd) (nr : Bool) (o : Order) (sc : Scope) (sp : Space) (wide : Bool) (rd ra rb : Reg)
    (off : BitVec 16) (s : State) : Host.Outcome State Fault Refusal :=
  memInsn s h (atomReq 3 false nr o sc sp wide rd ra rb off)

/-- atom.or (R226). -/
def execAtomOr (h : Hd) (nr : Bool) (o : Order) (sc : Scope) (sp : Space) (wide : Bool) (rd ra rb : Reg)
    (off : BitVec 16) (s : State) : Host.Outcome State Fault Refusal :=
  memInsn s h (atomReq 4 false nr o sc sp wide rd ra rb off)

/-- atom.xor (R226). -/
def execAtomXor (h : Hd) (nr : Bool) (o : Order) (sc : Scope) (sp : Space) (wide : Bool) (rd ra rb : Reg)
    (off : BitVec 16) (s : State) : Host.Outcome State Fault Refusal :=
  memInsn s h (atomReq 5 false nr o sc sp wide rd ra rb off)

/-- atom.xchg (R226). -/
def execAtomXchg (h : Hd) (nr : Bool) (o : Order) (sc : Scope) (sp : Space) (wide : Bool) (rd ra rb : Reg)
    (off : BitVec 16) (s : State) : Host.Outcome State Fault Refusal :=
  memInsn s h (atomReq 6 false nr o sc sp wide rd ra rb off)

/-- atom.cas (R226). -/
def execAtomCas (h : Hd) (nr : Bool) (o : Order) (sc : Scope) (sp : Space) (wide : Bool) (rd ra rb : Reg)
    (off : BitVec 16) (s : State) : Host.Outcome State Fault Refusal :=
  memInsn s h (atomReq 7 false nr o sc sp wide rd ra rb off)

/-- atom.inc (R226). -/
def execAtomInc (h : Hd) (nr : Bool) (o : Order) (sc : Scope) (sp : Space) (wide : Bool) (rd ra rb : Reg)
    (off : BitVec 16) (s : State) : Host.Outcome State Fault Refusal :=
  memInsn s h (atomReq 8 false nr o sc sp wide rd ra rb off)

/-- atom.fadd (R226, R230). -/
def execAtomFadd (h : Hd) (nr : Bool) (o : Order) (sc : Scope) (sp : Space) (rd ra rb : Reg) (off : BitVec 16) (s : State) :
    Host.Outcome State Fault Refusal :=
  memInsn s h (atomReq 9 false nr o sc sp false rd ra rb off)

end Sys2Proof.Machine
end

