-- ==== Sys2Proof/Machine/Integer.lean ====
section
/-! DEFINITION. The integer instructions (R171 to R180). -/

namespace Sys2Proof.Machine

/-! ### Results -/

/-- R175: div. -/
def divInt (ty : ITy) (a b : Int) : Int :=
  if b = 0 then
    match ty with
    | .i32 => if a < 0 then -2147483648 else 2147483647
    | _ => 0xffffffff
  else a.tdiv b

/-- R175: rem. -/
def remInt (a b : Int) : Int := if b = 0 then a else a - b * a.tdiv b

/-- R176: the shift amount. -/
def shiftAmount (b : Word) : Nat := b.toNat % 256

/-- R176: shl, with `.sat` the exact value clamped. -/
def shlVal (ty : ITy) (sat : Bool) (a : Int) (s : Nat) : Nat :=
  if s < bitsOf ty then resInt ty sat (a * 2 ^ s)
  else if sat then resInt ty true (a * 2 ^ 64)
  else 0

def shrVal (ty : ITy) (a : Int) (s : Nat) : Nat := if s < bitsOf ty then (a / 2 ^ s).toNat else 0

/-- The signed value of an N-bit operand. -/
def signedOf (n : Nat) (a : Int) : Int :=
  let x := a % 2 ^ n
  if x < 2 ^ (n - 1) then x else x - 2 ^ n

/-- R176: sar; s at or above N gives the sign everywhere. -/
def sarVal (ty : ITy) (a : Int) (s : Nat) : Int := signedOf (bitsOf ty) a / 2 ^ min s (bitsOf ty)

def rotlVal (ty : ITy) (a : Int) (s : Nat) : Nat :=
  let n := bitsOf ty
  let k := s % n
  a.toNat * 2 ^ k % 2 ^ n + a.toNat / 2 ^ (n - k)

/-- R177: position and length of a control word. -/
def fieldPos (ty : ITy) (k : Word) : Nat := min (fld k.toNat 0 7) (bitsOf ty)
def fieldLen (ty : ITy) (k : Word) : Nat := min (fld k.toNat 8 7) (bitsOf ty)

/-- R177: bfx; a is read as extended above bit N - 1. -/
def bfxVal (ty : ITy) (a : Int) (k : Word) : Int :=
  let len := fieldLen ty k
  let v := (a / 2 ^ fieldPos ty k) % 2 ^ len
  match ty with
  | .i32 => if len = 0 then 0 else signedOf len v
  | _ => v

/-- R177: bfi. -/
def bfiVal (ty : ITy) (a b : Nat) (k : Word) : Nat :=
  let pos := fieldPos ty k
  let len := fieldLen ty k
  (a % 2 ^ pos + b % 2 ^ len * 2 ^ pos + a / 2 ^ (pos + len) * 2 ^ (pos + len)) % 2 ^ bitsOf ty

/-- R178. -/
def clzVal (n a : Nat) : Nat := if a = 0 then n else n - 1 - Nat.log2 a
def popcVal (n a : Nat) : Nat := ((List.range n).filter fun i => a.testBit i).length
def brevVal (n a : Nat) : Nat := ((List.range n).map fun i => if a.testBit i then 2 ^ (n - 1 - i) else 0).foldl (· + ·) 0

/-- R179: the bits of each coordinate. -/
def coordBits : ITy → Nat
  | .b64 => 21
  | _ => 10

def ilvVal (ty : ITy) (a b c : Nat) : Nat :=
  ((List.range (coordBits ty)).map fun i =>
    fld a i 1 * 2 ^ (3 * i + 2) + fld b i 1 * 2 ^ (3 * i + 1) + fld c i 1 * 2 ^ (3 * i)).foldl (· + ·) 0

def dilvVal (ty : ITy) (a s : Nat) : Nat :=
  if 2 < s then 0
  else ((List.range (coordBits ty)).map fun i => fld a (3 * i + s) 1 * 2 ^ i).foldl (· + ·) 0

/-! ### Shapes of steps -/

def isWide : ITy → Bool
  | .b64 => true
  | _ => false

/-- rd := res of a function of a and b, all of the type's width. -/
def intBin (s : State) (h : Hd) (ty : ITy) (sat : Bool) (rd ra : Reg) (b : RegImm) (f : Int → Int → Int) :
    Host.Outcome State Fault Refusal :=
  byDest s h rd (fun _ => []) (spanRegs (isWide ty) ra ++ spanB (isWide ty) b)
    (plainStep fun free st t =>
      writeTyped st t ty rd (resInt ty sat (f (readTyped free st t ty ra) (readTypedB free st t ty b))))

/-- rd := a function of a. -/
def intUn (s : State) (h : Hd) (ty : ITy) (sat : Bool) (rd ra : Reg) (f : Int → Int) : Host.Outcome State Fault Refusal :=
  byDest s h rd (fun _ => []) (spanRegs (isWide ty) ra)
    (plainStep fun free st t => writeTyped st t ty rd (resInt ty sat (f (readTyped free st t ty ra))))

/-- rd := a function of a and of a single second source. -/
def intSingleB (s : State) (h : Hd) (ty : ITy) (rd ra : Reg) (b : RegImm) (f : Int → Word → Nat) :
    Host.Outcome State Fault Refusal :=
  byDest s h rd (fun _ => []) (spanRegs (isWide ty) ra ++ spanB false b)
    (plainStep fun free st t =>
      writeTyped st t ty rd (f (readTyped free st t ty ra) (readSingleB free st t b)))

/-- A single rd := a function of a (clz, popc). -/
def intCount (s : State) (h : Hd) (ty : ITy) (rd ra : Reg) (f : Nat → Nat → Nat) : Host.Outcome State Fault Refusal :=
  byDest s h rd (fun _ => []) (spanRegs (isWide ty) ra)
    (plainStep fun free st t =>
      writeReg st t rd (BitVec.ofNat 32 (f (bitsOf ty) (readTyped free st t ty ra).toNat)))

/-- The bits of an operand as a natural number. -/
def bitsNat (ty : ITy) (a : Int) : Nat := (a % 2 ^ bitsOf ty).toNat

/-! ### Meanings -/

/-- add (R174). -/
def execAdd (h : Hd) (ty : ITy) (sat : Bool) (rd ra : Reg) (b : RegImm) (s : State) : Host.Outcome State Fault Refusal :=
  intBin s h ty sat rd ra b (· + ·)

/-- sub (R174). -/
def execSub (h : Hd) (ty : ITy) (sat : Bool) (rd ra : Reg) (b : RegImm) (s : State) : Host.Outcome State Fault Refusal :=
  intBin s h ty sat rd ra b (· - ·)

/-- mul (R174). -/
def execMul (h : Hd) (ty : ITy) (sat : Bool) (rd ra : Reg) (b : RegImm) (s : State) : Host.Outcome State Fault Refusal :=
  intBin s h ty sat rd ra b (· * ·)

/-- mulhi (R174): ⌊a × b / 2^32⌋. -/
def execMulhi (h : Hd) (ty : ITy) (rd ra : Reg) (b : RegImm) (s : State) : Host.Outcome State Fault Refusal :=
  intBin s h ty false rd ra b fun x y => x * y / 2 ^ 32

/-- mad (R174): a × b + c, clamped once under `.sat`. -/
def execMad (h : Hd) (ty : ITy) (sat : Bool) (rd ra rb rc : Reg) (s : State) : Host.Outcome State Fault Refusal :=
  byDest s h rd (fun _ => []) (spanRegs (isWide ty) ra ++ spanRegs (isWide ty) rb ++ spanRegs (isWide ty) rc)
    (plainStep fun free st t =>
      writeTyped st t ty rd (resInt ty sat
        (readTyped free st t ty ra * readTyped free st t ty rb + readTyped free st t ty rc)))

/-- div (R175). -/
def execDiv (h : Hd) (ty : ITy) (sat : Bool) (rd ra : Reg) (b : RegImm) (s : State) : Host.Outcome State Fault Refusal :=
  intBin s h ty sat rd ra b (divInt ty)

/-- rem (R175). -/
def execRem (h : Hd) (ty : ITy) (rd ra : Reg) (b : RegImm) (s : State) : Host.Outcome State Fault Refusal :=
  intBin s h ty false rd ra b remInt

/-- min (R174). -/
def execMin (h : Hd) (ty : ITy) (rd ra : Reg) (b : RegImm) (s : State) : Host.Outcome State Fault Refusal :=
  intBin s h ty false rd ra b fun x y => if x ≤ y then x else y

/-- max (R174). -/
def execMax (h : Hd) (ty : ITy) (rd ra : Reg) (b : RegImm) (s : State) : Host.Outcome State Fault Refusal :=
  intBin s h ty false rd ra b fun x y => if x ≤ y then y else x

/-- abs (R174). -/
def execAbs (h : Hd) (sat : Bool) (rd ra : Reg) (s : State) : Host.Outcome State Fault Refusal :=
  intUn s h .i32 sat rd ra fun x => (x.natAbs : Int)

/-- neg (R174). -/
def execNeg (h : Hd) (ty : ITy) (sat : Bool) (rd ra : Reg) (s : State) : Host.Outcome State Fault Refusal :=
  intUn s h ty sat rd ra fun x => -x

/-- and (R176). -/
def execAnd (h : Hd) (ty : ITy) (rd ra : Reg) (b : RegImm) (s : State) : Host.Outcome State Fault Refusal :=
  intBin s h ty false rd ra b fun x y => ((bitsNat ty x &&& bitsNat ty y : Nat) : Int)

/-- or (R176). -/
def execOr (h : Hd) (ty : ITy) (rd ra : Reg) (b : RegImm) (s : State) : Host.Outcome State Fault Refusal :=
  intBin s h ty false rd ra b fun x y => ((bitsNat ty x ||| bitsNat ty y : Nat) : Int)

/-- xor (R176). -/
def execXor (h : Hd) (ty : ITy) (rd ra : Reg) (b : RegImm) (s : State) : Host.Outcome State Fault Refusal :=
  intBin s h ty false rd ra b fun x y => ((bitsNat ty x ^^^ bitsNat ty y : Nat) : Int)

/-- not (R176). -/
def execNot (h : Hd) (ty : ITy) (rd ra : Reg) (s : State) : Host.Outcome State Fault Refusal :=
  intUn s h ty false rd ra fun x => -x - 1

/-- andn (R176): a and not b. -/
def execAndn (h : Hd) (ty : ITy) (rd ra : Reg) (b : RegImm) (s : State) : Host.Outcome State Fault Refusal :=
  intBin s h ty false rd ra b fun x y => ((bitsNat ty x &&& bitsNat ty (-y - 1) : Nat) : Int)

/-- shl (R176). -/
def execShl (h : Hd) (ty : ITy) (sat : Bool) (rd ra : Reg) (b : RegImm) (s : State) : Host.Outcome State Fault Refusal :=
  intSingleB s h ty rd ra b fun x k => shlVal ty sat x (shiftAmount k)

/-- shr (R176). -/
def execShr (h : Hd) (ty : ITy) (rd ra : Reg) (b : RegImm) (s : State) : Host.Outcome State Fault Refusal :=
  intSingleB s h ty rd ra b fun x k => shrVal ty x (shiftAmount k)

/-- sar (R176). -/
def execSar (h : Hd) (ty : ITy) (rd ra : Reg) (b : RegImm) (s : State) : Host.Outcome State Fault Refusal :=
  intSingleB s h ty rd ra b fun x k => bitsNat ty (sarVal ty x (shiftAmount k))

/-- rotl (R176). -/
def execRotl (h : Hd) (ty : ITy) (rd ra : Reg) (b : RegImm) (s : State) : Host.Outcome State Fault Refusal :=
  intSingleB s h ty rd ra b fun x k => rotlVal ty x (shiftAmount k)

/-- bfx (R177). -/
def execBfx (h : Hd) (ty : ITy) (rd ra : Reg) (b : RegImm) (s : State) : Host.Outcome State Fault Refusal :=
  intSingleB s h ty rd ra b fun x k => bitsNat ty (bfxVal ty x k)

/-- bfi (R177). -/
def execBfi (h : Hd) (ty : ITy) (rd ra rb rc : Reg) (s : State) : Host.Outcome State Fault Refusal :=
  byDest s h rd (fun _ => []) (spanRegs (isWide ty) ra ++ spanRegs (isWide ty) rb ++ [rc])
    (plainStep fun free st t =>
      writeTyped st t ty rd (bfiVal ty (readTyped free st t ty ra).toNat (readTyped free st t ty rb).toNat
        (readReg free st t rc)))

/-- clz (R178). -/
def execClz (h : Hd) (ty : ITy) (rd ra : Reg) (s : State) : Host.Outcome State Fault Refusal :=
  intCount s h ty rd ra clzVal

/-- popc (R178). -/
def execPopc (h : Hd) (ty : ITy) (rd ra : Reg) (s : State) : Host.Outcome State Fault Refusal :=
  intCount s h ty rd ra popcVal

/-- brev (R178). -/
def execBrev (h : Hd) (ty : ITy) (rd ra : Reg) (s : State) : Host.Outcome State Fault Refusal :=
  intUn s h ty false rd ra fun x => (brevVal (bitsOf ty) x.toNat : Int)

/-- ilv (R179): ra, rb and rc are single under both types. -/
def execIlv (h : Hd) (ty : ITy) (rd ra rb rc : Reg) (s : State) : Host.Outcome State Fault Refusal :=
  byDest s h rd (fun _ => []) [ra, rb, rc]
    (plainStep fun free st t =>
      writeTyped st t ty rd (ilvVal ty (readReg free st t ra).toNat (readReg free st t rb).toNat
        (readReg free st t rc).toNat))

/-- dilv (R179): rd is single under both types. -/
def execDilv (h : Hd) (ty : ITy) (rd ra : Reg) (b : RegImm) (s : State) : Host.Outcome State Fault Refusal :=
  byDest s h rd (fun _ => []) (spanRegs (isWide ty) ra ++ spanB false b)
    (plainStep fun free st t =>
      writeReg st t rd (BitVec.ofNat 32 (dilvVal ty (readTyped free st t ty ra).toNat (readSingleB free st t b).toNat)))

/-- lea (R180): rd and ra are pairs, rb and rc single. -/
def execLea (h : Hd) (ty : ITy) (rd ra rb rc : Reg) (s : State) : Host.Outcome State Fault Refusal :=
  byDest s h rd (fun _ => []) (spanRegs true ra ++ [rb, rc])
    (plainStep fun free st t =>
      writePair st t rd (readPair free st t ra
        + BitVec.ofInt 64 (readTyped free st t ty rb * 2 ^ ((readReg free st t rc).toNat % 8))))

/-- mov (R180). -/
def execMov (h : Hd) (ty : ITy) (rd : Reg) (a : RegImm) (s : State) : Host.Outcome State Fault Refusal :=
  byDest s h rd (fun _ => []) (spanB (isWide ty) a)
    (plainStep fun free st t => writeTyped st t ty rd (bitsNat ty (readTypedB free st t ty a)))

/-- movi (R180): under b64 the immediate is sign-extended. -/
def execMovi (h : Hd) (ty : ITy) (rd : Reg) (imm : Word) (s : State) : Host.Outcome State Fault Refusal :=
  byDest s h rd (fun _ => []) []
    (plainStep fun _ st t => writeTyped st t ty rd (imm.signExtend 64).toNat)

/-- mulw (R174): the exact product to the pair rd:rd+1. -/
def execMulw (h : Hd) (ty : ITy) (rd ra : Reg) (b : RegImm) (s : State) : Host.Outcome State Fault Refusal :=
  byDest s h rd (fun _ => []) (ra :: spanB false b)
    (plainStep fun free st t =>
      writePair st t rd (BitVec.ofInt 64 (readTyped free st t ty ra * readTypedB free st t ty b)))

end Sys2Proof.Machine
end

