-- ==== Sys2Proof/Machine/Predicate.lean ====
section
/-! DEFINITION. Compare, predicates, select, vote, exchange and scan (R181 to R186). -/

namespace Sys2Proof.Machine

/-- R181. -/
def condHolds (c : Cond) (a b : Int) : Bool :=
  match c with
  | .eq => a == b
  | .ne => a != b
  | .lt => decide (a < b)
  | .le => decide (a ≤ b)
  | .gt => decide (b < a)
  | .ge => decide (b ≤ a)

/-- cmp (R181). -/
def execCmp (h : Hd) (ty : ITy) (c : Cond) (pd : Fin 16) (ra : Reg) (b : RegImm) (s : State) :
    Host.Outcome State Fault Refusal :=
  perThread s h (fun _ => []) (spanRegs (isWide ty) ra ++ spanB (isWide ty) b)
    (plainStep fun free st t =>
      setPred st t pd (condHolds c (readTyped free st t ty ra) (readTypedB free st t ty b)))

/-- pd := a function of pa and pb. -/
def predBin (s : State) (h : Hd) (n : Bool) (pd pa pb : Fin 16) (f : Bool → Bool → Bool) :
    Host.Outcome State Fault Refusal :=
  perThread s h (fun _ => []) []
    (plainStep fun _ st t => setPred st t pd (f (getPred st t pa) (getPred st t pb != n)))

/-- pand, pand.n (R182). -/
def execPand (h : Hd) (n : Bool) (pd pa pb : Fin 16) (s : State) : Host.Outcome State Fault Refusal :=
  predBin s h n pd pa pb (· && ·)

/-- por, por.n (R182). -/
def execPor (h : Hd) (n : Bool) (pd pa pb : Fin 16) (s : State) : Host.Outcome State Fault Refusal :=
  predBin s h n pd pa pb (· || ·)

/-- pxor, pxor.n (R182). -/
def execPxor (h : Hd) (n : Bool) (pd pa pb : Fin 16) (s : State) : Host.Outcome State Fault Refusal :=
  predBin s h n pd pa pb (· != ·)

/-- pnot (R182). -/
def execPnot (h : Hd) (pd pa : Fin 16) (s : State) : Host.Outcome State Fault Refusal :=
  perThread s h (fun _ => []) [] (plainStep fun _ st t => setPred st t pd (!getPred st t pa))

/-- pmov (R182). -/
def execPmov (h : Hd) (pd pa : Fin 16) (s : State) : Host.Outcome State Fault Refusal :=
  perThread s h (fun _ => []) [] (plainStep fun _ st t => setPred st t pd (getPred st t pa))

/-- sel, sel.b64 (R183). -/
def execSel (h : Hd) (b64 : Bool) (rd ra rb : Reg) (pc : Fin 16) (s : State) : Host.Outcome State Fault Refusal :=
  byDest s h rd (fun _ => []) (spanRegs b64 ra ++ spanRegs b64 rb)
    (plainStep fun free st t =>
      let r := if getPred st t pc then ra else rb
      if b64 then writePair st t rd (readPair free st t r) else writeReg st t rd (readReg free st t r))

/-- R184: predicate pa of the active threads, as it stood when the issue began. -/
def votes (i : Issue) (pa : Fin 16) : List Bool := (i.earlier ++ i.active).map fun t => getPred i.began t pa

/-- vote.any (R184). -/
def execVoteAny (h : Hd) (pd pa : Fin 16) (s : State) : Host.Outcome State Fault Refusal :=
  perThread s h (fun _ => []) [] (fun i s st t => .ok s (setPred st t pd ((votes i pa).any id)) none none)

/-- vote.all (R184). -/
def execVoteAll (h : Hd) (pd pa : Fin 16) (s : State) : Host.Outcome State Fault Refusal :=
  perThread s h (fun _ => []) [] (fun i s st t => .ok s (setPred st t pd ((votes i pa).all id)) none none)

/-- R184: the ballot of the active threads. -/
def ballot (i : Issue) (pa : Fin 16) : Nat :=
  ((i.earlier ++ i.active).map fun t => if getPred i.began t pa then 2 ^ t else 0).foldl (· + ·) 0

/-- vote.ballot (R184): a uniform pair takes it once, from the whole of the active threads. -/
def execVoteBallot (h : Hd) (rd : Reg) (pa : Fin 16) (s : State) : Host.Outcome State Fault Refusal :=
  byDest s h rd (fun _ => []) []
    (fun i s st t => .ok s (writePair st t rd (BitVec.ofNat 64 (ballot i pa))) none none)

/-- R185: the source thread of xch. -/
def xchSource (mode : XchMode) (t : Nat) (d : Word) : Int :=
  match mode with
  | .idx => d.toNat
  | .xor => ((t ^^^ d.toNat : Nat) : Int)
  | .up => (t : Int) - d.toNat
  | .down => (t : Int) + d.toNat

/-- R122: a register of thread j as it stood when the issue began; an exited thread's reads undefined. -/
def readAtIssue (free : Nat) (i : Issue) (j : Nat) (r : Reg) : Word :=
  if (getThread i.began j).exited then Config.freeWord free 5 j else readReg free i.began j r

/-- xch (R185). A poisoned source faults as any read of it does (R336). -/
def execXch (h : Hd) (mode : XchMode) (rd ra : Reg) (b : RegImm) (s : State) : Host.Outcome State Fault Refusal :=
  byDest s h rd (fun _ => []) (spanB false b)
    (fun i s st t =>
      let j := xchSource mode t (readSingleB s.free st t b)
      let src := if 0 ≤ j ∧ j < i.st.width then j.toNat else t
      if readsPoison i.began src [ra] then .fault s st (0x0f, 1) 0 0
      else .ok s (writeReg st t rd (if src = t then readReg s.free st t ra else readAtIssue s.free i src ra)) none none)

/-- R186: the combination of a scan. -/
def scanCombine (ty : ITy) (sat : Bool) (op : ScanOp) (a b : Word) : Word :=
  let av : Int := match ty with | .i32 => a.toInt | _ => a.toNat
  let bv : Int := match ty with | .i32 => b.toInt | _ => b.toNat
  match op with
  | .add => BitVec.ofNat 32 (resInt ty sat (av + bv))
  | .min => if av ≤ bv then a else b
  | .max => if av ≤ bv then b else a
  | .and => a &&& b
  | .or => a ||| b
  | .xor => a ^^^ b

/-- scan (R186). -/
def execScan (h : Hd) (ty : ITy) (sat : Bool) (op : ScanOp) (rd : Reg) (x : RegImm) (s : State) :
    Host.Outcome State Fault Refusal :=
  perThread s h (fun _ => []) (.sap :: spanB false x)
    (plainStep fun free st t =>
      let v := scanCombine ty sat op (readReg free st t .sap) (readSingleB free st t x)
      writeReg (writeKey st .sap v) t rd v)

end Sys2Proof.Machine
end

