-- ==== Sys2Proof/Machine/Control.lean ====
section
/-! DEFINITION. Control instructions: branches, calls and returns with spill and fill (R112 to R115), meeting
points (R116), exit, wait and nop (R187 to R194). -/

namespace Sys2Proof.Machine

/-! ### Branches -/

/-- R161, R187: pc + 8 + 8 × sext(off). -/
def branchTarget (pc : DWord) (off : Word) : DWord := pc + 8 + 8 * off.signExtend 64

/-- bra (R187). -/
def execBra (h : Hd) (off : Word) (s : State) : Host.Outcome State Fault Refusal :=
  perThread s h (fun _ => []) [] (fun i s st _ => .ok s st (some (branchTarget i.pc off)) none)

/-- bra.u (R187): once; every thread at the PC goes to the target. -/
def execBraU (h : Hd) (off : Word) (s : State) : Host.Outcome State Fault Refusal :=
  onceUniform s h (fun _ => []) [] (fun _ => 1) (fun i s st _ => .ok s st (some (branchTarget i.pc off)) none)

/-- brx (R188). -/
def execBrx (h : Hd) (ra : Reg) (s : State) : Host.Outcome State Fault Refusal :=
  perThread s h (fun _ => []) [ra]
    (fun i s st t => .ok s st (some (i.lr.code + 8 * (readReg s.free st t ra).setWidth 64)) none)

/-! ### Spill and fill (R114, R115) -/

/-- A frame below the current one with the link that follows it: first and last slot. -/
structure FrameUnit where
  base : Nat
  last : Nat
deriving DecidableEq, Repr

/-- The resident units below a frame that begins at `base`, newest first. -/
def unitsBelow (st : Strand) (t : Nat) (floor : Nat) : Nat → Nat → List FrameUnit
  | 0, _ => []
  | n + 1, base =>
    if base ≤ floor then []
    else
      let f := fld (mapGetD st.vregs (64 * (base - 1) + t) 0).toNat 0 7
      let b := base - 1 - f
      { base := b, last := base - 1 } :: unitsBelow st t floor n b

/-- R114: the spill-area address of slot j of thread t. -/
def spillAddr (st : Strand) (t j : Nat) : Nat := (st.spill.toNat + 4 * (st.width * j + t)) % 2 ^ 64

/-- What a spill or fill comes to: done, with the first watchpoint that one of its accesses matched; or stopped, by a
fault, or by a park of its thread-step (R43, R131, R387). A byte cap that is used up holds it, as it holds any request
(R320): its strand parks meanwhile (log 34). -/
inductive SpillOut
  | ok (s : State) (st : Strand) (watch : Option (Nat × Nat))
  | fault (s : State) (st : Strand) (c : Cause) (addr : DWord)
  | park (s : State) (st : Strand) (c : Park)

/-- The translation of a spill or fill access, which is a global access of the strand (R43, R114, R115). -/
def spillTranslate (s : State) (st : Strand) (a need : Nat) (k : Nat → Nat → State → SpillOut) : SpillOut :=
  if bytesExhausted s st.world st.owner then .park s st .budget
  else match translate s st.core st.limb st.world a need with
  | (.ok pa c, s) => k pa c s
  | (.bad c, s) => .fault s st c (BitVec.ofNat 64 a)
  | (.ats p, s) => .park (requestAts s st.world p) st (.ats p a need)
  | (.miss, s) => let (id, s) := startWalk s st.core st.world a need st.home; .park s st (.walk id)

/-- Writes slots j, j + 1, … of thread t to the spill area, through the core data cache (R114). What a slot holds is
written though its load has not been counted (R10): it is there again once the slot is filled. -/
def spillSlots (t : Nat) : Nat → Nat → State → Strand → Option (Nat × Nat) → SpillOut
  | 0, _, s, st, w => .ok s st w
  | n + 1, j, s, st, w =>
    let a := spillAddr st t j
    spillTranslate s st a needWrite fun pa c s =>
      let key := 64 * j + t
      let v := mapGetD st.vregs key (slotInit s.free st key)
      let s := globalWrite s st.core st.world (cachingOf c false) pa (leList 4 v.toNat) (st.poisoned.contains (.v key))
      spillSlots t n (j + 1) (chargeBytes s st.world st.owner)
        { st with vregs := mapErase st.vregs key, poisoned := st.poisoned.filter (· != .v key) }
        (firstMatch w (watchMatch s st 0 true false a 4))

/-- R114: make_room: spills whole units, oldest first, while h' - floor > D. A unit is written only within `slim`, and one
whose writing stops stays resident (R115). -/
def makeRoom (t h' : Nat) : List FrameUnit → State → Strand → Option (Nat × Nat) → SpillOut
  | [], s, st, w => .ok s st w
  | u :: us, s, st, w =>
    if h' - (getThread st t).floor ≤ st.depth then .ok s st w
    else if st.slim.toNat < st.spill.toNat + 4 * st.width * (u.last + 1) then .fault s st (7, 1) 0
    else match spillSlots t (u.last + 1 - u.base) u.base s st w with
      | .ok s st w => makeRoom t h' us s (setThread st t { getThread st t with floor := u.last + 1 }) w
      | .fault s _ c a => .fault s st c a
      | .park s _ c => .park s st c

/-- Reads slots back from the spill area; a slot that a load has reached meanwhile keeps its value. -/
def fillSlots (t : Nat) : Nat → Nat → State → Strand → Option (Nat × Nat) → SpillOut
  | 0, _, s, st, w => .ok s st w
  | n + 1, j, s, st, w =>
    let a := spillAddr st t j
    spillTranslate s st a needRead fun pa c s =>
      let (bs, bad, s) := globalRead s st.core st.world (cachingOf c false) pa 4
      let key := 64 * j + t
      let st := if (mapGet st.vregs key).isSome then st
        else
          { st with
            vregs := mapSet st.vregs key (BitVec.ofNat 32 (leVal bs))
            poisoned := if bad then .v key :: st.poisoned else st.poisoned }
      fillSlots t n (j + 1) (chargeBytes s st.world st.owner) st (firstMatch w (watchMatch s st 0 false true a 4))

/-- R336: the link word of a frame at `base` holds poison. -/
def linkPoisoned (st : Strand) (t base : Nat) : Bool := st.poisoned.contains (.v (64 * (base - 1) + t))

/-- R114: ensure_resident for the caller of the frame at `base`: where the unit below it has been spilled, it is
filled, the link first. A unit whose filling stops stays in the spill area (R115). -/
def ensureCaller (t base : Nat) (s : State) (st : Strand) : SpillOut :=
  let floor := (getThread st t).floor
  if base = 0 ∨ floor < base then .ok s st none
  else match fillSlots t 1 (base - 1) s st none with
    | .ok s st1 w =>
      if linkPoisoned st1 t base then .fault s st (0x0f, 1) 0
      else
        let f := fld (mapGetD st1.vregs (64 * (base - 1) + t) 0).toNat 0 7
        let b := base - 1 - f
        (match fillSlots t f b s st1 w with
         | .ok s st w => .ok s (setThread st t { getThread st t with floor := b }) w
         | .fault s _ c a => .fault s st c a
         | .park s _ c => .park s st c)
    | .fault s _ c a => .fault s st c a
    | .park s _ c => .park s st c

def concludeSpill (k : State → Strand → Option (Nat × Nat) → StepOut) : SpillOut → StepOut
  | .ok s st w => k s st w
  | .fault s st c a => .fault s st c 0 a
  | .park s st c => .park s st c

/-! ### Calls and returns -/

/-- R113, R189: the return offset of a call at pc. -/
def returnOffset (i : Issue) : Nat := (i.pc + 8 - i.lr.code).toNat / 8

/-- R336: a link word by which the units that might be spilled are found holds poison. -/
def unitPoisoned (st : Strand) (t : Nat) (us : List FrameUnit) : Bool := us.any fun u => linkPoisoned st t (u.last + 1)

/-- R113: call_step into a frame of fc registers. Where a unit has to be spilled, the links that lead to it are read (R336). -/
def callStep (i : Issue) (target : DWord) (fc : Nat) (s : State) (st : Strand) (t : Nat) : StepOut :=
  let th := getThread st t
  let link : Word := BitVec.ofNat 32 (returnOffset i * 128 + th.fsize)
  let st := writeKey st (.v (64 * th.height + t)) link
  let h' := th.height + 1 + fc
  let us := unitsBelow st t th.floor 400 th.base
  if decide (st.depth < h' - th.floor) && unitPoisoned st t us then .fault s st (0x0f, 1) 0 0
  else concludeSpill (fun s st w =>
      let th' := getThread st t
      .ok s (setThread st t { th' with base := th.height + 1, fsize := fc, height := h' }) (some target) w)
    (makeRoom t h' us.reverse s st none)

/-- call (R189). -/
def execCall (h : Hd) (fc : BitVec 7) (off : Word) (s : State) : Host.Outcome State Fault Refusal :=
  perThread s h
    (fun i => [if i.active.any (fun t => decide (i.st.depth < (getThread i.st t).fsize + 1 + fc.toNat))
        || decide (2 ^ 25 ≤ returnOffset i) then some (illegalOp 6) else none]) []
    (fun i => callStep i (branchTarget i.pc off) fc.toNat)

/-- callx (R189): the handle is checked at each thread's step. -/
def execCallx (h : Hd) (ra : Reg) (s : State) : Host.Outcome State Fault Refusal :=
  perThread s h (fun i => [if 2 ^ 25 ≤ returnOffset i then some (illegalOp 6) else none]) [ra]
    (fun i s st t =>
      let k := (readReg s.free st t ra).toNat
      let fc := fld k 0 7
      if fc = 0 ∨ 96 < fc ∨ st.depth < (getThread st t).fsize + 1 + fc then .fault s st (7, 2) 0 0
      else callStep i (i.lr.code + 8 * BitVec.ofNat 64 (k / 128)) fc s st t)

/-! ### Exits -/

/-- R118: a graft whose sibling exits completes with its predicate cleared. -/
def releaseGrafts (s : State) (st : Strand) : State :=
  s.strands.foldl (fun s w => match w.status with
    | .waitGraft g =>
      if g.partner = st.home ∧ w.home ≠ st.home then
        completeWait s { w with threads := w.threads.map fun th =>
            if th.exited then th else { th with preds := th.preds &&& ~~~BitVec.ofNat 16 (2 ^ g.pd.val) } }
          g.pc
      else s
    | _ => s) s

/-- R192, R283: thread t exits: its requests are released; when the strand's last thread has exited, grafts that wait
for it complete. -/
def exitThread (s : State) (st : Strand) (t : Nat) : State × Strand :=
  let st := setThread st t { getThread st t with exited := true, tickets := [] }
  let s := { s with nreqs := s.nreqs.map fun r => if r.strand = st.home ∧ r.tix = t then { r with dropped := true } else r }
  (if st.threads.all (·.exited) then releaseGrafts s st else s, st)

/-- exit (R192). -/
def execExit (h : Hd) (s : State) : Host.Outcome State Fault Refusal :=
  perThread s h (fun _ => []) [] (fun _ s st t => let (s, st) := exitThread s st t; .ok s st none none)

/-- R113: ret_step. A poisoned link word faults as the step reads it (R336). -/
def retStep (i : Issue) (s : State) (st : Strand) (t : Nat) : StepOut :=
  let th := getThread st t
  if th.base = 0 then
    let (s, st) := exitThread s st t
    .ok s st none none
  else if linkPoisoned st t th.base then .fault s st (0x0f, 1) 0 0
  else
    let link := (mapGetD st.vregs (64 * (th.base - 1) + t) (slotInit s.free st (64 * (th.base - 1) + t))).toNat
    let f := fld link 0 7
    let b := th.base - 1 - f
    concludeSpill (fun s st w =>
        let th' := getThread st t
        .ok s (setThread st t { th' with height := th.base - 1, base := b, fsize := f })
          (some (i.lr.code + 8 * BitVec.ofNat 64 (link / 128))) w)
      (ensureCaller t b s st)

/-- ret (R190). -/
def execRet (h : Hd) (s : State) : Host.Outcome State Fault Refusal :=
  perThread s h (fun _ => []) [] retStep

/-! ### Meeting points -/

/-- R191: the meeting value of a label. -/
def meetValue (i : Issue) (off : Word) : Word := BitVec.ofNat 32 ((branchTarget i.pc off - i.lr.code).toNat / 8)

/-- meet (R191): a push onto a full stack faults (R116). -/
def execMeet (h : Hd) (off : Word) (s : State) : Host.Outcome State Fault Refusal :=
  perThread s h (fun _ => []) []
    (fun i s st t =>
      let th := getThread st t
      if st.diverge ≤ th.mstack.length then .fault s st (6, 1) 0 0
      else .ok s (setThread st t { th with mstack := th.mstack ++ [th.meet], mrest := [], meet := meetValue i off }) none none)

/-- meet.pop (R191): a pop of an empty stack faults (R116). -/
def execMeetPop (h : Hd) (s : State) : Host.Outcome State Fault Refusal :=
  perThread s h (fun _ => []) []
    (fun _ s st t =>
      let th := getThread st t
      match th.mstack.getLast? with
      | none => .fault s st (6, 2) 0 0
      | some m => .ok s (setThread st t { th with mstack := th.mstack.dropLast, mrest := [], meet := m }) none none)

/-! ### wait and nop -/

/-- Instructions outstanding of a class: 0 loads, 1 stores (R125). -/
def outstanding (st : Strand) (cls : Nat) : Nat := (st.outs.filter (·.cls == cls)).length

/-- R125, R126: every counter is at or below its limit. -/
def waitMet (st : Strand) (loads stores chains matrix : Fin 64) : Bool :=
  decide (outstanding st 0 ≤ loads.val) && decide (outstanding st 1 ≤ stores.val)
    && decide (st.chains ≤ chains.val) && decide (st.matrix ≤ matrix.val)

/-- R10: the loads that have completed become readable. The manual does not say which loads a `wait` counts as complete
whose limit on loads is above 0: here every load that has in fact completed (log 28). -/
def countLoads (st : Strand) : Strand :=
  { st with shadow := st.shadow.filter fun e => st.outs.any (·.tag == e.2) }

/-- wait (R193, R124, R125): evaluated only as the first issue of a grant, where every counter is at or below its
limit. Elsewhere the grant ends before it, and reached after the first issue it ends the run as well. Only one that heads
a run counts loads as complete (R10). -/
def execWait (rbBit : Bool) (loads stores chains matrix : Fin 64) (s : State) : Host.Outcome State Fault Refusal :=
  match getStrand s s.issuer with
  | none => .fault .noStrand
  | some st =>
    if (getLane s (strandLane st)).issues ≠ 0 then .next (ungrant (setStrand s (newRun s st)) st)
    else if !waitMet st loads stores chains matrix then .next (ungrant s st)
    else onceUniform s ⟨rbBit, .always⟩ (fun _ => []) [] (fun _ => 1) (fun _ s st _ => .ok s (if st.runHead then countLoads st else st) none none)

/-- nop (R194). -/
def execNop (h : Hd) (s : State) : Host.Outcome State Fault Refusal :=
  if h.guard = .always then onceUniform s h (fun _ => []) [] (fun _ => 1) (fun _ s st _ => .ok s st none none)
  else perThread s h (fun _ => []) [] (fun _ s st _ => .ok s st none none)

end Sys2Proof.Machine
end

