-- ==== Sys2Proof/Machine/Engine.lean ====
section
/-! DEFINITION. Job cards: their fields and checks, the walk of a chain, and enq and seqw (R58 to R72, R78 to R80,
R244 to R246). -/

namespace Sys2Proof.Machine

/-! ### Cards (R63 to R66) -/

/-- The unsigned field of n bytes at an offset. -/
def cardField (c : Card) (o n : Nat) : Nat := leVal ((c.bytes.drop o).take n)

def cardSigned (c : Card) (o : Nat) : Int := (BitVec.ofNat 64 (cardField c o 8)).toInt

def cardHeader (c : Card) : Nat := cardField c 0 8
def cardKind (c : Card) : Nat := fld (cardHeader c) 0 8
def cardNote (c : Card) : Nat := fld (cardHeader c) 8 8
def cardLast (c : Card) : Bool := fld (cardHeader c) 31 1 == 1
def cardNext (c : Card) : Nat := fld (cardHeader c) 32 20

/-- The kinds of R66. -/
def kCopy : Nat := 1
def kNd : Nat := 2
def kGather : Nat := 3
def kFill : Nat := 4
def kLoop : Nat := 5
def kIf : Nat := 6
def kSeq : Nat := 7
def kNote : Nat := 8
def kPeer : Nat := 9

/-- The causes of R79, in its order. -/
def fMisalign : Nat := 1
def fReserved : Nat := 2
def fBadKind : Nat := 3
def fBadShape : Nat := 4
def fSelfOverlap : Nat := 5
def fRegionRange : Nat := 6
def fNest : Nat := 7
def fChainLong : Nat := 8
def fSeqSelf : Nat := 9
def fOutside : Nat := 10
def fTranslate : Nat := 11
def fPort : Nat := 12
def fNotify : Nat := 13

/-- The used regions of a card, as declared. A SEQ or NOTE card has no footprint (R72, R73), and what a used descriptor in
one means is left open: here it is checked, counted as pending and held to edges as in any card, and nothing accesses
it (log 15). -/
def cardRegions (c : Card) : List Region :=
  (List.range 4).filterMap fun k =>
    let w1 := cardField c (0x48 + 16 * k) 8
    if fld w1 62 2 = 0 then none else some (decide (2 ≤ k), fld w1 62 2, cardField c (0x40 + 16 * k) 8, fld w1 0 40)

/-- R70: regions advanced by a LOOP's steps. -/
def advance (a : Nat) (by_ : Int) : Nat := (((a : Int) + by_) % 2 ^ 64).toNat

def advRegions (src dst : Int) (rs : List Region) : List Region :=
  rs.map fun (w, sp, b, n) => (w, sp, advance b (if w then dst else src), n)

/-- R65: the bytes from a on lie in regions of a kind and space. -/
def inRegions (rs : List Region) (w : Bool) (sp : Nat) : Nat → Nat → Nat → Bool
  | _, _, 0 => true
  | 0, _, _ => false
  | k + 1, a, n => rs.any fun (rw, rsp, b, len) =>
      rw == w && rsp == sp && decide (b ≤ a) && decide (a < b + len)
        && inRegions rs w sp k (a + min n (b + len - a)) (n - min n (b + len - a))

def inFoot (rs : List Region) (w : Bool) (sp a n : Nat) : Bool := inRegions rs w sp 3 a n

/-- The bits of the body that a kind uses (R66), as (offset in bytes, length in bytes, mask). -/
def bodyMask (kind : Nat) : List (Nat × Nat × Nat) :=
  let d (o : Nat) : Nat × Nat × Nat := (o, 8, 2 ^ 64 - 1)
  let w (o : Nat) : Nat × Nat × Nat := (o, 4, 2 ^ 32 - 1)
  match kind with
  | 1 => [d 8, d 16, w 24, (28, 4, 0xf)]
  | 2 => [d 8, d 16, w 24, (28, 4, 0xf)]
  | 3 => [d 8, d 16, w 24, w 28, w 32, (36, 4, 0xf)]
  | 4 => [d 8, d 16, w 24, (28, 4, 0xc)]
  | 5 => [w 8, w 12, d 16, d 24]
  | 6 => [w 8, w 12, d 16, w 24, w 28, (32, 4, 3)]
  | 7 => [w 8, d 16]
  | 8 => [w 8, w 12]
  | 9 => [d 8, d 16, w 24, (28, 4, 0x3f)]
  | _ => []

/-- A reserved bit of the body is set. -/
def bodyReserved (c : Card) (kind : Nat) : Bool :=
  let body := cardField c 8 56
  let used := (bodyMask kind).foldl (fun acc (o, _, m) => acc ||| m * 2 ^ (8 * (o - 8))) 0
  body &&& (2 ^ 448 - 1 - used) != 0

/-- The body space codes of a kind, source and destination (R66). -/
def bodySpaces (c : Card) (kind : Nat) : List Nat :=
  match kind with
  | 1 | 2 => [fld (cardField c 28 4) 0 2, fld (cardField c 28 4) 2 2]
  | 3 => [fld (cardField c 36 4) 0 2, fld (cardField c 36 4) 2 2]
  | 4 => [fld (cardField c 28 4) 2 2]
  | 9 => [fld (cardField c 28 4) 0 2]
  | _ => []

/-- R64, R79: a reserved bit of a region descriptor, a length without a space, or a space out of its place: a peer region
is the destination of a PEER COPY and stands in no other descriptor (log 15). -/
def regionReserved (c : Card) (k : Nat) : Bool :=
  let w0 := cardField c (0x40 + 16 * k) 8
  let w1 := cardField c (0x48 + 16 * k) 8
  fld w1 40 22 != 0 || (fld w1 62 2 == 3 && (cardKind c != kPeer || decide (k < 2))) || (fld w1 62 2 == 0 && fld w1 0 40 != 0) || (fld w1 62 2 == 2 && fld w0 20 44 != 0)

/-- Every byte of a view range lies in the grove's view, and may be written if it must (R85, R99). Windows and the
private range end on 128-byte boundaries of the view. -/
def viewHolds (s : State) (g : Grove) (write : Bool) (a n : Nat) : Bool :=
  n == 0 || decide (a + n ≤ 0x100000) && (List.range (((a + n - 1) / 128) - a / 128 + 1)).all fun i =>
    match viewMap s g (max a ((a / 128 + i) * 128)) with
    | some (_, denied) => !(write && denied)
    | none => false

/-- The heads of a card's bodies (R70, R71). -/
def bodyHeads (c : Card) : List Nat :=
  if cardKind c = kLoop then [cardField c 8 4]
  else if cardKind c = kIf then
    (if fld (cardField c 32 4) 0 1 = 1 then [cardField c 24 4] else []) ++
      (if fld (cardField c 32 4) 1 1 = 1 then [cardField c 28 4] else [])
  else []

/-- The faults of a card's own structure (R79). R79 does not say which one is recorded where a card meets several: here the
tests are made in the order written. A misaligned next offset is recorded under the card that holds it, with that card's note
(log 49). -/
def cardFault (s : State) (g : Grove) (ch seq depth : Nat) (c : Card) : Option ChainFault :=
  let h := cardHeader c
  let kind := cardKind c
  let f (cause addr : Nat) : Option ChainFault := some { cause := cause, off := c.off, note := cardNote c, addr := addr }
  let ofs := cardField c 24 4
  let rs := cardRegions c
  if !cardLast c && cardNext c % 128 != 0 then f fMisalign (cardNext c)
  else if (kind == kNd && ofs % 8 != 0) || (kind == kGather && ofs % 4 != 0) then f fMisalign ofs
  else if kind == kIf && cardField c 8 4 % 8 != 0 then f fMisalign (cardField c 8 4)
  else if fld h 52 12 != 0 || fld h 16 15 != 0 then f fReserved 0
  else if kind == 0 || decide (9 < kind) then f fBadKind 0
  else if bodyReserved c kind || (bodySpaces c kind).any (fun x => x != 1 && x != 2)
      || (List.range 4).any (regionReserved c)
      || (kind == kGather && (cardField c 32 4 == 0 || decide (4096 < cardField c 32 4)))
      || (kind == kIf && decide (3 < cardField c 12 4)) || (kind == kSeq && decide (3 < cardField c 8 4)) then f fReserved 0
  else if rs.any (fun (w, sp, b, n) => !w && rs.any fun (w', sp', b', n') =>
      w' && sp == sp' && sp != 3 && n != 0 && n' != 0 && overlaps b n b' n') then f fSelfOverlap 0
  else match rs.find? (fun (w, sp, b, n) => sp == 2 && !viewHolds s g w b n) with
    | some (_, _, b, _) => f fRegionRange b
    | none =>
      if bodyHeads c != [] && decide (4 ≤ depth) then f fNest 0
      else if kind == kSeq && cardField c 8 4 == ch && decide (seq ≤ cardField c 16 8) then f fSeqSelf 0
      else none

/-- Reads n bytes of scratch through a grove's view (R85): each byte with its poison. -/
def viewRead (s : State) (core w : Nat) (g : Grove) (a : Nat) : Nat → Option (List (Byte × Bool))
  | 0 => some []
  | n + 1 =>
    match viewMap s g a with
    | none => none
    | some (p, _) =>
      let (bs, bad, _) := scratchRead s core w p 1
      (viewRead s core w g (a + 1) n).map fun r => (bs.headD 0, bad) :: r

/-- The card at a view offset. -/
def readCard (s : State) (core w : Nat) (g : Grove) (off : Nat) : Option Card :=
  (viewRead s core w g off 128).map fun bs => { off := off, bytes := bs.map (·.1) }

/-! ### The walk (R60) -/

/-- Visits the cards of a chain, at most 256 of them; the places still to visit carry their nesting depth. A card's bodies
are visited before the card that follows it, the then-body first, and the first fault met ends the walk: R60 and R79 give no
order (log 49). -/
def walkCards (s : State) (core w : Nat) (g : Grove) (ch seq : Nat) : Nat → List (Nat × Nat) → Except ChainFault (List Card)
  | _, [] => .ok []
  | 0, (off, _) :: _ => .error { cause := fChainLong, off := off }
  | n + 1, (off, d) :: rest =>
    if off % 128 ≠ 0 then .error { cause := fMisalign, off := off, addr := off }
    else match readCard s core w g off with
      | none => .error { cause := fRegionRange, off := off, addr := off }
      | some c =>
        match cardFault s g ch seq d c with
        | some f => .error f
        | none =>
          (walkCards s core w g ch seq n
            ((bodyHeads c).map (fun o => (o, d + 1)) ++ (if cardLast c then [] else [(cardNext c, d)]) ++ rest)).map (c :: ·)

/-- The cards that a walk visits, that at which it fails among them. -/
def walkCount (s : State) (core w : Nat) (g : Grove) (ch seq : Nat) : Nat → List (Nat × Nat) → Nat
  | _, [] => 0
  | 0, _ :: _ => 0
  | n + 1, (off, d) :: rest =>
    if off % 128 ≠ 0 then 0
    else match readCard s core w g off with
      | none => 0
      | some c =>
        match cardFault s g ch seq d c with
        | some _ => 1
        | none => 1 + walkCount s core w g ch seq n
            ((bodyHeads c).map (fun o => (o, d + 1)) ++ (if cardLast c then [] else [(cardNext c, d)]) ++ rest)

def walkChain (s : State) (core w : Nat) (g : Grove) (ch seq head : Nat) : Except ChainFault (List Card) :=
  walkCards s core w g ch seq 256 [(head, 0)]

/-! ### Presence (R77, R88) -/

/-- The scratch lines, of a core, that the write regions of a card cover. -/
def writeLines (s : State) (core : Nat) (g : Grove) (c : Card) : List Nat :=
  ((cardRegions c).flatMap fun (w, sp, b, n) =>
    if w && sp == 2 && n != 0 then
      (List.range ((b + n - 1) / 128 - b / 128 + 1)).filterMap fun i =>
        (viewMap s g ((b / 128 + i) * 128)).map fun (p, _) => core * 8192 + p / 128
    else []).eraseDups

def addWriter (s : State) (line : Nat) : State := { s with writers := mapSet s.writers line (mapGetD s.writers line 0 + 1) }

def dropWriter (s : State) (line : Nat) : State :=
  let n := mapGetD s.writers line 0 - 1
  { s with writers := if n = 0 then mapErase s.writers line else mapSet s.writers line n }

/-! ### What the walk does to the core data cache (R60) -/

/-- The access that a region's card makes, for translation. -/
def regionNeed (write : Bool) : Nat := if write then needWrite else needRead

/-- The first of some pages of regions whose host page has no translation through ATS, with what translating them leaves. -/
def pageWanting (core w : Nat) : List (Bool × Nat) → State → Option (Nat × State)
  | [], _ => none
  | (wr, va) :: r, s =>
    match translateEngine s core w va (regionNeed wr) with
    | (.ats p, s) => some (p, s)
    | (_, s) => pageWanting core w r s

/-- The pages of the global regions of some cards. -/
def cardPages (cs : List Card) : List (Bool × Nat) :=
  cs.flatMap fun c => (cardRegions c).flatMap fun (wr, sp, b, n) =>
    if sp == 1 && n != 0 then (List.range ((b + n - 1) / 4096 - b / 4096 + 1)).map fun i => (wr, max b ((b / 4096 + i) * 4096)) else []

/-- Translates a line of a region for its access and writes its core-cache copy back, a written line's copy with
invalidation. A region that does not translate faults when the card runs; one on a host page whose translation is wanting
has held the enq back (R396). -/
def prepareLine (core w : Nat) (write : Bool) (s : State) (va : Nat) : State :=
  match translateEngine s core w va (regionNeed write) with
  | (.ok pa _, s) =>
    if write then coreFlush s core (pa / 128)
    else match getLine s.dcache core (pa / 128) with
      | some l => coreWriteBack s l
      | none => s
  | (_, s) => s

def prepareCard (core w : Nat) (s : State) (c : Card) : State :=
  (cardRegions c).foldl (fun s (wr, sp, b, n) =>
    if sp == 1 && n != 0 then
      (List.range ((b + n - 1) / 128 - b / 128 + 1)).foldl (fun s i => prepareLine core w wr s ((b / 128 + i) * 128)) s
    else s) s

/-! ### Channels (R59) -/

def getChannel (s : State) (core ch w : Nat) : Channel :=
  (s.channels.find? fun c => c.core == core && c.ch == ch && c.world == w).getD { core := core, ch := ch, world := w }

def setChannel (s : State) (c : Channel) : State :=
  { s with channels := c :: s.channels.filter fun x => !(x.core == c.core && x.ch == c.ch && x.world == c.world) }

/-- R60: chains enqueued on a channel and not complete. -/
def channelLoad (s : State) (core ch : Nat) : Nat := (s.chains.filter fun c => c.core == core && c.ch == ch).length

/-! ### enq (R245) -/

/-- The walk that an enq makes from the registers of its lead thread. -/
def enqWalk (s : State) (st : Strand) (t ch : Nat) (ra : Reg) : Option (Grove × Except ChainFault (List Card)) :=
  (getGrove s st.grove).map fun g =>
    (g, walkChain s st.core st.world g ch ((getChannel s st.core ch st.world).issued + 1) (readReg s.free st t ra).toNat)

/-- R60, R121: the lane cycles of an enq: one for each card walked, though the walk rejects the chain. -/
def walkCycles (s : State) (st : Strand) (t ch : Nat) (ra : Reg) : Nat :=
  match getGrove s st.grove with
  | none => 1
  | some g =>
    max 1 (walkCount s st.core st.world g ch ((getChannel s st.core ch st.world).issued + 1) 256
      [((readReg s.free st t ra).toNat, 0)])

/-- Writes a count to a single register or a pair (R244). -/
def writeCount (st : Strand) (t : Nat) (wide : Bool) (rd : Reg) (n : Nat) : Strand :=
  if wide then writePair st t rd (BitVec.ofNat 64 n) else writeReg st t rd (BitVec.ofNat 32 n)

/-- A new chain: accepted, or rejected at its walk (R80). -/
def newChain (st : Strand) (ch seq head : Nat) (r : Except ChainFault (List Card)) : Chain :=
  match r with
  | .error f =>
    { core := st.core, ch := ch, world := st.world, seq := seq, strand := st.home, gen := st.gen, launch := st.launch
      grove := st.grove, frames := [], cards := [], pending := [], fault := some f, rejected := true }
  | .ok cs =>
    { core := st.core, ch := ch, world := st.world, seq := seq, strand := st.home, gen := st.gen, launch := st.launch
      grove := st.grove, frames := [{ at_ := some head }], cards := cs, pending := (cs.map (·.off)).eraseDups }

/-- The cards of a list, each offset once. -/
def distinctCards (cs : List Card) : List Card :=
  cs.foldl (fun acc c => if acc.any (·.off == c.off) then acc else acc ++ [c]) []

/-- R60: presence bits clear, and core-cache bytes are written back, for every card walked. -/
def prepareChain (s : State) (core w : Nat) (g : Grove) (cs : List Card) : State :=
  let s := (distinctCards cs).foldl (fun s c => (writeLines s core g c).foldl addWriter s) s
  cs.foldl (prepareCard core w) s

/-- The host page whose translation an enq has to wait for before it can write back what a card's regions have in the core
data cache (R60, R387, R396). -/
def enqWanting (s : State) (st : Strand) : Except ChainFault (List Card) → Option (Nat × State)
  | .ok cs => pageWanting st.core st.world (cardPages cs) s
  | .error _ => none

def enqStep (ch : Nat) (wide : Bool) (rd ra : Reg) (_ : Issue) (s : State) (st : Strand) (t : Nat) : StepOut :=
  if acquirePending s st then .parkPre s st .acquire
  else if outstanding st 1 ≠ 0 then .parkPre s st .drainStores
  else if 64 ≤ channelLoad s st.core ch then .parkPre s st (.channel st.core ch)
  else if 63 ≤ st.chains then .parkPre s st .chains
  else match enqWalk s st t ch ra with
    | none => .ok s st none none
    | some (g, r) =>
      match enqWanting s st r with
      | some (p, s) => .parkPre (requestAts s st.world p) st (.ats p 0 0)
      | none =>
        let c := getChannel s st.core ch st.world
        let seq := c.issued + 1
        let s := setChannel s { c with issued := seq }
        let s := match r with
          | .ok cs => prepareChain s st.core st.world g cs
          | .error f => noteView s st.core st.world g f.off 128
        let s := { s with chains := s.chains ++ [newChain st ch seq (readReg s.free st t ra).toNat r] }
        .ok s (writeCount { st with chains := st.chains + 1 } t wide rd seq) none none

/-- enq (R245). -/
def execEnq (h : Hd) (ch : Fin 4) (w : Bool) (rd ra : Reg) (s : State) : Host.Outcome State Fault Refusal :=
  onceUniform s h (fun _ => []) [ra] (fun i => walkCycles s i.st (i.active.headD 0) ch ra) (enqStep ch w rd ra)

/-! ### seqw (R246) -/

/-- The wait's condition. -/
def seqReached (wide : Bool) (completed target : Nat) : Bool :=
  if wide then decide (target ≤ completed)
  else decide (0 ≤ (BitVec.ofNat 32 completed - BitVec.ofNat 32 target).toInt)

def seqwStep (ch : Nat) (wide : Bool) (rd ra : Reg) (_ : Issue) (s : State) (st : Strand) (t : Nat) : StepOut :=
  if acquirePending s st then .parkPre s st .acquire
  else
    let target := if wide then (readPair s.free st t ra).toNat else (readReg s.free st t ra).toNat
    let c := getChannel s st.core ch st.world
    if seqReached wide c.completed target then
      .ok (acquireActs s st.core .copse) (writeCount st t wide rd c.completed) none none
    else .wait s st (.waitSeq { ch := ch, target := target, wide := wide, rd := rd, lead := t })

/-- seqw (R246). -/
def execSeqw (h : Hd) (ch : Fin 4) (w : Bool) (rd ra : Reg) (s : State) : Host.Outcome State Fault Refusal :=
  onceUniform s h (fun _ => []) (spanRegs w ra) (fun _ => 1) (seqwStep ch w rd ra)

/-- The strands that wait on a channel's count complete once it is reached. -/
def serveSeqw (s : State) (core ch w : Nat) : State :=
  let n := (getChannel s core ch w).completed
  s.strands.foldl (fun s st =>
    match st.status with
    | .waitSeq q =>
      if st.core == core && st.world == w && q.ch == ch && seqReached q.wide n q.target then
        completeWait (acquireActs s core .copse) (writeCount st q.lead q.wide q.rd n) (leadPc st q.lead)
      else s
    | _ => s) s

end Sys2Proof.Machine
end

