-- ==== Sys2Proof/Machine/Cards.lean ====
section
/-! DEFINITION. The engine scheduler: admission, start and completion of card instances, what each kind of card does, and
chains that complete or stop (R58, R59, R61, R65 to R81). -/

namespace Sys2Proof.Machine

/-! ### Scratch and global bytes of a card -/

/-- What an access of a card comes to. -/
abbrev CardM (α : Type) := Except ChainFault (α × State)

/-- The detail code of TRANSLATE (R328). -/
def translateCode (c : Cause) : Nat := c.2 + (if c.1 = 2 then 0x80 else 0)

def cfault (i : Inst) (cause addr : Nat) (code : Nat := 0) : ChainFault :=
  { cause := cause, code := code, off := i.card.off, note := cardNote i.card, addr := addr }

/-- A host page without a translation: the instance proceeds once it has come (R387). -/
def atsCode : Nat := 0xff

/-- Reads bytes for an instance (R302): each with its poison. -/
def instRead (i : Inst) (g : Grove) (sp : Nat) : Nat → Nat → State → CardM (List (Byte × Bool))
  | 0, _, s => .ok ([], s)
  | n + 1, a, s =>
    if sp = 2 then
      match viewMap s g a with
      | none => .error (cfault i fOutside a)
      | some (p, _) =>
        let (bs, bad, s) := scratchRead s i.core i.world p 1
        (instRead i g sp n (a + 1) s).map fun (r, s) => ((bs.headD 0, bad) :: r, s)
    else
      match translateEngine s i.core i.world (a % 2 ^ 64) needRead with
      | (.ok pa c, s) =>
        let (bs, bad, s) := if c = 1 then
            (ctlRead s i.world pa 1, ctlPoisoned s i.world pa 1, ctlNote s i.world pa 1)
          else sliceRead s i.core i.world pa 1
        (instRead i g sp n (a + 1) s).map fun (r, s) => ((bs.headD 0, bad) :: r, s)
      | (.bad c, _) => .error (cfault i fTranslate a (translateCode c))
      | (.ats p, _) => .error { cfault i fTranslate p atsCode with cause := 0 }
      | (.miss, _) => .error (cfault i fTranslate a 2)

/-- Writes bytes for an instance. -/
def instWrite (i : Inst) (g : Grove) (sp : Nat) : List (Byte × Bool) → Nat → State → CardM Unit
  | [], _, s => .ok ((), s)
  | (b, bad) :: r, a, s =>
    if sp = 2 then
      match viewMap s g a with
      | some (p, false) => instWrite i g sp r (a + 1) (scratchWrite s i.core i.world p [b] bad)
      | _ => .error (cfault i fOutside a)
    else
      match translateEngine s i.core i.world (a % 2 ^ 64) needWrite with
      | (.ok pa c, s) =>
        let s := if c = 1 then
            ctlWriteMasked s i.world (pa / 128) (byteMask (pa % 128) 1) (overlay (List.replicate 128 0) (pa % 128) [b])
              (if bad then byteMask (pa % 128) 1 else 0)
          else sliceWrite s i.core i.world pa [b] bad
        instWrite i g sp r (a + 1) s
      | (.bad c, _) => .error (cfault i fTranslate a (translateCode c))
      | (.ats p, _) => .error { cfault i fTranslate p atsCode with cause := 0 }
      | (.miss, _) => .error (cfault i fTranslate a 2)

/-- The instance's regions, advanced (R70). -/
def instRegions (i : Inst) : List Region := advRegions i.srcAdv i.dstAdv (cardRegions i.card)

/-- A read within the footprint (R65). -/
def footRead (i : Inst) (g : Grove) (sp a n : Nat) (s : State) : CardM (List (Byte × Bool)) :=
  if inFoot (instRegions i) false sp a n then instRead i g sp n a s else .error (cfault i fOutside a)

def footWrite (i : Inst) (g : Grove) (sp a : Nat) (bs : List (Byte × Bool)) (s : State) : CardM Unit :=
  if inFoot (instRegions i) true sp a bs.length then instWrite i g sp bs a s else .error (cfault i fOutside a)

/-! ### What the kinds do (R67 to R74) -/

/-- Copies n bytes. -/
def copyBytes (i : Inst) (g : Grove) (ss src ds dst n : Nat) (s : State) : Except ChainFault (Unit × State) := do
  let (bs, s) ← footRead i g ss src n s
  footWrite i g ds dst bs s

/-- The dimensions of a shape record: extent, source stride, destination stride (R68); none where it is invalid. The
reserved bytes of dimension 0 must be 0 (R79); those of the others hold what a convolution uses (R261) and are ignored. -/
def shapeDims (bs : List Byte) : Option (Nat × List (Nat × Int × Int)) :=
  let w0 := leVal (bs.take 8)
  let rank := fld w0 0 3
  if rank = 0 ∨ 5 < rank ∨ w0 / 64 ≠ 0 ∨ fld w0 3 1 ≠ 0 ∨ leVal ((bs.drop 12).take 4) ≠ 0 then none
  else some (2 ^ fld w0 4 2, (List.range rank).map fun d =>
    let f (o n : Nat) : Nat := leVal ((bs.drop (8 + 24 * d + o)).take n)
    (f 0 4, (BitVec.ofNat 64 (f 8 8)).toInt, (BitVec.ofNat 64 (f 16 8)).toInt))

/-- The source and destination displacements of the index tuples, dimension 0 varying fastest. -/
def shapeTuples : List (Nat × Int × Int) → List (Int × Int)
  | [] => [(0, 0)]
  | (n, ss, ds) :: r =>
    (shapeTuples r).flatMap fun (a, b) => (List.range n).map fun (k : Nat) => (a + (k : Int) * ss, b + (k : Int) * ds)

/-- Copies elements in order. -/
def copyElements (i : Inst) (g : Grove) (ss ds n : Nat) : List (Nat × Nat) → State → CardM Unit
  | [], s => .ok ((), s)
  | (a, b) :: r, s =>
    match copyBytes i g ss a ds b n s with
    | .ok (_, s) => copyElements i g ss ds n r s
    | .error f => .error f

/-- R69: the elements of a GATHER. At the first that leaves the footprint, those below it stand written. -/
def gatherElements (i : Inst) (g : Grove) (ss ds n : Nat) : List (Nat × Nat) → State → Except (ChainFault × State) State
  | [], s => .ok s
  | (a, b) :: r, s =>
    match copyBytes i g ss a ds b n s with
    | .ok (_, s) => gatherElements i g ss ds n r s
    | .error f => .error (f, s)

/-- What starting an instance comes to: done, a fault, or a fault of a GATHER after its earlier elements. -/
inductive Ran
  | ok (s : State)
  | fault (f : ChainFault)
  | partly (f : ChainFault) (s : State)
  /-- an IF's decision: the body to run -/
  | branch (s : State) (head : Option Nat)

def ranOf : CardM Unit → Ran
  | .ok (_, s) => .ok s
  | .error f => .fault f

/-- R69. The steps of a LOOP around it advance its addresses (R70); the offset of the index array, which the manual calls
neither a source nor a destination address, stands (log 15). An index array that lies partly outside the read regions raises
OUTSIDE before any element is written, and the write regions are undefined as R81 says: R69 speaks only of an element that
leaves the footprint (log 15). -/
def runGather (i : Inst) (g : Grove) (s : State) : Ran :=
  let c := i.card
  let n := cardField c 32 4
  let count := cardField c 28 4
  let sp := cardField c 36 4
  match footRead i g 2 (cardField c 24 4) (4 * count) s with
  | .error f => .fault f
  | .ok (idx, s) =>
    let bytes := idx.map (·.1)
    let pairs := (List.range count).map fun j =>
      (advance (cardField c 8 8 + leVal ((bytes.drop (4 * j)).take 4) * n) i.srcAdv, advance (cardField c 16 8 + j * n) i.dstAdv)
    match gatherElements i g (fld sp 0 2) (fld sp 2 2) n pairs s with
    | .ok s => .ok s
    | .error (f, s) => if f.cause = fOutside then .partly f s else .fault f

/-- R68. The steps of a LOOP advance the addresses; the offset of the shape record stands (log 15). -/
def runNd (i : Inst) (g : Grove) (s : State) : Ran :=
  let c := i.card
  let sp := cardField c 28 4
  match footRead i g 2 (cardField c 24 4) 128 s with
  | .error f => .fault f
  | .ok (bs, s) =>
    match shapeDims (bs.map (·.1)) with
    | none => .fault (cfault i fBadShape 0)
    | some (n, dims) =>
      ranOf (copyElements i g (fld sp 0 2) (fld sp 2 2) n ((shapeTuples dims).map fun (a, b) =>
        (advance (cardField c 8 8) (i.srcAdv + a), advance (cardField c 16 8) (i.dstAdv + b))) s)

/-- R71. -/
def ifHolds (op x v : Nat) : Bool :=
  match op with
  | 0 => x == v
  | 1 => x != v
  | 2 => decide (x < v)
  | _ => decide (v ≤ x)

/-- R71: the decision of an IF. The steps of a LOOP do not advance the offset of its condition word (log 15). -/
def runIf (i : Inst) (g : Grove) (s : State) : Ran :=
  let c := i.card
  match footRead i g 2 (cardField c 8 4) 8 s with
  | .error f => .fault f
  | .ok (bs, s) =>
    let yes := ifHolds (cardField c 12 4) (leVal (bs.map (·.1))) (cardField c 16 8)
    let pres := cardField c 32 4
    .branch s (if yes then (if fld pres 0 1 = 1 then some (cardField c 24 4) else none)
      else (if fld pres 1 1 = 1 then some (cardField c 28 4) else none))

/-- R73. It synchronises with the waitn that it satisfies (R304), so what happened before it is published (R294, log 33). -/
def runNote (i : Inst) (s : State) : Ran :=
  let k := cardField i.card 8 4
  if (notifyFault' s i.world k) then .fault (cfault i fNotify 0)
  else .ok (notifyAdd (releaseActs s i.core .system) k (BitVec.ofNat 32 (cardField i.card 12 4)))
where
  /-- The index is out of range, or the register is not assigned to the world. -/
  notifyFault' (s : State) (w k : Nat) : Bool :=
    decide (4095 < k) || match mapGet s.ntable k with
      | none => true
      | some e => e.world != w

/-- R74, R399: a port that is up. -/
def portUp (s : State) (p : Nat) : Bool :=
  match s.ports[p]? with
  | some x => x.trained && x.session && x.keys
  | none => false

/-- Flits that have room in the replay window of 64 are sent, each under the next counter; none is sent under a counter of
2^48, before which KEY_UPDATE renews the keys (R399). -/
def sendFlits : Nat → Port → Port
  | 0, x => x
  | n + 1, x =>
    match x.backlog with
    | [] => x
    | f :: r =>
      if 64 ≤ x.window.length ∨ 2 ^ 48 ≤ x.sent then x
      else sendFlits n { x with window := x.window ++ [{ f with counter := x.sent }], backlog := r, sent := x.sent + 1 }

/-- Bytes cut into payloads of at most 232. -/
def payloads {α : Type} : Nat → List α → List (List α)
  | 0, _ => []
  | n + 1, bs => if bs.isEmpty then [] else bs.take 232 :: payloads n (bs.drop 232)

/-- R74, R336, R399: bytes wait to be sent over a link, those of a card instance under its number. The manual says neither
which virtual channel they take nor how bytes fill flits: here the channel is a free choice, each flit is filled, and one with
a poisoned byte carries poison (log 45). -/
def queueFlits (s : State) (port : Nat) (inst : Option Nat) (bs : List (Byte × Bool)) : State :=
  match s.ports[port]? with
  | none => s
  | some x =>
    let fs := (payloads bs.length bs).map fun p =>
      ({ channel := Config.freeChoice s.free 46 % 16, payload := p.map (·.1), poison := p.any (·.2), inst := inst } : Flit)
    { s with ports := s.ports.set port (sendFlits 64 { x with backlog := x.backlog ++ fs }) }

/-- R74: the bytes, and their poison (R336), go to the peer, which the model does not hold. -/
def runPeer (i : Inst) (g : Grove) (s : State) : Ran :=
  let c := i.card
  let sp := cardField c 28 4
  if !portUp s (fld sp 2 3) then .fault (cfault i fPort 0)
  else match footRead i g (fld sp 0 2) (advance (cardField c 8 8) i.srcAdv) (cardField c 24 4) s with
    | .error f => .fault f
    | .ok (bs, s) => .ok (queueFlits s (fld sp 2 3) (some i.id) bs)

/-- The pattern of FILL. -/
def fillBytes (pattern n : Nat) : List (Byte × Bool) :=
  (List.range n).map fun j => (BitVec.ofNat 8 (pattern / 256 ^ (j % 8)), false)

/-- Each advanced instance lies within the footprints of the LOOP cards around it (R70); peer regions are checked by the
peer alone (R65). -/
def outsideLoop (i : Inst) : Option Nat :=
  i.bounds.findSome? fun b => (instRegions i).findSome? fun (w, sp, a, n) =>
    if sp == 3 || inFoot b w sp a n then none else some a

/-- R65, R79: a global region translates, page by page, with the access that it implies. -/
def regionTranslates (i : Inst) (w : Bool) : Nat → Nat → State → Option ChainFault × State
  | 0, _, s => (none, s)
  | k + 1, a, s =>
    match translateEngine s i.core i.world (a % 2 ^ 64) (regionNeed w) with
    | (.ok _ _, s) => regionTranslates i w k (a / 4096 * 4096 + 4096) s
    | (.bad c, s) => (some (cfault i fTranslate a (translateCode c)), s)
    | (.ats p, s) => (some { cfault i fTranslate p atsCode with cause := 0 }, s)
    | (.miss, s) => (some (cfault i fTranslate a 2), s)

/-- R65: every used global region of an instance translates, or the first that does not, with what its translations leave in
either case (R35, R40). A SEQ or NOTE card has no footprint (R72, R73). -/
def footTranslates (i : Inst) (s : State) : Option ChainFault × State :=
  if cardKind i.card = kSeq ∨ cardKind i.card = kNote then (none, s)
  else (instRegions i).foldl (fun (r : Option ChainFault × State) (x : Region) =>
    if r.1.isNone && x.2.1 == 1 && x.2.2.2 != 0 then
      regionTranslates i x.1 ((x.2.2.1 % 4096 + x.2.2.2 + 4095) / 4096) x.2.2.1 r.2
    else r) (none, s)

/-- What an instance does when it starts (R66). -/
def runCard (i : Inst) (g : Grove) (s : State) : Ran :=
  let c := i.card
  let sp := cardField c 28 4
  let src := advance (cardField c 8 8) i.srcAdv
  match outsideLoop i, footTranslates i s with
  | some a, _ => .fault (cfault i fOutside a)
  | none, (some f, _) => .fault f
  | none, (none, s) =>
    match cardKind c with
    | 1 => ranOf (copyBytes i g (fld sp 0 2) src (fld sp 2 2) (advance (cardField c 16 8) i.dstAdv) (cardField c 24 4) s)
    | 2 => runNd i g s
    | 3 => runGather i g s
    | 4 => ranOf (footWrite i g (fld sp 2 2) (advance (cardField c 8 8) i.dstAdv) (fillBytes (cardField c 16 8) (cardField c 24 4)) s)
    | 6 => runIf i g s
    | 8 => runNote i s
    | 9 => runPeer i g s
    | _ => .ok s

/-! ### Edges (R75) -/

/-- The physical scratch bytes of an instance's region. -/
def regionBytes (s : State) (g : Grove) (b n : Nat) : List Nat :=
  (List.range (min n 0x100000)).filterMap fun i => (viewMap s g (b + i)).map (·.1)

/-- The regions of an instance as edges compare them: write, scratch or not, and the bytes as a list of ranges. -/
def edgeRanges (s : State) (i : Inst) : List (Bool × Bool × List (Nat × Nat)) :=
  match i.segment with
  | some (uid, evict) =>
    (match s.segments.find? (·.uid == uid) with
     | some x => [(!evict, true, [(x.pbase, x.size * 1024)]), (evict, false, [(x.backing.toNat, x.size * 1024)])]
     | none => [])
  | none =>
    (instRegions i).filterMap fun (w, sp, b, n) =>
      if sp = 3 ∨ n = 0 then none
      else if sp = 1 then some (w, false, [(b, n)])
      else match getGrove s i.grove with
        | some g => some (w, true, (regionBytes s g b n).map fun p => (p, 1))
        | none => none

/-- R75: Y waits for X. -/
def hasEdge (s : State) (x y : Inst) : Bool :=
  x.core == y.core && x.world == y.world &&
    (edgeRanges s x).any fun (xw, xs, xr) => (edgeRanges s y).any fun (yw, ys, yr) =>
      (xw || yw) && xs == ys && xr.any fun (a, n) => yr.any fun (b, m) => overlaps a n b m

/-- No earlier-admitted instance holds an instance back. -/
def mayStart (s : State) (i : Inst) : List Inst → Bool
  | [] => false
  | x :: r => if x.id = i.id then true else !hasEdge s x i && mayStart s i r

/-! ### Chains -/

def getChain (s : State) (core ch w seq : Nat) : Option Chain :=
  s.chains.find? fun c => c.core == core && c.ch == ch && c.world == w && c.seq == seq

def sameChain (c x : Chain) : Bool := x.core == c.core && x.ch == c.ch && x.world == c.world && x.seq == c.seq

def setChain (s : State) (c : Chain) : State :=
  { s with chains := s.chains.map fun x => if sameChain c x then c else x }

/-- The instances of a chain in flight. -/
def chainInsts (s : State) (c : Chain) : List Inst :=
  s.insts.filter fun i => i.segment.isNone && i.core == c.core && i.ch == c.ch && i.world == c.world && i.seq == c.seq

def cardAt (c : Chain) (off : Nat) : Option Card := c.cards.find? (·.off == off)

/-- A card of a chain as scratch holds it now. -/
def scratchCard (s : State) (c : Chain) (off : Nat) : Option Card :=
  (getGrove s c.grove).bind fun g => readCard s c.core c.world g off

/-- Offsets reachable from some cards of a chain, bodies included. A card that the walk did not visit, which a change has
named since (R78), is seen as scratch holds it. -/
def reachFrom (s : State) (c : Chain) : Nat → List Nat → List Nat → List Nat
  | 0, _, seen => seen
  | _, [], seen => seen
  | n + 1, o :: r, seen =>
    if seen.contains o then reachFrom s c n r seen
    else match (cardAt c o).orElse fun _ => scratchCard s c o with
      | none => reachFrom s c n r seen
      | some k => reachFrom s c n (bodyHeads k ++ (if cardLast k then [] else [cardNext k]) ++ r) (o :: seen)

def reach (s : State) (c : Chain) (os : List Nat) : List Nat := reachFrom s c 1024 os []

/-- A frame has nothing left to admit. -/
def frameSpent (f : Frame) : Bool := f.at_.isNone && !(f.loop.isSome && decide (f.iter + 1 < f.count))

/-- The IF cards of a chain whose decision is to come: both bodies of each are still to run (R71). -/
def undecided (s : State) (c : Chain) : List Card :=
  ((chainInsts s c).filter fun i => !i.started && cardKind i.card == kIf).map (·.card)

/-- The cards of a chain that have not completed: those still to be admitted, those of instances in flight, and the LOOP
cards whose bodies run (R70, R71). -/
def unfinishedCards (s : State) (c : Chain) : List Nat :=
  let coming := reach s c (c.frames.flatMap (fun f => f.at_.toList ++ (if f.iter + 1 < f.count then [f.head] else []))
    ++ (undecided s c).flatMap bodyHeads)
  let live := coming ++ (chainInsts s c).map (·.card.off)
  let loops := c.cards.filterMap fun k =>
    if cardKind k = kLoop ∧ (reach s c (bodyHeads k)).any (live.contains ·) = true then some k.off else none
  live ++ loops

/-- R77, R71, R81: the pending counts of completed cards are released. -/
def releasePending (s : State) (c : Chain) : State :=
  match getGrove s c.grove with
  | none => s
  | some g =>
    let live := unfinishedCards s c
    let gone := c.pending.filter fun o => !live.contains o
    let s := gone.foldl (fun s o => match cardAt c o with
      | some k => (writeLines s c.core g k).foldl dropWriter s
      | none => s) s
    setChain s { c with pending := c.pending.filter fun o => live.contains o }

/-- R59: completed rises over chains that have finished in order. -/
def riseCompleted : Nat → Nat → List Nat → Nat × List Nat
  | 0, c, ahead => (c, ahead)
  | n + 1, c, ahead => if ahead.contains (c + 1) then riseCompleted n (c + 1) (ahead.filter (· != c + 1)) else (c, ahead)

/-- R327: the record of a chain's fault. -/
def chainRecord (c : Chain) (f : ChainFault) : List DWord :=
  [BitVec.ofNat 64 c.seq, BitVec.ofNat 64 (c.core * 2 ^ 57 + c.ch * 2 ^ 55 + f.off % 2 ^ 20 * 2 ^ 35),
    BitVec.ofNat 64 f.addr, recordWord3 1 0x10 f.cause (f.code * 256 + f.note) c.world 0 0 0]

/-- A chain completes (R59, R61, R62, R81). -/
def finishChain (s : State) (c : Chain) : State :=
  let s := { s with chains := s.chains.filter fun x => !sameChain c x }
  let k := getChannel s c.core c.ch c.world
  let (done, ahead) := riseCompleted (k.ahead.length + 1) k.completed (c.seq :: k.ahead)
  let s := setChannel s { k with completed := done, ahead := ahead, err := k.err || c.fault.isSome }
  let s := match c.fault with
    | some f => oweRecord s c.world (chainRecord c f)
    | none => s
  let s := match getStrand s c.strand with
    | some st => if st.gen = c.gen then setStrand s { st with chains := st.chains - 1 } else s
    | none => s
  serveSeqw s c.core c.ch c.world

/-- Releases what has completed, and completes the chain when nothing of it is left. -/
def chainCheck (s : State) (core ch w seq : Nat) : State :=
  match getChain s core ch w seq with
  | none => s
  | some c =>
    let s := releasePending s c
    match getChain s core ch w seq with
    | none => s
    | some c => if c.frames.all frameSpent && !c.rejected && (chainInsts s c).isEmpty then finishChain s c else s

/-- R81: a fault stops the chain: what has not started is dropped, nothing more is admitted. -/
def stopChain (s : State) (c : Chain) (f : ChainFault) : State :=
  let s := setChain s { c with frames := [], fault := if c.fault.isSome then c.fault else some f }
  { s with insts := s.insts.filter fun i =>
      !(i.segment.isNone && i.core == c.core && i.ch == c.ch && i.world == c.world && i.seq == c.seq && !i.started) }

/-- R81: the write regions of the instance that faulted hold undefined bytes, but for those that its kind says it has
written, or has not: space, base and length. In the memory of a world that makes no access they keep theirs (R393). -/
def scramble (s : State) (i : Inst) (g : Grove) (kept : Nat × Nat × Nat) : State :=
  (instRegions i).foldl (fun s (w, sp, b, n) =>
    if w && sp != 3 && (sp == 2 || mayDma s i.world) then
      (List.range n).foldl (fun s k =>
        if sp == kept.1 && decide (kept.2.1 ≤ b + k) && decide (b + k < kept.2.1 + kept.2.2) then s
        else match instWrite i g sp [(Config.freeByte s.free (sp * 2 ^ 64 + b + k), false)] (b + k) s with
        | .ok (_, s) => s
        | .error _ => s) s
    else s) s

/-- R69: the bytes of a GATHER's elements: those below the one that left the footprint are written, the others are not. -/
def gatherSpan (i : Inst) : Nat × Nat × Nat :=
  (fld (cardField i.card 36 4) 2 2, advance (cardField i.card 16 8) i.dstAdv, cardField i.card 28 4 * cardField i.card 32 4)

/-! ### Admission (R75, R76) -/

/-- The chain of a channel whose turn it is: the first with a card to take in, or that an IF may still give one, or
rejected. A waiting SEQ that ends its chain leaves none to take in: whether it holds back the later chains of the channel
that it occupies (R72) is left open, and here they are admitted (log 18). -/
def servedChain (s : State) (core ch : Nat) : Option Chain :=
  s.chains.find? fun c => c.core == core && c.ch == ch && (c.rejected || c.frames != [] || !(undecided s c).isEmpty)

/-- Instances in flight on a core, and on one of its channels (R58). -/
def inFlight (s : State) (core : Nat) : Nat := (s.insts.filter fun i => i.segment.isNone && i.core == core).length
def inFlightOn (s : State) (core ch : Nat) : Nat :=
  (s.insts.filter fun i => i.segment.isNone && i.core == core && i.ch == ch).length

/-- R76: IF, SEQ and NOTE. -/
def isBarrierKind (k : Nat) : Bool := k == kIf || k == kSeq || k == kNote

/-- What the engine does next for a chain: a move within its loops, the beginning of a LOOP, an admission, a rejected
chain's turn, a stop, or nothing. A card taken up is given as it was walked, where it was, and as it is used. -/
inductive Move
  | frames (fs : List Frame)
  | loop (walked : Option Card) (card : Card) (f : Frame) (rest : List Frame)
  | takeIn (walked : Option Card) (card : Card) (f : Frame) (rest : List Frame)
  | reject
  | broken (e : ChainFault)
  | blocked

def nextAt (k : Card) : Option Nat := if cardLast k then none else some (cardNext k)

/-- R70: the frame of a LOOP's body. -/
def loopFrame (k : Card) (f : Frame) : Frame :=
  { at_ := some (cardField k 8 4), loop := some k.off, head := cardField k 8 4, iter := 0, count := cardField k 12 4
    srcStep := cardSigned k 16, dstStep := cardSigned k 24, srcAdv := f.srcAdv, dstAdv := f.dstAdv
    bounds := advRegions f.srcAdv f.dstAdv (cardRegions k) :: f.bounds }

/-- R78: a card changed since its walk: each 8-byte word is taken as at the walk or as at admission. -/
def cardNow (s : State) (c : Chain) (k : Card) : Card :=
  match scratchCard s c k.off with
  | none => k
  | some now =>
    if now = k then k
    else { k with bytes := (List.range 128).map fun j =>
      if Config.freeChoice s.free (j / 8) % 2 = 0 then k.bytes.getD j 0 else now.bytes.getD j 0 }

/-- The card at an offset that a chain has come to: as it was walked, where it was, and as it is used. A next field or a body
head changed since the walk may name a card that the walk did not visit: R78 then leaves only what it holds at its admission,
where it is checked as a walk checks it (log 15). -/
def cardCome (s : State) (c : Chain) (o : Nat) : Except ChainFault (Option Card × Card) :=
  match cardAt c o with
  | some k => .ok (some k, cardNow s c k)
  | none =>
    if o % 128 ≠ 0 then .error { cause := fMisalign, off := o, addr := o }
    else match scratchCard s c o with
      | none => .error { cause := fRegionRange, off := o, addr := o }
      | some k => .ok (none, k)

def nextMove (s : State) (c : Chain) : Move :=
  if c.rejected then .reject
  else match c.frames with
    | [] => .blocked
    | f :: rest =>
      match f.at_ with
      | none =>
        if f.loop.isSome && decide (f.iter + 1 < f.count) then
          .frames ({ f with at_ := some f.head, iter := f.iter + 1, srcAdv := f.srcAdv + f.srcStep, dstAdv := f.dstAdv + f.dstStep } :: rest)
        else .frames rest
      | some o =>
        match cardCome s c o with
        | .error e => .broken e
        | .ok (k, now) =>
          let flying := chainInsts s c
          if flying.any (fun i => isBarrierKind (cardKind i.card)) then .blocked
          else if cardKind now = kLoop then .loop k now f rest
          else if isBarrierKind (cardKind now) && flying != [] then .blocked
          else if 32 ≤ inFlight s c.core ∨ 16 ≤ inFlightOn s c.core c.ch then .blocked
          else .takeIn k now f rest

/-- The faults of admission (R78, R79): a card that is not as it was walked and breaks a rule of the walk, nested as deep as
it now is; an invalid shape record. R79 has OUTSIDE detected at run: a shape record that the grove's view does not hold cannot
be checked, and raises OUTSIDE at admission already (log 15). -/
def admitFault (s : State) (c : Chain) (g : Grove) (depth : Nat) (k : Option Card) (now : Card) : Option ChainFault :=
  match (if k = some now then none else cardFault s g c.ch c.seq depth now) with
  | some f => some f
  | none =>
    if cardKind now = kNd then
      match viewRead s c.core c.world g (cardField now 24 4) 128 with
      | none => some { cause := fOutside, off := now.off, note := cardNote now, addr := cardField now 24 4 }
      | some bs =>
        if (shapeDims (bs.map (·.1))).isNone then some { cause := fBadShape, off := now.off, note := cardNote now } else none
    else none

/-- The instance of a card of a chain, advanced by the loops around it (R70). -/
def newInst (s : State) (c : Chain) (card : Card) (f : Frame) : Inst :=
  { id := s.nextId, core := c.core, ch := c.ch, world := c.world, seq := c.seq, grove := c.grove
    card := card, srcAdv := f.srcAdv, dstAdv := f.dstAdv, bounds := f.bounds }

/-- The engine takes a card in (R75). -/
def admitCard (s : State) (c : Chain) (k : Option Card) (now : Card) (f : Frame) (rest : List Frame) : State :=
  match getGrove s c.grove with
  | none => s
  | some g =>
    match admitFault s c g rest.length k now with
    | some e => stopChain (if cardKind now = kNd then noteView s c.core c.world g (cardField now 24 4) 128 else s) c e
    | none =>
      let s := setChain s { c with frames := { f with at_ := nextAt now } :: rest }
      { s with
        insts := s.insts ++ [newInst s c now f]
        nextId := s.nextId + 1
        rr := mapSet s.rr c.core ((c.ch + 1) % 4) }

/-- A LOOP begins (R70): its own footprint is held to R65, and its body runs count times; or it waits for a translation (R387),
and the engine turns to other chains meanwhile. R70 does not say whether a LOOP is a card instance: here it takes no place in
the window and forms no edge, and what is held to its footprint is each instance that its body expands into, not the regions
of a LOOP within it (log 15). -/
def beginLoop (s : State) (c : Chain) (k : Option Card) (now : Card) (f : Frame) (rest : List Frame) : Bool × State :=
  match getGrove s c.grove with
  | none => (true, s)
  | some g =>
    match admitFault s c g rest.length k now, footTranslates (newInst s c now f) s with
    | some e, _ => (true, stopChain s c e)
    | none, (some e, s) => if e.cause = 0 then (false, requestAts s c.world e.addr) else (true, stopChain s c e)
    | none, (none, s) =>
      let f' := { f with at_ := nextAt now }
      (true, setChain s { c with frames := if cardField now 12 4 = 0 then f' :: rest else loopFrame now f :: f' :: rest })

/-- The channels of a core in round-robin order. -/
def channelOrder (s : State) (core : Nat) : List Nat := (List.range 4).map fun d => (mapGetD s.rr core 0 + d) % 4

/-- The first channel whose chain can move. -/
def admitOn (core : Nat) : List Nat → State → State
  | [], s => s
  | ch :: r, s =>
    match servedChain s core ch with
    | none => admitOn core r s
    | some c =>
      match nextMove s c with
      | .blocked => admitOn core r s
      | .broken e => chainCheck (stopChain s c e) core ch c.world c.seq
      | .reject => finishChain s { c with rejected := false }
      | .frames fs => chainCheck (setChain s { c with frames := fs }) core ch c.world c.seq
      | .loop k now f rest => match beginLoop s c k now f rest with
        | (true, s) => chainCheck s core ch c.world c.seq
        | (false, s) => admitOn core r s
      | .takeIn k now f rest => chainCheck (admitCard s c k now f rest) core ch c.world c.seq

/-- cardAdmit: the engine admits an instance, or moves within a chain's loops, on the next channel that can (R75). -/
def execCardAdmit (core : Nat) (s : State) : Host.Outcome State Fault Refusal :=
  .next (admitOn core (channelOrder s core) s)

/-! ### Start and completion -/

def getInst (s : State) (core id : Nat) : Option Inst := s.insts.find? fun i => i.id == id && i.core == core && i.segment.isNone

def markStarted (s : State) (id : Nat) : State :=
  { s with insts := s.insts.map fun i => if i.id = id then { i with started := true, since := s.time } else i }

def dropInst (s : State) (id : Nat) : State := { s with insts := s.insts.filter (·.id != id) }

/-- R316: a quarter of a core-cycle for each cycle that an instance has occupied its channel since a tick. -/
def chargeSince (s : State) (i : Inst) (since : Nat) : State :=
  match getChain s i.core i.ch i.world i.seq with
  | none => s
  | some c => chargeWork s c.launch (32 * cyclesSince s since)

/-- R320: what a card moved is charged to its launch's owner. -/
def chargeInst (s : State) (i : Inst) : State :=
  match getChain s i.core i.ch i.world i.seq with
  | none => s
  | some c =>
    match getLaunch s c.launch with
    | some l => chargeBytes s l.world l.owner
    | none => s

/-- An instance that faults as it runs (R81), or whose port goes down after it has started (R74, R316). -/
def failInst (s : State) (i : Inst) (g : Grove) (f : ChainFault) (kept : Nat × Nat × Nat) : State :=
  let s := chargeSince (chargeInst (scramble s i g kept) i) i (if i.started then i.since else s.time)
  let s := dropInst s i.id
  match getChain s i.core i.ch i.world i.seq with
  | none => s
  | some c => chainCheck (stopChain s c f) i.core i.ch i.world i.seq

/-- The frame of an IF's body. -/
def pushBody (s : State) (i : Inst) (head : Nat) : State :=
  match getChain s i.core i.ch i.world i.seq with
  | none => s
  | some c =>
    setChain s { c with frames := { at_ := some head, srcAdv := i.srcAdv, dstAdv := i.dstAdv, bounds := i.bounds } :: c.frames }

/-- Starts an instance (R65 to R74). -/
def startInst (s : State) (i : Inst) (g : Grove) : State :=
  match runCard i g s with
  | .ok s => chargeInst (markStarted s i.id) i
  | .branch s head =>
    let s := markStarted s i.id
    chargeInst (chainCheck (match head with
      | some h => pushBody s i h
      | none => s) i.core i.ch i.world i.seq) i
  | .partly f s => failInst s i g f (gatherSpan i)
  | .fault f =>
    let t := if (outsideLoop i).isSome then s else (footTranslates i s).2
    if f.cause = 0 then requestAts t i.world f.addr else failInst t i g f (0, 0, 0)

/-- R387, R396: a card of a world that may make no host access fails with TRANSLATE, where one of its regions leads to host
memory; without one it does not start (R393). -/
def denyInst (s : State) (i : Inst) (g : Grove) : State :=
  match footTranslates i s with
  | (some f, t) => if f.cause = fTranslate ∧ f.code = translateCode causeTag then failInst t i g f (0, 0, 0) else s
  | _ => s

/-- R320: the instance is held: the owner or world of its chain's launch has used up its bytes for the period. -/
def instHeld (s : State) (i : Inst) : Bool :=
  match (getChain s i.core i.ch i.world i.seq).bind fun c => getLaunch s c.launch with
  | some l => bytesExhausted s l.world l.owner
  | none => false

/-- cardStart (R75, R393): an admitted instance with no edge left starts, and makes its accesses; in ERROR one that was to
reach host memory fails (R396). -/
def execCardStart (core inst : Nat) (s : State) : Host.Outcome State Fault Refusal :=
  match getInst s core inst with
  | none => .next s
  | some i =>
    match getGrove s i.grove with
    | none => .next s
    | some g =>
      if i.started || instHeld s i || !mayStart s i s.insts then .next s
      else if mayDma s i.world then .next (startInst s i g)
      else if (getWorld s i.world).tstate = .error then .next (denyInst s i g)
      else .next s

/-- An instance has completed (R77). -/
def completeInst (s : State) (i : Inst) : State := chainCheck (dropInst s i.id) i.core i.ch i.world i.seq

/-- R316: what a completed instance has occupied its channel for is charged. -/
def chargeCycles (s : State) (i : Inst) : State := chargeSince s i i.since

/-- cardComplete (R77): not of a SEQ or a PEER COPY, which complete by events of their own. R71 does not say when an IF
completes: here it does at a cardComplete of its own, once it has decided, and R76 holds nothing back for it from then on, so
that the cards of its body come before, and may run beside, the cards at next (log 18). -/
def execCardComplete (core inst : Nat) (s : State) : Host.Outcome State Fault Refusal :=
  match getInst s core inst with
  | none => .next s
  | some i =>
    if i.started && cardKind i.card != kSeq && cardKind i.card != kPeer then
      .next (completeInst (chargeCycles s i) i)
    else .next s

/-- seqCardComplete (R72). -/
def execSeqCardComplete (core inst : Nat) (s : State) : Host.Outcome State Fault Refusal :=
  match getInst s core inst with
  | none => .next s
  | some i =>
    if i.started && cardKind i.card == kSeq
        && decide (cardField i.card 16 8 ≤ (getChannel s core (cardField i.card 8 4) i.world).completed) then
      .next (completeInst (chargeCycles s i) i)
    else .next s

/-- A flit of the instance has not been accepted by the link yet. -/
def flitsLeft (s : State) (id : Nat) : Bool := s.ports.any fun x => (x.window ++ x.backlog).any (·.inst == some id)

/-- peerCopyAck (R74, R402): the link has accepted the last flit, replayed as often as that took, or with ack the peer has
reported the bytes visible. -/
def execPeerCopyAck (core inst : Nat) (s : State) : Host.Outcome State Fault Refusal :=
  match getInst s core inst with
  | none => .next s
  | some i =>
    if i.started && cardKind i.card == kPeer && !flitsLeft s i.id then .next (completeInst (chargeCycles s i) i) else .next s

end Sys2Proof.Machine
end

