-- ==== Sys2Proof/Decode.lean ====
section
/-! DEFINITION. From a 64-bit instruction word (R154 to R169) to an instruction or the detail code of
ILLEGAL_OP, and back. A word is a natural number below 2^64; fields are cut by `fld`. The detail is the lowest
code among the conditions that hold (R169), so each decoder asks its conditions in the order of their codes. -/

namespace Sys2Proof

/-! ### Fields of the word (R155 to R163) -/

def opF (w : Nat) : Nat := fld w 56 8
def fnF (w : Nat) : Nat := fld w 48 8
def rdF (w : Nat) : Nat := fld w 34 7
def raF (w : Nat) : Nat := fld w 27 7
def rbF (w : Nat) : Nat := fld w 20 7
def rcF (w : Nat) : Nat := fld w 13 7
def extF (w : Nat) : Nat := fld w 0 13
def rsvF (w : Nat) : Nat := fld w 32 2
def immF (w : Nat) : Nat := fld w 0 32

/-- gn and gp are 0 when ge is 0 (R156). -/
def guardOk (w : Nat) : Bool := fld w 46 1 == 1 || (fld w 45 1 == 0 && fld w 41 4 == 0)

/-- A predicate number of a 4-bit field. -/
def predOf (n : Nat) : Fin 16 := ⟨n % 16, Nat.mod_lt _ (by decide)⟩
/-- A 3-bit index. -/
def idx8 (n : Nat) : Fin 8 := ⟨n % 8, Nat.mod_lt _ (by decide)⟩
/-- A 2-bit index. -/
def idx4 (n : Nat) : Fin 4 := ⟨n % 4, Nat.mod_lt _ (by decide)⟩
/-- A 6-bit limit. -/
def idx64 (n : Nat) : Fin 64 := ⟨n % 64, Nat.mod_lt _ (by decide)⟩

/-- The common fields (R155 to R157). -/
def hdOf (w : Nat) : Hd :=
  { rb := fld w 47 1 == 1
    guard := if fld w 46 1 = 0 then .always
             else if fld w 45 1 = 0 then .onTrue (predOf (fld w 41 4)) else .onFalse (predOf (fld w 41 4)) }

/-- Go on, or ILLEGAL_OP with a detail (R169). -/
def need (b : Bool) (detail : Nat) (k : Except Nat Instr) : Except Nat Instr :=
  if b then k else .error detail

/-- A register that must be a pair where `p` (detail 5). -/
def pairIf (p : Bool) (c : Nat) : Bool := !p || pairCode c

/-! ### Codes of the small enumerations -/

def ITy.code : ITy → Nat | .u32 => 1 | .i32 => 2 | .b64 => 3
def ITy.ofCode : Nat → Option ITy | 1 => some .u32 | 2 => some .i32 | 3 => some .b64 | _ => none
def FTy.code : FTy → Nat | .f32 => 0 | .f16x2 => 1 | .bf16x2 => 2
def FTy.ofCode : Nat → Option FTy | 0 => some .f32 | 1 => some .f16x2 | 2 => some .bf16x2 | _ => none
def Cond.code : Cond → Nat | .eq => 0 | .ne => 1 | .lt => 2 | .le => 3 | .gt => 4 | .ge => 5
def Cond.ofCode : Nat → Option Cond
  | 0 => some .eq | 1 => some .ne | 2 => some .lt | 3 => some .le | 4 => some .gt | 5 => some .ge | _ => none
def FCond.code : FCond → Nat
  | .eq => 0 | .ne => 1 | .lt => 2 | .le => 3 | .gt => 4 | .ge => 5 | .unordered => 6 | .ordered => 7
def FCond.ofCode : Nat → Option FCond
  | 0 => some .eq | 1 => some .ne | 2 => some .lt | 3 => some .le | 4 => some .gt | 5 => some .ge
  | 6 => some .unordered | 7 => some .ordered | _ => none
def ScanOp.code : ScanOp → Nat | .add => 0 | .min => 1 | .max => 2 | .and => 3 | .or => 4 | .xor => 5
def ScanOp.ofCode : Nat → Option ScanOp
  | 0 => some .add | 1 => some .min | 2 => some .max | 3 => some .and | 4 => some .or | 5 => some .xor | _ => none
def XchMode.code : XchMode → Nat | .idx => 0 | .xor => 1 | .up => 2 | .down => 3
def XchMode.ofCode (n : Nat) : XchMode := match n with | 0 => .idx | 1 => .xor | 2 => .up | _ => .down
def Rm.code : Rm → Nat | .rn => 0 | .rz => 1 | .ru => 2 | .rd => 3 | .ra => 4 | .ro => 5 | .dyn => 6
def Rm.ofCode : Nat → Option Rm
  | 0 => some .rn | 1 => some .rz | 2 => some .ru | 3 => some .rd | 4 => some .ra | 5 => some .ro | 6 => some .dyn
  | _ => none
def Fmt.code : Fmt → Nat
  | .fp32 => 1 | .fp16 => 2 | .bf16 => 3 | .e4m3 => 4 | .e5m2 => 5 | .e3m2 => 6 | .e2m3 => 7 | .e2m1 => 8
  | .i32 => 9 | .i8 => 10 | .u8 => 11 | .i4 => 12 | .o4 => 13
def Fmt.ofCode : Nat → Option Fmt
  | 1 => some .fp32 | 2 => some .fp16 | 3 => some .bf16 | 4 => some .e4m3 | 5 => some .e5m2 | 6 => some .e3m2
  | 7 => some .e2m3 | 8 => some .e2m1 | 9 => some .i32 | 10 => some .i8 | 11 => some .u8 | 12 => some .i4
  | 13 => some .o4 | _ => none
def Size.code : Size → Nat
  | .u8 => 0 | .i8 => 1 | .u16 => 2 | .i16 => 3 | .u32 => 4 | .b64 => 5 | .b128 => 6
def Size.ofCode : Nat → Option Size
  | 0 => some .u8 | 1 => some .i8 | 2 => some .u16 | 3 => some .i16 | 4 => some .u32 | 5 => some .b64
  | 6 => some .b128 | _ => none
def Scope.code : Scope → Nat
  | .thread => 0 | .strand => 1 | .grove => 2 | .copse => 3 | .stand => 4 | .forest => 5 | .system => 6
def Scope.ofCode : Nat → Option Scope
  | 0 => some .thread | 1 => some .strand | 2 => some .grove | 3 => some .copse | 4 => some .stand
  | 5 => some .forest | 6 => some .system | _ => none
def Order.code : Order → Nat | .relaxed => 0 | .acquire => 1 | .release => 2 | .acqRel => 3 | .sc => 4
def Order.ofCode : Nat → Option Order
  | 0 => some .relaxed | 1 => some .acquire | 2 => some .release | 3 => some .acqRel | 4 => some .sc | _ => none
def FOrd.code : FOrd → Nat | .acquire => 1 | .release => 2 | .acqRel => 3 | .sc => 4
def FOrd.ofCode : Nat → Option FOrd
  | 1 => some .acquire | 2 => some .release | 3 => some .acqRel | 4 => some .sc | _ => none
def BarLevel.code : BarLevel → Nat | .grove => 0 | .copse => 1 | .stand => 2
def BarLevel.ofCode : Nat → Option BarLevel | 0 => some .grove | 1 => some .copse | 2 => some .stand | _ => none
def BarTy.code : BarTy → Nat | .u32 => 0 | .i32 => 1 | .f32 => 2
def BarTy.ofCode : Nat → Option BarTy | 0 => some .u32 | 1 => some .i32 | 2 => some .f32 | _ => none
def AttachMode.code : AttachMode → Nat | .read => 1 | .write => 2 | .create => 3
def AttachMode.ofCode : Nat → Option AttachMode | 1 => some .read | 2 => some .write | 3 => some .create | _ => none

/-! ### Generic decoders -/

/-- type, i and sat of layout T (R168), with the low nibble `low`, where the shape accepts them. -/
def TSpec.tyOf (t : TSpec) (fn low : Nat) : Option (ITy × Bool × Bool) :=
  match ITy.ofCode (fld fn 6 2) with
  | none => none
  | some ty =>
    let i := fld fn 5 1 == 1
    let sat := fld fn 4 1 == 1
    if fld fn 0 4 == low && (!i || t.iForm) && t.okTy ty sat then some (ty, i, sat) else none

/-- The second source of a word (R172). -/
def bOf (i : Bool) (w : Nat) : RegImm := if i then .imm (BitVec.ofNat 27 (fld w 0 27)) else .reg (Reg.ofCode (rbF w))

/-- A two-source typed integer instruction. -/
def TSpec.decBin (t : TSpec) (w low : Nat) (mk : Hd → ITy → Bool → Reg → Reg → RegImm → Instr) : Except Nat Instr :=
  match t.tyOf (fnF w) low with
  | none => .error 2
  | some (ty, i, sat) =>
    need (guardOk w && (i || (rcF w == 0 && extF w == 0))) 3 <|
    need (pairIf (t.pd ty) (rdF w) && pairIf (t.pa ty) (raF w) && (i || pairIf (t.pb ty) (rbF w))) 5 <|
    .ok (mk (hdOf w) ty sat (Reg.ofCode (rdF w)) (Reg.ofCode (raF w)) (bOf i w))

/-- A one-source typed integer instruction: its rb, rc and ext fields are unused. -/
def TSpec.decUn (t : TSpec) (w : Nat) (mk : Hd → ITy → Bool → Reg → Reg → Instr) : Except Nat Instr :=
  match t.tyOf (fnF w % 256) 0 with
  | none => .error 2
  | some (ty, i, sat) =>
    need (!i) 2 <|
    need (guardOk w && rbF w == 0 && rcF w == 0 && extF w == 0) 3 <|
    need (pairIf (t.pd ty) (rdF w) && pairIf (t.pa ty) (raF w)) 5 <|
    .ok (mk (hdOf w) ty sat (Reg.ofCode (rdF w)) (Reg.ofCode (raF w)))

/-- A three-source typed integer instruction, R form only. -/
def TSpec.decTer (t : TSpec) (w : Nat) (mk : Hd → ITy → Bool → Reg → Reg → Reg → Reg → Instr) : Except Nat Instr :=
  match t.tyOf (fnF w % 256) 0 with
  | none => .error 2
  | some (ty, i, sat) =>
    need (!i) 2 <|
    need (guardOk w && extF w == 0) 3 <|
    need (pairIf (t.pd ty) (rdF w) && pairIf (t.pa ty) (raF w) && pairIf (t.pb ty) (rbF w) && pairIf (t.pc ty) (rcF w)) 5 <|
    .ok (mk (hdOf w) ty sat (Reg.ofCode (rdF w)) (Reg.ofCode (raF w)) (Reg.ofCode (rbF w)) (Reg.ofCode (rcF w)))

/-- A floating-point instruction that rounds (R196 to R198); `useC`: rc is a source. -/
def decFRound (w : Nat) (useC : Bool) (mk : Hd → FTy → Rm → Reg → Reg → Reg → Reg → Instr) : Except Nat Instr :=
  match FTy.ofCode (fld (fnF w) 6 2) with
  | none => .error 2
  | some ty =>
    need (fld (fnF w) 0 6 == 0) 2 <|
    need (guardOk w && (useC || rcF w == 0) && fld w 3 10 == 0) 3 <|
    match Rm.ofCode (fld w 0 3) with
    | none => .error 4
    | some rm => .ok (mk (hdOf w) ty rm (Reg.ofCode (rdF w)) (Reg.ofCode (raF w)) (Reg.ofCode (rbF w)) (Reg.ofCode (rcF w)))

/-- A floating-point instruction that does not round: ext is unused; `useB`: rb is a source. -/
def decFPlain (w : Nat) (useB : Bool) (mk : Hd → FTy → Reg → Reg → Reg → Instr) : Except Nat Instr :=
  match FTy.ofCode (fld (fnF w) 6 2) with
  | none => .error 2
  | some ty =>
    need (fld (fnF w) 0 6 == 0) 2 <|
    need (guardOk w && (useB || rbF w == 0) && rcF w == 0 && extF w == 0) 3 <|
    .ok (mk (hdOf w) ty (Reg.ofCode (rdF w)) (Reg.ofCode (raF w)) (Reg.ofCode (rbF w)))

/-- An R-form instruction with fn `fn` whose register fields beyond the used ones, and ext, are 0. -/
def decR (w fn : Nat) (uD uA uB uC : Bool) (k : Hd → Reg → Reg → Reg → Reg → Except Nat Instr) : Except Nat Instr :=
  need (fnF w == fn) 2 <|
  need (guardOk w && (uD || rdF w == 0) && (uA || raF w == 0) && (uB || rbF w == 0) && (uC || rcF w == 0) && extF w == 0) 3 <|
  k (hdOf w) (Reg.ofCode (rdF w)) (Reg.ofCode (raF w)) (Reg.ofCode (rbF w)) (Reg.ofCode (rcF w))

/-- A B-form instruction (R161); `useAux`: aux is the callee frame. -/
def decB (w : Nat) (useAux : Bool) (k : Hd → Except Nat Instr) : Except Nat Instr :=
  need (guardOk w && rsvF w == 0 && (useAux || rdF w == 0)) 3 <| k (hdOf w)

/-- Order and scope of a plain load (`o` = 1) or store (`o` = 2) (R165). -/
def pordOf (o : Nat) (fn : Nat) : Option POrd :=
  if fld fn 3 3 = 0 then (if fld fn 0 3 = 0 then some .relaxed else none)
  else if fld fn 3 3 = o then (Scope.ofCode (fld fn 0 3)).map .ordered else none

/-- A plain memory instruction with an order (R215 to R217). `hint1`: hint 01 is accepted; `sizes`: size codes
accepted; `gl`: the base is a pair. -/
def decMem (w o : Nat) (hint1 : Bool) (okSize : Size → Bool) (gl : Bool)
    (mk : Hd → Bool → POrd → Size → Reg → Reg → Reg → BitVec 16 → Instr) : Except Nat Instr :=
  match pordOf o (fnF w) with
  | none => .error 2
  | some ord =>
    need (fld (fnF w) 6 2 == 0 || (hint1 && fld (fnF w) 6 2 == 1)) 2 <|
    need (guardOk w) 3 <|
    match Size.ofCode (fld w 16 3) with
    | none => need (!gl || pairCode (raF w)) 5 (.error 6)
    | some z =>
      need ((!okSize z || z.rdOk (Reg.ofCode (rdF w))) && (!gl || pairCode (raF w))) 5 <|
      need (okSize z) 6 <|
      .ok (mk (hdOf w) (fld (fnF w) 6 2 == 1) ord z (Reg.ofCode (rdF w)) (Reg.ofCode (raF w)) (Reg.ofCode (rbF w))
        (BitVec.ofNat 16 (fld w 0 16)))

/-- An atomic (R225 to R227). `signedOk`: the s bit is accepted; `wideOk`: size 101 is; `rdOk`: the rule of rd. -/
def decAtom (w : Nat) (signedOk wideOk : Bool) (rdOk : Bool → Reg → Bool)
    (mk : Hd → Bool → Bool → Order → Scope → Space → Bool → Reg → Reg → Reg → BitVec 16 → Instr) : Except Nat Instr :=
  match Order.ofCode (fld (fnF w) 3 3), Scope.ofCode (fld (fnF w) 0 3) with
  | some o, some sc =>
    need (signedOk || fld (fnF w) 7 1 == 0) 2 <|
    need (guardOk w) 3 <|
    let sp : Space := if fld w 19 1 = 0 then .global else .scratch
    let z := fld w 16 3
    let wide := z == 5
    let zOk := z == 4 || (wideOk && z == 5)
    need ((!(z == 4 || z == 5) || rdOk wide (Reg.ofCode (rdF w))) && sp.baseOk (Reg.ofCode (raF w))) 5 <|
    need zOk 6 <|
    .ok (mk (hdOf w) (fld (fnF w) 7 1 == 1) (fld (fnF w) 6 1 == 1) o sc sp wide (Reg.ofCode (rdF w)) (Reg.ofCode (raF w))
      (Reg.ofCode (rbF w)) (BitVec.ofNat 16 (fld w 0 16)))
  | _, _ => .error 2

/-- The format of a nibble of fn, or the slot that `slot` names when the nibble is 0 (R203, R265). -/
def fmtSelOf (nib slot : Nat) : Option FmtSel :=
  if nib = 0 then some (.slot (idx8 slot)) else (Fmt.ofCode nib).map .fmt

/-- cvt (R203, R204): the conditions that no slot's content decides. -/
def decCvt (w : Nat) : Except Nat Instr :=
  let dn := fld (fnF w) 4 4
  let sn := fld (fnF w) 0 4
  need (guardOk w && fld w 9 4 == 0 && (dn == 0 || fld w 6 3 == 0) && (sn == 0 || fld w 3 3 == 0)
    && (sn == 0 || rbF w == 0) && (dn == 0 || rcF w == 0)) 3 <|
  match Rm.ofCode (fld w 0 3) with
  | none => .error 4
  | some rm =>
    match fmtSelOf dn (fld w 6 3), fmtSelOf sn (fld w 3 3) with
    | some d, some s =>
      need (okCvt d s (Reg.ofCode (rdF w)) (Reg.ofCode (raF w)) (Reg.ofCode (rbF w)) (Reg.ofCode (rcF w))) 5 <|
      .ok (.cvt (hdOf w) d s rm (Reg.ofCode (rdF w)) (Reg.ofCode (raF w)) (Reg.ofCode (rbF w)) (Reg.ofCode (rcF w)))
    | _, _ => .error 6

/-- The reserved fields of the XM form (R163) and its rounding field (R166). -/
def decXM (w : Nat) (k : Hd → Fin 8 → Except Nat Instr) : Except Nat Instr :=
  need (guardOk w && fld w 37 4 == 0 && fld w 3 4 == 0) 3 <|
  k (hdOf w) (idx8 (fld w 34 3))

/-- mma, mma.sp and mconv (R257, R259, R261); `mapped`: rc must name a map record. -/
def decMma (w : Nat) (mapped : Bool) (mk : Hd → Fin 8 → Reg → Reg → Reg → Fin 8 → Fin 8 → Instr) : Except Nat Instr :=
  need (fnF w == 0) 2 <|
  decXM w fun h t =>
  need (fld w 0 3 == 0) 4 <|
  need (!mapped || rcF w != 127) 5 <|
  .ok (mk h t (Reg.ofCode (raF w)) (Reg.ofCode (rbF w)) (Reg.ofCode (rcF w)) (idx8 (fld w 10 3)) (idx8 (fld w 7 3)))

/-- mld and mst (R265). -/
def decTileConv (w : Nat) (mk : Hd → FmtSel → Fin 8 → Reg → Reg → Instr) : Except Nat Instr :=
  need (fld (fnF w) 4 4 == 0) 2 <|
  decXM w fun h t =>
  need (rcF w == 0 && fld w 7 3 == 0 && (fld (fnF w) 0 4 == 0 || fld w 10 3 == 0)) 3 <|
  need (fld w 0 3 == 0) 4 <|
  match fmtSelOf (fld (fnF w) 0 4) (fld w 10 3) with
  | none => .error 6
  | some f => .ok (mk h f t (Reg.ofCode (raF w)) (Reg.ofCode (rbF w)))

/-- An XG instruction (R271): fn, the used fields and the selector bits it assigns. -/
def decXG (w fn : Nat) (uD uA uB uC : Bool) (selOk : Nat → Bool) (k : Hd → Nat → Except Nat Instr) : Except Nat Instr :=
  need (fnF w == fn) 2 <|
  need (guardOk w && (uD || rdF w == 0) && (uA || raF w == 0) && (uB || rbF w == 0) && (uC || rcF w == 0)
    && fld w 8 5 == 0 && selOk (fld w 0 8)) 3 <|
  k (hdOf w) (fld w 0 8)

/-- mfs and mts (R284). -/
def decSr (w : Nat) (nums : List Nat) (mk : Hd → Reg → Fin 40 → Instr) : Except Nat Instr :=
  need (fnF w == 0) 2 <|
  need (guardOk w && rsvF w == 0) 3 <|
  need (srRegOk (immF w) (Reg.ofCode (rdF w))) 5 <|
  if h : immF w < 40 then need (nums.contains (immF w)) 6 (.ok (mk (hdOf w) (Reg.ofCode (rdF w)) ⟨immF w, h⟩))
  else .error 6

/-- bar (R232). -/
def decBar (w : Nat) : Except Nat Instr :=
  let op := fld (fnF w) 2 3
  let red : Option BarRed :=
    if op = 0 then (if fld (fnF w) 5 2 = 0 then some .none else none)
    else match ScanOp.ofCode (op - 1), BarTy.ofCode (fld (fnF w) 5 2) with
      | some o, some ty => some (.red o ty)
      | _, _ => none
  match BarLevel.ofCode (fld (fnF w) 0 2), red with
  | some l, some r =>
    need (fld (fnF w) 7 1 == 0 && r.ok) 2 <|
    need (guardOk w && rbF w == 0 && rcF w == 0 && extF w == 0 && (r != .none || (rdF w == 0 && raF w == 0))) 3 <|
    .ok (.bar (hdOf w) l r (Reg.ofCode (rdF w)) (Reg.ofCode (raF w)))
  | _, _ => .error 2

/-- wait (R193). -/
def decWait (w : Nat) : Except Nat Instr :=
  need (fnF w == 0) 2 <|
  need (guardOk w && rsvF w == 0 && rdF w == 0 && fld w 24 8 == 0) 3 <|
  need (fld w 46 1 == 0) 6 <|
  .ok (.wait (fld w 47 1 == 1) (idx64 (fld w 0 6)) (idx64 (fld w 6 6)) (idx64 (fld w 12 6)) (idx64 (fld w 18 6)))

/-- mov (R180): in the I form ra is unused, in the R form rb, rc and ext. -/
def decMov (w : Nat) : Except Nat Instr :=
  match sLogic.tyOf (fnF w) 0 with
  | none => .error 2
  | some (ty, i, _) =>
    need (guardOk w && (if i then raF w == 0 else rbF w == 0 && rcF w == 0 && extF w == 0)) 3 <|
    need (pairIf (wideB ty) (rdF w) && (i || pairIf (wideB ty) (raF w))) 5 <|
    .ok (.mov (hdOf w) ty (Reg.ofCode (rdF w)) (if i then .imm (BitVec.ofNat 27 (fld w 0 27)) else .reg (Reg.ofCode (raF w))))

/-- movi (R180). -/
def decMovi (w : Nat) : Except Nat Instr :=
  match ITy.ofCode (fld (fnF w) 6 2) with
  | none => .error 2
  | some ty =>
    need (fld (fnF w) 0 6 == 0) 2 <|
    need (guardOk w && rsvF w == 0) 3 <|
    need (pairIf (wideB ty) (rdF w)) 5 <|
    .ok (.movi (hdOf w) ty (Reg.ofCode (rdF w)) (BitVec.ofNat 32 (immF w)))

/-- cmp (R181). -/
def decCmp (w : Nat) : Except Nat Instr :=
  match Cond.ofCode (fld (fnF w) 0 4), ITy.ofCode (fld (fnF w) 6 2) with
  | some c, some ty =>
    let i := fld (fnF w) 5 1 == 1
    need (fld (fnF w) 4 1 == 0) 2 <|
    need (guardOk w && (i || (rcF w == 0 && extF w == 0))) 3 <|
    need (rdF w < 16 && pairIf (wideB ty) (raF w) && (i || pairIf (wideB ty) (rbF w))) 5 <|
    .ok (.cmp (hdOf w) ty c (predOf (rdF w)) (Reg.ofCode (raF w)) (bOf i w))
  | _, _ => .error 2

/-- pand, por, pxor (R182). -/
def decPred3 (w : Nat) (mk : Hd → Bool → Fin 16 → Fin 16 → Fin 16 → Instr) : Except Nat Instr :=
  need (fnF w < 2) 2 <|
  need (guardOk w && rcF w == 0 && extF w == 0) 3 <|
  need (rdF w < 16 && raF w < 16 && rbF w < 16) 5 <|
  .ok (mk (hdOf w) (fnF w == 1) (predOf (rdF w)) (predOf (raF w)) (predOf (rbF w)))

/-- pnot, pmov (R182). -/
def decPred2 (w : Nat) (mk : Hd → Fin 16 → Fin 16 → Instr) : Except Nat Instr :=
  decR w 0 true true false false fun h _ _ _ _ =>
  need (rdF w < 16 && raF w < 16) 5 <| .ok (mk h (predOf (rdF w)) (predOf (raF w)))

/-- sel (R183). -/
def decSel (w : Nat) : Except Nat Instr :=
  need (fnF w < 2) 2 <|
  need (guardOk w && extF w == 0) 3 <|
  need (rcF w < 16 && pairIf (fnF w == 1) (rdF w) && pairIf (fnF w == 1) (raF w) && pairIf (fnF w == 1) (rbF w)) 5 <|
  .ok (.sel (hdOf w) (fnF w == 1) (Reg.ofCode (rdF w)) (Reg.ofCode (raF w)) (Reg.ofCode (rbF w)) (predOf (rcF w)))

/-- vote (R184). -/
def decVote (w : Nat) : Except Nat Instr :=
  need (fnF w < 3) 2 <|
  need (guardOk w && rbF w == 0 && rcF w == 0 && extF w == 0) 3 <|
  need (raF w < 16 && (if fnF w == 2 then pairCode (rdF w) else rdF w < 16)) 5 <|
  .ok (if fnF w = 0 then .voteAny (hdOf w) (predOf (rdF w)) (predOf (raF w))
    else if fnF w = 1 then .voteAll (hdOf w) (predOf (rdF w)) (predOf (raF w))
    else .voteBallot (hdOf w) (Reg.ofCode (rdF w)) (predOf (raF w)))

/-- xch (R185). -/
def decXch (w : Nat) : Except Nat Instr :=
  let i := fld (fnF w) 5 1 == 1
  need (fld (fnF w) 6 2 == 0 && fld (fnF w) 2 3 == 0) 2 <|
  need (guardOk w && (i || (rcF w == 0 && extF w == 0))) 3 <|
  .ok (.xch (hdOf w) (XchMode.ofCode (fld (fnF w) 0 2)) (Reg.ofCode (rdF w)) (Reg.ofCode (raF w)) (bOf i w))

/-- scan (R186). -/
def decScan (w : Nat) : Except Nat Instr :=
  match ScanOp.ofCode (fld (fnF w) 0 4), ITy.ofCode (fld (fnF w) 6 2) with
  | some op, some ty =>
    let i := fld (fnF w) 5 1 == 1
    let sat := fld (fnF w) 4 1 == 1
    need (!wideB ty && (!sat || op == .add)) 2 <|
    need (guardOk w && (if i then raF w == 0 else rbF w == 0 && rcF w == 0 && extF w == 0)) 3 <|
    need (!(Reg.ofCode (rdF w)).isUniform) 6 <|
    .ok (.scan (hdOf w) ty sat op (Reg.ofCode (rdF w))
      (if i then .imm (BitVec.ofNat 27 (fld w 0 27)) else .reg (Reg.ofCode (raF w))))
  | _, _ => .error 2

/-- fcmp (R201). -/
def decFcmp (w : Nat) : Except Nat Instr :=
  match FCond.ofCode (fld (fnF w) 0 4), FTy.ofCode (fld (fnF w) 6 2) with
  | some c, some ty =>
    need (fld (fnF w) 4 2 == 0) 2 <|
    need (guardOk w && rcF w == 0 && extF w == 0) 3 <|
    need (rdF w < 16 && (ty == .f32 || rdF w % 2 == 0)) 5 <|
    .ok (.fcmp (hdOf w) ty c (predOf (rdF w)) (Reg.ofCode (raF w)) (Reg.ofCode (rbF w)))
  | _, _ => .error 2

/-- pack (R207). -/
def decPack (w : Nat) : Except Nat Instr :=
  need (fnF w < 3) 2 <|
  need (guardOk w && rcF w == 0 && fld w 3 10 == 0 && (fnF w < 2 || fld w 0 3 == 0)) 3 <|
  match Rm.ofCode (fld w 0 3) with
  | none => .error 4
  | some rm => .ok (.pack (hdOf w) (if fnF w = 0 then .f16 else if fnF w = 1 then .bf16 else .b16) rm
      (Reg.ofCode (rdF w)) (Reg.ofCode (raF w)) (Reg.ofCode (rbF w)))

/-- unpack (R208). -/
def decUnpack (w : Nat) : Except Nat Instr :=
  need (fnF w < 4) 2 <|
  need (guardOk w && rbF w == 0 && rcF w == 0 && extF w == 0) 3 <|
  need (pairCode (rdF w)) 5 <|
  .ok (.unpack (hdOf w) (if fnF w = 0 then .f16 else if fnF w = 1 then .bf16 else if fnF w = 2 then .u16 else .i16)
    (Reg.ofCode (rdF w)) (Reg.ofCode (raF w)))

/-- sqrt (R211). -/
def decSqrt (w : Nat) : Except Nat Instr :=
  need (fnF w == 0) 2 <|
  need (guardOk w && rbF w == 0 && rcF w == 0 && fld w 3 10 == 0) 3 <|
  match Rm.ofCode (fld w 0 3) with
  | none => .error 4
  | some rm => .ok (.sqrt (hdOf w) rm (Reg.ofCode (rdF w)) (Reg.ofCode (raF w)))

/-- ldw (R222). -/
def decLdw (w : Nat) : Except Nat Instr :=
  need (fnF w == 0) 2 <|
  need (guardOk w && fld w 19 1 == 0) 3 <|
  match Size.ofCode (fld w 16 3) with
  | none => .error 6
  | some z =>
    need (z.rdOk (Reg.ofCode (rdF w))) 5 <|
    .ok (.ldw (hdOf w) z (Reg.ofCode (rdF w)) (Reg.ofCode (raF w)) (Reg.ofCode (rbF w)) (BitVec.ofNat 16 (fld w 0 16)))

/-- pref (R223). -/
def decPref (w : Nat) : Except Nat Instr :=
  need (fnF w == 0 || fnF w == 0x40) 2 <|
  need (guardOk w && fld w 19 1 == 0 && rdF w == 0) 3 <|
  need (pairCode (raF w)) 5 <|
  need (fld w 16 3 == 0) 6 <|
  .ok (.pref (hdOf w) (fnF w == 0x40) (Reg.ofCode (raF w)) (Reg.ofCode (rbF w)) (BitVec.ofNat 16 (fld w 0 16)))

/-- fence (R231). -/
def decFence (w : Nat) : Except Nat Instr :=
  match FOrd.ofCode (fld (fnF w) 3 3), Scope.ofCode (fld (fnF w) 0 3) with
  | some o, some sc =>
    need (fld (fnF w) 6 2 == 0) 2 <|
    need (guardOk w && rdF w == 0 && raF w == 0 && rbF w == 0 && rcF w == 0 && extF w == 0) 3 <|
    .ok (.fence (hdOf w) o sc)
  | _, _ => .error 2

/-- attach (R240). -/
def decAttach (w : Nat) : Except Nat Instr :=
  match (if fld (fnF w) 2 6 = 0 then AttachMode.ofCode (fld (fnF w) 0 2) else none) with
  | none => .error 2
  | some m =>
    need (guardOk w && rbF w == 0 && rcF w == 0 && extF w == 0) 3 <|
    need (rdF w < 16 && pairCode (raF w)) 5 <|
    .ok (.attach (hdOf w) m (predOf (rdF w)) (Reg.ofCode (raF w)))

/-- enq and seqw (R244); `pa`: ra is a pair when w is set. -/
def decXE (w : Nat) (pa : Bool) (mk : Hd → Fin 4 → Bool → Reg → Reg → Instr) : Except Nat Instr :=
  need (fld (fnF w) 2 6 == 0) 2 <|
  need (guardOk w && rbF w == 0 && rcF w == 0 && fld w 1 12 == 0) 3 <|
  let wd := fld w 0 1 == 1
  need (pairIf wd (rdF w) && pairIf (pa && wd) (raF w)) 5 <|
  .ok (mk (hdOf w) (idx4 (fnF w)) wd (Reg.ofCode (rdF w)) (Reg.ofCode (raF w)))

/-! ### The opcode map (R167) -/

/-- Ops 0x00 to 0x1f. -/
def decInt (op w : Nat) : Except Nat Instr :=
  match op with
  | 0x00 => sArith.decBin w 0 .add
  | 0x01 => sArith.decBin w 0 .sub
  | 0x02 => sArith.decBin w 0 .mul
  | 0x03 => sNarrow.decBin w 0 (fun h t _ => .mulhi h t)
  | 0x04 => sArith.decTer w .mad
  | 0x05 => sDiv.decBin w 0 .div
  | 0x06 => sNarrow.decBin w 0 (fun h t _ => .rem h t)
  | 0x07 => sNarrow.decBin w 0 (fun h t _ => .min h t)
  | 0x08 => sNarrow.decBin w 0 (fun h t _ => .max h t)
  | 0x09 => sAbs.decUn w (fun h _ s => .abs h s)
  | 0x0a => sNeg.decUn w .neg
  | 0x0b => sLogic.decBin w 0 (fun h t _ => .and h t)
  | 0x0c => sLogic.decBin w 0 (fun h t _ => .or h t)
  | 0x0d => sLogic.decBin w 0 (fun h t _ => .xor h t)
  | 0x0e => sLogic.decUn w (fun h t _ => .not h t)
  | 0x0f => sLogic.decBin w 0 (fun h t _ => .andn h t)
  | 0x10 => sShl.decBin w 0 .shl
  | 0x11 => sShr.decBin w 0 (fun h t _ => .shr h t)
  | 0x12 => sSar.decBin w 0 (fun h t _ => .sar h t)
  | 0x13 => sShr.decBin w 0 (fun h t _ => .rotl h t)
  | 0x14 => sBfx.decBin w 0 (fun h t _ => .bfx h t)
  | 0x15 => sBfi.decTer w (fun h t _ => .bfi h t)
  | 0x16 => sCount.decUn w (fun h t _ => .clz h t)
  | 0x17 => sCount.decUn w (fun h t _ => .popc h t)
  | 0x18 => sBrev.decUn w (fun h t _ => .brev h t)
  | 0x19 => sIlv.decTer w (fun h t _ => .ilv h t)
  | 0x1a => sDilv.decBin w 0 (fun h t _ => .dilv h t)
  | 0x1b => sLea.decTer w (fun h t _ => .lea h t)
  | 0x1c => decMov w
  | 0x1d => decMovi w
  | 0x1e => sMulw.decBin w 0 (fun h t _ => .mulw h t)
  | _ => .error 1

/-- Ops 0x20 to 0x3f. -/
def decCtl (op w : Nat) : Except Nat Instr :=
  match op with
  | 0x20 => decCmp w
  | 0x21 => decPred3 w .pand
  | 0x22 => decPred3 w .por
  | 0x23 => decPred3 w .pxor
  | 0x24 => decPred2 w .pnot
  | 0x25 => decPred2 w .pmov
  | 0x26 => decSel w
  | 0x27 => decVote w
  | 0x28 => decXch w
  | 0x29 => decScan w
  | 0x30 =>
    need (fnF w < 2) 2 <| decB w false fun h =>
      .ok (if fnF w = 0 then .bra h (BitVec.ofNat 32 (immF w)) else .braU h (BitVec.ofNat 32 (immF w)))
  | 0x31 => decR w 0 false true false false fun h _ a _ _ => .ok (.brx h a)
  | 0x32 =>
    need (fnF w == 0) 2 <| decB w true fun h =>
      need (1 ≤ rdF w && rdF w ≤ 96) 6 <| .ok (.call h (BitVec.ofNat 7 (rdF w)) (BitVec.ofNat 32 (immF w)))
  | 0x33 => decR w 0 false true false false fun h _ a _ _ => .ok (.callx h a)
  | 0x34 => decR w 0 false false false false fun h _ _ _ _ => .ok (.ret h)
  | 0x35 =>
    need (fnF w < 2) 2 <| decB w false fun h =>
      if fnF w = 0 then .ok (.meet h (BitVec.ofNat 32 (immF w)))
      else need (immF w == 0) 3 (.ok (.meetPop h))
  | 0x36 => decR w 0 false false false false fun h _ _ _ _ => .ok (.exit h)
  | 0x37 => decWait w
  | 0x38 => decR w 0 false false false false fun h _ _ _ _ => .ok (.nop h)
  | _ => .error 1

/-- Ops 0x40 to 0x6f. -/
def decFloat (op w : Nat) : Except Nat Instr :=
  match op with
  | 0x40 => decFRound w false (fun h t m d a b _ => .fadd h t m d a b)
  | 0x41 => decFRound w false (fun h t m d a b _ => .fsub h t m d a b)
  | 0x42 => decFRound w false (fun h t m d a b _ => .fmul h t m d a b)
  | 0x43 => decFRound w true .fma
  | 0x44 => decFPlain w true .fmin
  | 0x45 => decFPlain w true .fmax
  | 0x46 => decFPlain w false (fun h t d a _ => .fabs h t d a)
  | 0x47 => decFPlain w false (fun h t d a _ => .fneg h t d a)
  | 0x48 => decFcmp w
  | 0x49 => decFPlain w false (fun h t d a _ => .fclass h t d a)
  | 0x60 => decCvt w
  | 0x61 => decR w 0 true true false false fun h d a _ _ => .ok (.pack6 h d a)
  | 0x62 => decR w 0 true true false false fun h d a _ _ => .ok (.unpack6 h d a)
  | 0x63 => decPack w
  | 0x64 => decUnpack w
  | 0x65 => decR w 0 true true false false fun h d a _ _ => .ok (.sinr h d a)
  | 0x66 => decR w 0 true true false false fun h d a _ _ => .ok (.cosr h d a)
  | 0x67 => decR w 0 true true false false fun h d a _ _ => .ok (.exp2 h d a)
  | 0x68 => decR w 0 true true false false fun h d a _ _ => .ok (.log2 h d a)
  | 0x69 => decR w 0 true true false false fun h d a _ _ => .ok (.rcp h d a)
  | 0x6a => decR w 0 true true false false fun h d a _ _ => .ok (.rsqrt h d a)
  | 0x6b => decSqrt w
  | _ => .error 1

/-- Ops 0x70 to 0x9f. -/
def decMemory (op w : Nat) : Except Nat Instr :=
  match op with
  | 0x70 =>
    if fld w 19 1 = 0 then decMem w 1 true (fun _ => true) true .ld
    else decMem w 1 false (fun _ => true) false (fun h _ => .lds h)
  | 0x71 =>
    if fld w 19 1 = 0 then decMem w 2 true Size.storeOk true .st
    else decMem w 2 false Size.storeOk false (fun h _ => .sts h)
  | 0x72 => decLdw w
  | 0x73 => decPref w
  | 0x90 => decAtom w false true atomRd (fun h _ => .atomAdd h)
  | 0x91 => decAtom w true true atomRd .atomMin
  | 0x92 => decAtom w true true atomRd .atomMax
  | 0x93 => decAtom w false true atomRd (fun h _ => .atomAnd h)
  | 0x94 => decAtom w false true atomRd (fun h _ => .atomOr h)
  | 0x95 => decAtom w false true atomRd (fun h _ => .atomXor h)
  | 0x96 => decAtom w false true atomRd (fun h _ => .atomXchg h)
  | 0x97 => decAtom w false true casRd (fun h _ => .atomCas h)
  | 0x98 => decAtom w false true atomRd (fun h _ => .atomInc h)
  | 0x99 => decAtom w false false atomRd (fun h _ nr o sc sp _ => .atomFadd h nr o sc sp)
  | _ => .error 1

/-- Ops 0xa0 to 0xcf. -/
def decSync (op w : Nat) : Except Nat Instr :=
  match op with
  | 0xa0 => decFence w
  | 0xa1 => decBar w
  | 0xa2 =>
    need (fnF w < 2) 2 <| need (guardOk w && extF w == 0) 3 <|
      .ok (if fnF w = 0
        then .waitn (hdOf w) (Reg.ofCode (rdF w)) (Reg.ofCode (raF w)) (Reg.ofCode (rbF w)) (Reg.ofCode (rcF w))
        else .waitnTake (hdOf w) (Reg.ofCode (rdF w)) (Reg.ofCode (raF w)) (Reg.ofCode (rbF w)) (Reg.ofCode (rcF w)))
  | 0xa3 => decR w 0 false true true false fun h _ a b _ => .ok (.ntfy h a b)
  | 0xa4 => decR w 0 true true true false fun h _ a b _ => need (rdF w < 16) 5 (.ok (.graft h (predOf (rdF w)) a b))
  | 0xb0 => decAttach w
  | 0xb1 => decR w 0 false true false false fun h _ a _ _ => need (pairCode (raF w)) 5 (.ok (.detach h a))
  | 0xb2 => decR w 0 true true false false fun h _ a _ _ =>
      need (rdF w < 16 && pairCode (raF w)) 5 (.ok (.segfree h (predOf (rdF w)) a))
  | 0xb3 => decXE w false .enq
  | 0xb4 => decXE w true .seqw
  | 0xc0 =>
    need (fnF w == 0) 2 <| decXM w fun h t =>
      need (raF w == 0 && rbF w == 0 && rcF w == 0 && fld w 7 6 == 0) 3 <| need (fld w 0 3 == 0) 4 (.ok (.mz h t))
  | 0xc1 => decMma w false .mma
  | 0xc2 => decMma w true .mmaSp
  | 0xc3 => decMma w true .mconv
  | 0xc4 => decTileConv w .mld
  | 0xc5 => decTileConv w .mst
  | _ => .error 1

/-- Ops 0xd0 to 0xef. -/
def decSys (op w : Nat) : Except Nat Instr :=
  let d := Reg.ofCode (rdF w)
  let a := Reg.ofCode (raF w)
  let b := Reg.ofCode (rbF w)
  let c := Reg.ofCode (rcF w)
  match op with
  | 0xd0 => decXG w 0 true true false false (· == 0) fun h _ => .ok (.bin h d a)
  | 0xd1 => decXG w 0 false true false false (· < 8) fun h s =>
      let f : PixFmt := if s < 4 then .rgba8 else .rgba16f
      need (f == .rgba8 || a.isPair) 5 (.ok (.pout h f (idx4 s) a))
  | 0xd2 => decXG w 0 false false false false (· == 0) fun h _ => .ok (.discard h)
  | 0xd3 => decXG w 0 true true true false (fun s => s < 8 && s % 4 < 2) fun h s =>
      let f : PixFmt := if s % 4 = 0 then .rgba8 else .rgba16f
      need (if f == .rgba8 then d.isPair else d.isQuad) 5 (.ok (.smp h (decide (4 ≤ s)) f d a b))
  | 0xd4 =>
    if fnF w = 0 then decXG w 0 true true true false (· < 8) fun h s =>
      need (d.isQuad && b.isPair) 5 (.ok (.rqOpen h (decide (4 ≤ s)) (decide (2 ≤ s % 4)) (s % 2 == 1) d a b))
    else if fnF w = 1 then decXG w 1 true true false false (· == 0) fun h _ => need d.isQuad 5 (.ok (.rqNext h d a))
    else decXG w 2 false false false false (· == 0) fun h _ => .ok (.rqClose h)
  | 0xd5 => decXG w 0 true true true true (· == 0) fun h _ => .ok (.nreq h d a b c)
  | 0xd6 => decXG w 0 true true false false (· == 0) fun h _ => .ok (.nget h d a)
  | 0xe0 => decSr w srAssigned .mfs
  | 0xe1 => decSr w srWritable .mts
  | 0xe2 => decR w 0 false false false false fun h _ _ _ _ => .ok (.bkpt h)
  | 0xe3 => decR w 0 false true false false fun h _ a _ _ => .ok (.trap h a)
  | 0xe4 => decR w 0 true true true false fun h d a b _ => .ok (.fret h d a b)
  | _ => .error 1

/-- An instruction word, or the detail code of ILLEGAL_OP (R167, R169). -/
def decode (w : Nat) : Except Nat Instr :=
  let op := opF w
  if op < 0x20 then decInt op w
  else if op < 0x40 then decCtl op w
  else if op < 0x70 then decFloat op w
  else if op < 0xa0 then decMemory op w
  else if op < 0xd0 then decSync op w
  else decSys op w

/-! ### The words in memory (R4, R154) -/

/-- The little-endian number of a list of bytes. -/
def leNat : List Byte → Nat
  | [] => 0
  | b :: bs => b.toNat + 256 * leNat bs

/-- The n little-endian bytes of a number. -/
def leBytes : Nat → Nat → List Byte
  | 0, _ => []
  | n + 1, w => BitVec.ofNat 8 (w % 256) :: leBytes n (w / 256)

/-- Decoding the bytes at the PC: eight of them, the lowest address first (R154). -/
def decodeBytes (bs : List Byte) : Except Nat Instr := decode (leNat (bs.take 8) % 2 ^ 64)

/-- The host's question of the decoder: the instruction of a word, laid out as eight little-endian bytes. -/
def decodeTableWord (nbits w : Nat) : Option Instr :=
  match decodeBytes (leBytes 8 (w % 2 ^ Nat.min nbits 64)) with
  | .ok i => some i
  | .error _ => none

/-! ### The encoder -/

def Guard.bits : Guard → Nat
  | .always => 0
  | .onTrue p => 2 ^ 46 + p.val * 2 ^ 41
  | .onFalse p => 2 ^ 46 + 2 ^ 45 + p.val * 2 ^ 41

def Hd.bits (h : Hd) : Nat := (if h.rb then 2 ^ 47 else 0) + h.guard.bits

/-- op, fn and the common fields (R155). -/
def encHead (op fn : Nat) (h : Hd) : Nat := op * 2 ^ 56 + fn * 2 ^ 48 + h.bits

/-- The R form (R158), also the XM, XE and XG forms. -/
def encR (op fn : Nat) (h : Hd) (rd ra rb rc ext : Nat) : Nat :=
  encHead op fn h + rd * 2 ^ 34 + ra * 2 ^ 27 + rb * 2 ^ 20 + rc * 2 ^ 13 + ext

/-- The I form (R159). -/
def encI (op fn : Nat) (h : Hd) (rd ra : Nat) (imm : BitVec 27) : Nat :=
  encHead op fn h + rd * 2 ^ 34 + ra * 2 ^ 27 + imm.toNat

/-- The L and B forms (R160, R161). -/
def encL (op fn : Nat) (h : Hd) (rd imm : Nat) : Nat := encHead op fn h + rd * 2 ^ 34 + imm

/-- The M form (R162). -/
def encM (op fn : Nat) (h : Hd) (rd ra rb sp size : Nat) (off : BitVec 16) : Nat :=
  encHead op fn h + rd * 2 ^ 34 + ra * 2 ^ 27 + rb * 2 ^ 20 + sp * 2 ^ 19 + size * 2 ^ 16 + off.toNat

/-- fn of layout T (R168). -/
def fnT (ty : ITy) (i sat : Bool) (low : Nat) : Nat :=
  ty.code * 64 + (if i then 32 else 0) + (if sat then 16 else 0) + low

def encBin (op : Nat) (h : Hd) (ty : ITy) (sat : Bool) (low rd : Nat) (ra : Reg) : RegImm → Nat
  | .reg b => encR op (fnT ty false sat low) h rd ra.code b.code 0 0
  | .imm v => encI op (fnT ty true sat low) h rd ra.code v

/-- A source that stands in ra in the R form and in the immediate in the I form (mov, scan). -/
def encSrc (op : Nat) (h : Hd) (ty : ITy) (sat : Bool) (low rd : Nat) : RegImm → Nat
  | .reg a => encR op (fnT ty false sat low) h rd a.code 0 0 0
  | .imm v => encI op (fnT ty true sat low) h rd 0 v

def encUn (op : Nat) (h : Hd) (ty : ITy) (sat : Bool) (rd ra : Reg) : Nat :=
  encR op (fnT ty false sat 0) h rd.code ra.code 0 0 0

def encTer (op : Nat) (h : Hd) (ty : ITy) (sat : Bool) (rd ra rb rc : Reg) : Nat :=
  encR op (fnT ty false sat 0) h rd.code ra.code rb.code rc.code 0

def Space.bit : Space → Nat | .global => 0 | .scratch => 1

def POrd.bits (o : Nat) : POrd → Nat
  | .relaxed => 0
  | .ordered sc => o * 8 + sc.code

def encMem (op o : Nat) (h : Hd) (na : Bool) (ord : POrd) (sp : Nat) (z : Size) (rd ra rb : Reg) (off : BitVec 16) : Nat :=
  encM op ((if na then 64 else 0) + ord.bits o) h rd.code ra.code rb.code sp z.code off

def encAtom (op : Nat) (h : Hd) (signed nr : Bool) (o : Order) (sc : Scope) (sp : Space) (wide : Bool) (rd ra rb : Reg)
    (off : BitVec 16) : Nat :=
  encM op ((if signed then 128 else 0) + (if nr then 64 else 0) + o.code * 8 + sc.code) h rd.code ra.code rb.code sp.bit
    (if wide then 5 else 4) off

def FmtSel.nib : FmtSel → Nat
  | .fmt f => f.code
  | .slot _ => 0
def FmtSel.slotNo : FmtSel → Nat
  | .fmt _ => 0
  | .slot i => i.val

def BarRed.bits : BarRed → Nat
  | .none => 0
  | .red o ty => (o.code + 1) * 4 + ty.code * 32

def b2n (b : Bool) : Nat := if b then 1 else 0

/-- The word of a well-formed instruction (R155 to R168); rows without an instruction word encode to 0. -/
def encode : Instr → Nat
  | .add h ty sat rd ra b => encBin 0x00 h ty sat 0 rd.code ra b
  | .sub h ty sat rd ra b => encBin 0x01 h ty sat 0 rd.code ra b
  | .mul h ty sat rd ra b => encBin 0x02 h ty sat 0 rd.code ra b
  | .mulhi h ty rd ra b => encBin 0x03 h ty false 0 rd.code ra b
  | .mad h ty sat rd ra rb rc => encTer 0x04 h ty sat rd ra rb rc
  | .div h ty sat rd ra b => encBin 0x05 h ty sat 0 rd.code ra b
  | .rem h ty rd ra b => encBin 0x06 h ty false 0 rd.code ra b
  | .min h ty rd ra b => encBin 0x07 h ty false 0 rd.code ra b
  | .max h ty rd ra b => encBin 0x08 h ty false 0 rd.code ra b
  | .abs h sat rd ra => encUn 0x09 h .i32 sat rd ra
  | .neg h ty sat rd ra => encUn 0x0a h ty sat rd ra
  | .and h ty rd ra b => encBin 0x0b h ty false 0 rd.code ra b
  | .or h ty rd ra b => encBin 0x0c h ty false 0 rd.code ra b
  | .xor h ty rd ra b => encBin 0x0d h ty false 0 rd.code ra b
  | .not h ty rd ra => encUn 0x0e h ty false rd ra
  | .andn h ty rd ra b => encBin 0x0f h ty false 0 rd.code ra b
  | .shl h ty sat rd ra b => encBin 0x10 h ty sat 0 rd.code ra b
  | .shr h ty rd ra b => encBin 0x11 h ty false 0 rd.code ra b
  | .sar h ty rd ra b => encBin 0x12 h ty false 0 rd.code ra b
  | .rotl h ty rd ra b => encBin 0x13 h ty false 0 rd.code ra b
  | .bfx h ty rd ra b => encBin 0x14 h ty false 0 rd.code ra b
  | .bfi h ty rd ra rb rc => encTer 0x15 h ty false rd ra rb rc
  | .clz h ty rd ra => encUn 0x16 h ty false rd ra
  | .popc h ty rd ra => encUn 0x17 h ty false rd ra
  | .brev h ty rd ra => encUn 0x18 h ty false rd ra
  | .ilv h ty rd ra rb rc => encTer 0x19 h ty false rd ra rb rc
  | .dilv h ty rd ra b => encBin 0x1a h ty false 0 rd.code ra b
  | .lea h ty rd ra rb rc => encTer 0x1b h ty false rd ra rb rc
  | .mov h ty rd a => encSrc 0x1c h ty false 0 rd.code a
  | .movi h ty rd imm => encL 0x1d (ty.code * 64) h rd.code imm.toNat
  | .mulw h ty rd ra b => encBin 0x1e h ty false 0 rd.code ra b
  | .cmp h ty c pd ra b => encBin 0x20 h ty false c.code pd.val ra b
  | .pand h n pd pa pb => encR 0x21 (b2n n) h pd.val pa.val pb.val 0 0
  | .por h n pd pa pb => encR 0x22 (b2n n) h pd.val pa.val pb.val 0 0
  | .pxor h n pd pa pb => encR 0x23 (b2n n) h pd.val pa.val pb.val 0 0
  | .pnot h pd pa => encR 0x24 0 h pd.val pa.val 0 0 0
  | .pmov h pd pa => encR 0x25 0 h pd.val pa.val 0 0 0
  | .sel h w rd ra rb pc => encR 0x26 (b2n w) h rd.code ra.code rb.code pc.val 0
  | .voteAny h pd pa => encR 0x27 0 h pd.val pa.val 0 0 0
  | .voteAll h pd pa => encR 0x27 1 h pd.val pa.val 0 0 0
  | .voteBallot h rd pa => encR 0x27 2 h rd.code pa.val 0 0 0
  | .xch h m rd ra (.reg b) => encR 0x28 m.code h rd.code ra.code b.code 0 0
  | .xch h m rd ra (.imm v) => encI 0x28 (32 + m.code) h rd.code ra.code v
  | .scan h ty sat op rd x => encSrc 0x29 h ty sat op.code rd.code x
  | .bra h off => encL 0x30 0 h 0 off.toNat
  | .braU h off => encL 0x30 1 h 0 off.toNat
  | .brx h ra => encR 0x31 0 h 0 ra.code 0 0 0
  | .call h fc off => encL 0x32 0 h fc.toNat off.toNat
  | .callx h ra => encR 0x33 0 h 0 ra.code 0 0 0
  | .ret h => encR 0x34 0 h 0 0 0 0 0
  | .meet h off => encL 0x35 0 h 0 off.toNat
  | .meetPop h => encL 0x35 1 h 0 0
  | .exit h => encR 0x36 0 h 0 0 0 0 0
  | .wait r l s c m => encL 0x37 0 ⟨r, .always⟩ 0 (l.val + s.val * 2 ^ 6 + c.val * 2 ^ 12 + m.val * 2 ^ 18)
  | .nop h => encR 0x38 0 h 0 0 0 0 0
  | .fadd h ty rm rd ra rb => encR 0x40 (ty.code * 64) h rd.code ra.code rb.code 0 rm.code
  | .fsub h ty rm rd ra rb => encR 0x41 (ty.code * 64) h rd.code ra.code rb.code 0 rm.code
  | .fmul h ty rm rd ra rb => encR 0x42 (ty.code * 64) h rd.code ra.code rb.code 0 rm.code
  | .fma h ty rm rd ra rb rc => encR 0x43 (ty.code * 64) h rd.code ra.code rb.code rc.code rm.code
  | .fmin h ty rd ra rb => encR 0x44 (ty.code * 64) h rd.code ra.code rb.code 0 0
  | .fmax h ty rd ra rb => encR 0x45 (ty.code * 64) h rd.code ra.code rb.code 0 0
  | .fabs h ty rd ra => encR 0x46 (ty.code * 64) h rd.code ra.code 0 0 0
  | .fneg h ty rd ra => encR 0x47 (ty.code * 64) h rd.code ra.code 0 0 0
  | .fcmp h ty c pd ra rb => encR 0x48 (ty.code * 64 + c.code) h pd.val ra.code rb.code 0 0
  | .fclass h ty rd ra => encR 0x49 (ty.code * 64) h rd.code ra.code 0 0 0
  | .cvt h d s rm rd ra rb rc =>
    encR 0x60 (d.nib * 16 + s.nib) h rd.code ra.code rb.code rc.code (d.slotNo * 64 + s.slotNo * 8 + rm.code)
  | .cvtScaleComputing h d s rm rd ra rb rc =>
    encR 0x60 s.nib h rd.code ra.code rb.code rc.code (d.val * 64 + s.slotNo * 8 + rm.code)
  | .pack6 h rd ra => encR 0x61 0 h rd.code ra.code 0 0 0
  | .unpack6 h rd ra => encR 0x62 0 h rd.code ra.code 0 0 0
  | .pack h v rm rd ra rb =>
    encR 0x63 (match v with | .f16 => 0 | .bf16 => 1 | .b16 => 2) h rd.code ra.code rb.code 0 rm.code
  | .unpack h v rd ra =>
    encR 0x64 (match v with | .f16 => 0 | .bf16 => 1 | .u16 => 2 | .i16 => 3) h rd.code ra.code 0 0 0
  | .sinr h rd ra => encR 0x65 0 h rd.code ra.code 0 0 0
  | .cosr h rd ra => encR 0x66 0 h rd.code ra.code 0 0 0
  | .exp2 h rd ra => encR 0x67 0 h rd.code ra.code 0 0 0
  | .log2 h rd ra => encR 0x68 0 h rd.code ra.code 0 0 0
  | .rcp h rd ra => encR 0x69 0 h rd.code ra.code 0 0 0
  | .rsqrt h rd ra => encR 0x6a 0 h rd.code ra.code 0 0 0
  | .sqrt h rm rd ra => encR 0x6b 0 h rd.code ra.code 0 0 rm.code
  | .ld h na ord z rd ra rb off => encMem 0x70 1 h na ord 0 z rd ra rb off
  | .lds h ord z rd ra rb off => encMem 0x70 1 h false ord 1 z rd ra rb off
  | .st h na ord z rd ra rb off => encMem 0x71 2 h na ord 0 z rd ra rb off
  | .sts h ord z rd ra rb off => encMem 0x71 2 h false ord 1 z rd ra rb off
  | .ldw h z rd ra rb off => encM 0x72 0 h rd.code ra.code rb.code 0 z.code off
  | .pref h l2 ra rb off => encM 0x73 (if l2 then 0x40 else 0) h 0 ra.code rb.code 0 0 off
  | .atomAdd h nr o sc sp w rd ra rb off => encAtom 0x90 h false nr o sc sp w rd ra rb off
  | .atomMin h s nr o sc sp w rd ra rb off => encAtom 0x91 h s nr o sc sp w rd ra rb off
  | .atomMax h s nr o sc sp w rd ra rb off => encAtom 0x92 h s nr o sc sp w rd ra rb off
  | .atomAnd h nr o sc sp w rd ra rb off => encAtom 0x93 h false nr o sc sp w rd ra rb off
  | .atomOr h nr o sc sp w rd ra rb off => encAtom 0x94 h false nr o sc sp w rd ra rb off
  | .atomXor h nr o sc sp w rd ra rb off => encAtom 0x95 h false nr o sc sp w rd ra rb off
  | .atomXchg h nr o sc sp w rd ra rb off => encAtom 0x96 h false nr o sc sp w rd ra rb off
  | .atomCas h nr o sc sp w rd ra rb off => encAtom 0x97 h false nr o sc sp w rd ra rb off
  | .atomInc h nr o sc sp w rd ra rb off => encAtom 0x98 h false nr o sc sp w rd ra rb off
  | .atomFadd h nr o sc sp rd ra rb off => encAtom 0x99 h false nr o sc sp false rd ra rb off
  | .fence h o sc => encR 0xa0 (o.code * 8 + sc.code) h 0 0 0 0 0
  | .bar h l r rd ra => encR 0xa1 (r.bits + l.code) h rd.code ra.code 0 0 0
  | .waitn h rd ra rb rc => encR 0xa2 0 h rd.code ra.code rb.code rc.code 0
  | .waitnTake h rd ra rb rc => encR 0xa2 1 h rd.code ra.code rb.code rc.code 0
  | .ntfy h ra rb => encR 0xa3 0 h 0 ra.code rb.code 0 0
  | .graft h pd ra rb => encR 0xa4 0 h pd.val ra.code rb.code 0 0
  | .attach h m pd ra => encR 0xb0 m.code h pd.val ra.code 0 0 0
  | .detach h ra => encR 0xb1 0 h 0 ra.code 0 0 0
  | .segfree h pd ra => encR 0xb2 0 h pd.val ra.code 0 0 0
  | .enq h ch w rd ra => encR 0xb3 ch.val h rd.code ra.code 0 0 (b2n w)
  | .seqw h ch w rd ra => encR 0xb4 ch.val h rd.code ra.code 0 0 (b2n w)
  | .mz h t => encR 0xc0 0 h t.val 0 0 0 0
  | .mma h t ra rb rc sa sb => encR 0xc1 0 h t.val ra.code rb.code rc.code (sa.val * 2 ^ 10 + sb.val * 2 ^ 7)
  | .mmaSp h t ra rb rc sa sb => encR 0xc2 0 h t.val ra.code rb.code rc.code (sa.val * 2 ^ 10 + sb.val * 2 ^ 7)
  | .mconv h t ra rb rc sa sb => encR 0xc3 0 h t.val ra.code rb.code rc.code (sa.val * 2 ^ 10 + sb.val * 2 ^ 7)
  | .mld h f t ra rb => encR 0xc4 f.nib h t.val ra.code rb.code 0 (f.slotNo * 2 ^ 10)
  | .mst h f t ra rb => encR 0xc5 f.nib h t.val ra.code rb.code 0 (f.slotNo * 2 ^ 10)
  | .bin h rd ra => encR 0xd0 0 h rd.code ra.code 0 0 0
  | .pout h f o ra => encR 0xd1 0 h 0 ra.code 0 0 ((if f == .rgba8 then 0 else 4) + o.val)
  | .discard h => encR 0xd2 0 h 0 0 0 0 0
  | .smp h z f rd ra rb => encR 0xd3 0 h rd.code ra.code rb.code 0 (b2n z * 4 + (if f == .rgba8 then 0 else 1))
  | .rqOpen h c o cl rd ra rb => encR 0xd4 0 h rd.code ra.code rb.code 0 (b2n c * 4 + b2n o * 2 + b2n cl)
  | .rqNext h rd ra => encR 0xd4 1 h rd.code ra.code 0 0 0
  | .rqClose h => encR 0xd4 2 h 0 0 0 0 0
  | .nreq h rd ra rb rc => encR 0xd5 0 h rd.code ra.code rb.code rc.code 0
  | .nget h rd ra => encR 0xd6 0 h rd.code ra.code 0 0 0
  | .mfs h rd n => encL 0xe0 0 h rd.code n.val
  | .mts h rd n => encL 0xe1 0 h rd.code n.val
  | .bkpt h => encR 0xe2 0 h 0 0 0 0 0
  | .trap h ra => encR 0xe3 0 h 0 ra.code 0 0 0
  | .fret h rd ra rb => encR 0xe4 0 h rd.code ra.code rb.code 0 0
  | _ => 0

end Sys2Proof
end

