-- ==== Sys2Proof/Machine/Fetch.lean ====
section
/-! DEFINITION. Fetching the next instruction of a lane's granted strand (R43, R49, R127, R132), and the time-driven
turns (R1, R5). -/

namespace Sys2Proof.Machine

/-- R169: the detail of an illegal word for a strand: an undeclared tile (5) comes before a static limit (6). -/
def wordDetail (st : Strand) (w d : Nat) : Nat :=
  if d = 6 ∧ 0xc0 ≤ opF w ∧ opF w ≤ 0xc5 ∧ st.ntiles ≤ rdF w then 5 else d

/-- R205: a cvt whose destination slot has a scale array computes its scales. -/
def resolveCvt (lr : LaunchRec) : Instr → Instr
  | .cvt h (.slot i) src rm rd ra rb rc =>
    match slotOf lr i with
    | some sl => if sl.ssrc = 1 then .cvtScaleComputing h i src rm rd ra rb rc else .cvt h (.slot i) src rm rd ra rb rc
    | none => .cvt h (.slot i) src rm rd ra rb rc
  | i => i

/-- What fetching gives: the instruction to carry out, in the state that its fetch leaves; or a stop. -/
inductive FetchOut
  | run (i : Instr) (s : State)
  | stop (s : State)

/-- A strand parks before its next instruction: nothing of it has been done. -/
def parkFetch (s : State) (st : Strand) (c : Park) : State := ungrant (setStrand s { st with status := .parked c }) st

/-- A fault of the fetch, before step 0 (R43). -/
def fetchFault (s : State) (st : Strand) (pc : DWord) (c : Cause) : State :=
  takeException s st { cls := c.1, cause := c.2, pc := pc, addr := pc, pre := true }

/-- Fetches and decodes the word at a PC for a strand (R43, R49, R169), through the cluster's slice whatever the cache field
of its page: R49 says so of every fetch, R48 bypasses the slice for an uncached page, and the model follows R49. R51 names
thread-steps, cards and traversal fetches as reads that a core's acquire stamp holds; here an instruction fetch is held to
it as well (log 14). A strand whose byte cap is used up fetches nothing (R320). -/
def fetchAt (s : State) (st : Strand) (pc : DWord) : FetchOut :=
  if bytesExhausted s st.world st.owner then .stop s
  else match translate s st.core st.limb st.world pc.toNat needFetch with
  | (.bad c, s) => .stop (fetchFault s st pc c)
  | (.miss, s) =>
    let (id, s) := startWalk s st.core st.world pc.toNat needFetch st.home
    .stop (parkFetch s st (.walk id))
  | (.ats p, s) => .stop (parkFetch (requestAts s st.world p) st (.ats p pc.toNat needFetch))
  | (.ok pa _, s) =>
    let (bs, bad, s) := sliceRead s st.core st.world pa 8
    let s := chargeBytes s st.world st.owner
    if bad then .stop (fetchFault s st pc (0x0f, 7))
    else
      let w := leVal bs
      match decode w with
      | .error d => .stop (preFault s st pc (illegalOp (wordDetail st w d)))
      | .ok i => .run (resolveCvt (strandRecord s st) i) ({ s with issuer := st.home })

/-- The issue turn of a lane (R124, R127): the strand that holds it, if it may still run, goes on with an issue that has paused,
or fetches its next instruction; else its grant ends. -/
def fetchLane (s : State) (core limb lane : Nat) : FetchOut :=
  let k := laneIndex core limb lane
  match (getLane s k).granted with
  | none => .stop s
  | some h =>
    match getStrand s h with
    | none => .stop (endGrant s k)
    | some st =>
      if st.status ≠ .ready ∨ st.halted = true ∨ st.resident = false then .stop (endGrant s k)
      else match pausedIssue s st, issuePc (strandRecord s st).code st with
        | some b, _ => .run b.instr { s with issuer := st.home }
        | none, none => .stop (endGrant s k)
        | none, some pc => fetchAt s st pc

end Sys2Proof.Machine
end

