-- ==== Sys2Proof/Machine/Sync.lean ====
section
/-! DEFINITION. Fences, barriers, notify instructions and graft (R117 to R119, R231 to R239). -/

namespace Sys2Proof.Machine

/-! ### Fences (R231) -/

def fenceOrder : FOrd → Order
  | .acquire => .acquire
  | .release => .release
  | .acqRel => .acqRel
  | .sc => .sc

/-- The cache actions of a fence: those of its release, then those of its acquire. -/
def fenceActs (s : State) (core : Nat) (o : FOrd) (sc : Scope) : State :=
  let s := if isRelease (fenceOrder o) then releaseActs s core sc else s
  if isAcquire (fenceOrder o) then acquireActs s core sc else s

/-- A thread-step of a fence: the strand parks until its load and store counters are 0. The bytes that it publishes are its
own (R320). -/
def fenceStep (o : FOrd) (sc : Scope) (_ : Issue) (s : State) (st : Strand) (_ : Nat) : StepOut :=
  if st.outs ≠ [] then .parkPre s st .drain
  else .ok (chargeBytes (fenceActs s st.core o sc) st.world st.owner) st none none

/-- fence (R231). -/
def execFence (h : Hd) (o : FOrd) (sc : Scope) (s : State) : Host.Outcome State Fault Refusal :=
  perThread s h (fun _ => []) [] (fenceStep o sc)

/-! ### Barriers (R232 to R235) -/

/-- The scope of a barrier's memory effect (R233). -/
def barScope : BarLevel → Scope
  | .grove => .grove
  | .copse => .copse
  | .stand => .forest

/-- R234: a strand begins to wait: each active thread's payload is read. -/
def barStep (level : BarLevel) (red : BarRed) (rd ra : Reg) (i : Issue) (s : State) (st : Strand) (_ : Nat) : StepOut :=
  let hasRed := red != .none
  if hasRed && i.active.any fun t => readsPoison st t [ra] then .fault s st (0x0f, 1) 0 0
  else .wait s st (.waitBar
    { level := level, red := red, rd := rd, pc := i.pc
      payload := if hasRed then i.active.map fun t => (t, readReg s.free st t ra) else []
      fmode := st.fmode
      arrived := false })

/-- bar (R232): every thread that has not exited is active. -/
def execBar (h : Hd) (level : BarLevel) (red : BarRed) (rd ra : Reg) (s : State) : Host.Outcome State Fault Refusal :=
  onceUniform s h
    (fun i => [if i.active.length ≠ (i.st.threads.filter fun th => !th.exited).length then some illegalConvergence else none])
    [] (fun i => if red = .none then 1 else issueCycles 0 i.active) (barStep level red rd ra)

/-- The groves that take part in a generation with grove g (R233). -/
def barGroves (s : State) (level : BarLevel) (g : Grove) : List Grove :=
  let k := (((getLaunch s g.launch).map (·.record.copse)).getD 1)
  match level with
  | .grove => [g]
  | .copse => s.groves.filter fun x => x.launch == g.launch && x.lin / k == g.lin / k
  | .stand => s.groves.filter fun x => x.launch == g.launch && x.core / 24 == g.core / 24

/-- The strand has arrived at a barrier of the level. -/
def arrivedAt (level : BarLevel) (st : Strand) : Option BarWait :=
  match st.status with
  | .waitBar b => if b.level = level ∧ b.arrived = true then some b else none
  | _ => none

/-- Insertion by linear grove index and `sidx` (R235). -/
def insertMember (key : Strand → Nat × Nat) (x : Strand) : List Strand → List Strand
  | [] => [x]
  | y :: r =>
    if (key x).1 < (key y).1 ∨ ((key x).1 = (key y).1 ∧ (key x).2 < (key y).2) then x :: y :: r
    else y :: insertMember key x r

/-- The strands of a generation, in the order of R235. -/
def barMembers (s : State) (level : BarLevel) (g : Grove) : List Strand :=
  let gs := barGroves s level g
  let key (st : Strand) : Nat × Nat := (((getGrove s st.grove).map (·.lin)).getD 0, st.sidx)
  (s.strands.filter fun st => gs.any (·.id == st.grove)).foldl (fun acc st => insertMember key st acc) []

/-- R199, R235: f32 minima and maxima flush and raise flags as `fmin` and `fmax` do; the add does neither. -/
def barFloat (fmode : Word) (op : ScanOp) (a b : Word) : Word × Flags :=
  match op with
  | .add => (BitVec.ofNat 32 (fAdd f32 0 0 false a.toNat b.toNat).1, 0)
  | .min => let (c, f) := fMinMax f32 fmode false a.toNat b.toNat; (BitVec.ofNat 32 c, f)
  | _ => let (c, f) := fMinMax f32 fmode true a.toNat b.toNat; (BitVec.ofNat 32 c, f)

/-- The reduction of a payload that is alone: a NaN is written as the canonical one (R152, R235), and f32 minima and maxima
treat it as their operand (log 33). -/
def barFirst (fmode : Word) (op : ScanOp) (ty : BarTy) (v : Word) : Word × Flags :=
  match ty, op with
  | .f32, .add => (if isNan (decodeFloat f32 v.toNat) then BitVec.ofNat 32 (canonicalNan f32) else v, 0)
  | .f32, op => barFloat fmode op v v
  | _, _ => (v, 0)

def barInt (op : ScanOp) (ty : BarTy) (a b : Word) : Word :=
  match ty with
  | .f32 => a
  | .u32 => (match op with
    | .add => a + b | .min => if a.toNat ≤ b.toNat then a else b | .max => if a.toNat ≤ b.toNat then b else a
    | .and => a &&& b | .or => a ||| b | .xor => a ^^^ b)
  | .i32 => (match op with
    | .add => a + b | .min => if a.toInt ≤ b.toInt then a else b | .max => if a.toInt ≤ b.toInt then b else a
    | .and => a &&& b | .or => a ||| b | .xor => a ^^^ b)

/-- A step of the reduction, with the flags so far. -/
def barCombine (fmode : Word) (op : ScanOp) (ty : BarTy) (acc : Word × Flags) (b : Word) : Word × Flags :=
  match ty with
  | .f32 => let (v, f) := barFloat fmode op acc.1 b; (v, acc.2 ||| f)
  | _ => (barInt op ty acc.1 b, acc.2)

/-- R235: the reduced value for a participant that sampled an `fmode`, and its flags; where the participants' reductions
differ the value is undefined. Whose `fmode` governs f32 minima and maxima is left open: here each participant's own
(log 33). -/
def barValue (free : Nat) (bs : List BarWait) (fmode : Word) : Word × Flags :=
  match bs with
  | [] => (0, 0)
  | b :: r =>
    if r.any (·.red != b.red) then (Config.freeWord free 6 0, 0)
    else match b.red with
      | .none => (0, 0)
      | .red op ty =>
        match (bs.flatMap (·.payload)).map (·.2) with
        | [] => (0, 0)
        | [v] => barFirst fmode op ty v
        | v :: vs => vs.foldl (barCombine fmode op ty) (v, 0)

/-- Writes a result in every thread that has not exited; a uniform destination takes it once. -/
def writeAll (st : Strand) (rd : Reg) (v : Word) : Strand :=
  (List.range st.threads.length).foldl (fun st t => if (getThread st t).exited then st else writeReg st t rd v) st

/-- A strand leaves its barrier: the result and its flags, then the acquire (R233, R234). -/
def leaveBarrier (level : BarLevel) (bs : List BarWait) (s : State) (st : Strand) : State :=
  match st.status with
  | .waitBar b =>
    let (v, f) := barValue s.free bs b.fmode
    let st := if b.red = .none then st else raiseFlags (writeAll st b.rd v) f
    completeWait (acquireActs s st.core (barScope level)) st b.pc
  | _ => s

/-- R233: the generation of a level that grove g belongs to completes once every participant has arrived. -/
def barrierTry (s : State) (level : BarLevel) (g : Grove) : State :=
  let ms := barMembers s level g
  let bs := ms.filterMap (arrivedAt level)
  if ms ≠ [] ∧ bs.length = ms.length then ms.foldl (leaveBarrier level bs) s else s

/-- R233: when a strand ends or a grove exits, the generations that waited for it may complete: those that the other
strands of its launch wait in. -/
def barrierRecheck (s : State) (launch : Nat) : State :=
  (s.strands.filter (·.launch == launch)).foldl (fun s st =>
    match getStrand s st.home with
    | some st =>
      (match st.status, getGrove s st.grove with
       | .waitBar b, some g => barrierTry s b.level g
       | _, _ => s)
    | none => s) s

/-- barrierArrival: a strand's arrival is registered once its load and store counters are 0 (R234 step 1). The bytes that its
release publishes are its own (R320). -/
def execBarrierArrival (strand : Nat) (s : State) : Host.Outcome State Fault Refusal :=
  match getStrand s strand with
  | none => .next s
  | some st =>
    match st.status, getGrove s st.grove with
    | .waitBar b, some g =>
      if b.arrived = true ∨ st.outs ≠ [] then .next s
      else
        let s := chargeBytes (releaseActs s st.core (barScope b.level)) st.world st.owner
        let s := setStrand s { st with status := .waitBar { b with arrived := true } }
        .next (barrierTry s b.level g)
    | _, _ => .next s

/-! ### Notify registers (R236 to R238) -/

/-- R238: what an index raises. -/
def notifyFault (s : State) (w k : Nat) : Option Cause :=
  if 4095 < k then some (2, 8)
  else match mapGet s.ntable k with
    | none => some (2, 9)
    | some e => if e.world = w then none else some (2, 9)

/-- R236: waitn and waitn.take at their issue. What the strand has released comes before the acquire (R297). -/
def waitnStep (take : Bool) (rd ra rb rc : Reg) (_ : Issue) (s : State) (st : Strand) (t : Nat) : StepOut :=
  let k := (readReg s.free st t ra).toNat
  let h := (readReg s.free st t rb).toNat
  let out := (readReg s.free st t rc).toNat
  if acquirePending s st then .parkPre s st .acquire
  else if owesRelease s st then .parkPre s st .release
  else match notifyFault s st.world k with
    | some c => .preFault s st c 0 0
    | none =>
      let x := mapGetD s.notify k 0
      if h ≤ x.toNat then
        let s := if take then { s with notify := mapSet s.notify k (x - BitVec.ofNat 32 h) } else s
        .ok (acquireActs s st.core .system) (writeReg st t rd x) none none
      else
        .wait { s with nextId := s.nextId + 1 } st (.waitNotify
          { index := k, threshold := h, take := take, rd := rd, lead := t
            until_ := if out = 0 then none else some (s.time + out), arrival := s.nextId })

/-- waitn (R236). -/
def execWaitn (h : Hd) (rd ra rb rc : Reg) (s : State) : Host.Outcome State Fault Refusal :=
  onceUniform s h (fun _ => []) [ra, rb, rc] (fun _ => 1) (waitnStep false rd ra rb rc)

/-- waitn.take (R236). -/
def execWaitnTake (h : Hd) (rd ra rb rc : Reg) (s : State) : Host.Outcome State Fault Refusal :=
  onceUniform s h (fun _ => []) [ra, rb, rc] (fun _ => 1) (waitnStep true rd ra rb rc)

/-- waitnTimeout: the time of a waitn has passed (R236). It comes at the end of its tick, and tests the condition first: a
condition that becomes true in that tick wins (R247). -/
def execWaitnTimeout (strand : Nat) (s : State) : Host.Outcome State Fault Refusal :=
  match getStrand s strand with
  | none => .next s
  | some st =>
    match st.status with
    | .waitNotify n =>
      (match n.until_ with
       | some d =>
         if n.threshold ≤ (mapGetD s.notify n.index 0).toNat then .next (serveWaiter n.index s st)
         else if d ≤ s.time ∧ s.closing = true then
           .next (completeWait s (writeLead st n.lead n.rd (mapGetD s.notify n.index 0)) (leadPc st n.lead))
         else .next s
       | none => .next s)
    | _ => .next s

/-- R237: ntfy. -/
def ntfyStep (ra rb : Reg) (_ : Issue) (s : State) (st : Strand) (t : Nat) : StepOut :=
  let k := (readReg s.free st t ra).toNat
  match notifyFault s st.world k with
  | some c => .preFault s st c 0 0
  | none =>
    if st.outs ≠ [] then .parkPre s st .drain
    else
      let s := chargeBytes (releaseActs s st.core .system) st.world st.owner
      .ok (notifyAdd s k (readReg s.free st t rb)) st none none

/-- ntfy (R237). -/
def execNtfy (h : Hd) (ra rb : Reg) (s : State) : Host.Outcome State Fault Refusal :=
  onceUniform s h (fun _ => []) [ra, rb] (fun _ => 1) (ntfyStep ra rb)

/-! ### Graft (R117 to R119, R239) -/

/-- The predicate in every thread that has not exited. -/
def predAll (st : Strand) (p : Fin 16) (b : Bool) : Strand :=
  (List.range st.threads.length).foldl (fun st t => if (getThread st t).exited then st else setPred st t p b) st

/-- The full bytes of the strands resident on a lane other than two (R117). -/
def otherBytes (s : State) (a b : Strand) : Nat :=
  ((s.strands.filter fun x => x.resident && strandLane x == strandLane a && x.home != a.home && x.home != b.home).map
    fun x => x.width * x.depth * 4).foldl (· + ·) 0

/-- R117: whether depth c passes from the giver to the grower. -/
def graftOk (s : State) (grow give : Strand) (c : Nat) : Bool :=
  grow.resident && give.resident && strandLane grow == strandLane give && decide (c ≤ give.depth)
    && decide (grow.width * (grow.depth + c) * 4 + give.width * (give.depth - c) * 4 + otherBytes s grow give ≤ 22528)
    && give.threads.all (fun th => decide (th.height - th.floor ≤ give.depth - c))
    && decide ((strandRecord s give).frame ≤ give.depth - c)

/-- Strands of a grove at its start. -/
def groveStrands (s : State) (st : Strand) : Nat := ((getGrove s st.grove).map (·.count)).getD 0

/-- A waiting strand's graft completes with a predicate value. -/
def endGraft (s : State) (w : Strand) (g : GraftWait) (ok : Bool) : State :=
  completeWait s (predAll w g.pd ok) g.pc

/-- R118: the two grafts name each other but do not fit. -/
def graftMismatch (a b : Int) : Bool := decide (0 < a) == decide (0 < b) || a.natAbs != b.natAbs

/-- A strand after a graft that succeeds has given it n registers, or taken them (R117). The giver's slots above its new depth
that no frame covers are gone, and what either grows into is undefined until it is written. -/
def grafted (x : Strand) (up : Bool) (n : Nat) : Strand :=
  if up then { x with depth := x.depth + n }
  else
    let d := x.depth - n
    { x with
      depth := d, blank := min x.blank d
      vregs := x.vregs.filter fun e =>
        let th := getThread x (e.1 % 64)
        decide (e.1 / 64 < th.height) || decide (e.1 / 64 < th.floor + d) }

/-- graft at its issue, for the lead thread's operands. -/
def graftStep (pd : Fin 16) (ra rb : Reg) (i : Issue) (s : State) (st : Strand) (t : Nat) : StepOut :=
  let j := (readReg s.free st t ra).toNat
  let c := (readReg s.free st t rb).toInt
  if c = 0 ∨ c % 8 ≠ 0 ∨ j = st.sidx ∨ groveStrands s st ≤ j then .preFault s st (9, 1) 0 0
  else match s.strands.find? fun x => x.grove == st.grove && x.sidx == j && !x.threads.all (·.exited) with
    | none => .ok s (predAll st pd false) none none
    | some w =>
      match w.status with
      | .waitGraft g =>
        if g.partner ≠ st.home then
          .wait { s with nextId := s.nextId + 1 } st (.waitGraft { pc := i.pc, partner := w.home, count := c, pd := pd, arrival := s.nextId })
        else if graftMismatch c g.count then
          let s := takeException s w { cls := 9, cause := 2, pc := g.pc, pre := true }
          .preFault s st (9, 2) 0 0
        else
          let n := c.natAbs
          let ok := if 0 < c then graftOk s st w n else graftOk s w st n
          let d (x : Strand) (up : Bool) : Strand := if ok then grafted x up n else x
          let s := if ok then useStore s (strandStore st) else s
          .ok (endGraft s (d w (decide (c < 0))) g ok) (predAll (d st (decide (0 < c))) pd ok) none none
      | _ =>
        .wait { s with nextId := s.nextId + 1 } st (.waitGraft { pc := i.pc, partner := w.home, count := c, pd := pd, arrival := s.nextId })

/-- graft (R239). -/
def execGraft (h : Hd) (pd : Fin 16) (ra rb : Reg) (s : State) : Host.Outcome State Fault Refusal :=
  onceUniform s h (fun _ => []) [ra, rb] (fun _ => 1) (graftStep pd ra rb)

/-- R119: the strand is blocked: in a graft, or in a barrier that lacks a strand of its own grove. -/
def blocked (mates : List Strand) (st : Strand) : Bool :=
  match st.status with
  | .waitGraft _ => true
  | .waitBar b => mates.any fun x => (arrivedAt b.level x).isNone
  | _ => false

/-- The oldest graft that grows, ties to the lower `sidx`. -/
def oldestGrow : List Strand → Option (Strand × GraftWait)
  | [] => none
  | x :: r =>
    match x.status, oldestGrow r with
    | .waitGraft g, none => if 0 < g.count then some (x, g) else none
    | .waitGraft g, some (y, k) =>
      if 0 < g.count ∧ (g.arrival < k.arrival ∨ (g.arrival = k.arrival ∧ x.sidx < y.sidx)) then some (x, g) else some (y, k)
    | _, o => o

/-- graftDeadlockBreak (R119). A strand whose threads have exited has not ended while work of it is outstanding (R192). -/
def execGraftDeadlockBreak (grove : Nat) (s : State) : Host.Outcome State Fault Refusal :=
  let mates := s.strands.filter fun x => x.grove == grove
  if (mates.filter (·.resident)).all (blocked mates) then
    match oldestGrow mates with
    | some (x, g) => .next (endGraft s x g false)
    | none => .next s
  else .next s

end Sys2Proof.Machine
end

