-- ==== Sys2Proof/Machine/Segments.lean ====
section
/-! DEFINITION. Named segments: storage, loading, eviction, and attach, detach and segfree (R90 to R105, R240 to
R243). -/

namespace Sys2Proof.Machine

def setSegment (s : State) (g : Segment) : State :=
  { s with segments := s.segments.map fun x => if x.uid = g.uid then g else x }

def getSegment (s : State) (uid : Nat) : Option Segment := s.segments.find? (·.uid == uid)

/-! ### Storage (R83, R92, R94) -/

/-- The private allocations of a core that hold bytes, as (base, bytes). -/
def privateRanges (s : State) (core : Nat) : List (Nat × Nat) :=
  (s.groves.filter fun g => g.core == core && g.size != 0).map fun g => (g.base, g.size)

/-- The physical ranges in use on a core: private allocations and stored segments, as (base, bytes). -/
def usedRanges (s : State) (core : Nat) : List (Nat × Nat) :=
  privateRanges s core ++
    (s.segments.filter fun x => x.stored && x.core == core).map fun x => (x.pbase, x.size * 1024)

/-- R83: every bank group that a range touches is bound to the world. -/
def rangeOwned (s : State) (core w a n : Nat) : Bool :=
  (List.range 4).all fun k => !overlaps a n (k * 0x40000) 0x40000 || mapGet s.groupWorld (4 * core + k) == some w

/-- A list turned by a free choice. -/
def rotate {α : Type} (k : Nat) (l : List α) : List α := l.drop (k % l.length) ++ l.take (k % l.length)

/-- A 1 KiB-aligned free extent of n bytes in the world's bank groups, beside some ranges in use: which one is free
(log 4). A grove of no private bytes needs none. -/
def freeExtent (s : State) (core w n : Nat) (used : List (Nat × Nat)) : Option Nat :=
  if n = 0 then some 0 else
  ((rotate (Config.freeChoice s.free 35) (List.range 1024)).find? fun k =>
    decide (k * 1024 + n ≤ 0x100000) && rangeOwned s core w (k * 1024) n
      && used.all fun (b, m) => !overlaps (k * 1024) n b m).map (· * 1024)

/-- Segments with storage on a core (R94). -/
def storedOn (s : State) (core : Nat) : List Segment := s.segments.filter fun x => x.stored && x.core == core

/-- R92: pinned storage of the world on the core stays within its quota (KiB) with one more segment. -/
def quotaOk (s : State) (core : Nat) (x : Segment) : Bool :=
  x.life != .pinned ||
    decide (((storedOn s core).filter fun y => y.world == x.world && y.life == .pinned).foldl (fun n y => n + y.size) 0 + x.size
      ≤ (getWorld s x.world).quota)

/-- Whether storage for a segment can be made on a core once some stored segments are gone, and where. -/
def roomWithout (s : State) (core : Nat) (x : Segment) (gone : List Nat) : Option Nat :=
  let keep := (storedOn s core).filter fun y => !gone.contains y.uid
  if 64 ≤ keep.length ∨ quotaOk s core x = false then none
  else freeExtent s core x.world (x.size * 1024)
    (privateRanges s core ++ keep.map fun y => (y.pbase, y.size * 1024))

/-- R104: segments of a core that may be evicted, in ascending order of dtime: of worlds whose memory the device may write
(R393, R394). -/
def evictable (s : State) (core : Nat) (listed : List Nat) : List Segment :=
  ((storedOn s core).filter fun y => y.life == .kept && y.backing != 0 && y.attaches == 0 && y.state == .resident
    && !y.freed && mayDma s y.world && !listed.contains y.uid).foldl (fun acc y => insertBy y acc) []
where
  /-- Insertion by dtime. -/
  insertBy (x : Segment) : List Segment → List Segment
    | [] => [x]
    | y :: r => if x.dtime < y.dtime then x :: y :: r else y :: insertBy x r

/-- The shortest prefix of the evictable segments whose removal makes a predicate true. -/
def evictPrefix (p : List Nat → Bool) : List Nat → List Nat → Option (List Nat)
  | taken, [] => if p taken then some taken else none
  | taken, u :: r => if p taken then some taken else evictPrefix p (taken ++ [u]) r

/-! ### Load and eviction (R103) -/

/-- The scratch line that holds line l of a segment's backing: the swizzle moves whole lines, and bytes within one
(R86, R103). -/
def storageLine (x : Segment) (l : Nat) : Nat := x.core * 8192 + x.pbase / 128 + swz (128 * l) x.swizzle / 128

/-- The scratch lines of a segment's storage. -/
def segmentLines (x : Segment) : List Nat := (List.range (x.size * 8)).map fun l => x.core * 8192 + x.pbase / 128 + l

/-- The instance that a load or an eviction is to the engine. -/
def segmentInst (s : State) (x : Segment) (evict : Bool) : State :=
  { s with
    insts := s.insts ++ [{ id := s.nextId, core := x.core, ch := 4, world := x.world, seq := 0, grove := 0
                           card := { off := 0, bytes := [] }, segment := some (x.uid, evict) }]
    nextId := s.nextId + 1 }

def findSegmentInst (s : State) (uid : Nat) : Option Inst :=
  s.insts.find? fun i => match i.segment with
    | some (u, _) => u == uid
    | none => false

/-- R103: a load begins: the presence bits of the segment's lines clear. -/
def beginLoad (s : State) (x : Segment) : State :=
  let s := (segmentLines x).foldl addWriter s
  segmentInst (setSegment s { x with state := .loading, pending := List.range (x.size * 8) }) x false

/-- R104: an eviction begins. -/
def beginEviction (s : State) (uid : Nat) : State :=
  match getSegment s uid with
  | none => s
  | some x => segmentInst (setSegment s { x with state := .evicting }) x true

/-- Ends a load or eviction in the engine: the lines that have not landed have no writer any more. -/
def endSegmentInst (s : State) (x : Segment) : State :=
  let s := x.pending.foldl (fun s l => dropWriter s (storageLine x l)) s
  let s := match findSegmentInst s x.uid with
    | some i => dropInst s i.id
    | none => s
  setSegment s { x with pending := [] }

/-- Storage is freed (R91, R102, R103). -/
def freeStorage (s : State) (x : Segment) (state : SegState) : State :=
  let s := endSegmentInst s x
  setSegment s { x with stored := false, pending := [], state := state }

/-- Storage is freed and the entry removed (R102). -/
def removeSegment (s : State) (x : Segment) : State :=
  let s := freeStorage s x x.state
  { s with segments := s.segments.filter (·.uid != x.uid) }

/-- Storage that is not loaded holds undefined bytes until they are written (R103, R338; log 20). -/
def scrambleStorage (s : State) (core base n : Nat) : State :=
  setScratch s core (memWrite (scratchMem s core) base ((List.range n).map fun k => Config.freeByte s.free (base + k)))

/-- R94: the lowest free entry of a core's segment table. -/
def freeEntry (s : State) (core : Nat) : Nat :=
  ((List.range 64).find? fun k => !(storedOn s core).any (·.entry == k)).getD 0

/-- Makes storage at a place (R96, R98): resident, or about to be loaded. -/
def makeStorage (s : State) (x : Segment) (core base : Nat) (load : Bool) : State :=
  let x := { x with stored := true, core := core, pbase := base, state := .resident, entry := freeEntry s core }
  if load then beginLoad s x else setSegment (scrambleStorage s core base (x.size * 1024)) x

/-- R327: the record of a segment load or eviction that fails. -/
def segmentRecord (x : Segment) (evict : Bool) (c : Cause) (addr : Nat) : List DWord :=
  [x.name, BitVec.ofNat 64 (x.core * 2 ^ 57 + x.vbase * 1024 * 2 ^ 35 + (if evict then 2 ^ 33 else 0) + 2 ^ 32),
    BitVec.ofNat 64 addr, recordWord3 1 0x10 fTranslate (translateCode c * 256) x.world 0 0 0]

/-- R103: a load or an eviction fails: storage that no grove holds is freed. -/
def failSegment (s : State) (x : Segment) (evict : Bool) (c : Cause) (addr : Nat) : State :=
  let s := oweRecord s x.world (segmentRecord x evict c addr)
  if x.attaches = 0 then (if x.freed then removeSegment s x else freeStorage s x .damaged)
  else
    -- bytes of lines that have not landed are undefined
    let s := x.pending.foldl (fun s l => scrambleStorage s x.core (128 * (storageLine x l % 8192)) 128) s
    let s := endSegmentInst s x
    setSegment s { x with state := .damaged, pending := [] }

/-- A loaded line is written to the storage under its swizzle (R86, R87). -/
def writeSegmentLine (s : State) (x : Segment) (l : Nat) (bs : List Byte) (poison : Nat → Bool) : State :=
  (bs.zip (List.range bs.length)).foldl (fun s (b, k) =>
    scratchWrite s x.core x.world (x.pbase + swz (128 * l + k) x.swizzle) [b] (poison k)) s

/-- R393, R396: a load or an eviction of the world waits: in ERROR it makes no access, and one that was to reach host memory
fails. -/
def segmentHeld (s : State) (world : Nat) (o : Trans) : Bool :=
  !mayDma s world && !((getWorld s world).tstate == .error && o == .bad causeTag)

/-- segmentLineLand: a line of a loading segment lands (R103). -/
def execSegmentLineLand (world : Nat) (name : DWord) (line : Nat) (s : State) : Host.Outcome State Fault Refusal :=
  match s.segments.find? fun x => x.world == world && x.name == name && x.state == .loading && x.pending.contains line with
  | none => .next s
  | some x =>
    match findSegmentInst s x.uid with
    | none => .next s
    | some i =>
      let va := x.backing.toNat + 128 * line
      if !mayStart s i s.insts || segmentHeld s world (translateEngine s x.core world va needRead).1 then .next s
      else
        match translateEngine s x.core world va needRead with
        | (.bad c, s) => .next (failSegment s x false c va)
        | (.miss, s) => .next (failSegment s x false causeNotMapped va)
        | (.ats p, s) => .next (requestAts s world p)
        | (.ok pa _, s) =>
          let s := markStarted (sliceFlush s (x.core / 8) (pa / 128)) i.id
          let bs := ctlRead s world pa 128
          let bad (k : Nat) : Bool := ctlPoisoned s world (pa + k) 1
          let s := chargeBytes (writeSegmentLine (ctlNote s world pa 128) x line bs bad) world x.owner
          let left := x.pending.filter (· != line)
          let s := dropWriter s (storageLine x line)
          if left = [] then .next (dropInst (setSegment s { x with pending := [], state := .resident }) i.id)
          else .next (setSegment s { x with pending := left })

/-- A line of a segment's storage in offset order, each byte with its poison, as the bank groups serve it (R83, R87). -/
def readSegmentLine (s : State) (x : Segment) (l : Nat) : List (Byte × Bool) × State :=
  (List.range 128).foldl (fun (acc : List (Byte × Bool) × State) (k : Nat) =>
    let (b, bad, s) := scratchRead acc.2 x.core x.world (x.pbase + swz (128 * l + k) x.swizzle) 1
    (acc.1 ++ [(b.headD 0, bad)], s)) ([], s)

/-- Writes the lines of an evicted segment at memory, or the first failure. -/
def evictLines (x : Segment) : Nat → Nat → State → Except (Cause × Nat × State) State
  | 0, _, s => .ok s
  | n + 1, l, s =>
    let va := x.backing.toNat + 128 * l
    match translateEngine s x.core x.world va needWrite with
    | (.bad c, s) => .error (c, va, s)
    | (.miss, s) => .error (causeNotMapped, va, s)
    | (.ats p, s) => .error (causeAts p, va, s)
    | (.ok pa _, s) =>
      let (bs, s) := readSegmentLine (sliceFlush s (x.core / 8) (pa / 128)) x l
      let bad : BitVec 128 := BitVec.ofNat 128 ((bs.zip (List.range 128)).foldl (fun n (b : (Byte × Bool) × Nat) =>
        if b.1.2 then n + 2 ^ b.2 else n) 0)
      evictLines x n (l + 1)
        (chargeBytes (ctlWriteMasked s x.world (pa / 128) (BitVec.allOnes 128) (bs.map (·.1)) bad) x.world x.owner)

/-- segmentEvictionComplete: the contents are written back and the storage is freed (R103, R104). -/
def execSegmentEvictionComplete (world : Nat) (name : DWord) (s : State) : Host.Outcome State Fault Refusal :=
  match s.segments.find? fun x => x.world == world && x.name == name && x.state == .evicting with
  | none => .next s
  | some x =>
    match findSegmentInst s x.uid with
    | none => .next s
    | some i =>
      if !mayStart s i s.insts || segmentHeld s world (translateEngine s x.core world x.backing.toNat needWrite).1 then .next s
      else match evictLines x (x.size * 8) 0 s with
        | .ok s => .next (if x.freed then removeSegment s x else freeStorage s x .evicted)
        | .error (c, va, s) =>
          if c.1 = 0xff then .next (requestAts s world c.2)
          else .next (failSegment s x true c va)

/-! ### What the system world reads (R93, R94) -/

def lifeCode : Life → Nat
  | .kernel => 0
  | .kept => 1
  | .pinned => 2

def segStateCode : SegState → Nat
  | .defined => 0
  | .loading => 1
  | .resident => 2
  | .evicting => 3
  | .evicted => 4
  | .damaged => 5

/-- R93: the four words of a directory entry. -/
def directoryEntry (x : Segment) : List DWord :=
  [x.name, x.backing,
    BitVec.ofNat 64 (x.world * 2 ^ 58 + x.owner * 2 ^ 50 + lifeCode x.life * 2 ^ 48 + segStateCode x.state * 2 ^ 45
      + x.core * 2 ^ 38 + x.swizzle * 2 ^ 35 + x.size * 2 ^ 21 + x.vbase * 2 ^ 11),
    BitVec.ofNat 64 x.dtime]

/-- The system world reads a word of the directory entry of a name that its world knows (R93, R102). -/
def readDirectory (s : State) (world : Nat) (name : DWord) (word : Nat) : DWord :=
  match findSegment s world name with
  | some x => (directoryEntry x).getD word 0
  | none => 0

/-- R94: the state code of a table entry. Storage of a DAMAGED segment that groves still hold counts as resident: the
table has no code for it (log 20). -/
def tableStateCode : SegState → Nat
  | .loading => 1
  | .evicting => 3
  | _ => 2

/-- R94: the two words of a core's table entry for a segment with storage there. -/
def tableEntry (x : Segment) : List DWord :=
  [x.name,
    BitVec.ofNat 64 (x.world * 2 ^ 58 + lifeCode x.life * 2 ^ 56 + x.swizzle * 2 ^ 53 + tableStateCode x.state * 2 ^ 51
      + x.size * 2 ^ 40 + x.pbase / 1024 * 2 ^ 30 + x.attaches * 2 ^ 20)]

/-- The system world reads a word of entry k of a core's segment table: a free entry reads 0 (R94). -/
def readSegmentTable (s : State) (core k word : Nat) : DWord :=
  match (storedOn s core).find? (·.entry == k) with
  | some x => (tableEntry x).getD word 0
  | none => 0

/-! ### Attaching (R98 to R101) -/

/-- The window of a segment overlaps the private range or another attached window of a grove. -/
def windowOverlap (s : State) (g : Grove) (x : Segment) : Bool :=
  overlaps (x.vbase * 1024) (x.size * 1024) 0 g.size || g.attached.any fun a =>
    match attachedSegment s a with
    | some y => overlaps (x.vbase * 1024) (x.size * 1024) (y.vbase * 1024) (y.size * 1024)
    | none => false

/-- The count rises and the window is mapped. -/
def attachTo (s : State) (g : Grove) (uid : Nat) (name : DWord) (m : AttachMode) : State :=
  let s := setGrove s { g with attached := g.attached ++ [{ uid := uid, name := name, mode := m }] }
  match getSegment s uid with
  | some x => setSegment s { x with attaches := x.attaches + 1 }
  | none => s

/-- R241: a new mode on a segment already held. -/
def widens (held new : AttachMode) : Bool := held == .read && new != .read

/-- R100: the faults of attach, in the order of R98. -/
def attachFault (s : State) (g : Grove) (x : Option Segment) (m : AttachMode) : Option Cause :=
  match x with
  | none => some (8, 1)
  | some x =>
    if x.state = .defined ∧ m ≠ .create then some (8, 2)
    else if x.state = .damaged ∧ m ≠ .create then some (8, 3)
    else if !admits x g.owner then some (8, 4)
    else if g.attached.any (·.uid == x.uid) then none
    else if windowOverlap s g x then some (8, 5)
    else if 8 ≤ g.attached.length then some (8, 6)
    else none

/-- What attach does past its faults. -/
inductive AttachOut
  | done (s : State) (ok : Bool)
  | wait (s : State)

/-- R98: storage here for a segment that has none, evicting under R104 where it must. An attach that waited for the
segment's own eviction acts as write whatever its mode, and loads (R98, R105). -/
def attachFresh (s : State) (g : Grove) (x : Segment) (m : AttachMode) (waited : Bool) : AttachOut :=
  let core := g.core
  let leaving := ((storedOn s core).filter (·.state == .evicting)).map (·.uid)
  match roomWithout s core x [] with
  | some base =>
    .done (attachTo (makeStorage s x core base (m != .create || waited && x.state == .evicted)) g x.uid x.name m) true
  | none =>
    if (roomWithout s core x leaving).isSome then .wait s
    else match evictPrefix (fun t => (roomWithout s core x (leaving ++ t)).isSome) []
        ((evictable s core [x.uid]).map (·.uid)) with
      | some us => .wait (us.foldl beginEviction s)
      | none => .done s false

def attachActs (s : State) (g : Grove) (x : Segment) (m : AttachMode) (waited : Bool) : AttachOut :=
  match g.attached.find? (·.uid == x.uid) with
  | some a =>
    if widens a.mode m then .done s false
    else if x.state = .damaged then .done (setSegment s { x with state := .resident }) true
    else .done s true
  | none =>
    if x.stored then
      if x.core ≠ g.core then .done s false
      else if x.state = .evicting then .wait s
      else
        let s := if x.state = .damaged then setSegment s { x with state := .resident } else s
        .done (attachTo s g x.uid x.name m) true
    else attachFresh s g x m waited

def attachStep (m : AttachMode) (pd : Fin 16) (ra : Reg) (i : Issue) (s : State) (st : Strand) (t : Nat) : StepOut :=
  let name := readPair s.free st t ra
  match getGrove s st.grove with
  | none => .ok s st none none
  | some g =>
    let x := findSegment s st.world name
    match attachFault s g x m, x with
    | some c, _ => .preFault s { st with evictionOf := none } c 0 0
    | none, none => .ok s st none none
    | none, some x =>
      match attachActs s g x m (st.evictionOf == some x.uid) with
      | .wait s => .parkPre s { st with evictionOf := if x.state = .evicting then some x.uid else st.evictionOf } (.eviction name)
      | .done s ok => .ok s (i.present.foldl (fun st t => setPred st t pd ok) { st with evictionOf := none }) none none

/-- attach (R240, R241). -/
def execAttach (h : Hd) (m : AttachMode) (pd : Fin 16) (ra : Reg) (s : State) : Host.Outcome State Fault Refusal :=
  onceUniform s h (fun _ => []) (spanRegs true ra) (fun _ => 1) (attachStep m pd ra)

/-! ### Detaching (R91, R101, R102, R242) -/

/-- A grove stops holding a segment: at count 0 a kernel segment's storage is freed, and so is that of a segment freed or
damaged meanwhile. -/
def dropAttach (s : State) (uid : Nat) : State :=
  match getSegment s uid with
  | none => s
  | some x =>
    let x := { x with attaches := x.attaches - 1 }
    if x.attaches ≠ 0 then setSegment s x
    else
      let x := { x with dtime := s.time % 2 ^ 64 }
      let s := setSegment s x
      if x.freed then removeSegment s x
      else if x.state = .damaged then freeStorage s x .damaged
      else if x.life = .kernel then freeStorage s x .defined
      else s

/-- A scratch request of a grove into a range of its core. -/
def accessIn (s : State) (g : Grove) (base n : Nat) (a : Access) : Bool :=
  a.core == g.core && (match a.place with
    | .scratch p => decide (base ≤ p) && decide (p < base + n)
    | _ => false) && s.strands.any fun st => st.home == a.strand && st.grove == g.id

/-- R242: what other strands of the grove have under way in the window: a load or atomic is performed, a store is
performed or lost (log 4). -/
def settleWindow (s : State) (g : Grove) (x : Segment) : State :=
  (s.pend.filter (accessIn s g x.pbase (x.size * 1024))).foldl (fun s a =>
    match a.op with
    | .store _ =>
      if Config.freeChoice s.free (64 + a.id) % 2 = 0 then performAccess s a
      else
        let s := { s with pend := s.pend.filter (·.id != a.id) }
        match getStrand s a.strand with
        | some st => setStrand s (countPerformed st a.tag)
        | none => s
    | _ => performAccess s a) s

/-- R242: a chain of the grove whose walk met a region in the window. -/
def chainTouches (g : Grove) (x : Segment) (c : Chain) : Bool :=
  c.grove == g.id && c.cards.any fun k => (cardRegions k).any fun (_, sp, b, n) =>
    sp == 2 && overlaps b n (x.vbase * 1024) (x.size * 1024)

def detachGrove (s : State) (g : Grove) (x : Segment) : State :=
  let s := settleWindow s g x
  dropAttach (setGrove s { g with attached := g.attached.filter (·.uid != x.uid) }) x.uid

/-- The segment of a name that a grove holds. -/
def heldSegment (s : State) (g : Grove) (name : DWord) : Option Segment :=
  (g.attached.find? (·.name == name)).bind fun a => attachedSegment s a

def detachStep (ra : Reg) (_ : Issue) (s : State) (st : Strand) (t : Nat) : StepOut :=
  let name := readPair s.free st t ra
  match getGrove s st.grove with
  | none => .ok s st none none
  | some g =>
    match heldSegment s g name with
    | none => .preFault s st (8, 7) 0 0
    | some x =>
      if outstanding st 1 ≠ 0 || s.chains.any (chainTouches g x) then .parkPre s st (.detach name)
      else
        -- requests of the issuing strand itself may be among those settled
        let s := detachGrove (setStrand s st) g x
        .ok s ((getStrand s st.home).getD st) none none

/-- detach (R242). -/
def execDetach (h : Hd) (ra : Reg) (s : State) : Host.Outcome State Fault Refusal :=
  onceUniform s h (fun _ => []) (spanRegs true ra) (fun _ => 1) (detachStep ra)

/-- R102: the name becomes unknown; storage without attaches is freed. -/
def freeSegment (s : State) (x : Segment) : State :=
  if x.attaches = 0 then removeSegment s x else setSegment s { x with freed := true }

def segfreeStep (pd : Fin 16) (ra : Reg) (i : Issue) (s : State) (st : Strand) (t : Nat) : StepOut :=
  let x := findSegment s st.world (readPair s.free st t ra)
  let s := match x with
    | some x => freeSegment s x
    | none => s
  .ok s (i.present.foldl (fun st t => setPred st t pd x.isSome) st) none none

/-- segfree (R243). -/
def execSegfree (h : Hd) (pd : Fin 16) (ra : Reg) (s : State) : Host.Outcome State Fault Refusal :=
  onceUniform s h (fun _ => []) (spanRegs true ra) (fun _ => 1) (segfreeStep pd ra)

end Sys2Proof.Machine
end

