-- ==== Sys2Proof/Machine/Convert.lean ====
section
/-! DEFINITION. Conversion, pack and unpack (R203 to R210). -/

namespace Sys2Proof.Machine

/-! ### The sides of a conversion -/

/-- The slot that governs a side: an unscaled format (R203), or a format slot (R204). -/
def sideOf (lr : LaunchRec) : FmtSel → Option Slot
  | .fmt f => some { fmt := f }
  | .slot i => slotOf lr i

/-- R203: elements converted by a thread-step. -/
def cvtCount (dst src : Fmt) : Nat := max (perReg src) (perReg dst)

/-- FORMAT_SLOT of an invalid side (R146). -/
def sideFault (lr : LaunchRec) : FmtSel → Option PreFault
  | .fmt _ => none
  | .slot i => if (slotOf lr i).isNone then some (formatSlot 1 i) else none

/-- R204, R169: the conditions that a valid slot's content decides, in the order of R169's details. -/
def cvtFaults (lr : LaunchRec) (dst src : FmtSel) (rd ra rb rc : Reg) : List (Option PreFault) :=
  match sideOf lr dst, sideOf lr src with
  | some d, some s =>
    let n := cvtCount d.fmt s.fmt
    [ if (s.ssrc ≠ 1 && rb.code != 0) || (d.ssrc ≠ 1 && rc.code != 0) then some (illegalOp 3) else none,
      if !groupOk (n / perReg s.fmt) ra || !groupOk (n / perReg d.fmt) rd
          || (d.ssrc == 1 && !(rd.isThread && rc.isThread)) then some (illegalOp 5) else none ]
  | _, _ => []

/-- The registers that a thread-step reads. -/
def cvtSources (lr : LaunchRec) (dst src : FmtSel) (ra rb : Reg) : List Reg :=
  match sideOf lr dst, sideOf lr src with
  | some d, some s =>
    ((List.range (cvtCount d.fmt s.fmt / perReg s.fmt)).map (groupReg ra)) ++ (if s.ssrc = 1 then [rb] else [])
  | _, _ => []

/-! ### Elements (R206) -/

/-- The decoded elements of a run of registers, O4 by bytes (R139). -/
def cvtElements (f : Fmt) (fmode : Word) (ws : List Word) (n : Nat) : List FVal :=
  (List.range n).map fun j =>
    if f = .o4 then
      let b := decodeO4 (elementCode f ws (j / 2 * 2) + 16 * elementCode f ws (j / 2 * 2 + 1))
      if j % 2 = 0 then b.1 else b.2
    else decodeFmt f fmode (elementCode f ws j)

/-- R206 up to v: the scaled values and the flags of reading them. -/
def cvtRead (src : Slot) (scale : Nat) (fmode : Word) (ws : List Word) (n : Nat) : List FVal × Flags :=
  let e := if src.ssrc = 1 then some scale else if src.ssrc = 2 then some src.cscale else none
  let xs := cvtElements src.fmt fmode ws n
  let nv := xs.any isSignalling || e == some 255
  (xs.map fun x => applyScale x e src.ten, flagIf nv flagNv)

/-- Pairs of a list into O4 bytes (R140). -/
def o4Bytes (mode : Nat) : List FVal → List Nat × Flags
  | a :: b :: r =>
    let (c, f) := encodeO4 mode a b
    let (cs, g) := o4Bytes mode r
    (c % 16 :: c / 16 :: cs, f ||| g)
  | _ => ([], 0)

/-- R206 from q: values divided by the destination's scales and rounded into its format. -/
def cvtEncode (dst : Slot) (e : Option Nat) (mode : Nat) (fmode : Word) (vs : List FVal) : List Nat × Flags :=
  let qs := vs.map fun v => divideScale v e dst.ten
  if dst.fmt = .o4 then o4Bytes mode qs
  else
    let rs := qs.map (encodeFmt dst.fmt mode fmode)
    (rs.map (·.1), (rs.map (·.2)).foldl (· ||| ·) 0)

/-! ### The conversions -/

/-- A thread-step of a conversion that computes no scale (R206). -/
def cvtStep (lr : LaunchRec) (dst src : FmtSel) (rm : Rm) (rd ra rb : Reg) (free : Nat) (st : Strand) (t : Nat) : Strand :=
  match sideOf lr dst, sideOf lr src with
  | some d, some s =>
    let n := cvtCount d.fmt s.fmt
    let ws := readGroup free st t ra (n / perReg s.fmt)
    let (vs, f) := cvtRead s (fld (readReg free st t rb).toNat 0 8) st.fmode ws n
    let (cs, g) := cvtEncode d (if d.ssrc = 2 then some d.cscale else none) (modeOf rm st.fmode) st.fmode vs
    raiseFlags (writeGroup st t rd (packCodes d.fmt cs)) (f ||| g)
  | _, _ => st

/-- R205: the scale code of the block that thread t belongs to, from the sources as they stand. -/
def blockCode (d s : Slot) (ra rb : Reg) (free : Nat) (st : Strand) (t : Nat) : Nat :=
  let n := cvtCount d.fmt s.fmt
  let per := 32 / n
  let ts := (List.range per).map fun i => t / per * per + i
  blockScale d.fmt (ts.flatMap fun t =>
    (cvtRead s (fld (readReg free st t rb).toNat 0 8) st.fmode (readGroup free st t ra (n / perReg s.fmt)) n).1)

/-- R205: both passes; every thread's sources are read before any destination is written by its own step, and the
codes are formed in the first pass. -/
def cvtBlocks (lr : LaunchRec) (dst src : FmtSel) (rm : Rm) (rd ra rb rc : Reg) (free : Nat) (st : Strand) : Strand :=
  match sideOf lr dst, sideOf lr src with
  | some d, some s =>
    let n := cvtCount d.fmt s.fmt
    let codes := (List.range st.width).map (blockCode d s ra rb free st)
    (List.range st.width).foldl (fun out t =>
      let ws := readGroup free st t ra (n / perReg s.fmt)
      let (vs, f) := cvtRead s (fld (readReg free st t rb).toNat 0 8) st.fmode ws n
      let e := codes.getD t 0
      let (cs, g) := cvtEncode d (some e) (modeOf rm st.fmode) st.fmode vs
      writeReg (raiseFlags (writeGroup out t rd (packCodes d.fmt cs)) (f ||| g)) t rc (BitVec.ofNat 32 e)) st
  | _, _ => st

/-- The checks before any thread-step (R132, R204). -/
def cvtPre (dst src : FmtSel) (rd ra rb rc : Reg) (i : Issue) : List (Option PreFault) :=
  [sideFault i.lr dst, sideFault i.lr src] ++ cvtFaults i.lr dst src rd ra rb rc

/-- The source registers for a strand's slots, as poison sees them. -/
def issuerRecord (s : State) : LaunchRec := ((getStrand s s.issuer).map (strandRecord s)).getD {}

/-- cvt (R203, R204, R206). -/
def execCvt (h : Hd) (dst src : FmtSel) (rm : Rm) (rd ra rb rc : Reg) (s : State) : Host.Outcome State Fault Refusal :=
  byDest s h rd (cvtPre dst src rd ra rb rc) (cvtSources (issuerRecord s) dst src ra rb)
    (fun i => plainStep (cvtStep i.lr dst src rm rd ra rb) i)

/-- R205: a poisoned source of any thread faults at that thread's step. -/
def poisonedThread (st : Strand) (srcs : List Reg) : Option Nat :=
  (List.range st.width).find? fun t => readsPoison st t srcs

/-- cvt whose destination slot has a scale array (R205): strand-wide, in two passes of a full issue each. -/
def execCvtScaleComputing (h : Hd) (slot : Fin 8) (src : FmtSel) (rm : Rm) (rd ra rb rc : Reg) (s : State) :
    Host.Outcome State Fault Refusal :=
  let srcs := cvtSources (issuerRecord s) (.slot slot) src ra rb
  onceUniform s h
    (fun i => cvtPre (.slot slot) src rd ra rb rc i ++
      [if i.active.length ≠ i.st.width then some illegalConvergence else none])
    [] (fun i => 2 * i.st.width)
    (fun i s st _ => match poisonedThread st srcs with
      | some _ => .fault s st (0x0f, 1) 0 0
      | none => .ok s (cvtBlocks i.lr (.slot slot) src rm rd ra rb rc s.free st) none none)

/-! ### Pack and unpack -/

/-- R206 with unscaled formats, one element. -/
def cvtOne (dst src : Fmt) (mode : Nat) (fmode : Word) (c : Nat) : Nat × Flags :=
  let x := decodeFmt src fmode c
  let (r, fl) := encodeFmt dst mode fmode x
  (r, flagIf (isSignalling x) flagNv ||| fl)

/-- R207. -/
def packWord (var : PackVar) (mode : Nat) (fmode : Word) (a b : Word) : Word × Flags :=
  let two (f : Fmt) : Word × Flags :=
    let (x, g) := cvtOne f .fp32 mode fmode a.toNat
    let (y, k) := cvtOne f .fp32 mode fmode b.toNat
    (BitVec.ofNat 32 (x + 65536 * y), g ||| k)
  match var with
  | .f16 => two .fp16
  | .bf16 => two .bf16
  | .b16 => (BitVec.ofNat 32 (fld a.toNat 0 16 + 65536 * fld b.toNat 0 16), 0)

/-- pack (R207). -/
def execPack (h : Hd) (var : PackVar) (rm : Rm) (rd ra rb : Reg) (s : State) : Host.Outcome State Fault Refusal :=
  byDest s h rd (fun _ => []) [ra, rb] (plainStep fun free st t =>
    let (v, fl) := packWord var (modeOf rm st.fmode) st.fmode (readReg free st t ra) (readReg free st t rb)
    raiseFlags (writeReg st t rd v) fl)

/-- R208: one widened element. -/
def unpackHalf (var : UnpackVar) (fmode : Word) (c : Nat) : Word × Flags :=
  match var with
  | .f16 => let (r, f) := cvtOne .fp32 .fp16 0 fmode c; (BitVec.ofNat 32 r, f)
  | .bf16 => let (r, f) := cvtOne .fp32 .bf16 0 fmode c; (BitVec.ofNat 32 r, f)
  | .u16 => (BitVec.ofNat 32 c, 0)
  | .i16 => ((BitVec.ofNat 16 c).signExtend 32, 0)

/-- unpack (R208). -/
def execUnpack (h : Hd) (var : UnpackVar) (rd ra : Reg) (s : State) : Host.Outcome State Fault Refusal :=
  byDest s h rd (fun _ => []) [ra] (plainStep fun free st t =>
    let a := (readReg free st t ra).toNat
    let (x, f) := unpackHalf var st.fmode (fld a 0 16)
    let (y, g) := unpackHalf var st.fmode (fld a 16 16)
    raiseFlags (writePair st t rd (mk64 x y)) (f ||| g))

/-- pack6 (R209): the sources are read as they stood when the issue began (R122). -/
def execPack6 (h : Hd) (rd ra : Reg) (s : State) : Host.Outcome State Fault Refusal :=
  byDest s h rd (fun _ => []) []
    (fun i s st t =>
      let quad := (List.range 4).map fun m => t / 4 * 4 + m
      if quad.any fun u => !(getThread i.began u).exited && readsPoison i.began u [ra] then .fault s st (0x0f, 1) 0 0
      else
        let part (m : Nat) : Nat :=
          let u := t / 4 * 4 + m
          let w := if (getThread i.began u).exited then Config.freeWord s.free 5 u else readReg s.free i.began u ra
          fld w.toNat 0 6 * 2 ^ (6 * m)
        .ok s (writeReg st t rd (BitVec.ofNat 32 (part 0 + part 1 + part 2 + part 3))) none none)

/-- unpack6 (R210). -/
def execUnpack6 (h : Hd) (rd ra : Reg) (s : State) : Host.Outcome State Fault Refusal :=
  byDest s h rd (fun _ => []) [ra] (plainStep fun free st t =>
    writeReg st t rd (BitVec.ofNat 32 (fld (readReg free st t ra).toNat (6 * (t % 4)) 6)))

end Sys2Proof.Machine
end

