-- ==== Sys2Proof/Machine/Matrix.lean ====
section
/-! DEFINITION. Matrix instructions: their checks and issue, the matrix unit's queue, and what an operation does
(R249 to R270). -/

namespace Sys2Proof.Machine

/-! ### Lines and elements (R254) -/

/-- Bytes of a line of n elements. -/
def lineBytes (f : Fmt) (n : Nat) : Nat := n * fmtWidth f / 8

/-- A slot of an operation, from its record's first word. -/
def mxSlot (w : DWord) : Slot := (parseSlot (w, 0)).getD { fmt := .fp32 }

/-- Multiply-accumulates per cycle of a format (R250). -/
def formatRate : Fmt → Nat
  | .e2m1 | .i4 | .o4 => 1024
  | .e4m3 | .e5m2 | .e3m2 | .e2m3 | .i8 | .u8 => 512
  | _ => 256

def isIntFmt : Fmt → Bool
  | .i32 | .i8 | .u8 | .i4 | .o4 => true
  | _ => false

/-- R251: the accumulation type is I32. -/
def accumulatesInt (a b : Slot) : Bool :=
  isIntFmt a.fmt && isIntFmt b.fmt && a.ssrc == 0 && b.ssrc == 0 && a.ten.isNone && b.ten.isNone

/-- R251: a format that mma takes. -/
def mxFormat : Fmt → Bool
  | .fp32 | .i32 => false
  | _ => true

/-! ### Map and shape records (R253, R256, R261) -/

/-- The fields of a map record from its eight words. -/
def parseMap (ws : List Nat) : OpMap :=
  let w (i : Nat) : Nat := ws.getD i 0
  { kn := fld (w 0) 40 4, bws := fld (w 0) 37 1 == 1, aws := fld (w 0) 36 1 == 1, bt := fld (w 0) 35 1 == 1
    at_ := fld (w 0) 34 1 == 1, bstride := fld (w 0) 16 16, astride := fld (w 0) 0 16
    bscale := fld (w 1) 32 20, ascale := fld (w 1) 0 20, bbits := fld (w 2) 32 20, abits := fld (w 2) 0 20
    kstart := fld (w 3) 32 16, shape := fld (w 3) 0 20
    oext := (List.range 4).map fun i => fld (w 4) (16 * i) 16, ostart := fld (w 5) 0 32 }

/-- Bytes of a line of operand A, and of operand B, and the numbers of lines. -/
def aLine (m : OpMap) (f : Fmt) : Nat := lineBytes f (if m.at_ then 32 else 32 * m.kn)
def bLine (m : OpMap) (f : Fmt) : Nat := lineBytes f (if m.bt then 32 * m.kn else 32)
def aLines (m : OpMap) : Nat := if m.at_ then 32 * m.kn else 32
def bLines (m : OpMap) : Nat := if m.bt then 32 else 32 * m.kn
def aStep (m : OpMap) (f : Fmt) : Nat := if m.astride = 0 then aLine m f else m.astride
def bStep (m : OpMap) (f : Fmt) : Nat := if m.bstride = 0 then bLine m f else m.bstride

/-- R253, R256: reserved fields, fields that the instruction does not use, and its constraints. -/
def mapBad (kind : MxKind) (ws : List Nat) (a b : Slot) : Bool :=
  let w (i : Nat) : Nat := ws.getD i 0
  let m := parseMap ws
  let conv := kind == .mconv
  fld (w 0) 44 20 != 0 || fld (w 0) 38 2 != 0 || fld (w 0) 32 2 != 0
    || fld (w 1) 52 12 != 0 || fld (w 1) 20 12 != 0 || fld (w 2) 52 12 != 0 || fld (w 2) 20 12 != 0
    || fld (w 3) 48 16 != 0 || fld (w 3) 20 12 != 0 || fld (w 5) 32 32 != 0 || w 6 != 0 || w 7 != 0
    || m.kn == 0 || decide (8 < m.kn)
    || (a.ssrc != 1 && m.ascale != 0) || (b.ssrc != 1 && m.bscale != 0)
    || (kind != .mmaSp && w 2 != 0) || (kind == .mmaSp && (m.at_ || !m.bt))
    || (!conv && (w 3 != 0 || w 4 != 0 || w 5 != 0))
    || (conv && (m.at_ || m.aws || m.astride != 0 || m.ascale != 0))
    || (m.astride != 0 && decide (m.astride < aLine m a.fmt)) || (m.bstride != 0 && decide (m.bstride < bLine m b.fmt))

/-- The dimensions of a shape record as mconv reads it: extent, source stride, kernel, padding, dilation, stride. -/
def convDims (bs : List Byte) : List (Nat × Int × Nat × Nat × Nat × Nat) :=
  (List.range (fld (leVal (bs.take 8)) 0 3)).map fun d =>
    let f (o n : Nat) : Nat := leVal ((bs.drop (8 + 24 * d + o)).take n)
    (f 0 4, (BitVec.ofNat 64 (f 8 8)).toInt, f 7 1, f 6 1, f 5 1, f 4 1)

/-- R261: a breach of what mconv asks of the shape record. -/
def shapeBad (bs : List Byte) (m : OpMap) (a : Slot) : Bool :=
  let w0 := leVal (bs.take 8)
  let r := fld w0 0 3
  let dims := convDims bs
  let d0 := dims.getD 0 (0, 0, 0, 0, 0, 0)
  r == 0 || decide (5 < r) || 8 * 2 ^ fld w0 4 2 != fmtWidth a.fmt
    || d0.1 == 0 || d0.1 % 32 != 0 || d0.2.2 != (0, 0, 0, 0)
    || (dims.drop 1).any (fun (_, _, w, _, t, st) => w == 0 || t == 0 || st == 0)
    || (List.range 4).any (fun i => if i + 1 < r then m.oext.getD i 0 == 0 else m.oext.getD i 0 != 0)

/-! ### Checks at issue (R267) -/

/-- What a check gives: pass, a fault (class and cause, detail, address), or a park on a line. -/
inductive Chk
  | pass
  | fault (c : Cause) (detail addr : Nat)
  | park (line : Nat)

def Chk.isPark : Chk → Bool
  | .park _ => true
  | _ => false

def Chk.andThen : Chk → Chk → Chk
  | .pass, c => c
  | c, _ => c

/-- SCRATCH_RANGE, and SEG_READONLY for a destination, of a view range (R267 step 3). -/
def rangeChk (s : State) (g : Grove) (write : Bool) (a n : Nat) : Chk :=
  if viewHolds' s g a n then
    (if write && !viewWrites s g a n then .fault (2, 7) 0 a else .pass)
  else .fault (2, 5) 0 a
where
  viewHolds' (s : State) (g : Grove) (a n : Nat) : Bool :=
    n == 0 || decide (a + n ≤ 0x100000) && (List.range ((a + n - 1) / 128 - a / 128 + 1)).all fun i =>
      (viewMap s g (max a ((a / 128 + i) * 128))).isSome
  viewWrites (s : State) (g : Grove) (a n : Nat) : Bool :=
    n == 0 || (List.range ((a + n - 1) / 128 - a / 128 + 1)).all fun i =>
      match viewMap s g (max a ((a / 128 + i) * 128)) with
      | some (_, d) => !d
      | none => false

/-- The first absent line of a view range, on a core. -/
def absentLine (s : State) (g : Grove) (a n : Nat) : Option Nat :=
  if n = 0 then none
  else (List.range ((a + n - 1) / 128 - a / 128 + 1)).findSome? fun i =>
    match viewMap s g (max a ((a / 128 + i) * 128)) with
    | some (p, _) => if linePresent s g.core p then none else some (p / 128)
    | none => none

/-- R267 step 2 for one record: misalignment, SCRATCH_RANGE, absent lines. -/
def recordChk (s : State) (g : Grove) (a n align : Nat) : Chk :=
  if a % align ≠ 0 then .fault (0x0c, 0) 0 a
  else match rangeChk s g false a n with
    | .pass => (match absentLine s g a n with
      | some l => .park l
      | none => .pass)
    | c => c

/-- R254, R267 step 3: an operand of some lines. Each line of a weight-store operand is one read, which must lie within
one region of the world: whether it may straddle two that adjoin is left open (R31; log 32). -/
def operandChk (s : State) (g : Grove) (die w : Nat) (weight write : Bool) (base stride len lines : Nat) : Chk :=
  if base % 8 ≠ 0 ∨ stride % 8 ≠ 0 then .fault (0x0c, 0) 0 base
  else
    let step := if stride = 0 then len else stride
    let bad := (List.range lines).any fun j =>
      if weight then !weightOk s die w (base + j * step) len
      else match rangeChk s g false (base + j * step) len with
        | .pass => false
        | _ => true
    let denied := write && (List.range lines).any fun j =>
      match rangeChk s g true (base + j * step) len with
      | .pass => false
      | _ => true
    if bad then .fault (if weight then (2, 6) else (2, 5)) 0 base
    else if denied then .fault (2, 7) 0 base
    else .pass

/-- The points of the box of R263, as displacements. -/
def boxPoints : List (Nat × Int × Nat × Nat × Nat × Nat) → List Int
  | [] => [0]
  | (n, st, _) :: r => (boxPoints r).flatMap fun a => (List.range n).map fun (k : Nat) => a + (k : Int) * st

/-- R263: the bytes of the input tensor. -/
def boxChk (s : State) (g : Grove) (base : Nat) (m : OpMap) (bytes : Nat) : Chk :=
  if (boxPoints m.dims).all fun d =>
      decide (0 ≤ (base : Int) + d) && (match rangeChk s g false ((base : Int) + d).toNat bytes with
        | .pass => true
        | _ => false) then .pass
  else .fault (2, 5) 0 base

/-- A byte of scratch as the bank group serves it, from what scratch holds (R83). -/
def servedByte (s : State) (core w : Nat) (m : Mem) (p : Nat) : Byte := if scratchOwned s core w p then memGet m p else 0

/-- A core's scratch once a strand's own stores, as they stand in order, have been performed: what the strand's own reads
find there (R11, R269). -/
def ownScratch (s : State) (st : Strand) : Mem :=
  s.pend.foldl (fun (m : Mem) (a : Access) => match a.place, a.op with
    | .scratch p, .store v => if a.strand = st.home then memWrite m p v else m
    | _, _ => m) (scratchMem s st.core)

/-- Bytes of a record in the grove's view, each with its poison, as an instruction of a strand reads it. -/
def recordBytes (s : State) (st : Strand) (g : Grove) (a n : Nat) : List (Byte × Bool) :=
  let m := ownScratch s st
  (List.range n).map fun k => match viewMap s g (a + k) with
    | some (p, _) => (servedByte s g.core g.world m p, scratchOwned s g.core g.world p && scratchPoisoned s g.core p 1)
    | none => (0, false)

/-- The slots of an instruction and their first words. -/
def slotPair (lr : LaunchRec) (sa sb : Fin 8) : Option (Slot × Slot) :=
  match slotOf lr sa, slotOf lr sb with
  | some a, some b => some (a, b)
  | _, _ => none

/-- The checks before any thread-step (R267 step 1), for the multiplying instructions. -/
def mmaPre (conv : Bool) (tile sa sb : Fin 8) (i : Issue) : List (Option PreFault) :=
  let bad (k : Fin 8) (isA : Bool) : Option PreFault :=
    match slotOf i.lr k with
    | none => some (formatSlot 1 k)
    | some x =>
      if !mxFormat x.fmt || (conv && isA && fmtWidth x.fmt != 8 && fmtWidth x.fmt != 16) then some (formatSlot 1 k) else none
  [if i.st.ntiles ≤ tile.val then some (illegalOp 5) else none, bad sa true, bad sb false,
   if i.active.length ≠ i.st.width then some illegalConvergence else none]

/-- Where a row of the tile lies in the view, for mld and mst (R265). -/
def rowBase (o : MxOp) (f : Fmt) (m : Nat) : Nat := o.a + m * (if o.b = 0 then lineBytes f 32 else o.b)

/-- The view ranges that an operation touches: (offset, bytes). -/
def mxRanges (o : MxOp) : List (Nat × Nat) :=
  let x := mxSlot o.slotA
  let y := mxSlot o.slotB
  let m := o.map
  let lines (base step len n : Nat) : List (Nat × Nat) := (List.range n).map fun j => (base + j * step, len)
  match o.kind with
  | .mz => []
  | .mld | .mst => (List.range 32).map fun r => (rowBase o x.fmt r, lineBytes x.fmt 32)
  | k =>
    (if k = .mconv then (boxPoints m.dims).map fun d => (((o.a : Int) + d).toNat, fmtWidth x.fmt / 8)
     else if m.aws then [] else lines o.a (aStep m x.fmt) (aLine m x.fmt) (aLines m))
    ++ (if m.bws then [] else lines o.b (bStep m y.fmt) (bLine m y.fmt) (bLines m))
    ++ (if x.ssrc = 1 then [(m.ascale, 32 * m.kn)] else []) ++ (if y.ssrc = 1 then [(m.bscale, 32 * m.kn)] else [])
    ++ (if k = .mmaSp then [(m.abits, 128 * m.kn), (m.bbits, 128 * m.kn)] else [])

/-- R334: the first watchpoint that an access of an operation to the view matches: where it stands, its instruction is the one
that makes the access, though the operation runs later (log 25). -/
def watchOp (s : State) (st : Strand) (op : MxOp) : Option (Nat × Nat) :=
  if (getWorld s st.world).fb.wpen = 0 then none
  else (mxRanges op).findSome? fun r => watchMatch s st 1 (op.kind == .mst) (op.kind != .mst) r.1 r.2

/-- R267 step 4 and the issue: the operation is queued and counted. -/
def queueOp (s : State) (st : Strand) (op : MxOp) : StepOut :=
  if 16 ≤ (s.mx.filter fun o => o.core == st.core && o.limb == st.limb && !o.running).length then
    .parkPre s st (.matrixQueue st.core st.limb)
  else if 63 ≤ st.matrix then .parkPre s st (.counterFull 3)
  else
    .ok { s with mx := s.mx ++ [op], nextId := s.nextId + 1 } { st with matrix := st.matrix + 1 } none (watchOp s st op)

def chkStep (s : State) (st : Strand) (k : StepOut) : Chk → StepOut
  | .pass => k
  | .fault c d a => .preFault s st c d (BitVec.ofNat 64 a)
  | .park l => .parkPre s st (.line st.core l)

/-- The operation that an issue queues. -/
def newOp (s : State) (st : Strand) (kind : MxKind) (tile a b : Nat) (m : OpMap) (wa wb : DWord) : MxOp :=
  { id := s.nextId, core := st.core, limb := st.limb, strand := st.home, grove := st.grove, world := st.world, kind := kind
    tile := tile, a := a, b := b, map := m, slotA := wa, slotB := wb, fmode := st.fmode
    after := (st.outs.filter (·.cls == 1)).map (·.tag) }

/-- R267 step 3 for the multiplying instructions. -/
def operandsChk (s : State) (st : Strand) (g : Grove) (kind : MxKind) (a b : Nat) (m : OpMap) (x y : Slot) : Chk :=
  let die := dieOf st.core
  let ca := if kind = .mconv then
      (if a % 8 ≠ 0 then .fault (0x0c, 0) 0 a else boxChk s g a m (fmtWidth x.fmt / 8))
    else operandChk s g die st.world m.aws false a m.astride (aLine m x.fmt) (aLines m)
  let cb := operandChk s g die st.world m.bws false b m.bstride (bLine m y.fmt) (bLines m)
  let sc (on : Bool) (off : Nat) : Chk := if on then rangeChk s g false off (32 * m.kn) else .pass
  let bits (off : Nat) : Chk :=
    if kind = .mmaSp then (if off % 8 ≠ 0 then .fault (0x0c, 0) 0 off else rangeChk s g false off (128 * m.kn)) else .pass
  ca.andThen (cb.andThen ((sc (x.ssrc == 1) m.ascale).andThen ((sc (y.ssrc == 1) m.bscale).andThen
    ((bits m.abits).andThen (bits m.bbits)))))

/-- R267 step 2: the map record and the shape record; the operand layout and whether the records carry poison, or what
fires. -/
def mapOf (s : State) (st : Strand) (g : Grove) (kind : MxKind) (rec_ : Option Nat) (sa sb : Nat) (x y : Slot) :
    Except Chk (OpMap × Bool) :=
  match rec_ with
  | none =>
    if x.ssrc = 1 then .error (.fault (5, 2) sa 0) else if y.ssrc = 1 then .error (.fault (5, 2) sb 0) else .ok ({}, false)
  | some off =>
    match recordChk s g off 64 64 with
    | .pass =>
      let rs := recordBytes s st g off 64
      let ws := (dwords (rs.map (·.1))).map (·.toNat)
      if (kind = .mconv ∧ x.ssrc = 1) ∨ mapBad kind ws x y = true then .error (.fault (5, 2) sa 0)
      else
        let m := parseMap ws
        if kind ≠ .mconv then .ok (m, rs.any (·.2))
        else match recordChk s g m.shape 128 8 with
          | .pass =>
            let ds := recordBytes s st g m.shape 128
            let bs := ds.map (·.1)
            if shapeBad bs m x then .error (.fault (5, 2) sa 0)
            else .ok ({ m with dims := convDims bs }, rs.any (·.2) || ds.any (·.2))
          | c => .error c
    | c => .error c

/-- R83: the map and shape records that an instruction reads, where a bank group refuses them. -/
def noteMap (s : State) (st : Strand) (g : Grove) (kind : MxKind) : Option Nat → State
  | none => s
  | some off =>
    match recordChk s g off 64 64 with
    | .pass =>
      let s1 := noteView s st.core st.world g off 64
      let m := parseMap ((dwords ((recordBytes s st g off 64).map (·.1))).map (·.toNat))
      if kind ≠ .mconv then s1
      else match recordChk s g m.shape 128 8 with
        | .pass => noteView s1 st.core st.world g m.shape 128
        | _ => s1
    | _ => s

/-- R334: the first watchpoint that the read of the map and shape records matches. -/
def watchMap (s : State) (st : Strand) (kind : MxKind) (m : OpMap) : Option Nat → Option (Nat × Nat)
  | none => none
  | some off =>
    firstMatch (watchMatch s st 1 false true off 64) (if kind = .mconv then watchMatch s st 1 false true m.shape 128 else none)

/-- A multiplying instruction for its lead thread (R267). What a bank group refuses of its records is recorded, but where the
step parks, and reads them again when it resumes. -/
def mmaStep (kind : MxKind) (tile : Fin 8) (ra rb rc : Reg) (sa sb : Fin 8) (i : Issue) (s : State) (st : Strand) (t : Nat) :
    StepOut :=
  let a := (readReg s.free st t ra).toNat
  let b := (readReg s.free st t rb).toNat
  match slotPair i.lr sa sb, getGrove s st.grove with
  | some (x, y), some g =>
    let rec_ := if rc = .zero then none else some (readReg s.free st t rc).toNat
    let noted := noteMap s st g kind rec_
    (match mapOf s st g kind rec_ sa sb x y with
     | .error c => chkStep (if c.isPark then s else noted) st (.ok s st none none) c
     | .ok (m, bad) =>
       let op := { newOp s st kind tile a b m (slotWords i.lr sa).1 (slotWords i.lr sb).1 with poison := bad }
       chkStep noted st ((queueOp noted st op).watched (watchMap s st kind m rec_)) (operandsChk s st g kind a b m x y))
  | _, _ => .ok s st none none

/-- A multiplying matrix instruction. -/
def mmaInsn (s : State) (h : Hd) (kind : MxKind) (tile : Fin 8) (ra rb rc : Reg) (sa sb : Fin 8) :
    Host.Outcome State Fault Refusal :=
  onceUniform s h (mmaPre (kind == .mconv) tile sa sb) [ra, rb, rc] (fun _ => 1) (mmaStep kind tile ra rb rc sa sb)

/-- mma (R257). -/
def execMma (h : Hd) (tile : Fin 8) (ra rb rc : Reg) (sa sb : Fin 8) (s : State) : Host.Outcome State Fault Refusal :=
  mmaInsn s h .mma tile ra rb rc sa sb

/-- mma.sp (R259). -/
def execMmaSp (h : Hd) (tile : Fin 8) (ra rb rc : Reg) (sa sb : Fin 8) (s : State) : Host.Outcome State Fault Refusal :=
  mmaInsn s h .mmaSp tile ra rb rc sa sb

/-- mconv (R261). -/
def execMconv (h : Hd) (tile : Fin 8) (ra rb rc : Reg) (sa sb : Fin 8) (s : State) : Host.Outcome State Fault Refusal :=
  mmaInsn s h .mconv tile ra rb rc sa sb

/-- mz (R264). -/
def execMz (h : Hd) (tile : Fin 8) (s : State) : Host.Outcome State Fault Refusal :=
  onceUniform s h
    (fun i => [if i.st.ntiles ≤ tile.val then some (illegalOp 5) else none,
      if i.active.length ≠ i.st.width then some illegalConvergence else none])
    [] (fun _ => 1) (fun _ s st _ => queueOp s st (newOp s st .mz tile 0 0 {} 0 0))

/-- R266: the slot that a format selector gives mld and mst. -/
def tileSlotBad (lr : LaunchRec) : FmtSel → Option PreFault
  | .fmt _ => none
  | .slot k =>
    match slotOf lr k with
    | none => some (formatSlot 1 k)
    | some x =>
      if x.ssrc = 1 ∨ (isIntFmt x.fmt = true ∧ (x.ssrc ≠ 0 ∨ x.ten.isSome = true)) then some (formatSlot 1 k) else none

/-- The first word of the slot record that stands for a selector. -/
def selWord (lr : LaunchRec) : FmtSel → DWord
  | .fmt f => BitVec.ofNat 64 f.code
  | .slot k => (slotWords lr k).1

def selIndex : FmtSel → Nat
  | .fmt _ => 0
  | .slot k => k

def tileStep (kind : MxKind) (fmt : FmtSel) (tile : Fin 8) (ra rb : Reg) (i : Issue) (s : State) (st : Strand) (t : Nat) :
    StepOut :=
  let a := (readReg s.free st t ra).toNat
  let b := (readReg s.free st t rb).toNat
  match sideOf i.lr fmt, getGrove s st.grove with
  | some x, some g =>
    let len := lineBytes x.fmt 32
    if b ≠ 0 ∧ b < len then .preFault s st (5, 2) (selIndex fmt) 0
    else
      chkStep s st (queueOp s st (newOp s st kind tile a b {} (selWord i.lr fmt) 0))
        (operandChk s g 0 st.world false (kind == .mst) a b len 32)
  | _, _ => .ok s st none none

def tileInsn (s : State) (h : Hd) (kind : MxKind) (fmt : FmtSel) (tile : Fin 8) (ra rb : Reg) :
    Host.Outcome State Fault Refusal :=
  onceUniform s h
    (fun i => [if i.st.ntiles ≤ tile.val then some (illegalOp 5) else none, tileSlotBad i.lr fmt,
      if i.active.length ≠ i.st.width then some illegalConvergence else none])
    [ra, rb] (fun _ => 1) (tileStep kind fmt tile ra rb)

/-- mld (R265). -/
def execMld (h : Hd) (fmt : FmtSel) (tile : Fin 8) (ra rb : Reg) (s : State) : Host.Outcome State Fault Refusal :=
  tileInsn s h .mld fmt tile ra rb

/-- mst (R265). -/
def execMst (h : Hd) (fmt : FmtSel) (tile : Fin 8) (ra rb : Reg) (s : State) : Host.Outcome State Fault Refusal :=
  tileInsn s h .mst fmt tile ra rb

/-! ### What an operation does (R258 to R266) -/

/-- A byte of scratch that an operation reads: as it was when the operation started, or as it is, byte by byte (R269,
R270; log 4). -/
def seenByte (s : State) (o : MxOp) (p : Nat) : Byte :=
  let old := memGet o.seen p
  let new := memGet (scratchMem s o.core) p
  if o.running = false ∨ old = new then new else if Config.freeChoice s.free (0x200000 + p) % 2 = 0 then old else new

/-- A byte of an operand, with its poison; a byte whose window has gone is undefined. -/
def mxByte (s : State) (o : MxOp) (weight : Bool) (a : Nat) : Byte × Bool :=
  if weight then (memGet (s.weight.getD (dieOf o.core) []) a, weightPoisoned s (dieOf o.core) a 1)
  else match (getGrove s o.grove).bind fun g => viewMap s g a with
    | some (p, _) =>
      if scratchOwned s o.core o.world p then (seenByte s o p, scratchPoisoned s o.core p 1) else (0, false)
    | none => (Config.freeByte s.free a, false)

/-- The code of element e of a line that begins at a byte, with its poison. -/
def mxCode (s : State) (o : MxOp) (weight : Bool) (f : Fmt) (line e : Nat) : Nat × Bool :=
  let w := fmtWidth f
  let b0 := e * w / 8
  let b1 := (e * w + w - 1) / 8
  let bs := (List.range (b1 - b0 + 1)).map fun k => mxByte s o weight (line + b0 + k)
  (leVal (bs.map (·.1)) / 2 ^ (e * w - 8 * b0) % 2 ^ w, bs.any (·.2))

/-- The decoded element of a line of some elements, after R150 step 1. The mate of an O4 element is read where the line
stores one (R139, R259). -/
def mxDecoded (s : State) (o : MxOp) (weight : Bool) (f : Fmt) (line count e : Nat) : FVal × Bool :=
  if f = .o4 then
    let (l, p) := mxCode s o weight f line (e / 2 * 2)
    let (h, q) := if e / 2 * 2 + 1 < count then mxCode s o weight f line (e / 2 * 2 + 1) else (0, false)
    let (x, y) := decodeO4 (l + 16 * h)
    (if e % 2 = 0 then x else y, p || q)
  else
    let (c, p) := mxCode s o weight f line e
    (decodeFmt f o.fmode c, p)

/-- An element as an operation uses it: its value, whether reading it sets nv, its poison; none where it is uncounted. -/
abbrev Elem := Option (FVal × Bool × Bool)

/-- R142, R255: the value under the scales: a signalling NaN and scale 0xff set nv. -/
def mxScaled (s : State) (o : MxOp) (x : Slot) (scaleAt : Nat) (v : FVal × Bool) : FVal × Bool × Bool :=
  let (e, p) : Option Nat × Bool := if x.ssrc = 1 then
      (let (b, p) := mxByte s o false scaleAt; (some b.toNat, p))
    else if x.ssrc = 2 then (some x.cscale, false) else (none, false)
  (applyScale v.1 e x.ten, isSignalling v.1 || e == some 255, v.2 || p)

/-- Set bits below k of the bitmap row at a byte, and bit k (R259). -/
def bitAt (s : State) (o : MxOp) (row k : Nat) : Bool := (mxByte s o false (row + k / 8)).1.getLsbD (k % 8)
def bitsBelow (s : State) (o : MxOp) (row k : Nat) : Nat := ((List.range k).filter (bitAt s o row)).length

/-- R262: the address of A[m][k] of an mconv: the spatial dimensions, 1 varying fastest. -/
def convWalk : List (Nat × Int × Nat × Nat × Nat × Nat) → List Nat → Nat → Nat → Int → Option Int
  | [], _, _, _, addr => some addr
  | (n, st, w, p, t, sd) :: ds, os, o, q, addr =>
    let od := os.headD 1
    let x : Int := (o % od : Nat) * sd + (q % w : Nat) * t - p
    if x < 0 ∨ (n : Int) ≤ x then none else convWalk ds os.tail (o / od) (q / w) (addr + x * st)

def convElem (s : State) (op : MxOp) (x : Slot) (m k : Nat) : Elem :=
  let dims := op.map.dims
  let c := (dims.getD 0 (32, 0, 0, 0, 0, 0)).1
  let st0 := (dims.getD 0 (32, 0, 0, 0, 0, 0)).2.1
  let cb := c / 32
  let g := op.map.kstart + k / 32
  let ch := 32 * (g % cb) + k % 32
  let q := g / cb
  let o := op.map.ostart + m
  let sp := dims.drop 1
  let outs := (op.map.oext.take sp.length).foldl (· * ·) 1
  let kers := (sp.map fun d => d.2.2.1).foldl (· * ·) 1
  if outs ≤ o ∨ kers ≤ q then none
  else match convWalk sp op.map.oext o q ((op.a : Int) + (ch : Int) * st0) with
    | none => none
    | some a => some (mxScaled s op x 0 (mxDecoded s op false x.fmt a.toNat 1 0))

/-- A[m][k]. -/
def aElem (s : State) (o : MxOp) (m k : Nat) : Elem :=
  let x := mxSlot o.slotA
  let mp := o.map
  let line (j : Nat) : Nat := o.a + j * aStep mp x.fmt
  let scaled (v : FVal × Bool) : Elem := some (mxScaled s o x (mp.ascale + m * mp.kn + k / 32) v)
  match o.kind with
  | .mconv => convElem s o x m k
  | .mmaSp =>
    let row := mp.abits + 4 * mp.kn * m
    if bitAt s o row k then
      scaled (mxDecoded s o mp.aws x.fmt (line m) (bitsBelow s o row (32 * mp.kn)) (bitsBelow s o row k)) else none
  | _ => scaled (if mp.at_ then mxDecoded s o mp.aws x.fmt (line k) 32 m
      else mxDecoded s o mp.aws x.fmt (line m) (32 * mp.kn) k)

/-- B[k][n]. -/
def bElem (s : State) (o : MxOp) (k n : Nat) : Elem :=
  let y := mxSlot o.slotB
  let mp := o.map
  let line (j : Nat) : Nat := o.b + j * bStep mp y.fmt
  let scaled (v : FVal × Bool) : Elem := some (mxScaled s o y (mp.bscale + n * mp.kn + k / 32) v)
  match o.kind with
  | .mmaSp =>
    let row := mp.bbits + 4 * mp.kn * n
    if bitAt s o row k then
      scaled (mxDecoded s o mp.bws y.fmt (line n) (bitsBelow s o row (32 * mp.kn)) (bitsBelow s o row k)) else none
  | _ => scaled (if mp.bt then mxDecoded s o mp.bws y.fmt (line n) (32 * mp.kn) k
      else mxDecoded s o mp.bws y.fmt (line k) 32 n)

/-- R258: product. -/
def mxProduct (x y : FVal) : FVal × Flags :=
  match prodVal x y with
  | none => (.nan false, flagNv)
  | some (.nan _) => (.nan false, 0)
  | some v => (v, 0)

/-- R258: the exact sum of finite products. -/
def exactSum (ps : List FVal) : Int × Nat :=
  ps.foldl (fun (x : Int × Nat) p =>
    let (n, d) := x
    match p with
    | .fin s a b => (n * b + sgn s a * d, d * b)
    | _ => (n, d)) ((0 : Int), 1)

/-- R258: block_sum, as an FP32 code. -/
def blockSum (fmode : Word) (ps : List FVal) : Nat × Flags :=
  let pos := ps.any fun | .inf s => !s | _ => false
  let neg := ps.any fun | .inf s => s | _ => false
  if ps.any isNan || (pos && neg) then (0x7fc00000, flagIf (pos && neg) flagNv)
  else if pos then (0x7f800000, 0)
  else if neg then (0xff800000, 0)
  else
    let (n, d) := exactSum ps
    if n = 0 then (0, 0) else roundFloat f32 0 (flushesOut f32 fmode) (decide (n < 0)) n.natAbs d

/-- The counted products of a block: those where both elements are counted. -/
def blockProducts (es : List (Elem × Elem)) : List FVal × Flags :=
  es.foldl (fun (x : List FVal × Flags) e =>
    let (ps, fl) := x
    match e with
    | (some (x, nx, _), some (y, ny, _)) =>
      let (p, f) := mxProduct x y
      (ps ++ [p], fl ||| f ||| flagIf (nx || ny) flagNv)
    | _ => (ps, fl)) ([], 0)

/-- R258: the FP32 element. -/
def fp32Element (fmode : Word) (acc : Nat) (blocks : List (List (Elem × Elem))) : Nat × Flags :=
  blocks.foldl (fun (x : Nat × Flags) b =>
    let (acc, fl) := x
    let (ps, f) := blockProducts b
    let (c, g) := blockSum fmode ps
    let (r, k) := fAdd f32 0 fmode false acc c
    (r, fl ||| f ||| g ||| k)) (acc, 0)

def finInt : FVal → Int
  | .fin s n _ => sgn s n
  | _ => 0

/-- R258: the I32 element. -/
def i32Element (acc : Nat) (blocks : List (List (Elem × Elem))) : Nat :=
  blocks.foldl (fun (acc : Nat) b => ((acc + b.foldl (fun (n : Int) (e : Elem × Elem) => match e with
    | (some (x, _), some (y, _)) => n + finInt x * finInt y
    | _ => n) 0) % 2 ^ 32).toNat) acc

def tileKey (tile m n : Nat) : Nat := 1024 * tile + 32 * m + n

/-- A tile element; until it is written it is undefined (R108). -/
def tileWord (s : State) (st : Strand) (k : Nat) : Word := mapGetD st.tiles k (tileInit s.free st k)

def elemPoison : Elem → Bool
  | some (_, _, p) => p
  | none => false

/-- R268: a bitmap row of an `mma.sp` is poisoned: it says which elements of its line are which. -/
def bitsPoisoned (s : State) (o : MxOp) (base row : Nat) : Bool :=
  o.kind == .mmaSp && (List.range (4 * o.map.kn)).any fun k => (mxByte s o false (base + 4 * o.map.kn * row + k)).2

/-- R268: a counted product of a poisoned element. -/
def pairPoison (e : Elem × Elem) : Bool := e.1.isSome && e.2.isSome && (elemPoison e.1 || elemPoison e.2)

/-- One element of a multiplying operation: its new word, its flags, its poison (R268), given that of its bitmap rows. -/
def mxElement (s : State) (o : MxOp) (st : Strand) (A B : List (List Elem)) (m n : Nat) (bits : Bool) : Word × Flags × Bool :=
  let row := A.getD m []
  let col := B.getD n []
  let pairs := row.zip col
  let blocks := (List.range (2 * o.map.kn)).map fun j => (pairs.drop (16 * j)).take 16
  let k := tileKey o.tile m n
  let acc := (tileWord s st k).toNat
  let bad := o.poison || bits || st.tpoison.contains k || pairs.any pairPoison
  if accumulatesInt (mxSlot o.slotA) (mxSlot o.slotB) then (BitVec.ofNat 32 (i32Element acc blocks), 0, bad)
  else let (r, f) := fp32Element o.fmode acc blocks; (BitVec.ofNat 32 r, f, bad)

/-- Writes an element of a tile, with its poison. -/
def putTile (st : Strand) (k : Nat) (v : Word) (bad : Bool) : Strand :=
  { st with tiles := mapSet st.tiles k v
            tpoison := if bad then k :: st.tpoison.filter (· != k) else st.tpoison.filter (· != k) }

def tileIndices : List (Nat × Nat) := (List.range 32).flatMap fun m => (List.range 32).map fun n => (m, n)

def runMultiply (s : State) (o : MxOp) (st : Strand) : Strand :=
  let K := 32 * o.map.kn
  let A := (List.range 32).map fun m => (List.range K).map fun k => aElem s o m k
  let B := (List.range 32).map fun n => (List.range K).map fun k => bElem s o k n
  let badA := (List.range 32).map (bitsPoisoned s o o.map.abits)
  let badB := (List.range 32).map (bitsPoisoned s o o.map.bbits)
  tileIndices.foldl (fun out (m, n) =>
    let (v, f, bad) := mxElement s o st A B m n (badA.getD m false || badB.getD n false)
    raiseFlags (putTile out (tileKey o.tile m n) v bad) f) st

/-- R266: the tile's type under a scratch format. -/
def tileFmt (f : Fmt) : Fmt := if isIntFmt f then .i32 else .fp32

/-- The values of a run of decoded elements under a slot that has no scale array. -/
def slotValues (x : Slot) (vs : List FVal) : List FVal × Flags :=
  let e := if x.ssrc = 2 then some x.cscale else none
  (vs.map fun v => applyScale v e x.ten, flagIf (vs.any isSignalling || e == some 255) flagNv)

/-- mld: a row of the tile from scratch. -/
def runLoadRow (s : State) (o : MxOp) (st : Strand) (m : Nat) : Strand :=
  let x := mxSlot o.slotA
  let es := (List.range 32).map fun n => mxDecoded s o false x.fmt (rowBase o x.fmt m) 32 n
  let (vs, f) := slotValues x (es.map (·.1))
  let (cs, g) := cvtEncode { fmt := tileFmt x.fmt } none 0 o.fmode vs
  ((cs.zip es).zip (List.range 32)).foldl (fun st ((c, e), n) =>
    putTile st (tileKey o.tile m n) (BitVec.ofNat 32 c) e.2) (raiseFlags st (f ||| g))

/-- The bytes of a line of codes (R138). -/
def packLine (f : Fmt) (cs : List Nat) : List Byte :=
  let v := ((cs.zip (List.range cs.length)).map fun (c, j) => c * 2 ^ (j * fmtWidth f)).foldl (· + ·) 0
  leList (lineBytes f cs.length) v

/-- Writes bytes through the grove's view; a byte whose window has gone is dropped. -/
def mxWrite (s : State) (o : MxOp) (a : Nat) (bs : List (Byte × Bool)) : State :=
  match getGrove s o.grove with
  | none => s
  | some g => (bs.zip (List.range bs.length)).foldl (fun s ((b, bad), k) =>
      match viewMap s g (a + k) with
      | some (p, _) => scratchWrite s o.core o.world p [b] bad
      | none => s) s

/-- mst: the bytes of a row of the tile, with its flags. Bytes that hold a poisoned element are poisoned. -/
def storeRow (s : State) (o : MxOp) (st : Strand) (m : Nat) : List (Byte × Bool) × Flags :=
  let x := mxSlot o.slotA
  let tf := tileFmt x.fmt
  let vs := (List.range 32).map fun n => decodeFmt tf o.fmode (tileWord s st (tileKey o.tile m n)).toNat
  let (cs, g) := cvtEncode x (if x.ssrc = 2 then some x.cscale else none) 0 o.fmode vs
  let w := fmtWidth x.fmt
  let bs := packLine x.fmt cs
  let bad (k : Nat) : Bool := (List.range 32).any fun n =>
    decide (n * w < 8 * (k + 1)) && decide (8 * k < (n + 1) * w) && st.tpoison.contains (tileKey o.tile m n)
  ((bs.zip (List.range bs.length)).map fun (b, k) => (b, bad k), g ||| flagIf (vs.any isSignalling) flagNv)

/-- Bytes of a row of an operation's tile in scratch. -/
def rowBytes (o : MxOp) : Nat := lineBytes (mxSlot o.slotA).fmt 32

/-- mst: a row of the tile to scratch, but for the bytes written early. -/
def runStoreRow (o : MxOp) (st : Strand) (s : State) (m : Nat) : State × Flags :=
  let (bs, f) := storeRow s o st m
  let a := rowBase o (mxSlot o.slotA).fmt m
  (if o.written = [] then mxWrite s o a bs
   else (bs.zip (List.range bs.length)).foldl (fun (s : State) (b : (Byte × Bool) × Nat) =>
     if o.written.contains (m * rowBytes o + b.2) then s else mxWrite s o (a + b.2) [b.1]) s, f)

/-- Byte k of an `mst` under way is written before the rest: others meet its old value or its new one, byte by byte
(R269, R270). -/
def storeEarly (s : State) (core limb k : Nat) : State :=
  match s.mx.find? fun o => o.core == core && o.limb == limb && o.running && o.kind == .mst with
  | none => s
  | some o =>
    let len := rowBytes o
    match getStrand s o.strand with
    | some st =>
      if o.written.contains k || decide (32 * len ≤ k) then s
      else
        let s := { s with mx := s.mx.map fun x => if x.id = o.id then { x with written := k :: x.written } else x }
        mxWrite s o (rowBase o (mxSlot o.slotA).fmt (k / len) + k % len)
          (((storeRow s o st (k / len)).1.drop (k % len)).take 1)
    | none => s

/-- Carries out an operation of a strand. -/
def runMx (s : State) (o : MxOp) (st : Strand) : State :=
  match o.kind with
  | .mz => setStrand s (tileIndices.foldl (fun st (m, n) => putTile st (tileKey o.tile m n) 0 false) st)
  | .mld => setStrand s ((List.range 32).foldl (runLoadRow s o) st)
  | .mst =>
    let (s, f) := (List.range 32).foldl (fun (s, f) m => let (s, g) := runStoreRow o st s m; (s, f ||| g)) (s, (0 : Flags))
    setStrand s (raiseFlags st f)
  | _ => setStrand s (runMultiply s o st)

/-! ### The unit's events (R249, R250) -/

/-- R89: every line that the operation touches is present. -/
def mxPresent (s : State) (o : MxOp) : Bool :=
  match getGrove s o.grove with
  | none => true
  | some g => (mxRanges o).all fun (a, n) => (absentLine s g a n).isNone

/-- R269: the stores that its strand issued before it have been performed. -/
def mxStoresDone (s : State) (o : MxOp) : Bool :=
  match getStrand s o.strand with
  | none => true
  | some st => o.after.all fun t => !st.outs.any (·.tag == t)

/-- The bank groups of the weight store that the operation reads do not refresh now (R56). -/
def mxNotRefreshing (s : State) (o : MxOp) : Bool :=
  let x := mxSlot o.slotA
  let y := mxSlot o.slotB
  let m := o.map
  (o.kind == .mz || o.kind == .mld || o.kind == .mst) ||
    ((!m.aws || (List.range (aLines m)).all fun j => !lineRefreshing s (o.a + j * aStep m x.fmt) (aLine m x.fmt))
      && (!m.bws || (List.range (bLines m)).all fun j => !lineRefreshing s (o.b + j * bStep m y.fmt) (bLine m y.fmt)))

/-- The batch of neural requests that occupies a limb's unit (R282). -/
def batchRunning (s : State) (core limb : Nat) : Bool :=
  s.nreqs.any fun r => r.core == core && r.limb == limb && r.started.isSome

/-- matrixOpStart: the first queued operation of the limb starts, in issue order, once it may. -/
def execMatrixOpStart (core limb : Nat) (s : State) : Host.Outcome State Fault Refusal :=
  let mine := s.mx.filter fun o => o.core == core && o.limb == limb
  if mine.any (·.running) || batchRunning s core limb then .next s
  else match mine with
    | [] => .next s
    | o :: _ =>
      if mxPresent s o && mxStoresDone s o then
        .next { s with mx := s.mx.map fun x =>
          if x.id = o.id then { x with running := true, since := s.time, seen := scratchMem s o.core } else x }
      else .next s

/-- R250: the fraction of set bits in 1/1024s of an operand's bitmap, times the elements. -/
def setBits (s : State) (o : MxOp) (base : Nat) : Nat :=
  ((List.range (32 * 32 * o.map.kn)).filter fun i => (mxByte s o false (base + i / 8)).1.getLsbD (i % 8)).length

/-- R250: the cycles of an operation. -/
def mxCycles (s : State) (o : MxOp) : Nat :=
  let x := mxSlot o.slotA
  let y := mxSlot o.slotB
  let dense := 32 * 32 * 32 * o.map.kn / min (formatRate x.fmt) (formatRate y.fmt)
  match o.kind with
  | .mz => 4
  | .mld | .mst => (32 * lineBytes x.fmt 32 + 1023) / 1024
  | .mmaSp =>
    let all := 32 * 32 * o.map.kn
    let set := max (all / 4) (max (setBits s o o.map.abits) (setBits s o o.map.bbits))
    (dense * set + all - 1) / all
  | _ => dense

/-- R83: an operation that reads bytes of a bank group that is not its world's has them refused, with a record. -/
def noteOperands (s : State) (o : MxOp) : State :=
  match getGrove s o.grove with
  | none => s
  | some g => match (mxRanges o).findSome? fun r => (List.range (r.2 / 128 + 2)).findSome? fun i =>
        let a := min (r.1 + 128 * i) (r.1 + r.2 - 1)
        (viewMap s g a).bind fun m => if r.2 = 0 || o.kind == .mst || scratchOwned s o.core o.world m.1 then none else some m.1 with
    | some p => refuseScratch s o.world p
    | none => s

/-- R153, R321: the flags of an operation of an earlier run stand in the entry state of the current run as well. -/
def flagsAtEntry (s : State) (o : MxOp) (st : Strand) : Strand :=
  match st.runEntry with
  | none => st
  | some e =>
    if o.id < e.mark then
      let f := ((getStrand (runMx s o { st with fstat := 0 }) st.home).map (·.fstat)).getD 0
      { st with runEntry := some { e with fstat := e.fstat ||| f } }
    else st

/-- matrixOpComplete: the running operation's writes are performed and its flags raised. Its work is charged for the
cycles it has had the unit, and for those of R250 at least (R316). -/
def execMatrixOpComplete (core limb : Nat) (s : State) : Host.Outcome State Fault Refusal :=
  match s.mx.find? fun o => o.core == core && o.limb == limb && o.running with
  | none => .next s
  | some o =>
    if !mxNotRefreshing s o then .next s
    else
      let s' := { s with mx := s.mx.filter (·.id != o.id) }
      match getStrand s' o.strand with
      | none => .next s'
      | some st =>
        let s' := runMx (noteOperands s' o) o (flagsAtEntry s' o { st with matrix := st.matrix - 1 })
        .next (chargeWork s' st.launch (32 * max (mxCycles s o) (cyclesSince s o.since)))

end Sys2Proof.Machine
end

