-- ==== Sys2Proof/Machine/Graphics.lean ====
section
/-! DEFINITION. Graphics instructions: bin, pout, discard and smp (R271 to R277), with the pixel conversions of R273,
the geometry of primitives (R349, R350) and consent (R277). -/

namespace Sys2Proof.Machine

/-! ### Strand kinds (R271) -/

def isMesh : Kind → Bool
  | .mesh _ => true
  | _ => false

def isPixel : Kind → Bool
  | .pixel .. => true
  | _ => false

/-- R271: an instruction in a strand kind that does not allow it. -/
def kindCheck (ok : Kind → Bool) (i : Issue) : List (Option PreFault) :=
  [if ok i.st.kind then none else some (illegalOp 6)]

/-! ### Groups that are written as a load's (R10) -/

/-- The results of a thread-step that counts as a load: written, poisoned where what it read is (R336), and readable
once a `wait` has counted it. -/
def landGroup (tag t : Nat) (rd : Reg) (ws : List Word) (bad : Bool) (st : Strand) : Strand :=
  (ws.zip (List.range ws.length)).foldl (fun st (w, i) =>
    match regKey st t (groupReg rd i) with
    | some k =>
      let st := writeKey st k w
      { st with shadow := st.shadow ++ [(k, tag)], poisoned := if bad then k :: st.poisoned else st.poisoned }
    | none => st) st

/-- What holds an instruction that is counted as a load before its first thread-step (R125, R221). -/
def loadHeld (s : State) (st : Strand) : Option Park :=
  if (currentTag st 0).isSome then none
  else if acquirePending s st then some .acquire
  else if 63 ≤ (st.outs.filter (·.cls == 0)).length then some (.counterFull 0)
  else none

/-! ### Primitives (R272, R349, R350) -/

/-- A finite coordinate as an exact number. -/
def coordVal (c : Nat) : Option (Bool × Nat × Nat) :=
  match decodeFloat f32 c with
  | .fin s n d => some (s, n, d)
  | _ => none

/-- R349: the nearest multiple of 2^-8, in units of 2^-8. -/
def snapCoord (c : Nat) : Option Int := (coordVal c).map fun (s, n, d) => sgn s (roundQuot 0 s (256 * n) d).1

/-- R349: the signed area, in units of 2^-16. -/
def signedArea : List Int → List Int → Int
  | [x0, x1, x2], [y0, y1, y2] => (x1 - x0) * (y2 - y0) - (x2 - x0) * (y1 - y0)
  | _, _ => 0

def minOf (l : List Int) : Int := l.foldl min (l.headD 0)
def maxOf (l : List Int) : Int := l.foldl max (l.headD 0)

/-- Vertices 1 and 2 exchanged. -/
def exchange {α : Type} : List α → List α
  | [a, b, c] => [a, c, b]
  | l => l

/-- R348: tiles along an extent. -/
def tilesAlong (n : Nat) : Nat := (n + 31) / 32

/-- R350: the tiles along one axis that a span overlaps. -/
def tileSpan (n : Nat) (lo hi : Int) : List Nat :=
  (List.range (tilesAlong n)).filter fun t => decide (lo < 256 * (min (32 * t + 32) n : Nat)) && decide ((256 * (32 * t) : Nat) < hi)

/-- R348, R350: the indices of the tiles that a snapped box overlaps, rising. -/
def tilesOf (w h : Nat) (xs ys : List Int) : List Nat :=
  (tileSpan h (minOf ys) (maxOf ys)).flatMap fun ty =>
    (tileSpan w (minOf xs) (maxOf xs)).map fun tx => tx + ty * tilesAlong w

/-- A primitive record (R272): vertices, attribute word, flags; none when a coordinate is NaN or infinite. -/
def primRecord (bs : List Byte) : Option (List Int × List Int × List Word × Word × Nat) :=
  let w (i : Nat) : Nat := leVal ((bs.drop (4 * i)).take 4)
  match snapCoord (w 0), snapCoord (w 3), snapCoord (w 6), snapCoord (w 1), snapCoord (w 4), snapCoord (w 7) with
  | some x0, some x1, some x2, some y0, some y1, some y2 =>
    if [w 2, w 5, w 8].all fun z => (coordVal z).isSome then
      some ([x0, x1, x2], [y0, y1, y2], [w 2, w 5, w 8].map (BitVec.ofNat 32), BitVec.ofNat 32 (w 9), w 10)
    else none
  | _, _, _, _, _, _ => none

def getDraw (s : State) (id : Nat) : Option Draw := s.draws.find? (·.id == id)

def setDraw (s : State) (d : Draw) : State := { s with draws := s.draws.map fun x => if x.id = d.id then d else x }

/-- The target extent of a draw (R347). -/
def targetExtent (d : Draw) : Nat × Nat :=
  match d.outs.headD none with
  | some (_, x) => (x.width, x.height)
  | none => (0, 0)

/-- R272, R349, R350: the binning unit takes a record: rd's value and the draw after. -/
def binPrimitive (d : Draw) (bs : List Byte) : Word × Draw :=
  match primRecord bs with
  | none => (0xffffffff, d)
  | some (xs, ys, zs, attr, fl) =>
    let a := signedArea xs ys
    let (w, h) := targetExtent d
    let tiles := tilesOf w h xs ys
    if a = 0 ∨ (a < 0 ∧ fld fl 1 1 = 1) ∨ (0 < a ∧ fld fl 2 1 = 1) ∨ tiles = [] then (0xffffffff, d)
    else if d.entries < d.used + tiles.length then (0xfffffffe, { d with overflow := d.overflow + 1 })
    else
      let back := decide (a < 0)
      let p : Prim :=
        { id := d.prims.length
          xs := if back then exchange xs else xs
          ys := if back then exchange ys else ys
          zs := if back then exchange zs else zs
          attr := attr, mayDiscard := fld fl 0 1 == 1, tiles := tiles }
      (BitVec.ofNat 32 p.id, { d with used := d.used + tiles.length, prims := d.prims ++ [p] })

/-- Reads a record in scratch at a thread-step, in the order of R224: misalignment, range, absent lines; `frame` is what else
the step needs of the view and lacks (R289). What a bank group refuses is recorded (R83), and a watchpoint may match (R334). -/
def stepRecord (s : State) (st : Strand) (a n align : Nat) (k : State → Grove → List (Byte × Bool) → StepOut)
    (frame : Grove → Option Nat := fun _ => none) : StepOut :=
  match getGrove s st.grove with
  | none => .fault s st (2, 5) 0 (BitVec.ofNat 64 a)
  | some g =>
    if a % align ≠ 0 then .fault s st (0x0c, 0) 0 (BitVec.ofNat 64 a)
    else
      let offs := (List.range n).map fun i => viewMap s g (a + i)
      if offs.any (·.isNone) then .fault s st (2, 5) 0 (BitVec.ofNat 64 a)
      else match frame g with
      | some f => .fault s st (2, 5) 0 (BitVec.ofNat 64 f)
      | none =>
        let ps := offs.filterMap fun o => o.map (·.1)
        match ps.find? fun p => !linePresent s st.core p with
        | some p => .park s st (.line st.core (p / 128))
        | none =>
          (k (noteView s st.core st.world g a n) g (ps.map fun p =>
            let (bs, bad, _) := scratchRead s st.core st.world p 1
            (bs.headD 0, bad))).watched (watchMatch s st 1 false true a n)

def binStep (rd ra : Reg) (_ : Issue) (s : State) (st : Strand) (t : Nat) : StepOut :=
  match loadHeld s st with
  | some c => .parkPre s st c
  | none =>
    stepRecord s st (readReg s.free st t ra).toNat 48 16 fun s _ bs =>
      match st.kind with
      | .mesh id =>
        (match getDraw s id with
         | none => .ok s st none none
         | some d =>
           let (v, d) := binPrimitive d (bs.map (·.1))
           let (tag, s, st) := beginRequests 0 (setDraw s d) st
           .ok s (landGroup tag t rd [v] (bs.any (·.2)) st) none none)
      | _ => .ok s st none none

/-- bin (R272). -/
def execBin (h : Hd) (rd ra : Reg) (s : State) : Host.Outcome State Fault Refusal :=
  byDest s h rd (kindCheck isMesh) [ra] (binStep rd ra)

/-! ### Pixels (R273 to R275) -/

/-- R366: bytes of a pixel, and the byte offset of pixel (x, y) within an image. -/
def pixelBytes (d : Desc) : Nat := if d.fmt = 1 then 8 else 4
def pixelOffset (d : Desc) (x y : Nat) : Nat := y * 64 * d.pitch + x * pixelBytes d

def getHead (s : State) (h : Nat) : Head := mapGetD s.heads h {}
def getPlane (s : State) (h n : Nat) : Plane := mapGetD s.planes (4 * h + n) {}

/-- R362: the owner-map byte of a pixel, and the state after its read, which uses its leaf entries (R40); where the map
cannot be read the manual gives none (log 3). -/
def mapOwner (s : State) (h n x y : Nat) : Nat × State :=
  match frontRead s 0 ((getPlane s h n).omap.toNat + y * (getHead s h).width + x) 1 with
  | .ok (bs, s) => ((bs.headD 0).toNat, s)
  | .error _ => ((Config.freeByte s.free (2 ^ 52 + y * 2 ^ 14 + x)).toNat,
      readEffects s 0 ((getPlane s h n).omap.toNat + y * (getHead s h).width + x) 1)

/-- R274, R277: the owner of a pixel of an image, and the state after it has been found. -/
def pixelOwner (s : State) (d : Desc) (x y : Nat) : Nat × State :=
  if d.kind = 1 then mapOwner s d.head d.plane x y else if d.kind = 2 then (0, s) else (d.owner, s)

/-- R370: an ownership discard: a record in each budget period, else a count. -/
def discardPout (s : State) (st : Strand) (t index : Nat) (d : Desc) (x y owner : Nat) : State :=
  let n := mapGetD s.suppressed st.owner 0
  if s.discardSeen.contains st.owner then { s with suppressed := mapSet s.suppressed st.owner (min (n + 1) 0xffffffff) }
  else
    oweRecord { s with discardSeen := s.discardSeen ++ [st.owner], suppressed := mapErase s.suppressed st.owner } st.world
      [BitVec.ofNat 64 (pixelOffset d x y), BitVec.ofNat 64 (y * 2 ^ 48 + x * 2 ^ 32),
       BitVec.ofNat 64 (index * 2 ^ 48 + owner * 2 ^ 40 + st.owner * 2 ^ 32 + n),
       recordWord3 3 2 2 0 st.world 0 t 0]

/-- R348, R355: the index of a pixel within its tile. -/
def tilePixel (x y : Nat) : Nat := 32 * (y % 32) + x % 32

def updateTile (s : State) (draw tile : Nat) (f : Tile → Tile) : State :=
  match getDraw s draw with
  | none => s
  | some d => setDraw s { d with tiles := d.tiles.map fun x => if x.index = tile then f x else x }

def poutStep (fmt : PixFmt) (out : Fin 4) (ra : Reg) (_ : Issue) (s : State) (st : Strand) (t : Nat) : StepOut :=
  match st.kind with
  | .pixel draw tile true pixels =>
    (match (getDraw s draw).bind fun d => d.outs.getD out none, pixels.getD t none with
     | some (index, d), some p =>
       let (owner, s) := pixelOwner s d p.x p.y
       if owner ≠ st.owner then .ok (discardPout s st t index d p.x p.y owner) st none none
       else
         let v := match fmt with
           | .rgba8 => (readReg s.free st t ra).toNat
           | .rgba16f => (readPair s.free st t ra).toNat
         let v := convertPixel (fmt == .rgba16f) (d.fmt == 1) v
         .ok (updateTile s draw tile fun x =>
           { x with out := mapSet x.out (1024 * out.val + tilePixel p.x p.y) (BitVec.ofNat 64 v) }) st none none
     | _, _ => .ok s st none none)
  | _ => .ok s st none none

/-- pout (R273 to R275). -/
def execPout (h : Hd) (fmt : PixFmt) (out : Fin 4) (ra : Reg) (s : State) : Host.Outcome State Fault Refusal :=
  perThread s h (kindCheck isPixel) (spanRegs (fmt == .rgba16f) ra) (poutStep fmt out ra)

def discardStep (_ : Issue) (s : State) (st : Strand) (t : Nat) : StepOut :=
  let s := match st.kind with
    | .pixel draw tile false pixels =>
      (match pixels.getD t none with
       | some p => updateTile s draw tile fun x => { x with discards := x.discards ++ [(p.prim, tilePixel p.x p.y)] }
       | none => s)
    | _ => s
  let (s, st) := exitThread s st t
  .ok s st none none

/-- discard (R275). -/
def execDiscard (h : Hd) (s : State) : Host.Outcome State Fault Refusal :=
  perThread s h (kindCheck isPixel) [] discardStep

/-! ### Sampling (R276, R277) -/

/-- R277, R372, R373: a grant lets an owner sample a descriptor in a frame. -/
def grantSamples (g : Grant) (index grantor reader f : Nat) : Bool :=
  g.state != .free && g.sample && g.grantor == grantor && g.grantee == reader && g.surface == index
    && decide (g.first ≤ f) && decide (f ≤ g.expiry) && (g.state == .active || decide (f < g.wframe))

/-- R277: what a reader may have of a texel: none when it may be read, else the status. -/
def consent (s : State) (index : Nat) (d : Desc) (owner reader f : Nat) : Option Word :=
  if owner = reader then none
  else if owner = 255 then some 4
  else if d.kind = 2 ∧ d.reader = reader then none
  else if s.grants.any fun (_, g) => grantSamples g index owner reader f then none
  else some 1

/-- R276: the words of a group. -/
def smpSize : PixFmt → Nat
  | .rgba8 => 2
  | .rgba16f => 4

/-- The request for a texel (R276): a load under the descriptor's world. -/
def texelAccess (s : State) (st : Strand) (t tag : Nat) (fmt : PixFmt) (rd : Reg) (d : Desc) (pa c : Nat) : Access :=
  { id := s.nextId, strand := st.home, tix := t, tag := tag, core := st.core, world := d.world, place := .global pa c
    len := pixelBytes d, op := .texel (d.fmt == 1) (fmt == .rgba16f), rd := rd
    dest := (List.range (smpSize fmt)).filterMap fun i => regKey st t (groupReg rd i)
    uniform := isUniform rd }

/-- A thread-step of smp (R276, R277). A watchpoint matches a texel where its address is one of the strand's own world
(R334; log 40). -/
def smpStep (zeroEdge : Bool) (fmt : PixFmt) (rd ra rb : Reg) (_ : Issue) (s : State) (st : Strand) (t : Nat) : StepOut :=
  match loadHeld s st with
  | some c => .parkPre s st c
  | none =>
    let a := (readReg s.free st t ra).toNat
    let xy := (readReg s.free st t rb).toNat
    -- ra[31:16] must be 0: whether bits set there make an index that names no descriptor is left open (log 40)
    match if a < 65536 ∨ Config.freeChoice s.free 41 % 2 = 0 then mapGet s.descs (a % 65536) else none with
    | none => .fault s st (2, 0x0a) 0 0
    | some d =>
      if d.kind = 0 ∧ d.world ≠ st.world then .fault s st (2, 0x0a) 0 0
      else
        let a := a % 65536
        let x := fld xy 0 16
        let y := fld xy 16 16
        let put (s : State) (status : Word) : StepOut :=
          let (tag, s, st) := beginRequests 0 s st
          .ok s (landGroup tag t rd (smpWords (fmt == .rgba16f) 0 status) false st) none none
        if zeroEdge ∧ (d.width ≤ x ∨ d.height ≤ y) then put s 2
        else
          let x := min x (d.width - 1)
          let y := min y (d.height - 1)
          let (owner, s) := pixelOwner s d x y
          match consent s a d owner st.owner (((getLaunch s st.launch).map (·.frame)).getD 0) with
          | some status => put s status
          | none =>
            let va := (d.base.toNat + pixelOffset d x y) % 2 ^ 64
            match translate s st.core st.limb d.world va needRead with
            | (.bad c, s) => .fault s st c 0 (BitVec.ofNat 64 va)
            | (.miss, s) => let (id, s) := startWalk s st.core d.world va needRead st.home; .park s st (.walk id)
            | (.ats p, s) => .park (requestAts s d.world p) st (.ats p va needRead)
            | (.ok pa c, s) =>
              let (tag, s, st) := beginRequests 0 s st
              let acc := texelAccess s st t tag fmt rd d pa c
              .ok { s with pend := s.pend ++ [acc], nextId := s.nextId + 1 }
                { st with
                  outs := st.outs.map fun o => if o.tag = tag then { o with left := o.left + 1 } else o
                  shadow := st.shadow ++ acc.dest.map fun k => (k, tag) } none
                (if d.world = st.world then watchMatch s st 0 false true va (pixelBytes d) else none)

/-- smp (R276, R277). -/
def execSmp (h : Hd) (zeroEdge : Bool) (fmt : PixFmt) (rd ra rb : Reg) (s : State) : Host.Outcome State Fault Refusal :=
  byDest s h rd (fun _ => []) [ra, rb] (smpStep zeroEdge fmt rd ra rb)

end Sys2Proof.Machine
end

