-- ==== Sys2Proof/Machine/RayQuery.lean ====
section
/-! DEFINITION. Ray queries: rq.open, rq.next, rq.close, and the return of traversals (R278 to R280, R357 to R360). -/

namespace Sys2Proof.Machine

/-! ### Arithmetic of the traversal unit (R359) -/

/-- A value in units of 2^-149: every finite FP32 value is a whole number of them. -/
def fixed32 (c : Nat) : Option Int :=
  match decodeFloat f32 c with
  | .fin s n d => some (sgn s (n * 2 ^ 149 / d))
  | _ => none

/-- Comparison as numbers: the zeros are equal, NaN is below nothing. -/
def numLt (a b : FVal) : Bool := !(isZero a && isZero b) && ltVal a b

/-- Not above, where neither is NaN. -/
def numLe (a b : FVal) : Bool := !isNan a && !isNan b && !numLt b a

def val32 (c : Nat) : FVal := decodeFloat f32 c

/-- R359: 1 / d rounded to nearest even. -/
def inverse32 (d : Nat) : Nat :=
  match val32 d with
  | .nan _ => canonicalNan f32
  | .inf s => signBit f32 s
  | .fin s n m => if n = 0 then signBit f32 s + infCode f32 else (roundFloat f32 0 false s m n).1

/-- R359: the lower and upper bound that one axis imposes, if it imposes any. -/
def slabBounds (lo hi origin inv : Nat) : Option (Nat × Nat) :=
  let p (b : Nat) : Nat := (fMul f32 0 0 (fAdd f32 0 0 true b origin).1 inv).1
  let a := p lo
  let b := p hi
  if isNan (val32 a) ∨ isNan (val32 b) then none
  else if numLt (val32 b) (val32 a) then some (b, a) else some (a, b)

/-- R359: the box test: t_in where the box is hit. -/
def boxTest (origin dir : List Nat) (tmin ct : Nat) (lo hi : List Nat) : Option Nat :=
  let bounds := (List.range 3).filterMap fun k =>
    slabBounds (lo.getD k 0) (hi.getD k 0) (origin.getD k 0) (inverse32 (dir.getD k 0))
  let tin := bounds.foldl (fun t b => if numLt (val32 t) (val32 b.1) then b.1 else t) tmin
  if bounds.all (fun b => numLe (val32 tin) (val32 b.2)) && !isNan (val32 tin) && numLt (val32 tin) (val32 ct) then some tin
  else none

def dot3 (a b : List Int) : Int := ((a.zip b).map fun (x, y) => x * y).foldl (· + ·) 0

def cross3 : List Int → List Int → List Int
  | [a, b, c], [x, y, z] => [b * z - c * y, c * x - a * z, a * y - b * x]
  | _, _ => [0, 0, 0]

def sub3 (a b : List Int) : List Int := (a.zip b).map fun (x, y) => x - y

/-- A ratio rounded to nearest even. -/
def ratioCode (f : FFormat) (n d : Int) : Nat :=
  let neg := decide (n < 0) != decide (d < 0) && n != 0
  (roundFloat f 0 false neg n.natAbs d.natAbs).1

/-- R359: the triangle test on exact values: t, u and v of a hit. -/
def triangleExact (cull : Bool) (o d v0 v1 v2 : List Int) : Option (Nat × Nat × Nat) :=
  let e1 := sub3 v1 v0
  let e2 := sub3 v2 v0
  let n := cross3 e1 e2
  let det := dot3 n d
  let w := sub3 o v0
  let un := dot3 w (cross3 e2 d)
  let vn := dot3 w (cross3 d e1)
  -- u = un / det, v = vn / det
  let sg (x : Int) : Int := if det < 0 then -x else x
  if det = 0 ∨ sg un < 0 ∨ sg vn < 0 ∨ sg det < sg un + sg vn then none
  else if cull ∧ 0 < det then none
  else some (ratioCode f32 (-(dot3 n w)) det, ratioCode f16 un det, ratioCode f16 vn det)

/-- Exact values of three codes. -/
def fixed3 (cs : List Nat) : Option (List Int) :=
  match cs.map fixed32 with
  | [some a, some b, some c] => some [a, b, c]
  | _ => none

/-- The triangle test. Of a ray or triangle that is not finite the manual states no result: log 4. -/
def triangleTest (free key : Nat) (cull : Bool) (o d v0 v1 v2 : List Nat) : Option (Nat × Nat × Nat) :=
  match fixed3 o, fixed3 d, fixed3 v0, fixed3 v1, fixed3 v2 with
  | some o, some d, some a, some b, some c => triangleExact cull o d a b c
  | _, _, _, _, _ =>
    if Config.freeChoice free (32 + key) % 2 = 0 then none
    else some ((Config.freeWord free 9 key).toNat, fld (Config.freeWord free 10 key).toNat 0 16,
      fld (Config.freeWord free 10 key).toNat 16 16)

/-! ### Fetches (R357) -/

/-- What ends a traversal early: a fault, or a host page whose translation is wanting. -/
inductive TravStop
  | fault (c : Cause) (addr : Nat)
  | ats (page : Nat)

abbrev TravM (α : Type) := Except TravStop (α × State)

/-- Reads n bytes as a world through the cluster's slice. -/
def travRead (core w : Nat) : Nat → Nat → State → Except TravStop (List Byte × State)
  | _, 0, s => .ok ([], s)
  | va, n + 1, s =>
    match translateEngine s core w (va % 2 ^ 64) needRead with
    | (.bad c, _) => .error (.fault c (va % 2 ^ 64))
    | (.miss, _) => .error (.fault causeNotMapped (va % 2 ^ 64))
    | (.ats p, _) => .error (.ats p)
    | (.ok pa c, s) =>
      let (bs, bad, s) := if c = 1 then
          (ctlRead s w pa 1, ctlPoisoned s w pa 1, ctlNote s w pa 1)
        else sliceRead s core w pa 1
      if bad then .error (.fault (0x0f, 6) (va % 2 ^ 64))
      else match travRead core w (va + 1) n s with
        | .ok (r, s) => .ok (bs.headD 0 :: r, s)
        | .error e => .error e

/-- Word i of 32 bits of a list of bytes. -/
def word32 (bs : List Byte) (i : Nat) : Nat := leVal ((bs.drop (4 * i)).take 4)

def words32 (bs : List Byte) (i n : Nat) : List Nat := (List.range n).map fun k => word32 bs (i + k)

/-! ### Traversal (R279, R360) -/

/-- A query as the unit works on it: the ray, the mode, the committed hit and the stack, whose top is first. -/
structure Trav where
  ray : List Byte
  root : Nat
  mode : Nat
  ct : Nat
  chit : Option Nat := none
  cuv : Nat := 0
  stack : List (Nat × Nat) := []

/-- How a traversal stops: at its end, at a candidate, or nowhere that the manual states (a reference that is
malformed, R357). -/
inductive TravEnd
  | ended
  | candidate (tri t uv : Nat)
  | lost

def emptyRef : Nat := 0x7fffffff

/-- A node's children that the ray enters: reference and t_in, the first to be visited first (R360). -/
def nodeHits (q : Trav) (bs : List Byte) : List (Nat × Nat) :=
  let o := words32 q.ray 0 3
  let d := words32 q.ray 4 3
  let tmin := word32 q.ray 3
  let test (ref : Nat) (lo hi : List Nat) : Option (Nat × Nat) :=
    if ref = emptyRef then none else (boxTest o d tmin q.ct lo hi).map fun t => (ref, t)
  let l := test (word32 bs 3) (words32 bs 0 3) (words32 bs 4 3)
  let r := test (word32 bs 7) (words32 bs 8 3) (words32 bs 11 3)
  match l, r with
  | some a, some b => if numLt (val32 b.2) (val32 a.2) then [b, a] else [a, b]
  | some a, none => [a]
  | none, some b => [b]
  | none, none => []

/-- R278, R360: entries of a stack. -/
def stackRoom (frame : Nat) : Nat := (frame - 64) / 8

/-- The walk from a reference, or from the top of the stack. -/
def travLoop (core w frame nodes tris : Nat) : Nat → Option Nat → Trav → State → Except TravStop (TravEnd × Trav × State)
  | 0, _, q, s => .ok (.lost, q, s)
  | fuel + 1, none, q, s =>
    (match q.stack with
     | [] => .ok (.ended, q, s)
     | (r, _) :: rest => travLoop core w frame nodes tris fuel (some r) { q with stack := rest } s)
  | fuel + 1, some r, q, s =>
    if r / 2 ^ 31 = 1 then
      let i := r % 2 ^ 31
      match travRead core w (tris + 48 * i) 48 s with
      | .error e => .error e
      | .ok (bs, s) =>
        match triangleTest s.free i (q.mode / 4 % 2 == 1) (words32 q.ray 0 3) (words32 q.ray 4 3)
            (words32 bs 0 3) (words32 bs 3 3) (words32 bs 6 3) with
        | none => travLoop core w frame nodes tris fuel none q s
        | some (t, u, v) =>
          if numLe (val32 (word32 q.ray 3)) (val32 t) && numLt (val32 t) (val32 q.ct) then
            (if q.mode / 2 % 2 = 1 ∨ word32 bs 9 % 2 = 1 then
              let q := { q with ct := t, chit := some i, cuv := u + 65536 * v }
              (if q.mode % 2 = 1 then travLoop core w frame nodes tris fuel none q s else .ok (.ended, q, s))
             else .ok (.candidate i t (u + 65536 * v), q, s))
          else travLoop core w frame nodes tris fuel none q s
    else
      match travRead core w (nodes + 64 * r) 64 s with
      | .error e => .error e
      | .ok (bs, s) =>
        match nodeHits q bs with
        | [] => travLoop core w frame nodes tris fuel none q s
        | [a] => travLoop core w frame nodes tris fuel (some a.1) q s
        | a :: b :: _ =>
          if stackRoom frame ≤ q.stack.length then .error (.fault (0x0b, 0) 0)
          else travLoop core w frame nodes tris fuel (some a.1) { q with stack := b :: q.stack } s

/-- Steps that suffice for any tree whose references are well formed. -/
def travFuel : Nat := 2 ^ 34

/-- R357: traverses from a reference or from the stack, reading the tree header first. -/
def traverse (core w frame : Nat) (cur : Option Nat) (q : Trav) (s : State) : Except TravStop (TravEnd × Trav × State) :=
  if q.root % 64 ≠ 0 then .error (.fault (0x0c, 0) q.root)
  else match travRead core w q.root 16 s with
    | .error e => .error e
    | .ok (bs, s) =>
      travLoop core w frame (leVal (bs.take 8)) (leVal ((bs.drop 8).take 8)) travFuel cur q s

/-! ### Frames and headers (R278, R358) -/

/-- R278: the bytes of a frame. -/
def frameBytes (lr : LaunchRec) : Nat := lr.tframe * 64

/-- R278: the view offset of the frame of level l. -/
def frameAt (lr : LaunchRec) (st : Strand) (t l : Nat) : Nat :=
  frameBytes lr * (lr.tdepth * (st.sidx * st.width + t) + l - 1)

/-- R278: the frame, at least its header, lies in the grove's private allocation. -/
def frameOk (lr : LaunchRec) (g : Grove) (st : Strand) (t l : Nat) : Bool :=
  decide (frameAt lr st t l + max (frameBytes lr) 64 ≤ g.size)

/-- The header as the unit reads it back: the query, the pending candidate, and whether it has ended. -/
structure Header where
  q : Trav
  cand : Option (Nat × Nat × Nat)
  ended : Bool

def signTree (x : Nat) : Nat := if fld x 51 1 = 1 then x + (2 ^ 64 - 2 ^ 52) else x

/-- Bytes of the grove's private allocation, each with its poison, as the bank groups serve them (R83). -/
def privRead (s : State) (g : Grove) (w a n : Nat) : List (Byte × Bool) :=
  (List.range n).map fun k =>
    let (bs, bad, _) := scratchRead s g.core w (g.base + a + k) 1
    (bs.headD 0, bad)

def privWrite (s : State) (g : Grove) (w a : Nat) (bs : List Byte) (bad : Bool) : State :=
  (bs.zip (List.range bs.length)).foldl (fun (s : State) (b : Byte × Nat) =>
    scratchWrite s g.core w (g.base + a + b.2) [b.1] bad) s

/-- The bytes of a stack of an open query. -/
def stackBytes (s : State) (g : Grove) (w a : Nat) : Nat := 8 * fld (leVal (((privRead s g w a 64).map (·.1)).drop 56)) 53 11

/-- R336: a header or its stack is poisoned. -/
def headerPoisoned (s : State) (g : Grove) (w a : Nat) : Bool :=
  (privRead s g w a (64 + stackBytes s g w a)).any (·.2)

/-- R358: reads a header and the stack above it. -/
def readHeader (s : State) (g : Grove) (w a : Nat) : Header :=
  let h := (privRead s g w a 64).map (·.1)
  let w5 := word32 h 11
  let w7 := leVal (h.drop 56)
  let depth := fld w7 53 11
  let entries := (privRead s g w (a + 64) (8 * depth)).map (·.1)
  { q :=
      { ray := h.take 32, root := signTree (fld w7 6 46 * 64), mode := fld w7 0 3, ct := word32 h 8
        chit := if word32 h 9 / 2 ^ 31 = 1 then some (word32 h 9 % 2 ^ 31) else none
        cuv := word32 h 10
        stack := ((List.range depth).map fun i => (word32 entries (2 * i), word32 entries (2 * i + 1))).reverse }
    cand := if w5 / 2 ^ 31 = 1 then some (w5 % 2 ^ 31, word32 h 12, word32 h 13) else none
    ended := fld w7 3 1 == 1 }

/-- R358: the bytes of a header, and of its stack. What a hit or a candidate that is not there would hold is not
stated (log 3). -/
def headerBytes (free : Nat) (x : Header) : List Byte :=
  let opt (o : Option Nat) : Nat := match o with
    | some i => 2 ^ 31 + i
    | none => fld (Config.freeWord free 12 0).toNat 0 31
  x.q.ray ++ leList 4 x.q.ct ++ leList 4 (opt x.q.chit) ++ leList 4 x.q.cuv ++ leList 4 (opt (x.cand.map (·.1)))
    ++ leList 4 ((x.cand.map (·.2.1)).getD (Config.freeWord free 12 1).toNat) ++ leList 4 ((x.cand.map (·.2.2)).getD (Config.freeWord free 12 2).toNat)
    ++ leList 8 (x.q.stack.length * 2 ^ 53 + fld (x.q.root / 64) 0 46 * 64 + (if x.ended then 8 else 0) + x.q.mode)
    ++ x.q.stack.reverse.flatMap fun (r, t) => leList 4 r ++ leList 4 t

/-! ### Results (R279, R280) -/

/-- R279: the result quad of a miss; barycentrics of a miss are not stated (log 3). -/
def missQuad (free t : Nat) : List Word := [0, 0, 0, Config.freeWord free 8 t]

/-- R279: the final result of a query. -/
def finalQuad (free t : Nat) (q : Trav) : List Word :=
  match q.chit with
  | some i => [1, BitVec.ofNat 32 i, BitVec.ofNat 32 q.ct, BitVec.ofNat 32 q.cuv]
  | none => missQuad free t

/-- What one thread's query comes to: its quad, its header, its level and its excess count. -/
structure QueryEnd where
  quad : List Word
  header : Option (Nat × Header)
  level : Nat
  excess : Nat
  poison : Bool := false

/-- R279: the end of a traversal. -/
def endTraverse (free t a level : Nat) : TravEnd × Trav → QueryEnd
  | (.ended, q) => { quad := finalQuad free t q, header := some (a, { q := q, cand := none, ended := true }), level := level, excess := 0 }
  | (.candidate i tt uv, q) =>
    { quad := [2, BitVec.ofNat 32 i, BitVec.ofNat 32 tt, BitVec.ofNat 32 uv]
      header := some (a, { q := q, cand := some (i, tt, uv), ended := false }), level := level, excess := 0 }
  | (.lost, q) =>
    { quad := (List.range 4).map fun k => Config.freeWord free 11 (4 * t + k)
      header := some (a, { q := q, cand := none, ended := true }), level := level, excess := 0 }

/-- Runs the query of one thread (R279). -/
def runQuery (lr : LaunchRec) (g : Grove) (st : Strand) (x : Query) (s : State) : Except TravStop (QueryEnd × State) :=
  let th := getThread st x.tix
  match x.ask with
  | .clamp => .ok ({ quad := missQuad s.free x.tix, header := none, level := th.ql, excess := th.qe + 1 }, s)
  | .miss => .ok ({ quad := missQuad s.free x.tix, header := none, level := th.ql, excess := th.qe }, s)
  | .open_ ray root mode =>
    (match traverse st.core st.world (frameBytes lr) (some 0)
        { ray := ray, root := root.toNat, mode := mode, ct := word32 ray 7, cuv := (Config.freeWord s.free 13 x.tix).toNat } s with
     | .error e => .error e
     | .ok (e, q, s) =>
       .ok ({ endTraverse s.free x.tix (frameAt lr st x.tix (th.ql + 1)) (th.ql + 1) (e, q) with poison := x.poison }, s))
  | .next accept =>
    let a := frameAt lr st x.tix th.ql
    let h := readHeader s g st.world a
    let bad := headerPoisoned s g st.world a
    let s := noteView s g.core st.world g a (64 + stackBytes s g st.world a)
    let q := match h.cand with
      | some (i, t, uv) => if accept then { h.q with ct := t, chit := some i, cuv := uv } else h.q
      | none => h.q
    if h.ended || (h.cand.isSome && accept && h.q.mode % 2 == 0) then
      .ok ({ quad := finalQuad s.free x.tix q, header := some (a, { q := q, cand := none, ended := true }), level := th.ql, excess := 0
             poison := bad }, s)
    else
      match traverse st.core st.world (frameBytes lr) none q s with
      | .error e => .error e
      | .ok (e, q, s) => .ok ({ endTraverse s.free x.tix a th.ql (e, q) with poison := bad }, s)

/-- The results of an issue's queries in step order, up to the first that does not end well. -/
def runQueries (lr : LaunchRec) (g : Grove) (st : Strand) :
    List Query → List (Query × QueryEnd) → State → List (Query × QueryEnd) × Option (Nat × TravStop) × State
  | [], acc, s => (acc, none, s)
  | x :: r, acc, s =>
    match runQuery lr g st x s with
    | .error e => (acc, some (x.tix, e), s)
    | .ok (e, s) => runQueries lr g st r (acc ++ [(x, e)]) s

/-- A group of registers holds poison (R336). -/
def poisonGroup (st : Strand) (t : Nat) (rd : Reg) (n : Nat) : Strand :=
  { st with poisoned := (List.range n).filterMap (fun k => regKey st t (groupReg rd k)) ++ st.poisoned }

/-- Writes a thread's result, header, level and excess count (R280), poisoned where what its query read is (R336). -/
def writeQuery (g : Grove) (x : Query) (e : QueryEnd) (s : State) (st : Strand) : State × Strand :=
  let th := getThread st x.tix
  let st := setThread st x.tix { th with ql := e.level, qe := e.excess }
  let st := writeGroup st x.tix x.rd e.quad
  let st := if e.poison then poisonGroup st x.tix x.rd 4 else st
  (match e.header with
   | some (a, h) => privWrite s g st.world a (headerBytes s.free h) e.poison
   | none => s, st)

def writeQueries (g : Grove) (rs : List (Query × QueryEnd)) (s : State) (st : Strand) : State × Strand :=
  rs.foldl (fun (s, st) (x, e) => writeQuery g x e s st) (s, st)

/-- R280: threads from k on have traversed nothing: they stand at the rq again. -/
def rewindQueries (st : Strand) (k : Nat) : Strand :=
  match st.queries with
  | [] => st
  | x :: _ =>
    let back := (st.queries.map (·.tix) ++ st.rqPassed).filter fun t => decide (k ≤ t)
    { moveThreads st back x.pc with queries := [], rqPassed := [], interrupted := true, step := k }

/-- The issue's traversals return (R280): the strand is eligible again, or faults at a thread-step. -/
def returnTraversals (s : State) (st : Strand) (g : Grove) : State :=
  let lr := strandRecord s st
  let pc := ((st.queries.head?).map (·.pc)).getD 0
  match runQueries lr g st st.queries [] s with
  | (_, some (_, .ats p), _) => requestAts s st.world p
  | (rs, some (k, .fault c addr), s) =>
    let (s, st) := writeQueries g rs s st
    let st := { rewindQueries st k with rbWait := false }
    takeException s st { cls := c.1, cause := c.2, pc := pc, addr := BitVec.ofNat 64 addr, step := k }
  | (rs, none, s) =>
    let (s, st) := writeQueries g rs s st
    let stop := st.stopAfter
    let st := { st with queries := [], rqPassed := [], status := .ready, stopAfter := none, runHead := false }
    let s := stepped (setStrand s (if st.rbWait then newRun s st else st)) st.home pc
    match stop, getStrand s st.home with
    | some f, some st => if isFaulted st then s else takeException s st f
    | _, _ => s

/-- R288: a strand that is to be saved has stopped inside an rq: the traversals of its earlier threads return, and those
threads have their results; a thread whose traversal faults, and those after it, traverse again when the strand
resumes, with the fault taken now where the strand has none. -/
def returnEarly (s : State) (st : Strand) (g : Grove) : State :=
  let pc := ((st.queries.head?).map (·.pc)).getD 0
  match runQueries (strandRecord s st) g st st.queries [] s with
  | (_, some (_, .ats p), _) => requestAts s st.world p
  | (rs, some (k, .fault c addr), s) =>
    let (s, st) := writeQueries g rs s st
    let st := rewindQueries st k
    if isFaulted st then setStrand s st
    else takeException s st { cls := c.1, cause := c.2, pc := pc, addr := BitVec.ofNat 64 addr, step := k }
  | (rs, none, s) =>
    let (s, st) := writeQueries g rs s st
    setStrand s { st with queries := [], rqPassed := [] }

/-- The traversals of an issue, each run to its end for what it does to the device; or the host page that one waits for. -/
def settleQueries (lr : LaunchRec) (g : Grove) (st : Strand) : List Query → State → Except Nat State
  | [], s => .ok s
  | x :: r, s =>
    match runQuery lr g st x s with
    | .ok (_, s) => settleQueries lr g st r s
    | .error (.ats p) => .error p
    | .error (.fault ..) => settleQueries lr g st r s

/-- R288, R330: the traversals of a strand that has been killed, or is to be restarted, complete, and their results are
dropped. -/
def dropQueries (s : State) (st : Strand) (g : Grove) : State :=
  match settleQueries (strandRecord s st) g st st.queries s with
  | .error p => requestAts s st.world p
  | .ok s => setStrand s { st with queries := [], rqPassed := [], stopAfter := none }

/-- Its results are wanted by none. -/
def queriesDropped (st : Strand) : Bool := st.killed || st.status == .restarting

/-- traversalReturn (R280, R288, R330). -/
def execTraversalReturn (strand : Nat) (s : State) : Host.Outcome State Fault Refusal :=
  match getStrand s strand with
  | none => .next s
  | some st =>
    match st.status, getGrove s st.grove with
    | .parked .traversal, some g => .next (chargeBytes (returnTraversals s st g) st.world st.owner)
    | _, some g =>
      if queriesDropped st && !st.queries.isEmpty then .next (chargeBytes (dropQueries s st g) st.world st.owner)
      else if st.toSave && st.interrupted && !st.queries.isEmpty then .next (chargeBytes (returnEarly s st g) st.world st.owner)
      else .next s
    | _, _ => .next s

/-! ### The instructions (R279) -/

def needsTraversal (x : Query) : Bool :=
  match x.ask with
  | .open_ .. | .next _ => true
  | _ => false

/-- Hands a query to the unit at its thread-step. -/
def ask (i : Issue) (rd : Reg) (t : Nat) (a : RqAsk) (s : State) (st : Strand) (poison : Bool := false) : StepOut :=
  .ok s { st with queries := st.queries ++ [{ tix := t, pc := i.pc, rd := rd, ask := a, poison := poison }] } none none

def rqOpenStep (mode : Nat) (rd ra rb : Reg) (i : Issue) (s : State) (st : Strand) (t : Nat) : StepOut :=
  let th := getThread st t
  if th.ql = i.lr.tdepth then
    (if !i.lr.tclamp || th.qe == 255 then .fault s st (0x0a, 0) 0 0 else ask i rd t .clamp s st)
  else
    stepRecord s st (readReg s.free st t ra).toNat 32 16
      (fun s _ bs => ask i rd t (.open_ (bs.map (·.1)) (readPair s.free st t rb) mode) s st (bs.any (·.2)))
      (fun g => if frameOk i.lr g st t (th.ql + 1) then none else some (frameAt i.lr st t (th.ql + 1)))

def rqNextStep (rd ra : Reg) (i : Issue) (s : State) (st : Strand) (t : Nat) : StepOut :=
  let th := getThread st t
  if 0 < th.qe ∨ th.ql = 0 then ask i rd t .miss s st
  else match getGrove s st.grove with
    | some g =>
      if frameOk i.lr g st t th.ql then ask i rd t (.next (readReg s.free st t ra != 0)) s st
      else .fault s st (2, 5) 0 (BitVec.ofNat 64 (frameAt i.lr st t th.ql))
    | none => .fault s st (2, 5) 0 0

/-- The end of an rq issue's last thread-step (R280): the strand parks, or has its results where no traversal is
needed. -/
def concludeRq (i : Issue) (h : Hd) : StepsOut → State
  | .done s st cycles =>
    let passed := i.present.filter fun t => !i.active.contains t
    let st := moveGuardFalse i st
    if st.queries.any needsTraversal then
      stopIssue s i { clearStep st with status := .parked .traversal, rqPassed := passed, rbWait := h.rb } cycles
    else match getGrove s st.grove with
      | some g =>
        let (rs, _, s) := runQueries i.lr g st st.queries [] s
        let (s, st) := writeQueries g rs s st
        endIssue s i h { st with queries := [] } cycles
      | none => endIssue s i h { st with queries := [] } cycles
  | .after s st f none cycles =>
    -- the watchpoint stop of the last step follows the results (R334)
    let passed := i.present.filter fun t => !i.active.contains t
    let st := moveGuardFalse i st
    stopIssue s i { clearStep st with status := .parked .traversal, rqPassed := passed, rbWait := h.rb, stopAfter := some f } cycles
  | o => concludeSteps i h o

def rqInsn (s : State) (h : Hd) (srcs : List Reg) (f : Issue → State → Strand → Nat → StepOut) :
    Host.Outcome State Fault Refusal :=
  match getStrand s s.issuer with
  | none => .fault .noStrand
  | some _ =>
    match issueOf s h.guard with
    | none => .next s
    | some i =>
      match preChecks s i [] with
      | some p => .next (preFault s i.st i.pc p)
      | none => .next (concludeRq i h (runSteps i srcs (f i) i.active i.from_ i.spent s i.st))

/-- rq.open (R279): the mode is the selector, [2] cull, [1] opaque, [0] closest. -/
def execRqOpen (h : Hd) (cull opq closest : Bool) (rd ra rb : Reg) (s : State) : Host.Outcome State Fault Refusal :=
  rqInsn s h ([ra] ++ spanRegs true rb)
    (rqOpenStep ((if cull then 4 else 0) + (if opq then 2 else 0) + (if closest then 1 else 0)) rd ra rb)

/-- rq.next (R279). -/
def execRqNext (h : Hd) (rd ra : Reg) (s : State) : Host.Outcome State Fault Refusal :=
  rqInsn s h [ra] (rqNextStep rd ra)

/-- rq.close (R279). -/
def execRqClose (h : Hd) (s : State) : Host.Outcome State Fault Refusal :=
  perThread s h (fun _ => []) [] fun _ s st t =>
    let th := getThread st t
    .ok s (setThread st t (if 0 < th.qe then { th with qe := th.qe - 1 } else { th with ql := th.ql - 1 })) none none

end Sys2Proof.Machine
end

