-- ==== Sys2Proof/Machine/Neural.lean ====
section
/-! DEFINITION. Neural requests: nreq, nget, batches and their completion (R281 to R283). -/

namespace Sys2Proof.Machine

/-! ### Net records (R281) -/

/-- A net record: weight slot, relu, weight-store offsets of its layers; `bad` when a reserved field is nonzero or a
word of an unused layer is. -/
structure Net where
  wslot : Nat
  relu : Bool
  wofs : List Nat
  bad : Bool

def parseNet (bs : List Byte) : Net :=
  let w (i : Nat) : Nat := leVal ((bs.drop (8 * i)).take 8)
  let layers := fld (w 0) 0 2 + 1
  { wslot := fld (w 0) 9 3, relu := fld (w 0) 8 1 == 1
    wofs := (List.range layers).map fun i => fld (w (1 + i)) 0 30
    bad := fld (w 0) 12 52 != 0 || fld (w 0) 2 6 != 0 || (List.range 4).any (fun i => fld (w (1 + i)) 30 34 != 0)
      || (List.range 4).any (fun i => decide (layers ≤ i) && w (1 + i) != 0) || [5, 6, 7].any fun i => w i != 0 }

/-- R281: the formats of weights. -/
def netFormat : Fmt → Bool
  | .fp16 | .bf16 | .e4m3 | .e5m2 | .e3m2 | .e2m3 | .e2m1 => true
  | _ => false

/-- R281: the slot of a record's weights, where it may be used. -/
def netSlot (lr : LaunchRec) (n : Net) : Option Slot :=
  match slotOf lr n.wslot with
  | some x => if netFormat x.fmt ∧ x.ssrc ≠ 1 then some x else none
  | none => none

/-! ### nreq and nget (R282) -/

/-- The lowest free ticket of a thread. -/
def freeTicket (th : Thread) : Option Nat := (List.range 4).find? fun k => !th.tickets.any (·.no == k)

/-- Requests that hold a slot of a limb. -/
def slotsUsed (s : State) (core limb : Nat) : Nat := (s.nreqs.filter fun r => r.core == core && r.limb == limb).length

/-- A check at a thread-step, stopping the strand there. -/
def chkAt (s : State) (st : Strand) (k : StepOut) : Chk → StepOut
  | .pass => k
  | .fault c d a => .fault s st c d (BitVec.ofNat 64 a)
  | .park l => .park s st (.line st.core l)

def alignChk (a n : Nat) : Chk := if a % n = 0 then .pass else .fault (0x0c, 0) 0 a

def lineChk (s : State) (g : Grove) (a n : Nat) : Chk :=
  match absentLine s g a n with
  | some l => .park l
  | none => .pass

/-- R289: WS_RANGE of the weights of every layer, where their format is known. A layer is one read, which must lie within
one region of the world: whether it may straddle two that adjoin is left open (R31; log 32). -/
def weightChk (s : State) (st : Strand) (x : Option Slot) (n : Net) : Chk :=
  match x with
  | none => .pass
  | some x =>
    match n.wofs.find? fun o => o % 8 != 0 with
    | some o => .fault (0x0c, 0) 0 o
    | none =>
      match n.wofs.find? fun o => !weightOk s (dieOf st.core) st.world o (32 * lineBytes x.fmt 32) with
      | some o => .fault (2, 6) 0 o
      | none => .pass

def netChk (x : Option Slot) (n : Net) : Chk := if n.bad ∨ x.isNone then .fault (5, 3) n.wslot 0 else .pass

/-- A thread's request is queued (R282); a poisoned net record poisons its output (R268). -/
def queueRequest (i : Issue) (rd : Reg) (a b c : Nat) (n : Net) (bad : Bool) (s : State) (st : Strand) (t : Nat) : StepOut :=
  let th := getThread st t
  match freeTicket th with
  | none => .ok s (writeReg st t rd 0xffffffff) none none
  | some k =>
    if 64 ≤ slotsUsed s st.core st.limb then .park s st (.requestSlot st.core st.limb)
    else
      let r : NReq :=
        { id := s.nextId, core := st.core, limb := st.limb, world := st.world, strand := st.home, grove := st.grove, tix := t
          ticket := k, input := a, output := c, net := b, wofs := n.wofs, relu := n.relu
          slot := (slotWords i.lr n.wslot).1, fmode := st.fmode, queued := s.time, poison := bad }
      let st := setThread st t { th with tickets := th.tickets ++ [{ no := k, done := false, poison := false }] }
      .ok { s with nreqs := s.nreqs ++ [r], nextId := s.nextId + 1 } (writeReg st t rd (BitVec.ofNat 32 k)) none none

/-- nreq at a thread-step (R282, R289). A record that a bank group refuses is recorded (R83), but where the step parks, and reads
it again when it resumes. A watchpoint matches the record's bytes, and those of its input and its output (R334; log 25). -/
def nreqStep (rd ra rb rc : Reg) (i : Issue) (s : State) (st : Strand) (t : Nat) : StepOut :=
  let a := (readReg s.free st t ra).toNat
  let b := (readReg s.free st t rb).toNat
  let c := (readReg s.free st t rc).toNat
  match getGrove s st.grove with
  | none => .fault s st (2, 5) 0 (BitVec.ofNat 64 a)
  | some g =>
    let ranges := (alignChk a 8).andThen <| (alignChk b 64).andThen <| (alignChk c 8).andThen <|
      (rangeChk s g false a 64).andThen <| (rangeChk s g false b 64).andThen <| (rangeChk s g false c 64).andThen
        (lineChk s g b 64)
    match ranges with
    | .pass =>
      let rs := recordBytes s st g b 64
      let n := parseNet (rs.map (·.1))
      let x := netSlot i.lr n
      let noted := noteView s st.core st.world g b 64
      let chk := (weightChk s st x n).andThen <| (rangeChk s g true c 64).andThen <| (netChk x n).andThen <|
        (lineChk s g a 64).andThen (lineChk s g c 64)
      chkAt (if chk.isPark then s else noted) st
        ((queueRequest i rd a b c n (rs.any (·.2)) noted st t).watched
          (firstMatch (watchMatch s st 1 false true b 64)
            (firstMatch (watchMatch s st 1 false true a 64) (watchMatch s st 1 true false c 64)))) chk
    | k => chkAt s st (.ok s st none none) k

/-- nreq (R282). -/
def execNreq (h : Hd) (rd ra rb rc : Reg) (s : State) : Host.Outcome State Fault Refusal :=
  byDest s h rd (fun _ => []) [ra, rb, rc] (nreqStep rd ra rb rc)

def ngetStep (rd ra : Reg) (_ : Issue) (s : State) (st : Strand) (t : Nat) : StepOut :=
  let th := getThread st t
  let k := (readReg s.free st t ra).toNat
  match th.tickets.find? (·.no == k) with
  | none => .ok s (writeReg st t rd 1) none none
  | some x =>
    if x.done then
      let st := setThread st t { th with tickets := th.tickets.filter (·.no != k) }
      .ok s (writeReg st t rd (if x.poison then 2 else 0)) none none
    else .park s st (.ticket t k)

/-- nget (R282). -/
def execNget (h : Hd) (rd ra : Reg) (s : State) : Host.Outcome State Fault Refusal :=
  byDest s h rd (fun _ => []) [ra] (ngetStep rd ra)

/-! ### Batches (R282) -/

/-- The requests of a limb that wait for a batch. -/
def waitingRequests (s : State) (core limb : Nat) : List NReq :=
  s.nreqs.filter fun r => r.core == core && r.limb == limb && r.started.isNone

/-- Those of one world and one net record offset, oldest first. -/
def sameNet (rs : List NReq) (r : NReq) : List NReq := rs.filter fun x => x.world == r.world && x.net == r.net

/-- R282: the batch that starts now: 32 are pending, or the oldest has waited 512 core cycles. -/
def nextBatch (s : State) (core limb : Nat) : List NReq :=
  let rs := waitingRequests s core limb
  match rs.find? fun r =>
      decide (32 ≤ (sameNet rs r).length) || decide (512000 ≤ (s.time - r.queued) * s.power.mhz) with
  | none => []
  | some r => (sameNet rs r).take 32

/-- The input of a request as its batch starts; its strand's own stores come first (R11, R282). -/
def startRequest (s : State) (r : NReq) : NReq :=
  match getGrove s r.grove, getStrand s r.strand with
  | some g, some st =>
    let bs := recordBytes s st g r.input 64
    { r with started := some (bs.map (·.1)), poison := r.poison || bs.any (·.2) }
  | _, _ => { r with started := some (List.replicate 64 0) }

/-- R83: inputs that a bank group refuses to a batch are recorded. -/
def noteInputs (s : State) (rs : List NReq) : State :=
  rs.foldl (fun (s : State) (r : NReq) => match getGrove s r.grove with
    | some g => noteView s r.core r.world g r.input 64
    | none => s) s

/-- nreqBatchStart (R282): between two matrix operations. -/
def execNreqBatchStart (core limb : Nat) (s : State) : Host.Outcome State Fault Refusal :=
  if (s.mx.any fun o => o.core == core && o.limb == limb && o.running) || batchRunning s core limb then .next s
  else
    let batch := nextBatch s core limb
    let ids := batch.map (·.id)
    .next { noteInputs s batch with nreqs := s.nreqs.map fun r => if ids.contains r.id then startRequest s r else r }

/-! ### Layers (R282) -/

/-- A weight W[k][n] of a layer, with its poison. -/
def netWeight (s : State) (r : NReq) (x : Slot) (wofs k n : Nat) : Elem :=
  let o : MxOp := { id := 0, core := r.core, limb := r.limb, strand := 0, grove := 0, world := r.world, kind := .mma, tile := 0, fmode := r.fmode }
  some (mxScaled s o x 0 (mxDecoded s o true x.fmt (wofs + k * lineBytes x.fmt 32) 32 n))

/-- R282: y rounded to BF16, after relu where it applies. -/
def layerOut (fmode : Word) (relu : Bool) (y : Nat) : Nat :=
  let y := if relu then (fMinMax f32 fmode true y 0).1 else y
  (encodeFmt .bf16 0 fmode (decodeFlush f32 fmode y)).1

/-- One layer: BF16 codes in and out, with their poison. -/
def runLayer (s : State) (r : NReq) (x : Slot) (wofs : Nat) (relu : Bool) (xs : List (Nat × Bool)) : List (Nat × Bool) :=
  (List.range 32).map fun n =>
    let pairs : List (Elem × Elem) := (List.range 32).map fun k =>
      let (c, p) := xs.getD k (0, false)
      let v := decodeFlush bf16 r.fmode c
      (some (v, isSignalling v, p), netWeight s r x wofs k n)
    let bad := pairs.any fun (a, b) => elemPoison a || elemPoison b
    (layerOut r.fmode relu (fp32Element r.fmode 0 [pairs.take 16, pairs.drop 16]).1, bad)

def runLayers (s : State) (r : NReq) (x : Slot) : List Nat → List (Nat × Bool) → List (Nat × Bool)
  | [], xs => xs
  | [w], xs => runLayer s r x w false xs
  | w :: ws, xs => runLayers s r x ws (runLayer s r x w r.relu xs)

/-- The output is written to scratch through the grove's view. -/
def writeOutput (s : State) (g : Grove) (r : NReq) (ys : List (Nat × Bool)) : State :=
  (ys.zip (List.range ys.length)).foldl (fun s ((y, bad), n) =>
    match viewMap s g (r.output + 2 * n) with
    | some (p, false) => scratchWrite s g.core r.world p (leList 2 y) bad
    | _ => s) s

/-- The weights of no layer lie in a bank group that refreshes now (R56). -/
def weightsReady (s : State) (r : NReq) (x : Slot) : Bool :=
  r.wofs.all fun o => (List.range 32).all fun k => !lineRefreshing s (o + k * lineBytes x.fmt 32) (lineBytes x.fmt 32)

/-- A thread's ticket of a request that has completed. -/
def ticketDone (r : NReq) (poison : Bool) (th : Thread) : Thread :=
  { th with tickets := th.tickets.map fun x => if x.no = r.ticket then { x with done := true, poison := poison } else x }

/-- A request has completed: its ticket, where the thread still holds it, and where the strand's run began with it (R321). -/
def closeTicket (s : State) (r : NReq) (poison : Bool) : State :=
  match getStrand s r.strand with
  | none => s
  | some st =>
    let st := setThread st r.tix (ticketDone r poison (getThread st r.tix))
    setStrand s { st with
      runEntry := st.runEntry.map fun e =>
        if r.id < e.mark then { e with threads := e.threads.modify r.tix (ticketDone r poison) } else e }

/-- R220, R282: what its strand accessed of the output before the request comes first. -/
def outputWaits (s : State) (g : Grove) (r : NReq) : Bool :=
  s.pend.any fun a => a.strand == r.strand && decide (a.id < r.id) && match a.place with
    | .scratch off => (List.range 64).any fun k => match viewMap s g (r.output + k) with
      | some (p, _) => decide (off ≤ p) && decide (p < off + a.len)
      | none => false
    | _ => false

/-- nreqComplete (R282, R283). -/
def execNreqComplete (core limb id : Nat) (s : State) : Host.Outcome State Fault Refusal :=
  match s.nreqs.find? fun r => r.core == core && r.limb == limb && r.id == id with
  | none => .next s
  | some r =>
    match r.started with
    | none => .next s
    | some bs =>
      let x := mxSlot r.slot
      let s' := { s with nreqs := s.nreqs.filter (·.id != id) }
      if r.dropped then .next s'
      else if !weightsReady s r x then .next s
      else
        let ys := runLayers s r x r.wofs ((List.range 32).map fun k => (leVal ((bs.drop (2 * k)).take 2), r.poison))
        match getGrove s' r.grove with
        | none => .next s'
        | some g =>
          if outputWaits s g r then .next s else .next (closeTicket (writeOutput s' g r ys) r (ys.any (·.2)))

end Sys2Proof.Machine
end

