-- ==== Sys2Proof/Machine/System.lean ====
section
/-! DEFINITION. System instructions: mfs, mts, bkpt, trap and fret (R110, R111, R284 to R287), and what fret does to
a stopped strand (R330). -/

namespace Sys2Proof.Machine

/-! ### Special registers (R110) -/

/-- R18: the linear local index of a thread. -/
def localIndex (st : Strand) (t : Nat) : Nat := st.sidx * st.width + t

/-- R18, R353: coordinate k of a thread within its grove; 0 in a pixel strand. -/
def localCoord (lr : LaunchRec) (st : Strand) (t k : Nat) : Nat :=
  if isPixel st.kind then 0
  else
    let l := localIndex st t
    match k with
    | 0 => l % lr.x
    | 1 => l / lr.x % lr.y
    | _ => l / (lr.x * lr.y)

/-- R18, R353: coordinate k of the strand's grove in the grid. -/
def groveCoord (s : State) (st : Strand) (k : Nat) : Nat :=
  if isPixel st.kind then 0
  else match getGrove s st.grove with
    | none => 0
    | some g => (match k with
      | 0 => g.gx
      | 1 => g.gy
      | _ => g.gz)

def shapeOf (lr : LaunchRec) : Nat → Nat
  | 0 => lr.x
  | 1 => lr.y
  | _ => lr.z

/-- R18: global index k of a thread. -/
def globalIndex (s : State) (lr : LaunchRec) (st : Strand) (t k : Nat) : Nat :=
  if isPixel st.kind then 0 else (groveCoord s st k * shapeOf lr k + localCoord lr st t k) % 2 ^ 32

/-- The counters that a strand's world has on a channel of its core (R59, R62). -/
def channelOf (s : State) (st : Strand) (ch : Nat) : Channel := getChannel s st.core ch st.world

/-- R57: the first tick after a tick that is a multiple of 2,000. -/
def wsNext (time : Nat) : Nat := (time / 2000 + 1) * 2000

/-- R62: the error bits. -/
def errorBits (s : State) (st : Strand) : Nat :=
  ((List.range 4).map fun c => if (channelOf s st c).err then 2 ^ c else 0).foldl (· + ·) 0

/-- R110: the value of a special register for a thread; a 64-bit one whole. -/
def readSpecial (s : State) (lr : LaunchRec) (st : Strand) (t n : Nat) : Nat :=
  let th := getThread st t
  match n with
  | 0x00 => t
  | 0x01 => st.sidx
  | 0x02 | 0x03 | 0x04 => localCoord lr st t (n - 2)
  | 0x05 | 0x06 | 0x07 => globalIndex s lr st t (n - 5)
  | 0x08 | 0x09 | 0x0a => groveCoord s st (n - 8)
  | 0x0b => st.world
  | 0x0c => st.owner
  | 0x0d => st.width
  | 0x10 => s.time % 2 ^ 64
  | 0x12 => wsNext s.time % 2 ^ 64
  | 0x14 => st.fmode.toNat
  | 0x15 => st.fstat.toNat
  | 0x16 => errorBits s st
  | 0x18 | 0x1a | 0x1c | 0x1e => (channelOf s st ((n - 0x18) / 2)).completed % 2 ^ 64
  | 0x20 => st.slim.toNat
  | 0x22 => th.floor
  | 0x23 => th.height
  | 0x24 => th.fsize
  | 0x25 => st.depth
  | 0x26 => th.meet.toNat
  | 0x27 => th.mstack.length
  | _ => 0

def mfsStep (rd : Reg) (n : Nat) (i : Issue) (s : State) (st : Strand) (t : Nat) : StepOut :=
  let v := readSpecial s i.lr st t n
  .ok s (if srWide.contains n then writePair st t rd (BitVec.ofNat 64 v) else writeReg st t rd (BitVec.ofNat 32 v)) none none

/-- mfs (R111, R284). -/
def execMfs (h : Hd) (rd : Reg) (num : Fin 40) (s : State) : Host.Outcome State Fault Refusal :=
  byDest s h rd (fun _ => []) [] (mfsStep rd num)

/-- R149: what a write leaves in `fmode`. -/
def fmodeWritten (v : Word) : Word :=
  let v := v &&& 0xff7
  if 6 ≤ fld v.toNat 0 3 then v &&& 0xff0 else v

/-- R62: the error bits that a write of a 1 clears. -/
def clearErrors (s : State) (st : Strand) (v : Word) : State :=
  { s with channels := s.channels.map fun c =>
      if c.core = st.core ∧ c.world = st.world ∧ v.getLsbD c.ch = true then { c with err := false } else c }

def mtsStep (rd : Reg) (n : Nat) (_ : Issue) (s : State) (st : Strand) (t : Nat) : StepOut :=
  match n with
  | 0x14 => .ok s { st with fmode := fmodeWritten (readReg s.free st t rd) } none none
  | 0x15 => .ok s { st with fstat := readReg s.free st t rd &&& 0x1f } none none
  | 0x16 => .ok (clearErrors s st (readReg s.free st t rd)) st none none
  | 0x20 => .ok s { st with slim := readPair s.free st t rd } none none
  | _ => .ok s st none none

/-- mts (R111, R284). -/
def execMts (h : Hd) (rd : Reg) (num : Fin 40) (s : State) : Host.Outcome State Fault Refusal :=
  onceUniform s h (fun _ => []) (spanRegs (srWide.contains num) rd) (fun _ => 1) (mtsStep rd num)

/-! ### Stopping (R285, R286) -/

/-- bkpt (R285): a breakpoint at every issue. Where a hardware breakpoint (R334) stands at its PC too, which of the two is
recorded is a free choice (log 25). -/
def execBkpt (h : Hd) (s : State) : Host.Outcome State Fault Refusal :=
  perThread s h (fun i =>
    [if (breakpointAt s i.st i.pc).isSome && Config.freeChoice s.free 47 % 2 == 1 then none else some (0x0e, 1, 0)]) []
    fun _ s st _ => .ok s st none none

/-- trap (R286). -/
def execTrap (h : Hd) (ra : Reg) (s : State) : Host.Outcome State Fault Refusal :=
  perThread s h (fun _ => []) [ra] fun _ s st t => .fault s st (0x0e, 3) (fld (readReg s.free st t ra).toNat 0 16) 0

/-! ### Acting on a stopped strand (R287, R330) -/

/-- R329: the strand that a handle names. -/
def findHandle (s : State) (h : Nat) : Option Strand := s.strands.find? fun st => handleOf st.home st.gen == h

/-- Every thread exits (R192, R283), and nothing that the strand was doing goes on. -/
def exitAll (s : State) (st : Strand) : State × Strand :=
  let st := { st with
    threads := st.threads.map fun th => { th with exited := true, tickets := [] }
    status := .ready, interrupted := false, step := 0, partTag := none, rqPassed := [], stopAfter := none, rbWait := false
    outs := st.outs.filter (·.left != 0) }
  ({ s with nreqs := s.nreqs.map fun r => if r.strand = st.home then { r with dropped := true } else r }, st)

/-- Its launch completes with KILLED (R309). -/
def markKilled (s : State) (launch : Nat) : State :=
  match getLaunch s launch with
  | some l => setLaunch s { l with killed := true }
  | none => s

/-- KILLING A STRAND (R330): it exits, leaves its barriers, and a sibling that waits for it in a graft goes on. -/
def killStrand (s : State) (st : Strand) : State :=
  let (s, st) := exitAll s { st with killed := true }
  let s := ungrant (setStrand s st) st
  barrierRecheck (markKilled (releaseGrafts s st) st.launch) st.launch

/-- R287: the status of an action, and its effect (R330). -/
def fretAction (s : State) (handle action : Nat) : Nat × State :=
  if 2 < action then (4, s)
  else match findHandle s handle with
    | none => (2, s)
    | some x =>
      if !isFaulted x then (1, s)
      else if action = 0 then (0, resumeStrand s x)
      else if action = 2 then (0, killStrand s x)
      else if (strandRecord s x).preempt ≠ 1 then (3, s)
      else (0, setStrand s { x with status := .restarting })

def fretStep (rd ra rb : Reg) (_ : Issue) (s : State) (st : Strand) (t : Nat) : StepOut :=
  let (r, s) := fretAction s (readReg s.free st t ra).toNat (readReg s.free st t rb).toNat
  .ok s (writeLead st t rd (BitVec.ofNat 32 r)) none none

/-- fret (R287): only a strand of world 0 may. -/
def execFret (h : Hd) (rd ra rb : Reg) (s : State) : Host.Outcome State Fault Refusal :=
  onceUniform s h (fun i => [if i.st.world ≠ 0 then some (2, 0x0b, 0) else none]) [ra, rb] (fun _ => 1) (fretStep rd ra rb)

end Sys2Proof.Machine
end

