-- ==== Sys2Proof/Machine/Strands.lean ====
section
/-! DEFINITION. Events of strands and lanes: walks that complete, parks that end, grants, forced issues, records that
waited, halts that are released, restarts, kills by control errors, the fill epoch, and the end of strands and groves
(R43, R51, R56, R61, R101, R126, R129, R131, R192, R233, R303, R326, R330, R335, R336). -/

namespace Sys2Proof.Machine

/-! ### Walks (R43) -/

/-- The PC at which a parked strand stands. -/
def parkedPc (s : State) (st : Strand) : DWord := ((issuePc (strandRecord s st).code st)).getD 0

/-- A strand whose walk failed faults at its own step (R43, R44). -/
def walkFault (s : State) (st : Strand) (c : Cause) (need va : Nat) : State :=
  takeException s st
    { cls := c.1, cause := c.2, pc := parkedPc s st, addr := BitVec.ofNat 64 va, step := st.step, pre := need == needFetch }

/-- One waiter of a walk: its core's TLB is filled, or it faults. -/
def finishWaiter (k : Walk) (s : State) (x : Nat × Nat × Nat) : State :=
  match getStrand s x.1 with
  | none => s
  | some st =>
    if st.status ≠ .parked (.walk k.id) then s
    else match walkFill s st.core k.world x.2.2 x.2.1 with
      | .ok s => s
      | .error c => walkFault (noteTables s k.world x.2.2) st c x.2.1 x.2.2

/-- R41: a cluster's walker has 16 walks under way. -/
def walkRuns (s : State) (k : Walk) : Bool :=
  ((s.walks.filter (·.cluster == k.cluster)).take 16).any (·.id == k.id)

/-- walkComplete (R43). -/
def execWalkComplete (id : Nat) (s : State) : Host.Outcome State Fault Refusal :=
  match s.walks.find? (·.id == id) with
  | none => .next s
  | some k =>
    if walkRuns s k then
      .next (k.waiters.foldl (finishWaiter k) { s with walks := s.walks.filter (·.id != id) })
    else .next s

/-! ### Parks (R131) -/

/-- The cause of a park has cleared. -/
def parkCleared (s : State) (st : Strand) : Park → Bool
  | .walk id => !s.walks.any (·.id == id)
  | .ats p _ _ => !(s.ats.any fun a => a.world == st.world && a.page == p && a.host.isNone)
      && !(s.atsinvs.any fun i => i.world == st.world && decide (i.base ≤ p * 4096 + 4095) && decide (p * 4096 < i.base + i.len))
  | .line core line => mapGetD s.writers (core * 8192 + line) 0 == 0
  | .counterFull cls =>
    if cls = 2 then decide (st.chains < 63) else if cls = 3 then decide (st.matrix < 63) else decide (outstanding st cls < 63)
  | .matrixQueue core limb => decide ((s.mx.filter fun o => o.core == core && o.limb == limb && !o.running).length < 16)
  | .acquire => !acquirePending s st
  | .release => !owesRelease s st
  | .budget => !bytesExhausted s st.world st.owner
  | .drain => st.outs.isEmpty
  | .drainStores => outstanding st 1 == 0
  | .channel core ch => decide (channelLoad s core ch < 64)
  | .chains => decide (st.chains < 63)
  | .detach name =>
    outstanding st 1 == 0 && (match getGrove s st.grove with
      | some g => (match heldSegment s g name with
        | some x => !s.chains.any (chainTouches g x)
        | none => true)
      | none => true)
  | .eviction name =>
    (match findSegment s st.world name with
     | some x => x.state != .evicting
        && ((roomWithout s st.core x []).isSome || !(storedOn s st.core).any (·.state == .evicting))
     | none => true)
  | .requestSlot core limb => decide (slotsUsed s core limb < 64)
  | .ticket t no => !((getThread st t).tickets.any fun x => x.no == no && !x.done)
  | .traversal => false

/-- R387, R396: the access that the strand parked at, where it can be made no more because its world has come to ERROR. -/
def parkDenied (s : State) (st : Strand) : Park → Option (Nat × Nat)
  | .ats _ va need => if (getWorld s st.world).tstate = .error ∧ need ≠ 0 then some (need, va) else none
  | _ => none

/-- parkWake (R131): the strand is eligible again, and will issue from its step index; or, in ERROR, an access to host memory
that it parked at fails there (R396). -/
def execParkWake (strand : Nat) (s : State) : Host.Outcome State Fault Refusal :=
  match getStrand s strand with
  | none => .next s
  | some st =>
    match st.status with
    | .parked c =>
      if parkCleared s st c then
        match parkDenied s st c with
        | some (need, va) => .next (walkFault s st causeTag need va)
        | none => .next (setStrand s { st with status := .ready })
      else .next s
    | _ => .next s

/-! ### Grants (R124, R126) -/

/-- R320: a cap on core cycles is exhausted for an owner or its world. -/
def cyclesExhausted (s : State) (world owner : Nat) : Bool :=
  s.budgets.any fun b => b.world == world && (b.owner == owner || b.owner == 255) && b.cycles != 0
    && decide (128 * b.cycles ≤ b.usedCycles)

/-- R126, R125: a next issue that is a `wait` has every counter within its limits. -/
def waitAllows (s : State) (st : Strand) (pc : DWord) : Bool :=
  match fetchAt s st pc with
  | .run (.wait _ l sto c m) _ => waitMet st l sto c m
  | _ => true

/-- R126: the strand may be granted its lane. -/
def eligible (s : State) (st : Strand) : Bool :=
  st.resident && st.status == .ready && !st.halted && !st.toSave && worldRuns s st.world && !cyclesExhausted s st.world st.owner
    && match issuePc (strandRecord s st).code st with
      | none => false
      | some pc => waitAllows s st pc

/-- The strands on a lane. -/
def onLane (s : State) (lane : Nat) : List Strand := s.strands.filter fun st => st.resident && strandLane st == lane

/-- R126: who is granted next: an understory strand, else the main partition in round-robin order of slot. -/
def nextGrant (s : State) (lane : Nat) : Option Strand :=
  let es := (onLane s lane).filter (eligible s)
  match es.find? (·.slot == 8) with
  | some st => some st
  | none => (List.range 8).findSome? fun d => es.find? fun st => st.slot == ((getLane s lane).last + 1 + d) % 8

/-- laneGrant (R126): a free lane is granted to one eligible strand. -/
def execLaneGrant (core limb lane : Nat) (s : State) : Host.Outcome State Fault Refusal :=
  let k := laneIndex core limb lane
  if (getLane s k).granted.isSome then .next s
  else match nextGrant s k with
    | none => .next s
    | some st =>
      let l : Lane := { granted := some st.home, issues := 0, last := if st.slot = 8 then (getLane s k).last else st.slot }
      .next { s with lanes := mapSet s.lanes k l }

/-- forcedIssue (R129): a thread of the granted strand has waited for 256 lane cycles: the next issue is that of its
PC. -/
def execForcedIssue (strand : Nat) (s : State) : Host.Outcome State Fault Refusal :=
  match getStrand s strand with
  | none => .next s
  | some st =>
    if (getLane s (strandLane st)).granted = some strand ∧ st.interrupted = false
        ∧ (mostWaiting (strandRecord s st).code st).isSome = true then
      .next { s with turns := .issue st.core st.limb st.lane :: s.turns }
    else .next s

/-! ### Records and halts (R326, R335) -/

/-- faultRecordDeferredWrite (R326): a record that a full ring held is written. -/
def execFaultRecordDeferredWrite (world : Nat) (s : State) : Host.Outcome State Fault Refusal :=
  let x := getWorld s world
  match x.heldRecords with
  | [] => .next s
  | r :: rest =>
    if hasRing x.fb && ringFull x.fb then .next s
    else .next (writeRecord (setWorld s { x with heldRecords := rest }) (world, r))

/-- R335: the halted strands of a world are eligible again. -/
def releaseHalt (s : State) (world : Nat) : State :=
  let x := getWorld s world
  let s := setWorld s { x with fb := { x.fb with halted := false } }
  { s with strands := s.strands.map fun st => if st.world = world then { st with halted := false } else st }

/-- haltRelease (R335): a 1 is written to halted. -/
def execHaltRelease (world : Nat) (s : State) : Host.Outcome State Fault Refusal := .next (releaseHalt s world)

/-! ### Restart and control errors (R330, R336) -/

/-- R330: a thread as it stood at the start of the run. -/
def restartThread (old now : Thread) : Thread :=
  { now with pc := old.pc, preds := old.preds, meet := old.meet, mstack := old.mstack, mrest := old.mrest }

/-- R330: the strand stands at the start of its current run. -/
def restartRun (st : Strand) : Strand :=
  let threads := match st.runEntry with
    | some e => (e.threads.zip st.threads).map fun (o, n) => restartThread o n
    | none => st.threads
  { st with threads := threads, qregs := [], step := 0, interrupted := false, partTag := none, outs := [], queries := []
            rqPassed := [], stopAfter := none, rbWait := false, runHead := true, cut := none, doing := none, status := .ready }

/-- Nothing that the strand has issued is outstanding, traversals among it, but for chains (R192, R288, R330, R331). -/
def quiet (s : State) (st : Strand) : Bool :=
  st.outs.all (·.left == 0) && st.matrix == 0 && st.queries.isEmpty && !s.nreqs.any (·.strand == st.home)

/-- strandRestart (R330). -/
def execStrandRestart (strand : Nat) (s : State) : Host.Outcome State Fault Refusal :=
  match getStrand s strand with
  | none => .next s
  | some st => if st.status = .restarting ∧ quiet s st = true then .next (setStrand s (restartRun st)) else .next s

/-- controlEccKill (R336): the strand is killed, with a record of cause CONTROL. -/
def execControlEccKill (strand : Nat) (s : State) : Host.Outcome State Fault Refusal :=
  match getStrand s strand with
  | none => .next s
  | some st =>
    .next (oweRecord (killStrand s st) st.world
      (faultRecord st { cls := 0x0f, cause := 9, pc := parkedPc s st, step := st.step }))

/-! ### Time in the caches and the weight store (R51, R56) -/

/-- A slice writes back and drops a line; the bytes moved are charged to the line's world (R320). -/
def dropSliceLine (s : State) (l : Line) : State := chargeBytes (sliceFlush s l.place l.line) l.world 255

/-- epochWrap (R51): every slice writes back and invalidates all of its lines; pinned lines are fetched again (R319). -/
def execEpochWrap (s : State) : Host.Outcome State Fault Refusal :=
  if s.time % 2 ^ 44 = 0 then .next (refillPins (s.slices.foldl dropSliceLine s)) else .next s

/-- wsRefreshWindow (R56): which group refreshes is a function of device time (`refreshing`), so that a window opens
as time passes and there is nothing to store. -/
def execWsRefreshWindow (_ : Nat) (s : State) : Host.Outcome State Fault Refusal := .next s

/-! ### The end of strands, groves and launches (R61, R101, R192, R303) -/

/-- R309: the status of a launch that has run. -/
def launchStatus (l : Launch) : Nat := if l.killed then stKilled else if l.overrun then stOverrun else stOk

def setPacketStatus (s : State) (queue index status : Nat) : State :=
  { s with packets := s.packets.map fun p =>
      if p.hd.queue = queue ∧ p.hd.index = index ∧ p.status.isNone then { p with status := some status } else p }

/-- R352: the tiles of a draw with a listed primitive that no resolver has taken, rising. -/
def tilesLeft (d : Draw) : List Nat :=
  let (w, h) := targetExtent d
  (List.range (tilesAlong w * tilesAlong h)).filter fun i => decide (d.nextTile ≤ i) && d.prims.any fun p => p.tiles.contains i

/-- R310, R347: a DRAW completes when its mesh kernel and every tile have; its entries are free again. -/
def tryDrawDone (s : State) (id : Nat) : State :=
  match getDraw s id with
  | none => s
  | some d =>
    if d.binned && d.tiles.isEmpty && (tilesLeft d).isEmpty then
      setPacketStatus { s with draws := s.draws.filter (·.id != id) } d.queue d.index (if d.killed then stKilled else stOk)
    else s

/-- The phase boundary of a core, whose bytes are charged to an owner (R52, R294, R320). -/
def publishFor (world owner : Nat) (s : State) (core : Nat) : State := chargeBytes (publish s core) world owner

/-- A launch completes (R303): its end is a phase boundary of every core that has had a grove of it (R294), and what
launched it is told. -/
def launchDone (s : State) (l : Launch) : State :=
  let s := l.cores.foldl (publishFor l.world l.owner) s
  let s := { s with launches := s.launches.filter (·.id != l.id) }
  match l.src with
  | .packet q i => setPacketStatus s q i (launchStatus l)
  | .node n =>
    (match mapGet s.nodes n with
     | some nd => { s with nodes := mapSet s.nodes n { nd with done := some (launchStatus l) } }
     | none => s)
  | .mesh d =>
    (match getDraw s d with
     | some x => tryDrawDone (setDraw s { x with binned := true, killed := x.killed || l.killed }) d
     | none => s)
  | .tilePass d _ _ =>
    (match getDraw s d with
     | some x => setDraw s { x with killed := x.killed || l.killed }
     | none => s)

/-- A launch whose groves have all been placed and have exited is complete. -/
def tryLaunchDone (s : State) (id : Nat) : State :=
  match getLaunch s id with
  | none => s
  | some l => if l.total ≤ l.next ∧ s.groves.any (·.launch == id) = false then launchDone s l else s

/-- GROVE EXIT (R101, R52): a release; its segments are detached and its scratch is freed. -/
def groveExit (s : State) (g : Grove) : State :=
  let s := publishFor g.world g.owner s g.core
  let s := (g.attached.map (·.uid)).foldl dropAttach { s with groves := s.groves.filter (·.id != g.id) }
  tryLaunchDone (barrierRecheck s g.launch) g.launch

/-- R192: the strand may end. Its chains go on. -/
def mayEnd (s : State) (st : Strand) : Bool := st.threads.all (·.exited) && quiet s st

/-- R61, R101: the grove may exit: its strands have ended, and every chain that they enqueued has completed. -/
def mayExit (s : State) (grove : Nat) : Bool := !s.strands.any (·.grove == grove) && !s.chains.any (·.grove == grove)

/-- The grove exits, where it may. -/
def tryGroveExit (s : State) (grove : Nat) : State :=
  if mayExit s grove then
    (match getGrove s grove with
     | some g => groveExit s g
     | none => s)
  else s

/-- A strand leaves the device: its identity, its registers and its tiles are free. -/
def removeStrand (s : State) (st : Strand) : State :=
  let s := leaveStores (ungrant s st) st
  { s with strands := s.strands.filter (·.home != st.home) }

/-- strandEnd (R192), and with the last strand of a grove that has no chain left the grove's exit; where it has, the exit
comes after the last chain (R61). -/
def execStrandEnd (strand : Nat) (s : State) : Host.Outcome State Fault Refusal :=
  match getStrand s strand with
  | none => .next s
  | some st =>
    if mayEnd s st then
      .next (tryGroveExit (barrierRecheck (removeStrand s st) st.launch) st.grove)
    else .next s

end Sys2Proof.Machine
end

