-- ==== Sys2Proof/Machine/Tiles.lean ====
section
/-! DEFINITION. Coverage, depth and visibility resolution, the passes of a tile, and the writing of its outputs (R348 to
R356). -/

namespace Sys2Proof.Machine

/-! ### Coverage and depth (R351) -/

/-- E(a, b, p). -/
def edgeE (ax ay bx by_ px py : Int) : Int := (bx - ax) * (py - ay) - (by_ - ay) * (px - ax)

/-- R351: an edge admits a sample: inside, or on a top or left edge. -/
def edgeIn (ax ay bx by_ e : Int) : Bool :=
  decide (0 < e) || (e == 0 && (decide (by_ - ay < 0) || (by_ - ay == 0 && decide (0 < bx - ax))))

/-- What a primitive gives a pixel that it covers: depth, λ1 and λ2, as codes. -/
structure Cover where
  z : Nat
  l1 : Nat
  l2 : Nat
deriving DecidableEq, Repr, Inhabited

def zFixed (z : Word) : Int := (fixed32 z.toNat).getD 0

/-- R351: pixel (px, py) of a primitive, in target pixels. -/
def coverPixel (p : Prim) (px py : Nat) : Option Cover :=
  match p.xs, p.ys, p.zs with
  | [x0, x1, x2], [y0, y1, y2], [z0, z1, z2] =>
    let cx : Int := 256 * px + 128
    let cy : Int := 256 * py + 128
    let e01 := edgeE x0 y0 x1 y1 cx cy
    let e12 := edgeE x1 y1 x2 y2 cx cy
    let e20 := edgeE x2 y2 x0 y0 cx cy
    if edgeIn x0 y0 x1 y1 e01 && edgeIn x1 y1 x2 y2 e12 && edgeIn x2 y2 x0 y0 e20 then
      let a := signedArea p.xs p.ys
      let z := ratioCode f32 (e12 * zFixed z0 + e20 * zFixed z1 + e01 * zFixed z2) (a * 2 ^ 149)
      if numLt (val32 z) FVal.zero || numLt (.fin false 1 1) (val32 z) then none
      else some { z := z, l1 := ratioCode f16 e20 a, l2 := ratioCode f16 e01 a }
    else none
  | _, _, _ => none

/-! ### Visibility (R352) -/

/-- R348: the pixels of a tile, clipped to the target, row-major. -/
def tilePixels (d : Draw) (tile : Nat) : List (Nat × Nat) :=
  let (w, h) := targetExtent d
  let x0 := 32 * (tile % tilesAlong w)
  let y0 := 32 * (tile / tilesAlong w)
  ((List.range 32).filter fun j => decide (y0 + j < h)).flatMap fun j =>
    ((List.range 32).filter fun i => decide (x0 + i < w)).map fun i => (x0 + i, y0 + j)

/-- Primitives listed in a tile, in ascending number. -/
def tilePrims (d : Draw) (tile : Nat) (mayDiscard : Bool) : List Prim :=
  d.prims.filter fun p => p.mayDiscard == mayDiscard && p.tiles.contains tile

/-- The nearest of some primitives at a pixel, the lower number on a tie; `old` is one already in front. -/
def nearest (px py : Nat) (old : Option (Nat × Nat)) (ps : List Prim) : Option (Nat × Nat) :=
  ps.foldl (fun best p => match coverPixel p px py with
    | none => best
    | some c => match best with
      | none => some (p.id, c.z)
      | some (i, z) =>
        if numLt (val32 c.z) (val32 z) || (!numLt (val32 z) (val32 c.z) && decide (p.id < i)) then some (p.id, c.z) else best) old

/-- front(p) of the first resolution: primitive and depth. -/
def firstFront (d : Draw) (tile px py : Nat) : Option (Nat × Nat) := nearest px py none (tilePrims d tile false)

/-- R352: a may-discard primitive has a coverage thread at a pixel. -/
def hasCoverage (d : Draw) (tile : Nat) (q : Prim) (px py : Nat) : Bool :=
  match coverPixel q px py with
  | none => false
  | some c => match firstFront d tile px py with
    | none => true
    | some (_, z) => numLt (val32 c.z) (val32 z)

/-- R352: the coverage pass's threads: by primitive, then row-major. -/
def coverageThreads (d : Draw) (tile : Nat) : List Pixel :=
  (tilePrims d tile true).flatMap fun q =>
    ((tilePixels d tile).filter fun (x, y) => hasCoverage d tile q x y).map fun (x, y) => { x := x, y := y, prim := q.id }

/-- front(p) of the second resolution. -/
def secondFront (d : Draw) (t : Tile) (px py : Nat) : Option (Nat × Nat) :=
  nearest px py (firstFront d t.index px py) ((tilePrims d t.index true).filter fun q =>
    hasCoverage d t.index q px py && !t.discards.contains (q.id, tilePixel px py))

/-- R352: the shading pass's threads: by primitive, then row-major. -/
def shadingThreads (d : Draw) (t : Tile) : List Pixel :=
  let fronts := (tilePixels d t.index).filterMap fun (x, y) => (secondFront d t x y).map fun (i, _) => ({ x := x, y := y, prim := i } : Pixel)
  d.prims.flatMap fun p => fronts.filter (·.prim == p.id)

/-! ### Passes (R353, R354) -/

/-- A list in pieces of at most n. -/
def pieces (n : Nat) : Nat → List Pixel → List (List Pixel)
  | 0, _ => []
  | fuel + 1, l => if l.isEmpty then [] else l.take n :: pieces n fuel (l.drop n)

/-- R353: the strands of a pass: consecutive threads of one primitive, at most a strand's width. -/
def passStrands (d : Draw) (ps : List Pixel) : List (List Pixel) :=
  d.prims.flatMap fun p => pieces d.pixel.width 1024 (ps.filter (·.prim == p.id))

def getTile (d : Draw) (tile : Nat) : Option Tile := d.tiles.find? (·.index == tile)

/-- The strands of a tile's pass. -/
def strandsOfPass (d : Draw) (tile : Nat) (shading : Bool) : List (List Pixel) :=
  match getTile d tile with
  | none => []
  | some t => passStrands d (if shading then shadingThreads d t else coverageThreads d tile)

/-- R353: strands to a grove. -/
def strandsPerGrove (d : Draw) : Nat := 1024 / d.pixel.width

/-- R354: the registers that hardware fills for a pixel thread. -/
def fillPixel (d : Draw) (st : Strand) (t : Nat) (p : Pixel) : Strand :=
  match d.prims.find? (·.id == p.prim) with
  | none => st
  | some q =>
    let c := (coverPixel q p.x p.y).getD { z := 0, l1 := 0, l2 := 0 }
    writeGroup st t (.v 0) [BitVec.ofNat 32 (p.x + 65536 * p.y), BitVec.ofNat 32 q.id, BitVec.ofNat 32 (c.l1 + 65536 * c.l2),
      BitVec.ofNat 32 c.z, q.attr]

/-- A pass becomes a launch on its resolver's core, one grove for each 1,024 threads at most. The pixel record's grid is ignored
(R347), and so is a copse above 1, since every grove of a tile runs on the resolver's core (R353) and a copse would need
distinct cores (R19): the manual does not say what such a field means (log 37). -/
def launchPass (s : State) (d : Draw) (core tile : Nat) (shading : Bool) : State :=
  let n := (strandsOfPass d tile shading).length
  if n = 0 then s
  else
    let l : Launch :=
      { id := s.nextLaunch, src := .tilePass d.id tile shading, queue := d.queue, world := d.world, owner := d.owner
        cls := ((getQueue s d.queue).map (·.cls)).getD 0, frame := d.frame
        record := { d.pixel with gX := 1, gY := 1, gZ := 1, copse := 1 }, key := d.key
        total := (n + strandsPerGrove d - 1) / strandsPerGrove d, inHeap := false, since := s.time, waitCore := some core }
    { s with launches := s.launches ++ [l], nextLaunch := s.nextLaunch + 1 }

/-- The launch of a tile's pass has not completed. -/
def passRuns (s : State) (draw tile : Nat) (shading : Bool) : Bool :=
  s.launches.any fun l => l.src == .tilePass draw tile shading

/-- R352: a core holds limbs of a world. -/
def coreOfWorld (s : State) (core w : Nat) : Bool := (List.range 4).any fun m => mapGet s.limbWorld (4 * core + m) == some w

/-- R20: a record pins its groves to a stand that the core is not in. -/
def outsideStand (r : LaunchRec) (core : Nat) : Bool := r.place == 1 && core / 24 != r.stand

/-- tileResolve (R20, R352): a free resolver takes the next tile of a draw whose binning has ended. -/
def execTileResolve (draw core : Nat) (s : State) : Host.Outcome State Fault Refusal :=
  match getDraw s draw with
  | none => .next s
  | some d =>
    if !d.binned || s.draws.any (fun x => x.tiles.any (·.core == core)) || !coreOfWorld s core d.world || outsideStand d.pixel core then
      .next s
    else match tilesLeft d with
      | [] => .next s
      | i :: _ =>
        let d := { d with nextTile := i + 1, tiles := d.tiles ++ [{ index := i, core := core }] }
        .next (launchPass (setDraw s d) d core i false)

/-- tileSecondResolution (R352): every coverage-pass grove of the tile has exited. -/
def execTileSecondResolution (draw tile : Nat) (s : State) : Host.Outcome State Fault Refusal :=
  match getDraw s draw with
  | none => .next s
  | some d =>
    match getTile d tile with
    | none => .next s
    | some t =>
      if t.shading || passRuns s draw tile false then .next s
      else
        let d := { d with tiles := d.tiles.map fun x => if x.index = tile then { x with shading := true } else x }
        .next (launchPass (setDraw s d) d t.core tile true)

/-- The world that an image's memory is reached as (R366, R367). -/
def imageWorld (d : Desc) : Nat := if d.kind = 0 then d.world else 0

/-- R355: a written pixel goes to its output, at memory. One whose address does not translate is lost. -/
def writePixel (s : State) (d : Desc) (x y : Nat) (v : DWord) : Except Cause State :=
  frontWrite s (imageWorld d) ((d.base.toNat + pixelOffset d x y) % 2 ^ 64) (leList (pixelBytes d) v.toNat)

/-- What a pixel that is lost leaves of its translation (R35, R40). -/
def lostPixel (s : State) (d : Desc) (x y : Nat) : State :=
  writeEffects s (imageWorld d) ((d.base.toNat + pixelOffset d x y) % 2 ^ 64)

def writePixels (d : Draw) (tile : Nat) : Map DWord → State → Except Nat State
  | [], s => .ok s
  | (k, v) :: r, s =>
    match d.outs.getD (k / 1024) none with
    | none => writePixels d tile r s
    | some (_, x) =>
      let w := tilesAlong (targetExtent d).1
      let px := 32 * (tile % w) + k % 32
      let py := 32 * (tile / w) + k / 32 % 32
      match writePixel s x px py v with
      | .ok s => writePixels d tile r s
      | .error c => if c.1 = 0xff then .error c.2 else writePixels d tile r (lostPixel s x px py)

/-- tileOutputWrite (R355): every shading-pass grove has exited: the pixels whose written bit is set are written. -/
def execTileOutputWrite (draw tile : Nat) (s : State) : Host.Outcome State Fault Refusal :=
  match getDraw s draw with
  | none => .next s
  | some d =>
    match getTile d tile with
    | none => .next s
    | some t =>
      if !t.shading || passRuns s draw tile true || !mayDma s d.world then .next s
      else match writePixels d tile t.out s with
        | .error p => .next (requestAts s d.world p)
        | .ok s =>
          .next (tryDrawDone (setDraw s { d with tiles := d.tiles.filter (·.index != tile) }) draw)

end Sys2Proof.Machine
end

