-- ==== Sys2Proof/Machine/Context.lean ====
section
/-! DEFINITION. The save area of a strand, its strand window, and full context switches (R321, R331 to R334). -/

namespace Sys2Proof.Machine

/-! ### The layout (R332, R333) -/

/-- The tickets of a thread in a 4-bit mask. -/
def ticketMask (ts : List Ticket) : Nat := (List.range 4).foldl (fun m k => if ts.any (·.no == k) then m + 2 ^ k else m) 0

/-- Meet-stack entry i of a thread: at or above the count, what the strand window wrote there, else an undefined value. -/
def meetEntry (free : Nat) (th : Thread) (i : Nat) : Word :=
  th.mstack.getD i (mapGetD th.mrest i (Config.freeWord free 8 (32 + 4 * i)))

/-- A 32-bit word of a thread's record, at byte o of it (R333). -/
def threadWord (free : Nat) (th : Thread) (o : Nat) : Word :=
  if o = 0 then lo32 th.pc
  else if o = 4 then hi32 th.pc
  else if o = 8 then th.meet
  else if o = 12 then
    BitVec.ofNat 32 (th.preds.toNat + th.mstack.length % 16 * 2 ^ 16 + (if th.exited then 2 ^ 20 else 0) + th.ql % 8 * 2 ^ 21
      + th.qe % 256 * 2 ^ 24)
  else if o = 16 then BitVec.ofNat 32 th.height
  else if o = 20 then BitVec.ofNat 32 th.floor
  else if o = 24 then BitVec.ofNat 32 (th.base % 2 ^ 24 + th.fsize % 256 * 2 ^ 24)
  else if o = 28 then BitVec.ofNat 32 (ticketMask th.tickets * 16 + ticketMask (th.tickets.filter (·.done)) * 256)
  else meetEntry free th ((o - 32) / 4)

/-- The issues of the strand's current grant (R124). -/
def grantIssues (s : State) (st : Strand) : Nat :=
  let l := getLane s (strandLane st)
  if l.granted = some st.home then l.issues else 0

/-- The register, or tile element, whose value stands at a byte of the layout. -/
inductive SavedPlace
  | key (k : RKey)
  | tile (k : Nat)
  | thread (t o : Nat)
  | header
  /-- reserved, or beyond what the strand has -/
  | none
deriving DecidableEq, Repr

def savedPlace (st : Strand) (off : Nat) : SavedPlace :=
  if off % 4 ≠ 0 then .none
  else if off < 0x60 then .key (.s (off / 4))
  else if off = 0x60 then .key .sap
  else if off < 0x90 then .header
  else if 0x100 ≤ off ∧ off < 0x100 + 64 * st.width then .thread ((off - 0x100) / 64) ((off - 0x100) % 64)
  else if 0x1100 ≤ off ∧ off < 0x1100 + 32 * st.width then
    (if (off - 0x1100) % 32 < 24 then .key (.q (64 * ((off - 0x1100) % 32 / 4) + (off - 0x1100) / 32)) else .none)
  else if 0x2000 ≤ off ∧ off < 0x2000 + 4 * st.width * st.depth then
    let i := (off - 0x2000) / 4 / st.width
    let t := (off - 0x2000) / 4 % st.width
    .key (.v (64 * ((getThread st t).floor + i) + t))
  else if 0x8000 ≤ off ∧ off < 0x8000 + 4096 * st.ntiles then .tile ((off - 0x8000) / 4)
  else .none

/-- The value at a key as it stands; the loads of a saved strand have completed. -/
def rawKey (free : Nat) (st : Strand) : RKey → Word
  | .v n => mapGetD st.vregs n (slotInit free st n)
  | .q n => mapGetD st.qregs n (Config.freeWord free 1 n)
  | .s n => mapGetD st.sregs n 0
  | .sap => st.sap

/-- A word of the header from 0x64 on (R332). -/
def headerWord (s : State) (st : Strand) (off : Nat) : Word :=
  if off = 0x64 then st.fmode
  else if off = 0x68 then st.fstat
  else if off = 0x6c then BitVec.ofNat 32 (st.step + (if st.interrupted then 2 ^ 8 else 0) + st.stepm % 4 * 2 ^ 10)
  else if off = 0x70 then lo32 st.slim
  else if off = 0x74 then hi32 st.slim
  else if off = 0x78 then BitVec.ofNat 32 st.depth
  else if off = 0x7c then BitVec.ofNat 32 (st.width + st.ntiles * 2 ^ 8 + grantIssues s st * 2 ^ 12)
  else if off = 0x80 then lo32 st.spill
  else if off = 0x84 then hi32 st.spill
  else if off = 0x88 then BitVec.ofNat 32 (handleOf st.home st.gen)
  else BitVec.ofNat 32 st.chains

/-- R332: the 32-bit word of a strand's state at a byte of the layout, and whether it is poisoned. -/
def windowWord (s : State) (st : Strand) (off : Nat) : Word × Bool :=
  match savedPlace st off with
  | .key k => (rawKey s.free st k, st.poisoned.contains k)
  | .tile k => (mapGetD st.tiles k (tileInit s.free st k), st.tpoison.contains k)
  | .thread t o => (threadWord s.free (getThread st t) o, false)
  | .header => (headerWord s st off, false)
  | .none => (0, false)

/-- R333: what a write of a word leaves in a thread's record. -/
def setThreadWord (free : Nat) (th : Thread) (o : Nat) (v : Word) : Thread :=
  let n := v.toNat
  if o = 0 then { th with pc := mk64 (v &&& 0xfffffff8) (hi32 th.pc) }
  else if o = 4 then { th with pc := mk64 (lo32 th.pc) v }
  else if o = 8 then { th with meet := v }
  else if o = 12 then
    let k := min (fld n 16 4) 8
    { th with
      preds := v.setWidth 16, exited := fld n 20 1 == 1, ql := fld n 21 3, qe := fld n 24 8
      mstack := (List.range k).map fun i => meetEntry free th i
      mrest := (List.range 8).filterMap fun i =>
        if i < k then none else ((th.mstack[i]?).orElse fun _ => mapGet th.mrest i).map fun v => (i, v) }
  else if o = 16 then { th with height := n }
  else if o = 20 then { th with floor := n }
  else if o = 24 then { th with base := fld n 0 24, fsize := fld n 24 8 }
  else if o = 28 then
    { th with tickets := ((List.range 4).filter fun k => fld n (4 + k) 1 == 1).map fun k =>
        { no := k, done := fld n (8 + k) 1 == 1
          poison := th.tickets.any fun x => x.no == k && x.poison } }
  else if (o - 32) / 4 < th.mstack.length then { th with mstack := th.mstack.set ((o - 32) / 4) v }
  else { th with mrest := mapSet th.mrest ((o - 32) / 4) v }

/-- R332: what a write leaves in the header. W, D, the tiles, the handle, the spill start and the chains are
read-only. -/
def setHeaderWord (st : Strand) (off : Nat) (v : Word) : Strand :=
  if off = 0x64 then { st with fmode := fmodeWritten v }
  else if off = 0x68 then { st with fstat := v &&& 0x1f }
  else if off = 0x6c then
    { st with step := fld v.toNat 0 6, interrupted := fld v.toNat 8 1 == 1, stepm := fld v.toNat 10 2 }
  else if off = 0x70 then { st with slim := mk64 v (hi32 st.slim) }
  else if off = 0x74 then { st with slim := mk64 (lo32 st.slim) v }
  else st

/-- The strand after a write of a word at a byte of the layout, with its poison. -/
def setWindowWord (free : Nat) (st : Strand) (off : Nat) (v : Word) (poison : Bool) : Strand :=
  match savedPlace st off with
  | .key k =>
    let st := writeKey st k v
    if poison then { st with poisoned := k :: st.poisoned } else st
  | .tile k =>
    { st with tiles := mapSet st.tiles k v
              tpoison := if poison then k :: st.tpoison.filter (· != k) else st.tpoison.filter (· != k) }
  | .thread t o => setThread st t (setThreadWord free (getThread st t) o v)
  | .header => setHeaderWord st off v
  | .none => st

/-- R333: the issues of the current grant, where the strand holds its lane. -/
def setGrantIssues (s : State) (st : Strand) (off : Nat) (v : Word) : State :=
  let k := strandLane st
  if off = 0x7c ∧ (getLane s k).granted = some st.home then
    { s with lanes := mapSet s.lanes k { getLane s k with issues := min (fld v.toNat 12 5) 23 } }
  else s

/-- A read of a word of a strand's window (R333): 0 for one that is not stopped, and where the identity names none. -/
def readWindow (s : State) (strand offset : Nat) : Word :=
  match getStrand s strand with
  | none => 0
  | some st => if isFaulted st || st.halted then (windowWord s st offset).1 else 0

/-- strandWindowWrite (R333): system software writes a stopped strand's state. -/
def execStrandWindowWrite (strand offset : Nat) (value : Word) (s : State) : Host.Outcome State Fault Refusal :=
  match getStrand s strand with
  | none => .next s
  | some st =>
    if isFaulted st || st.halted then
      .next (setStrand (setGrantIssues s st offset value) (setWindowWord s.free st offset value false))
    else .next s

/-! ### Saving (R321, R331) -/

/-- The words that the save area holds, rising. -/
def savedOffsets (st : Strand) : List Nat :=
  (List.range 0x24).map (4 * ·) ++ (List.range (16 * st.width)).map (fun k => 0x100 + 4 * k)
    ++ ((List.range (8 * st.width)).map fun k => 0x1100 + 4 * k).filter (fun o => decide ((o - 0x1100) % 32 < 24))
    ++ (List.range (st.width * st.depth)).map (fun k => 0x2000 + 4 * k)
    ++ (List.range (1024 * st.ntiles)).map fun k => 0x8000 + 4 * k

/-- R331: the save area of a home identity. -/
def saveArea (s : State) (st : Strand) : Nat := ((getWorld s st.world).fb.save.toNat + 65536 * st.home) % 2 ^ 64

/-- Writes one word of a save area under the strand's world, with its poison; or the failure, with what its translation
leaves (R35, R40). -/
def saveWord (s : State) (w va : Nat) (v : Word × Bool) : Except (Cause × State) State :=
  match translateFront s w va needWrite with
  | (.ok pa _, s) =>
    if tagOk s w pa then .ok (memPoisonWrite (rawWriteAll s w pa (leList 4 v.1.toNat)) pa 4 v.2) else .error (causeTag, s)
  | (.bad c, s) => .error (c, s)
  | (.miss, s) => .error (causeNotMapped, s)
  | (.ats p, s) => .error (causeAts p, s)

/-- Writes the save area, or the failure and its address. -/
def saveWords (st : Strand) : List Nat → State → Except (Cause × Nat × State) State
  | [], s => .ok s
  | o :: r, s =>
    match saveWord s st.world ((saveArea s st + o) % 2 ^ 64) (windowWord s st o) with
    | .ok s => saveWords st r s
    | .error (c, s) => .error (c, (saveArea s st + o) % 2 ^ 64, s)

/-- A wait is given up: the strand issues the waiting instruction again when it is restored. -/
def cancelWait : Status → Status
  | .faulted f => .faulted f
  | .restarting => .restarting
  | _ => .ready

def isParked : Status → Bool
  | .parked _ => true
  | _ => false

/-- R321, mode 01: the state at the entry of the current run; a parked strand is saved as it stands. Loads, matrix operations
and neural requests of earlier runs have left their values, flags and ends in that state as they completed. -/
def discardRun (st : Strand) : Strand :=
  match st.runEntry with
  | none => st
  | some e =>
    if isParked st.status || isFaulted st then st
    else
      { restartRun st with
        threads := e.threads, fmode := e.fmode, fstat := e.fstat, slim := e.slim, shadow := e.shadow
        vregs := e.vregs, sregs := e.sregs, sap := e.sap, poisoned := e.poisoned }

/-- The strand leaves its partition, its lane and its tiles. -/
def switchOut (s : State) (st : Strand) (inArea : Bool) : State :=
  setStrand (leaveStores s st) { st with
    status := cancelWait st.status, resident := false, toSave := false, inArea := inArea
    threads := st.threads.map fun th => { th with waiting := 0 } }

/-- R321, R331, R335, R393: a strand that is to be saved has stopped and has nothing outstanding. A halted strand is saved only
for QUIESCE (R394). -/
def maySave (s : State) (st : Strand) : Bool :=
  st.toSave && st.resident && worldRuns s st.world && (!st.halted || (getWorld s st.world).quiescing)
    && (getLane s (strandLane st)).granted != some st.home && quiet s st

/-- contextSave (R321, R331, R394). -/
def execContextSave (strand : Nat) (s : State) : Host.Outcome State Fault Refusal :=
  match getStrand s strand with
  | none => .next s
  | some st =>
    if !maySave s st then .next s
    else if (strandRecord s st).preempt = 1 ∧ (getWorld s st.world).quiescing = false then
      .next (switchOut s (discardRun st) false)
    else match saveWords st (savedOffsets st) s with
      | .ok s => .next (switchOut s st true)
      | .error (c, va, s) =>
        if c.1 = 0xff then .next (requestAts s st.world c.2)
        else
          .next (oweRecord (setStrand s { st with toSave := false }) st.world
            (faultRecord st { cls := c.1, cause := c.2, pc := parkedPc s st, addr := BitVec.ofNat 64 va, pre := true }))

/-! ### Restoring (R17, R331) -/

/-- The bytes of the strands in a lane's main partition, and their number (R15). -/
def partitionUse (s : State) (lane : Nat) : Nat × Nat :=
  let l := (onLane s lane).filter fun st => decide (st.slot < 8)
  (l.foldl (fun n st => n + st.width * st.depth * 4) 0, l.length)

/-- Accumulator tiles in use on a limb (R16). -/
def tilesUsed (s : State) (core limb : Nat) : Nat :=
  (s.strands.filter fun st => st.resident && st.core == core && st.limb == limb).foldl (fun n st => n + st.ntiles) 0

/-- R15, R16, R28: a lane's main partition has room for a strand, at a slot. -/
def roomOnLane (s : State) (core limb lane slot width depth tiles : Nat) : Bool :=
  let (bytes, n) := partitionUse s (laneIndex core limb lane)
  decide (slot < 8) && decide (n < 8) && decide (bytes + width * depth * 4 ≤ 22528)
    && !(onLane s (laneIndex core limb lane)).any (·.slot == slot)
    && decide (tilesUsed s core limb + tiles ≤ 32)

/-- Reads one word of a save area. -/
def restoreWord (s : State) (w va : Nat) : Except (Cause × State) ((Word × Bool) × State) :=
  match translateFront s w va needRead with
  | (.ok pa _, s) =>
    if tagOk s w pa then .ok ((BitVec.ofNat 32 (leVal (rawRead s w pa 4)), memPoisoned s pa 4), s) else .error (causeTag, s)
  | (.bad c, s) => .error (c, s)
  | (.miss, s) => .error (causeNotMapped, s)
  | (.ats p, s) => .error (causeAts p, s)

def restoreWords : List Nat → State → Strand → Except (Cause × State) (State × Strand)
  | [], s, st => .ok (s, st)
  | o :: r, s, st =>
    match restoreWord s st.world ((saveArea s st + o) % 2 ^ 64) with
    | .ok ((v, p), s) => restoreWords r s (setWindowWord s.free st o v p)
    | .error c => .error c

/-- The strand takes its place on a lane. One that comes back from its save area has been written whole. -/
def switchIn (s : State) (st : Strand) (limb lane slot : Nat) : State :=
  setStrand s { st with
    limb := limb, lane := lane, slot := slot, resident := true, inArea := false
    blank := if st.inArea then 0 else st.blank, blankTiles := st.blankTiles && !st.inArea }

/-- R13, R15: the partition that the strand's class uses has room on a lane of its core. -/
def roomFor (s : State) (st : Strand) (limb lane slot : Nat) : Bool :=
  if (strandRecord s st).preempt = 3 then slot == 8 && !(onLane s (laneIndex st.core limb lane)).any (·.slot == 8)
  else roomOnLane s st.core limb lane slot st.width st.depth st.ntiles

/-- contextRestore (R331): onto the same core, on any lane of a limb of the world with room, but of no world whose traffic is
being stopped (R394). -/
def execContextRestore (strand limb lane slot : Nat) (s : State) : Host.Outcome State Fault Refusal :=
  match getStrand s strand with
  | none => .next s
  | some st =>
    if st.resident || !decide (limb < 4) || !decide (lane < 32) || mapGet s.limbWorld (4 * st.core + limb) != some st.world
        || !worldRuns s st.world || (getWorld s st.world).quiescing || !roomFor s st limb lane slot then .next s
    else if st.inArea = false then .next (switchIn s st limb lane slot)
    else match restoreWords (savedOffsets st) s st with
      | .ok (s, st) => .next (switchIn s st limb lane slot)
      | .error (c, s) => if c.1 = 0xff then .next (requestAts s st.world c.2) else .next s

end Sys2Proof.Machine
end

