-- ==== Sys2Proof/Machine/Float.lean ====
section
/-! DEFINITION. Floating-point arithmetic, comparison and classification (R196 to R202). -/

namespace Sys2Proof.Machine

/-- A floating-point result register of one thread: the value is written and the flags raised (R197). -/
def floatStep (f : Nat → Strand → Nat → Word × Flags) (rd : Reg) : Issue → State → Strand → Nat → StepOut :=
  plainStep fun free st t =>
    let (v, fl) := f free st t
    raiseFlags (writeReg st t rd v) fl

/-- A packed operation of two sources under a mode. -/
def floatBin (s : State) (h : Hd) (ty : FTy) (rd ra rb : Reg) (f : FFormat → Word → Nat → Nat → Nat × Flags) :
    Host.Outcome State Fault Refusal :=
  byDest s h rd (fun _ => []) [ra, rb] (floatStep (fun free st t =>
    packedOp ty (fun ff a b _ => f ff st.fmode a b) (readReg free st t ra) (readReg free st t rb) 0) rd)

/-- A packed operation of one source. -/
def floatUn (s : State) (h : Hd) (ty : FTy) (rd ra : Reg) (f : FFormat → Word → Nat → Nat × Flags) :
    Host.Outcome State Fault Refusal :=
  byDest s h rd (fun _ => []) [ra] (floatStep (fun free st t =>
    packedOp ty (fun ff a _ _ => f ff st.fmode a) (readReg free st t ra) 0 0) rd)

/-- fadd (R198). -/
def execFadd (h : Hd) (ty : FTy) (rm : Rm) (rd ra rb : Reg) (s : State) : Host.Outcome State Fault Refusal :=
  floatBin s h ty rd ra rb (fun ff fm a b => fAdd ff (modeOf rm fm) fm false a b)

/-- fsub (R198). -/
def execFsub (h : Hd) (ty : FTy) (rm : Rm) (rd ra rb : Reg) (s : State) : Host.Outcome State Fault Refusal :=
  floatBin s h ty rd ra rb (fun ff fm a b => fAdd ff (modeOf rm fm) fm true a b)

/-- fmul (R198). -/
def execFmul (h : Hd) (ty : FTy) (rm : Rm) (rd ra rb : Reg) (s : State) : Host.Outcome State Fault Refusal :=
  floatBin s h ty rd ra rb (fun ff fm a b => fMul ff (modeOf rm fm) fm a b)

/-- fma (R198). -/
def execFma (h : Hd) (ty : FTy) (rm : Rm) (rd ra rb rc : Reg) (s : State) : Host.Outcome State Fault Refusal :=
  byDest s h rd (fun _ => []) [ra, rb, rc] (floatStep (fun free st t =>
    packedOp ty (fun ff a b c => fFma ff (modeOf rm st.fmode) st.fmode a b c)
      (readReg free st t ra) (readReg free st t rb) (readReg free st t rc)) rd)

/-- fmin (R199). -/
def execFmin (h : Hd) (ty : FTy) (rd ra rb : Reg) (s : State) : Host.Outcome State Fault Refusal :=
  floatBin s h ty rd ra rb (fun ff fm a b => fMinMax ff fm false a b)

/-- fmax (R199). -/
def execFmax (h : Hd) (ty : FTy) (rd ra rb : Reg) (s : State) : Host.Outcome State Fault Refusal :=
  floatBin s h ty rd ra rb (fun ff fm a b => fMinMax ff fm true a b)

/-- fabs (R200). -/
def execFabs (h : Hd) (ty : FTy) (rd ra : Reg) (s : State) : Host.Outcome State Fault Refusal :=
  floatUn s h ty rd ra (fun ff fm a => fAbsNeg ff fm false a)

/-- fneg (R200). -/
def execFneg (h : Hd) (ty : FTy) (rd ra : Reg) (s : State) : Host.Outcome State Fault Refusal :=
  floatUn s h ty rd ra (fun ff fm a => fAbsNeg ff fm true a)

/-- R201: the predicates of a comparison: one, or two from an even one on. -/
def fcmpStep (ty : FTy) (c : FCond) (pd : Fin 16) (ra rb : Reg) (free : Nat) (st : Strand) (t : Nat) : Strand :=
  let a := (readReg free st t ra).toNat
  let b := (readReg free st t rb).toNat
  let ff := typeFormat ty
  match ty with
  | .f32 =>
    let (r, fl) := fCompare ff st.fmode c a b
    raiseFlags (setPred st t pd r) fl
  | _ =>
    let (r0, f0) := fCompare ff st.fmode c (fld a 0 16) (fld b 0 16)
    let (r1, f1) := fCompare ff st.fmode c (fld a 16 16) (fld b 16 16)
    raiseFlags (setPred (setPred st t pd r0) t (pd + 1) r1) (f0 ||| f1)

/-- fcmp (R201). -/
def execFcmp (h : Hd) (ty : FTy) (c : FCond) (pd : Fin 16) (ra rb : Reg) (s : State) :
    Host.Outcome State Fault Refusal :=
  perThread s h (fun _ => []) [ra, rb] (plainStep (fcmpStep ty c pd ra rb))

/-- fclass (R202): the flush bits are ignored. -/
def execFclass (h : Hd) (ty : FTy) (rd ra : Reg) (s : State) : Host.Outcome State Fault Refusal :=
  floatUn s h ty rd ra (fun ff _ a => (fClass ff a, 0))

end Sys2Proof.Machine
end

