-- ==== Sys2Proof/Machine/Placement.lean ====
section
/-! DEFINITION. The deficit round-robin, the placement of groves, pre-emption and budget periods (R15 to R20, R27, R28,
R95, R96, R104, R133, R315 to R322). -/

namespace Sys2Proof.Machine

/-! ### The deficit round-robin (R316) -/

/-- Ready work of a best-effort queue that waits for its deficit. -/
def readyWork (s : State) (q : Nat) : List Launch :=
  s.launches.filter fun l => l.queue == q && !l.inHeap && l.next == 0 && decide (0 < l.total) && !isPass l

/-- Moves ready work into the heap, one item at a time, while the deficit is above 0 and the door stands open. -/
def moveReady (q : Nat) : List Launch → State → State
  | [], s => s
  | l :: r, s =>
    if heapOpen s 0 && decide (0 < ((getQueue s q).map (·.deficit)).getD 0) then moveReady q r (enterNow s l) else s

/-- The best-effort queue that the pointer passes next: the first above it in number order, wrapping. -/
def nextQueue (s : State) : Option Queue :=
  (List.range 256).findSome? fun d => (getQueue s ((s.qrr + d) % 256)).bind fun q => if q.cls = 0 then some q else none

/-- deficitRoundRobin (R316): the pointer passes over one queue. -/
def execDeficitRoundRobin (s : State) : Host.Outcome State Fault Refusal :=
  match nextQueue s with
  | none => .next s
  | some q =>
    let s := { s with qrr := (q.no + 1) % 256 }
    match readyWork s q.no with
    | [] => .next (setQueue s { q with deficit := min q.deficit 0 })
    | ls => .next (moveReady q.no ls (setQueue s { q with deficit := q.deficit + q.weight * 4096 * 128 }))

/-! ### Strands and groves that start (R9, R17, R18, R27, R28) -/

/-- The identity free on a lane, and its partition slot (R28). -/
def freeIdentity (s : State) (core limb lane : Nat) (realtime : Bool) : Option (Nat × Nat) :=
  let ids := (if realtime then [8] else List.range 8).filter fun k => (getStrand s (homeOf core limb lane k)).isNone
  let used := (onLane s (laneIndex core limb lane)).map (·.slot)
  match ids with
  | [] => none
  | k :: _ =>
    if realtime then (if used.contains 8 then none else some (k, 8))
    else match ids.find? fun k => !used.contains k with
      | some k => some (k, k)
      | none => ((List.range 8).find? fun x => !used.contains x).map fun x => (k, x)

/-- R15 to R17: where a strand of a record may stand on a limb of the world, with its identity's slot and its partition
slot. -/
def placeOnLane (s : State) (w : Nat) (r : LaunchRec) (core limb lane : Nat) : Option (Nat × Nat) :=
  if mapGet s.limbWorld (4 * core + limb) != some w then none
  else match freeIdentity s core limb lane (r.preempt == 3) with
    | none => none
    | some (k, slot) =>
      if r.preempt = 3 then some (k, slot)
      else if roomOnLane s core limb lane slot r.width r.depth r.acc then some (k, slot) else none

/-- The first lane of a core with room, from a free one on, for each strand anew (log 4): limb, lane, identity slot,
partition slot. -/
def findLane (s : State) (w : Nat) (r : LaunchRec) (core : Nat) : Option (Nat × Nat × Nat × Nat) :=
  (rotate (Config.freeChoice s.free (128 + s.strands.length)) (List.range 128)).findSome? fun i =>
    (placeOnLane s w r core (i / 32) (i % 32)).map fun (k, slot) => (i / 32, i % 32, k, slot)

/-- R353: the pixels of a strand of a tile's pass. -/
def pixelsOf (s : State) (l : Launch) (sidx : Nat) (lin : Nat) : List Pixel :=
  match l.src with
  | .tilePass d tile sh =>
    (match getDraw s d with
     | some x => (strandsOfPass x tile sh).getD (lin * strandsPerGrove x + sidx) []
     | none => [])
  | _ => []

/-- The kind of a launch's strands. -/
def kindOf (s : State) (l : Launch) (sidx lin : Nat) : Kind :=
  match l.src with
  | .mesh d => .mesh d
  | .tilePass d tile sh =>
    let ps := pixelsOf s l sidx lin
    .pixel d tile sh ((List.range l.record.width).map fun t => ps[t]?)
  | _ => .compute

/-- R354: hardware fills the registers of the pixel threads. -/
def fillPixels (s : State) (l : Launch) (st : Strand) (ps : List Pixel) : Strand :=
  match l.src with
  | .tilePass d _ _ =>
    (match getDraw s d with
     | some x => ((List.range ps.length).zip ps).foldl (fun st (tp : Nat × Pixel) => fillPixel x st tp.1 tp.2) st
     | none => st)
  | _ => st

/-- R9, R27, R108, R110, R112, R116, R278, R390: a strand as it starts. Its thread registers and predicates are free; in stores
that nothing has used since they were zeroed they are 0. -/
def newStrand (s : State) (l : Launch) (grove lin core limb lane k slot sidx : Nat) : Strand :=
  let r := l.record
  let home := homeOf core limb lane k
  let spill := r.spill + BitVec.ofNat 64 (r.stride * home)
  let ps := pixelsOf s l sidx lin
  let isPix := match l.src with
    | .tilePass .. => true
    | _ => false
  let limbNo := 4 * core + limb
  let lanePart := laneIndex core limb lane
  let fresh := storeZero s (if slot = 8 then .understory lanePart else .main lanePart)
  let preds (t : Nat) : BitVec 16 :=
    if storeZero s (.control limbNo) then 0 else (Config.freeWord s.free 9 (64 * home + t)).setWidth 16
  let thread (t : Nat) : Thread :=
    { pc := r.code, exited := isPix && decide (ps.length ≤ t), preds := preds t
      height := r.frame, fsize := r.frame }
  let st : Strand :=
    { home := home, gen := (mapGetD s.gens home 0 + 1) % 256, core := core, limb := limb, lane := lane, slot := slot
      world := l.world, owner := l.owner, launch := l.id, grove := grove, kind := kindOf s l sidx lin, sidx := sidx
      width := r.width, depth := r.depth, entry := r.frame, ntiles := r.acc, diverge := r.diverge
      threads := (List.range r.width).map thread
      sregs := ((List.range 8).zip r.args).foldl (fun m (x : Nat × Word) => mapSet m x.1 x.2) []
      spill := spill, slim := spill + BitVec.ofNat 64 r.stride, blank := if fresh then r.depth else 0, blankTiles := storeZero s (.tiles limbNo) }
  newRun s (fillPixels s l st ps)

/-- R133: an understory strand stops the grant of its lane. An issue under way stops at a thread-step: `issuePart`. -/
def stopGrant (s : State) (r : LaunchRec) (lane : Nat) : State := if r.preempt = 3 then endGrant s lane else s

/-- Places the strands of a grove, from one index on; none where one of them has no room. -/
def placeStrands (l : Launch) (grove lin core : Nat) : Nat → Nat → State → Option State
  | 0, _, s => some s
  | n + 1, sidx, s =>
    match findLane s l.world l.record core with
    | none => none
    | some (limb, lane, k, slot) =>
      let st := newStrand s l grove lin core limb lane k slot sidx
      placeStrands l grove lin core n (sidx + 1)
        (stopGrant { s with strands := s.strands ++ [st], gens := mapSet s.gens st.home st.gen } l.record (laneIndex core limb lane))

/-- The strands of grove `lin` of a launch. -/
def groveCount (s : State) (l : Launch) (lin : Nat) : Nat :=
  match l.src with
  | .tilePass d tile sh =>
    (match getDraw s d with
     | some x => min (strandsPerGrove x) ((strandsOfPass x tile sh).length - lin * strandsPerGrove x)
     | none => 0)
  | _ => l.record.x * l.record.y * l.record.z / l.record.width

/-- The bytes of a grove's private allocation (R85). -/
def scratchBytes (l : Launch) : Nat := l.record.scratch * 256

/-- The cores that have had a grove of the launch, with one more (R294). -/
def noteCore (s : State) (l : Launch) (core : Nat) : State :=
  match getLaunch s l.id with
  | some x => if x.cores.contains core then s else setLaunch s { x with cores := x.cores ++ [core] }
  | none => s

/-- R17, R52, R101: a grove with its private allocation and its strands, on a core; a start is an acquire. -/
def placeGrove (s : State) (l : Launch) (lin core : Nat) : Option State :=
  match freeExtent s core l.world (scratchBytes l) (usedRanges s core) with
  | none => none
  | some base =>
    let id := s.nextId
    let r := l.record
    let g : Grove :=
      { id := id, launch := l.id, lin := lin, core := core, world := l.world, owner := l.owner, base := base, size := scratchBytes l
        count := groveCount s l lin, gx := lin % r.gX, gy := lin / r.gX % r.gY, gz := lin / (r.gX * r.gY) }
    placeStrands l id lin core (groveCount s l lin) 0
      (acquireActs (noteCore { s with groves := s.groves ++ [g], nextId := id + 1 } l core) core .system)

/-! ### Named segments at placement (R95, R96) -/

/-- The listed segments as the directory knows them; none where a name is unknown. -/
def listed (s : State) (l : Launch) : Option (List (AttachMode × Segment)) :=
  l.record.segs.foldr (fun (m, n) acc => match findSegment s l.world n, acc with
    | some g, some r => some ((m, g) :: r)
    | _, _ => none) (some [])

/-- R96: one listed segment is attached to the grove placed last, its storage made where it has none. None where it
must wait. A placement that waited for the segment's own eviction treats create as write (R105). -/
def attachListed (s : State) (l : Launch) (grove core : Nat) (mg : AttachMode × Segment) : Option State :=
  match getSegment s mg.2.uid, getGrove s grove with
  | some x, some g =>
    if x.stored then
      if x.core ≠ core ∨ x.state = .evicting then none
      else
        let s := if x.state = .damaged ∧ mg.1 = .create then setSegment s { x with state := .resident } else s
        some (attachTo s g x.uid x.name mg.1)
    else if x.state = .defined ∧ mg.1 ≠ .create then none
    else (roomWithout s core x []).map fun base =>
      let load := x.state == .evicted && (mg.1 != .create || l.awaited.contains x.uid)
      attachTo (makeStorage s x core base load) g x.uid x.name mg.1
  | _, _ => none

/-- A grove that takes the listed segments, on a core. -/
def placeFirst (s : State) (l : Launch) (lin core : Nat) : Option State :=
  match placeGrove s l lin core, listed s l with
  | some t, some gs => gs.foldl (fun acc mg => acc.bind fun t => attachListed t l s.nextId core mg) (some t)
  | _, _ => none

/-- R55: the core's die takes a WSLOAD for the world. -/
def weightLoading (s : State) (w core : Nat) : Bool := s.wsloads.any fun x => x.world == w && fld x.dies (dieOf core) 1 == 1

/-- Cores on which a launch may be placed: of its stand where it is pinned, with limbs of its world (R20). -/
def usableCores (s : State) (l : Launch) : List Nat :=
  (List.range 96).filter fun c =>
    !outsideStand l.record c && coreOfWorld s c l.world && !weightLoading s l.world c

/-- The rest of a copse, each grove on a core of its own among those given (R19). -/
def placeRest (l : Launch) : Nat → Nat → List Nat → State → Option State
  | 0, _, _, s => some s
  | n + 1, lin, cores, s =>
    match cores.findSome? fun c => (placeGrove s l lin c).map fun t => (c, t) with
    | none => none
    | some (c, t) => placeRest l n (lin + 1) (cores.filter (· != c)) t

/-- R17, R19, R95: the next placement of a launch, its first grove on a core: a grove, or a copse. -/
def placeAt (s : State) (l : Launch) (core : Nat) : Option State :=
  match (if l.record.copse = 1 ∨ l.next % l.record.copse = 0 then placeFirst s l l.next core else placeGrove s l l.next core) with
  | none => none
  | some t =>
    placeRest l (l.record.copse - 1) (l.next + 1)
      ((usableCores s l).filter fun c => c / 8 == core / 8 && c != core) t

/-- R95 step 2: the core that holds a listed segment. -/
def storedCore (s : State) (l : Launch) : Option Nat :=
  ((listed s l).getD []).findSome? fun mg => if mg.2.stored then some mg.2.core else none

/-- The one core on which the next placement may be made, where it is bound to one: for a pass its resolver's (R353), else that
which holds a listed segment, wherever room was being made, else that which the launch waits for (R95). -/
def boundCore (s : State) (l : Launch) : Option Nat := if isPass l then l.waitCore else (storedCore s l).or l.waitCore

/-- The cores on which the next placement may be made. -/
def candidates (s : State) (l : Launch) : List Nat :=
  match boundCore s l with
  | some c => (usableCores s l).filter (· == c)
  | none => usableCores s l

/-- The cores tried, from a free one on. -/
def tryCores (s : State) (l : Launch) : List Nat := rotate (Config.freeChoice s.free 33) (candidates s l)

/-- The launch after a placement: the heap lets it go with its last grove (R317). -/
def afterPlacement (s : State) (l : Launch) : State :=
  let n := l.next + l.record.copse
  setLaunch s { (getLaunch s l.id).getD l with
    next := n, since := s.time, inHeap := l.inHeap && decide (n < l.total)
    awaited := [], evictCore := none
    waitCore := if isPass l then l.waitCore else none }

/-- The next placement of a launch, where it can be made. -/
def placeLaunch (s : State) (l : Launch) : Option State :=
  ((tryCores s l).findSome? (placeAt s l)).map fun t => afterPlacement t l

/-! ### Eviction for a placement (R95, R104) -/

/-- The state in which some segments have left their storage. -/
def without (s : State) (gone : List Nat) : State :=
  { s with segments := s.segments.map fun x => if gone.contains x.uid then { x with stored := false, state := .evicted } else x }

/-- The segments that have to be evicted on a core for the placement, in order; those already leaving are counted as
gone. None where eviction does not help: only the room for listed segments is made so, on a core that meets R17. -/
def evictionsFor (s : State) (l : Launch) (core : Nat) : Option (List Nat) :=
  if l.record.segs.isEmpty || (placeGrove s l l.next core).isNone then none else
  let leaving := ((storedOn s core).filter (·.state == .evicting)).map (·.uid)
  let mine := ((listed s l).getD []).map (·.2.uid)
  evictPrefix (fun gone => (placeAt (without s (leaving ++ gone)) l core).isSome) [] ((evictable s core mine).map (·.uid))

/-- The dtime of the first segment evicted on a core; those already leaving come first of all. -/
def evictionTime (s : State) (us : List Nat) : Nat :=
  match us with
  | [] => 0
  | u :: _ => ((getSegment s u).map (·.dtime)).getD 0

/-- R95, R104: the core on which eviction makes the room, and what leaves there: only that on which it has begun for the same
placement, where it has. -/
def evictionChoice (s : State) (l : Launch) : Option (Nat × List Nat) :=
  let cs := (candidates s l).filter fun c => l.evictCore == none || l.evictCore == some c
  (cs.filterMap fun c => (evictionsFor s l c).map fun us => (c, us)).foldl (fun best cu => match best with
    | none => some cu
    | some b => if evictionTime s cu.2 < evictionTime s b.2 then some cu else some b) none

/-- R96, R105: a launch that cannot be placed waits for the listed segments that are being evicted. -/
def noteAwaited (s : State) (l : Launch) : Launch :=
  { l with awaited := l.awaited ++ (((listed s l).getD []).filter fun mg =>
      mg.2.state == .evicting && !l.awaited.contains mg.2.uid).map (·.2.uid) }

/-- R95, R96: room is made for a launch that cannot be placed, and it waits for that core, as it waits for the core that holds
a listed segment, which may be evicted there meanwhile. -/
def beginRoom (s : State) (l : Launch) : State :=
  let waiting : Launch := { noteAwaited s l with waitCore := boundCore s l }
  match evictionChoice s l with
  | none => setLaunch s waiting
  | some (c, us) => setLaunch (us.foldl beginEviction s) { waiting with waitCore := some c, evictCore := some c }

/-! ### The placer (R317) -/

/-- Insertion by key; equal keys keep their order of entry (R315). -/
def insertByKey (x : Launch) : List Launch → List Launch
  | [] => [x]
  | y :: r => if x.key < y.key then x :: y :: r else y :: insertByKey x r

/-- The heap's entries in key order. -/
def heapOrder (s : State) : List Launch := (s.launches.filter (·.inHeap)).foldl (fun acc l => insertByKey l acc) []

/-- R55, R320, R321, R392, R394: nothing holds a launch's placements back. A launch pre-empted at task boundaries goes on
once no earlier entry is in the heap. -/
def mayPlace (s : State) (l : Launch) : Bool :=
  let w := getWorld s l.world
  worldRuns s l.world && !w.quiescing && !cyclesExhausted s l.world l.owner && decide (l.next < l.total)
    && !(l.paused && s.launches.any fun x => x.inHeap && decide (x.key < l.key))

/-- The first entry whose next placement can be made; entries that eviction could help make room on the way. -/
def placeFirstOf : List Launch → State → State
  | [], s => s
  | l :: r, s =>
    if mayPlace s l then
      match placeLaunch s l with
      | some s => s
      | none => placeFirstOf r (beginRoom s l)
    else placeFirstOf r s

/-- R353: the groves of a tile's pass are placed on the resolver's core as room allows, which is made there for the segments
that its record lists (R95, R96). -/
def placePass (s : State) (l : Launch) : State :=
  match getLaunch s l.id with
  | none => s
  | some l => if mayPlace s l then (placeLaunch s l).getD (beginRoom s l) else s

/-- grovePlacement (R317). -/
def execGrovePlacement (s : State) : Host.Outcome State Fault Refusal :=
  .next (enterHeap ((s.launches.filter isPass).foldl placePass (placeFirstOf ((heapOrder s).take 8) s)))

/-! ### Pre-emption (R321) -/

/-- An entry that may cause pre-emption. -/
def urgent (s : State) (l : Launch) : Bool :=
  l.inHeap && decide (l.key < s.time + 2000) && decide (l.since + 2000 ≤ s.time)

/-- The cores on which a launch's strands stand and may be pre-empted. -/
def victimCores (s : State) (cores : List Nat) (l : Launch) : List Nat :=
  if l.record.preempt = 3 ∨ (l.record.preempt = 2 ∧ (l.paused ∨ l.total ≤ l.next)) then []
  else cores.filter fun c => s.strands.any fun st => st.launch == l.id && st.resident && st.core == c && !st.toSave

/-- The running launch of the latest key with a core that the entry could use. -/
def victim (s : State) (e : Launch) : Option (Launch × List Nat) :=
  s.launches.foldl (fun best l =>
    match victimCores s (candidates s e) l with
    | [] => best
    | cs => if l.id = e.id then best else match best with
      | none => some (l, cs)
      | some b => if b.1.key ≤ l.key then some (l, cs) else some b) none

/-- The strands of a launch on a core are to be saved; under mode 01 they stop at the next thread-step. -/
def stopVictim (s : State) (l : Launch) (core : Nat) : State :=
  let mine := s.strands.filter fun st => st.launch == l.id && st.core == core && st.resident
  mine.foldl (fun s st =>
    let s := setStrand s { st with toSave := true }
    if l.record.preempt = 1 then ungrant s st else s) s

/-- preemption (R321): on one core of the victim, by its preempt field. -/
def execPreemption (s : State) : Host.Outcome State Fault Refusal :=
  match (heapOrder s).find? (urgent s) with
  | none => .next s
  | some e =>
    match victim s e with
    | none => .next s
    | some (l, cs) =>
      if l.record.preempt = 2 then .next (setLaunch s { l with paused := true })
      else .next (stopVictim s l ((rotate (Config.freeChoice s.free 34) cs).headD 0))

/-! ### Budget periods (R320) -/

/-- budgetPeriod (R320, R274): a new period's counts begin, under the caps that BUDGET set. -/
def execBudgetPeriod (s : State) : Host.Outcome State Fault Refusal :=
  if s.time / 1000000 = s.period then .next s
  else
    .next { s with
      period := s.time / 1000000
      budgets := s.budgets.map fun b => { b with cycles := b.nextCycles, bytes := b.nextBytes, usedCycles := 0, usedBytes := 0 }
      discardSeen := [] }

end Sys2Proof.Machine
end

