-- ==== Sys2Proof/Machine/Packets.lean ====
section
/-! DEFINITION. Rings and packets (R305 to R310), launches, graphs and draws (R25, R312, R347), segment and weight-store
packets (R55, R90), definitions and budgets (R311, R313, R319, R320), invalidation (R45), notify writes (R313, R314) and
completion (R309). -/

namespace Sys2Proof.Machine

/-! ### Packets as bytes (R308, R310, R368) -/

/-- A little-endian field of a byte list. -/
def fieldAt (bs : List Byte) (off len : Nat) : Nat := leVal ((bs.drop off).take len)

/-- The fields of a packet's body: offset, bytes and the bits of them in use. -/
def bodyFields (kind op : Nat) : Option (List (Nat × Nat × Nat)) :=
  match kind with
  | 0x01 => some [(0x18, 8, 2 ^ 64 - 1)]
  | 0x02 | 0x04 => some [(0x18, 4, 2 ^ 32 - 1), (0x1c, 4, 2 ^ 32 - 1)]
  | 0x03 => some [(0x18, 8, 2 ^ 64 - 1), (0x20, 8, 2 ^ 64 - 1), (0x28, 8, 2 ^ 64 - 1), (0x30, 4, 2 ^ 32 - 1)]
  | 0x05 => some [(0x18, 1, 255), (0x19, 1, 255), (0x1c, 4, 2 ^ 32 - 1), (0x20, 4, 2 ^ 32 - 1)]
  | 0x06 => some [(0x18, 8, 2 ^ 64 - 1), (0x20, 8, 2 ^ 64 - 1), (0x28, 8, 0xffff0038fffff800)]
  | 0x07 => some [(0x18, 8, 2 ^ 64 - 1), (0x20, 4, 0x33f), (0x28, 4, 2 ^ 32 - 1), (0x2c, 4, 2 ^ 32 - 1)]
  | 0x10 | 0x11 => some [(0x18, 1, 255), (0x20, 8, 2 ^ 64 - 1)]
  | 0x12 => some [(0x18, 1, 255), (0x20, 8, 2 ^ 64 - 1), (0x28, 8, 2 ^ 64 - 1)]
  | 0x13 | 0x14 => some [(0x18, 4, 2 ^ 32 - 1), (0x1c, 4, 2 ^ 32 - 1), (0x20, 8, 2 ^ 64 - 1)]
  | 0x15 => some [(0x18, 4, 0xff3f), (0x20, 8, 2 ^ 64 - 1), (0x28, 8, 2 ^ 64 - 1), (0x30, 2, 2 ^ 16 - 1)]
  | 0x16 =>
    (match op with
     | 0 => some [(0x18, 1, 255), (0x19, 1, 255), (0x1a, 1, 255), (0x1b, 1, 255), (0x1c, 2, 2 ^ 16 - 1), (0x1e, 2, 2 ^ 16 - 1),
         (0x20, 2, 2 ^ 16 - 1), (0x22, 2, 2 ^ 16 - 1)]
     | 1 | 2 => some [(0x18, 1, 255), (0x1c, 4, 2 ^ 32 - 1), (0x20, 8, 2 ^ 64 - 1)]
     | 3 => some [(0x18, 1, 255), (0x1c, 4, 2 ^ 32 - 1)]
     | 4 => some [(0x18, 1, 255), (0x19, 1, 255), (0x1a, 1, 255), (0x20, 8, 2 ^ 64 - 1)]
     | 5 => some [(0x18, 1, 255), (0x19, 1, 255), (0x20, 8, 2 ^ 64 - 1)]
     | _ => none)
  | _ => none

/-- R309: a reserved bit of the body is nonzero. -/
def bodyBad (kind : Nat) (bs : List Byte) : Bool :=
  match bodyFields kind (fieldAt bs 0x18 1) with
  | none => true
  | some fs =>
    let used := fs.foldl (fun m (f : Nat × Nat × Nat) => m + f.2.2 * 2 ^ (8 * (f.1 - 0x18))) 0
    fieldAt bs 0x18 40 &&& (2 ^ 320 - 1 - used) != 0

/-- R308: the header's fields. -/
def headerOf (queue index : Nat) (bs : List Byte) : PktHd :=
  let w := fieldAt bs 0 8
  { queue := queue, index := index, deadline := fieldAt bs 8 8, signal := fieldAt bs 16 8, nidx := fld w 26 12
    ne := fld w 25 1 == 1, bar := fld w 24 1 == 1 }

/-- What the body of a kind says (R310, R368). -/
def packetAct (p : PktHd) (kind : Nat) (bs : List Byte) : Instr :=
  let n (o l : Nat) : Nat := fieldAt bs o l
  let d (o : Nat) : DWord := BitVec.ofNat 64 (fieldAt bs o 8)
  match kind with
  | 0x01 => .launch p (d 0x18)
  | 0x02 => .graph p (n 0x18 4) (n 0x1c 4)
  | 0x03 => .draw p (d 0x18) (d 0x20) (d 0x28) (n 0x30 4)
  | 0x04 => .notify p (n 0x18 4) (BitVec.ofNat 32 (n 0x1c 4))
  | 0x05 => .present p (n 0x18 1) (n 0x19 1) (n 0x1c 4) (n 0x20 4)
  | 0x06 => .segdef p (d 0x18) (d 0x20) (d 0x28)
  | 0x07 => .wsload p (d 0x18) (fld (n 0x20 4) 0 6) (fld (n 0x20 4) 8 2) (n 0x28 4) (n 0x2c 4)
  | 0x10 => .qdef p (n 0x18 1) (d 0x20)
  | 0x11 => .qreset p (n 0x18 1) (d 0x20)
  | 0x12 => .tlbinv p (n 0x18 1) (d 0x20) (d 0x28)
  | 0x13 => .nodedef p (n 0x18 4) (n 0x1c 4) (d 0x20)
  | 0x14 => .nmap p (n 0x18 4) (n 0x1c 4) (d 0x20)
  | 0x15 => .budget p (fld (n 0x18 4) 0 6) (fld (n 0x18 4) 8 8) (d 0x20) (d 0x28) (n 0x30 2)
  | _ =>
    (match n 0x18 1 with
     | 0 => .maprect p (n 0x19 1) (n 0x1a 1) (n 0x1b 1) (n 0x1c 2) (n 0x1e 2) (n 0x20 2) (n 0x22 2)
     | 1 => .desc p (n 0x1c 4) (d 0x20)
     | 2 => .grant p (n 0x1c 4) (d 0x20)
     | 3 => .withdraw p (n 0x1c 4)
     | 4 => .plane p (n 0x19 1) (n 0x1a 1) (d 0x20)
     | _ => .head p (n 0x19 1) (d 0x20))

/-- R307 to R310: what a packet of 64 bytes does on a queue of a class, or the status it completes with. -/
def decodePacket (cls : Nat) (p : PktHd) (bs : List Byte) : Except Nat Instr :=
  let w := fieldAt bs 0 8
  let kind := fld w 16 8
  if w / 2 ^ 38 ≠ 0 ∨ !([1, 2, 3, 4, 5, 6, 7].contains kind || (decide (0x10 ≤ kind) && decide (kind ≤ 0x16))) then
    .error stBadPacket
  else if 0x10 ≤ kind ∧ cls ≠ 2 then .error stDenied
  else if bodyBad kind bs then .error stBadPacket
  else .ok (packetAct p kind bs)

/-- The body that a packet's instruction has: its kind, and offset, bytes and value of each field. -/
def actBody : Instr → Option (PktHd × Nat × List (Nat × Nat × Nat))
  | .launch p r => some (p, 0x01, [(0x18, 8, r.toNat)])
  | .graph p a b => some (p, 0x02, [(0x18, 4, a), (0x1c, 4, b)])
  | .draw p a b c n => some (p, 0x03, [(0x18, 8, a.toNat), (0x20, 8, b.toNat), (0x28, 8, c.toNat), (0x30, 4, n)])
  | .notify p a b => some (p, 0x04, [(0x18, 4, a), (0x1c, 4, b.toNat)])
  | .present p a b c d => some (p, 0x05, [(0x18, 1, a), (0x19, 1, b), (0x1c, 4, c), (0x20, 4, d)])
  | .segdef p a b c => some (p, 0x06, [(0x18, 8, a.toNat), (0x20, 8, b.toNat), (0x28, 8, c.toNat)])
  | .wsload p a r d o l => some (p, 0x07, [(0x18, 8, a.toNat), (0x20, 4, r + 256 * d), (0x28, 4, o), (0x2c, 4, l)])
  | .qdef p q a => some (p, 0x10, [(0x18, 1, q), (0x20, 8, a.toNat)])
  | .qreset p q a => some (p, 0x11, [(0x18, 1, q), (0x20, 8, a.toNat)])
  | .tlbinv p w a l => some (p, 0x12, [(0x18, 1, w), (0x20, 8, a.toNat), (0x28, 8, l.toNat)])
  | .nodedef p a b c => some (p, 0x13, [(0x18, 4, a), (0x1c, 4, b), (0x20, 8, c.toNat)])
  | .nmap p a b c => some (p, 0x14, [(0x18, 4, a), (0x1c, 4, b), (0x20, 8, c.toNat)])
  | .budget p w o c b r => some (p, 0x15, [(0x18, 4, w + 256 * o), (0x20, 8, c.toNat), (0x28, 8, b.toNat), (0x30, 2, r)])
  | .maprect p h n o x y w k => some (p, 0x16, [(0x18, 1, 0), (0x19, 1, h), (0x1a, 1, n), (0x1b, 1, o), (0x1c, 2, x), (0x1e, 2, y),
      (0x20, 2, w), (0x22, 2, k)])
  | .desc p i a => some (p, 0x16, [(0x18, 1, 1), (0x1c, 4, i), (0x20, 8, a.toNat)])
  | .grant p i a => some (p, 0x16, [(0x18, 1, 2), (0x1c, 4, i), (0x20, 8, a.toNat)])
  | .withdraw p i => some (p, 0x16, [(0x18, 1, 3), (0x1c, 4, i)])
  | .plane p h n a => some (p, 0x16, [(0x18, 1, 4), (0x19, 1, h), (0x1a, 1, n), (0x20, 8, a.toNat)])
  | .head p h a => some (p, 0x16, [(0x18, 1, 5), (0x19, 1, h), (0x20, 8, a.toNat)])
  | _ => none

/-- The 64 bytes of a packet; none for what is no packet. -/
def encodePacket (i : Instr) : Option (List Byte) :=
  (actBody i).map fun (p, kind, fs) =>
    let hd := p.index % 2 ^ 16 + kind * 2 ^ 16 + (if p.bar then 2 ^ 24 else 0) + (if p.ne then 2 ^ 25 else 0) + p.nidx * 2 ^ 26
      + p.deadline * 2 ^ 64 + p.signal * 2 ^ 128
    leList 64 (fs.foldl (fun m (f : Nat × Nat × Nat) => m + f.2.2 * 2 ^ (8 * f.1)) hd)

/-! ### Rings (R305 to R307) -/

/-- R405: the driver has committed the feature vector. No state of R406 stops the front end. -/
def frontAwake (s : State) : Bool := s.host.committed

/-- R392 to R394: the world's packets are taken. -/
def worldTakes (s : State) (w : Nat) : Bool := worldRuns s w && !(getWorld s w).quiescing

/-- R308: the register is assigned to the world. -/
def holdsNotify (s : State) (w k : Nat) : Bool :=
  match mapGet s.ntable k with
  | some e => e.world == w
  | none => false

/-- What an examination of a queue's head finds (R307), with what its accesses leave (R35, R40). -/
inductive RingHead
  | nothing (s : State)
  /-- the ring or an index cannot be read or written -/
  | blocked (c : Cause) (va : Nat) (s : State)
  | packet (index : Nat) (bytes : List Byte) (s : State)

/-- Reads an 8-byte word for the front end. -/
def frontWord (s : State) (w va : Nat) : Except Cause (Nat × State) :=
  match frontRead s w va 8 with
  | .ok (bs, s) => .ok (leVal bs, s)
  | .error c => .error c

/-- Writes bytes that may span pages, for the front end. -/
def frontWriteAll (s : State) (w va : Nat) : List Byte → Except Cause State
  | [] => .ok s
  | b :: r => match frontWrite s w va [b] with
    | .ok s => frontWriteAll s w (va + 1) r
    | .error c => .error c

/-- What is left by the first of some addresses that cannot be written (R35, R40). -/
def refusedWrite (s : State) (w : Nat) (vas : List Nat) : State :=
  match vas.find? fun va => (frontWrite s w va []).toOption.isNone with
  | some va => writeEffects s w va
  | none => s

/-- R307: the packet at the read index, where its slot is published. -/
def ringHead (s : State) (q : Queue) : RingHead :=
  match frontWord s q.world q.wraddr.toNat with
  | .error c => .blocked c q.wraddr.toNat (readEffects s q.world q.wraddr.toNat 8)
  | .ok (wr, s) =>
    match frontWord s q.world q.rdaddr.toNat with
    | .error c => .blocked c q.rdaddr.toNat (readEffects s q.world q.rdaddr.toNat 8)
    | .ok (h, s) =>
      if wr ≤ h then .nothing s
      else
        let slot := q.ring.toNat + 64 * (h % 2 ^ q.lsize)
        match frontRead s q.world slot 64 with
        | .error c => .blocked c slot (readEffects s q.world slot 64)
        | .ok (bs, s) =>
          if fieldAt bs 0 2 ≠ h % 2 ^ 16 then .nothing s
          else match frontWrite s q.world q.rdaddr.toNat (leList 8 h) with
            | .error c => .blocked c q.rdaddr.toNat (writeEffects s q.world q.rdaddr.toNat)
            | .ok _ => .packet h bs s

/-- R307, R327: the record of a queue whose ring or index cannot be reached: one until it next takes a packet. -/
def queueRecord (s : State) (q : Queue) (c : Cause) (va : Nat) : State :=
  if c.1 = 0xff then requestAts s q.world c.2
  else if q.faulted then s
  else
    oweRecord (setQueue s { q with faulted := true }) q.world
      [BitVec.ofNat 64 va, BitVec.ofNat 64 (q.no * 2 ^ 56), 0, recordWord3 5 c.1 c.2 0 q.world 0 0 0]

/-- R347: binning entries in use. -/
def entriesUsed (s : State) : Nat := s.draws.foldl (fun n d => n + d.entries) 0

/-- R315, R347: the packet waits at its queue head. -/
def waitsAtHead (s : State) (q : Queue) : Instr → Bool
  | .launch .. => q.cls != 0 && !heapOpen s q.cls
  | .draw _ _ _ _ n => (q.cls != 0 && !heapOpen s q.cls) || (decide (n ≤ 65536) && decide (65536 < entriesUsed s + n))
  | _ => false

/-- The sources that taking a packet reads: world, address and length. -/
def packetSources (w : Nat) : Instr → List (Nat × Nat × Nat)
  | .launch _ r => [(w, r.toNat, 256)]
  | .draw _ m p _ _ => [(w, m.toNat, 256), (w, p.toNat, 256)]
  | .qdef _ _ a => [(0, a.toNat, 64)]
  | .nodedef _ a b c => if a + b ≤ 4096 then [(0, c.toNat, 32 * b)] else []
  | .nmap _ a b c => if a + b ≤ 4096 then [(0, c.toNat, 8 * b)] else []
  | .desc _ _ a | .grant _ _ a | .plane _ _ _ a => [(0, a.toNat, 32)]
  | .head _ _ a => [(0, a.toNat, 64)]
  | _ => []

/-- A host page of a packet's sources whose translation is wanting (R387): the world, the page, and the state that the
read leaves (R40). -/
def sourceWanting (s : State) (w : Nat) (i : Instr) : Option (Nat × Nat × State) :=
  (packetSources w i).findSome? fun (w, va, n) => match frontRead s w va n with
    | .error c => if c.1 = 0xff then some (w, c.2, readEffects s w va n) else none
    | .ok _ => none

/-- R307: the packet is taken: the read index moves on, and what the packet does is the next turn. -/
def takePacket (s : State) (q : Queue) (h : Nat) (p : PktHd) (r : Except Nat Instr) : State :=
  match frontWrite s q.world q.rdaddr.toNat (leList 8 (h + 1)) with
  | .error _ => s
  | .ok s =>
    let s := setQueue s { q with faulted := false }
    let denied := p.ne && !holdsNotify s q.world p.nidx
    match r, denied with
    | .ok i, false =>
      { s with
        packets := s.packets ++ [{ hd := p, act := i, world := q.world, owner := q.owner }]
        turns := .event i :: s.turns }
    | .ok i, true =>
      { s with packets := s.packets ++ [{ hd := p, act := i, world := q.world, owner := q.owner, begun := true, status := some stDenied }] }
    | .error st, _ =>
      { s with packets := s.packets ++ [{ hd := p, act := .packetTake q.no, world := q.world, owner := q.owner, begun := true
                                          status := some st }] }

/-- An attempt to take the packet at a queue's head. -/
def tryTake (s : State) (queue : Nat) : State :=
  match getQueue s queue with
  | none => s
  | some q =>
    if !frontAwake s || !worldTakes s q.world then s
    else match ringHead s q with
      | .nothing t => t
      | .blocked c va t => queueRecord t q c va
      | .packet h bs t =>
        let p := headerOf queue h bs
        let r := decodePacket q.cls p bs
        if p.bar && t.packets.any (·.hd.queue == queue) then t
        else match r with
          | .error _ => takePacket t q h p r
          | .ok i =>
            if waitsAtHead t q i then t
            else match sourceWanting t q.world i with
              | some (w, pg, t) => requestAts t w pg
              | none => takePacket t q h p r

/-- packetTake (R307). -/
def execPacketTake (queue : Nat) (s : State) : Host.Outcome State Fault Refusal := .next (tryTake s queue)

/-- queueExamination (R306): the front end looks at a queue with a reserved slot. -/
def execQueueExamination (queue : Nat) (s : State) : Host.Outcome State Fault Refusal := .next (tryTake s queue)

/-! ### The effects of packets -/

/-- The packet as it was taken, its effect still to come. -/
def takenPacket (s : State) (p : PktHd) (i : Instr) : Option Packet :=
  s.packets.find? fun x => x.hd == p && !x.begun && x.act == i

/-- The effect of a taken packet; without one nothing happens. -/
def atPacket (s : State) (p : PktHd) (i : Instr) (f : State → Packet → State) : Host.Outcome State Fault Refusal :=
  match takenPacket s p i with
  | none => .next s
  | some x =>
    let s := { s with packets := s.packets.map fun y => if y.hd = p then { y with begun := true } else y }
    .next (f s x)

/-- Its work is done, with a status. -/
def finish (s : State) (x : Packet) (status : Nat) : State := setPacketStatus s x.hd.queue x.hd.index status

/-- A source of the packet as words, or BAD_PACKET (R310). -/
def withSource (s : State) (x : Packet) (va : DWord) (n : Nat) (f : State → List DWord → State) : State :=
  match frontRead s 0 va.toNat n with
  | .ok (bs, s) => f s (dwords bs)
  | .error _ => finish (readEffects s 0 va.toNat n) x stBadPacket

/-- The queue of a packet as launches see it, with the packet's own world and owner. -/
def packetQueue (s : State) (x : Packet) : Option Queue :=
  (getQueue s x.hd.queue).map fun q => { q with world := x.world, owner := x.owner }

/-- launch (R25, R97, R310). -/
def execLaunch (p : PktHd) (record : DWord) (s : State) : Host.Outcome State Fault Refusal :=
  atPacket s p (.launch p record) fun s x =>
    match packetQueue s x with
    | none => finish s x stBadPacket
    | some q =>
      match readRecord s x.world record with
      | .error _ => finish s x stBadRecord
      | .ok (.error st, s) => finish s x st
      | .ok (.ok r, s) =>
        let st := segmentStatus s x.world x.owner r
        if st ≠ stOk then finish s x st
        else makeLaunch s (.packet p.queue p.index) q r p.deadline

/-! ### Launch graphs (R311, R312) -/

def getNode (s : State) (n : Nat) : Node := mapGetD s.nodes n {}

/-- R312: the check of a GRAPH's range: the status it completes with, or none. -/
def graphCheck (s : State) (w first count : Nat) : Option Nat :=
  let ns := (List.range count).map (first + ·)
  if count = 0 ∨ 4096 < first + count then some stBadPacket
  else if ns.any fun n => (getNode s n).armed then some stRefused
  else ns.findSome? fun n => match getQueue s (getNode s n).queue with
    | none => some stBadPacket
    | some q => if q.world ≠ w then some stDenied else none

/-- A node is armed: its work runs in the frame that its owner is in now (R277, R371). -/
def armNode (run : Nat × Nat) (world : Nat) (s : State) (n : Nat) : State :=
  let nd := getNode s n
  let owner := ((getQueue s nd.queue).map (·.owner)).getD 255
  { s with nodes := mapSet s.nodes n { nd with
      run := run, world := world, frame := currentFrame s owner, armed := true, count := nd.init, ready := false, done := none } }

/-- graph (R312). -/
def execGraph (p : PktHd) (first count : Nat) (s : State) : Host.Outcome State Fault Refusal :=
  atPacket s p (.graph p first count) fun s x =>
    match graphCheck s x.world first count with
    | some st => finish s x st
    | none =>
      let ns := (List.range count).map (first + ·)
      let s := ns.foldl (armNode (p.queue, p.index) x.world) { s with graphs := s.graphs ++ [{ queue := p.queue, index := p.index, first := first, count := count }] }
      ns.foldl nodeReady s

/-- A node of a graph's range that the graph has armed, and that has not completed. A node that a failing graph has
disarmed may have been armed by another. -/
def inGraph (g : GraphRun) (n : Nat) (nd : Node) : Bool :=
  decide (g.first ≤ n) && decide (n < g.first + g.count) && nd.armed && nd.run == (g.queue, g.index)

/-- R312: a graph whose armed nodes have all completed. -/
def tryGraphDone (s : State) (g : GraphRun) : State :=
  if (List.range g.count).any fun i => inGraph g (g.first + i) (getNode s (g.first + i)) then s
  else
    setPacketStatus { s with graphs := s.graphs.filter fun x => !(x.queue == g.queue && x.index == g.index) } g.queue g.index
      (g.failed.getD stOk)

/-- R312: the nodes of a range that are not yet ready are disarmed. -/
def disarm (s : State) (g : GraphRun) : State :=
  { s with nodes := s.nodes.map fun x => if inGraph g x.1 x.2 && !x.2.ready then (x.1, { x.2 with armed := false }) else x }

/-- nodeComplete (R312): in one action. -/
def execNodeComplete (node : Nat) (s : State) : Host.Outcome State Fault Refusal :=
  match mapGet s.nodes node with
  | none => .next s
  | some nd =>
    match nd.done with
    | none => .next s
    | some st =>
      if !nd.armed then .next s
      else
        let s := { s with nodes := mapSet s.nodes node { nd with armed := false, done := none, last := st } }
        let ok := st == stOk || st == stOverrun
        let s := if ok then nd.succ.foldl decrementNode s else s
        match s.graphs.find? fun g => inGraph g node nd with
        | none => .next s
        | some g =>
          if ok then .next (tryGraphDone s g)
          else
            let g := { g with failed := some (g.failed.getD st) }
            let s := { s with graphs := s.graphs.map fun x => if x.queue = g.queue ∧ x.index = g.index then g else x }
            .next (tryGraphDone (disarm s g) g)

/-- The fields of a node's four words (R311); armed, count and last are hardware's. -/
def parseNode (old : Node) (w0 w1 w2 w3 : Nat) : Node :=
  { old with
    record := BitVec.ofNat 64 w0
    succ := ((List.range 4).filter fun i => fld w1 (12 + i) 1 == 1).map fun i => fld w1 (16 + 12 * i) 12
    queue := fld w2 48 8, init := fld w2 32 16, rdl := w3 }

def defineNodes (first : Nat) : List DWord → State → State
  | w0 :: w1 :: w2 :: w3 :: r, s =>
    let nd := parseNode (getNode s first) w0.toNat w1.toNat w2.toNat w3.toNat
    defineNodes (first + 1) r { s with nodes := mapSet s.nodes first nd }
  | _, s => s

/-- R310: an entry of a NODEDEF names a queue of another world than the packet's own (log 36). -/
def nodeForeign (s : State) (w : Nat) : List DWord → Bool
  | _ :: _ :: w2 :: _ :: r => (match getQueue s (fld w2.toNat 48 8) with
      | some q => q.world != w
      | none => false) || nodeForeign s w r
  | _ => false

/-- nodedef (R310, R311). -/
def execNodedef (p : PktHd) (first count : Nat) (source : DWord) (s : State) : Host.Outcome State Fault Refusal :=
  atPacket s p (.nodedef p first count source) fun s x =>
    if 4096 < first + count then finish s x stBadPacket
    else if (List.range count).any fun i => (getNode s (first + i)).armed then finish s x stRefused
    else withSource s x source (32 * count) fun s ws =>
      if nodeForeign s x.world ws then finish s x stDenied else finish (defineNodes first ws s) x stOk

/-! ### Notify registers (R313, R314) -/

/-- A notify-table entry; none where v is clear. -/
def parseNotify (w : Nat) : Option NotifyEntry :=
  if fld w 57 1 = 0 then none
  else some { world := fld w 58 6, arm := fld w 56 1 == 1, node := fld w 44 12, thresh := fld w 0 32 }

def defineNotify (first : Nat) : List DWord → State → State
  | w :: r, s =>
    let s := { s with
      notify := mapErase s.notify first
      ntable := match parseNotify w.toNat with
        | some e => mapSet s.ntable first e
        | none => mapErase s.ntable first }
    defineNotify (first + 1) r s
  | [], s => s

/-- nmap (R313). -/
def execNmap (p : PktHd) (first count : Nat) (source : DWord) (s : State) : Host.Outcome State Fault Refusal :=
  atPacket s p (.nmap p first count source) fun s x =>
    if 4096 < first + count then finish s x stBadPacket
    else withSource s x source (8 * count) fun s ws => finish (defineNotify first ws s) x stOk

/-- notify (R310, R314). -/
def execNotify (p : PktHd) (index : Nat) (addend : Word) (s : State) : Host.Outcome State Fault Refusal :=
  atPacket s p (.notify p index addend) fun s x =>
    if holdsNotify s x.world index then finish (notifyAdd s index addend) x stOk else finish s x stDenied

/-- The device is in S1 to S3, or on its way there. -/
def drowsy (s : State) : Bool := s.power.state != .s0 || s.power.entering.isSome

/-- R404, R408: until the boot order is complete, and in S1 to S3, a write of the notify aperture waits in the latch. -/
def latched (s : State) : Bool := drowsy s || s.host.bootStep != 0

/-- An exit to S0 is wanted (R407 to R409). -/
def wake (s : State) : State := if drowsy s then { s with power := { s.power with pendingExit := true } } else s

/-- A posted write that the port does not accept yet: link flow control holds it (R408). -/
def holdWrite (s : State) (i : Instr) : State := wake { s with host := { s.host with held := s.host.held ++ [i] } }

/-- A write goes into the latch of 256 entries, or, with no room there, is held at the port (R408). -/
def latchWrite (s : State) (i : Instr) (e : Nat × Word × Nat) : State :=
  if 256 ≤ s.host.latch.length then holdWrite s i
  else wake { s with host := { s.host with latch := s.host.latch ++ [e] } }

/-- R313: a write at an offset of the notify aperture is dropped, and the system world is told. -/
def refuseAt (s : State) (offset requester : Nat) : State :=
  oweRecord s 0 [BitVec.ofNat 64 offset, 0, 0, recordWord3 2 2 9 0 requester 0 0 0]

def refuseNotify (s : State) (index requester : Nat) : State := refuseAt s (4 * index) requester

/-- R313, R393: the requester may write the register now. -/
def mayNotify (s : State) (index requester : Nat) : Bool :=
  holdsNotify s requester index && worldRuns s requester

/-- R394: the register's world is quiesced: writes to it are latched. -/
def quiesced (s : State) (index : Nat) : Bool :=
  match mapGet s.ntable index with
  | some e => (getWorld s e.world).tstate == .quiesced
  | none => false

/-- A notify write that is applied now (R313, R314). -/
def applyNotify (s : State) (index : Nat) (addend : Word) (requester : Nat) : State :=
  if mayNotify s index requester then notifyAdd s index addend else refuseNotify s index requester

/-- notifyWrite (R313, R314, R394, R408): posted writes keep their order, so nothing passes one that is held. -/
def execNotifyWrite (index : Nat) (addend : Word) (requester : Nat) (s : State) : Host.Outcome State Fault Refusal :=
  if !s.host.held.isEmpty then .next (holdWrite s (.notifyWrite index addend requester))
  else if latched s || (quiesced s index && holdsNotify s requester index) then
    .next (latchWrite s (.notifyWrite index addend requester) (index, addend, requester))
  else .next (applyNotify s index addend requester)

/-- R386, R393: doorbells are checked as notify writes are (R313): the queue belongs to the requester's world, whose
interface runs (log 44). -/
def mayRing (s : State) (queue requester : Nat) : Bool :=
  match getQueue s queue with
  | some q => q.world == requester && worldRuns s requester
  | none => false

/-- A doorbell write that is applied now (R306). -/
def applyDoorbell (s : State) (queue requester : Nat) : State :=
  if mayRing s queue requester then tryTake s queue else refuseAt s (0x4000 + 8 * queue) requester

/-- doorbellWrite (R306, R386, R408): doorbell q stands in the latch as register 4,096 + q. -/
def execDoorbellWrite (bell : Doorbell) (s : State) : Host.Outcome State Fault Refusal :=
  if !s.host.held.isEmpty then .next (holdWrite s (.doorbellWrite bell))
  else if latched s then .next (latchWrite s (.doorbellWrite bell) (4096 + bell.queue, 0, bell.requester))
  else .next (applyDoorbell s bell.queue bell.requester)

/-- What a read through a base address register returns. -/
def readBack (s : State) (v : Option DWord) : State := { s with host := { s.host with readout := v } }

/-- A read of the notify aperture returns the register, whichever function it is made through: the aperture is the same in
each, and only writes are checked (R313, R386). Where the function's interface does not run, and of a doorbell, it completes
as an unsupported request (R393). -/
def readNotify (s : State) (offset requester : Nat) : State :=
  let ok := offset % 4 == 0 && decide (offset < 0x4000) && worldRuns s requester
  readBack s (if ok then some ((mapGetD s.notify (offset / 4) 0).setWidth 64) else none)

/-! ### Draws (R347) -/

/-- R347: the pixel record's grid is ignored. -/
def pixelGrid (ws : List DWord) : List DWord :=
  ws.set 2 (BitVec.ofNat 64 (fld ((ws.getD 1 0).toNat) 52 3 + 1 + 2 ^ 32 + 2 ^ 48))

/-- R25, R97, R347: a record of a DRAW, or the status it fails with. -/
def drawRecord (s : State) (x : Packet) (a : DWord) (pixel : Bool) : Except Nat LaunchRec × State :=
  match readRecordAs (if pixel then pixelGrid else id) s x.world a with
  | .error _ => (.error stBadPacket, s)
  | .ok (.error st, s) => (.error (if st = stBadRecord then stBadPacket else st), s)
  | .ok (.ok r, s) =>
    if pixel && (r.x != 1024 || r.y != 1 || r.z != 1) then (.error stBadPacket, s)
    else
      let st := segmentStatus s x.world x.owner r
      if st ≠ stOk then (.error st, s) else (.ok r, s)

/-- R347, R367: an output descriptor of a DRAW: none where it is unused. -/
def drawOutput (s : State) (w k index : Nat) : Except Nat (Option (Nat × Desc)) :=
  if index = 0xffff then (if k = 0 then .error stBadPacket else .ok none)
  else match mapGet s.descs index with
    | none => .error stBadPacket
    | some d =>
      if 2 ≤ d.kind then .error stBadPacket
      else if d.kind = 0 ∧ d.world ≠ w then .error stDenied
      else .ok (some (index, d))

/-- R347: output k is at least as large as the target. -/
def coversTarget (t : Desc) (o : Option (Nat × Desc)) : Bool :=
  match o with
  | none => true
  | some (_, d) => decide (t.width ≤ d.width) && decide (t.height ≤ d.height)

def firstError {α : Type} : List (Except Nat α) → Except Nat (List α)
  | [] => .ok []
  | .error e :: _ => .error e
  | .ok a :: r => match firstError r with
    | .ok l => .ok (a :: l)
    | .error e => .error e

/-- The outputs of a DRAW. -/
def drawOutputs (s : State) (w : Nat) (outs : DWord) : Except Nat (List (Option (Nat × Desc))) :=
  match firstError ((List.range 4).map fun k => drawOutput s w k (fld outs.toNat (16 * k) 16)) with
  | .error e => .error e
  | .ok os =>
    match os.headD none with
    | none => .error stBadPacket
    | some (_, t) => if os.all (coversTarget t) then .ok os else .error stBadPacket

/-- draw (R347): the outputs are read once, and the mesh kernel becomes ready work. -/
def execDraw (p : PktHd) (mesh pixel : DWord) (outs : DWord) (entries : Nat) (s : State) : Host.Outcome State Fault Refusal :=
  atPacket s p (.draw p mesh pixel outs entries) fun s x =>
    let (m, s) := drawRecord s x mesh false
    let (r, s) := drawRecord s x pixel true
    match packetQueue s x, drawOutputs s x.world outs, m, r with
    | none, _, _, _ => finish s x stBadPacket
    | _, .error st, _, _ => finish s x st
    | _, _, .error st, _ => finish s x st
    | _, _, _, .error st => finish s x st
    | some q, .ok os, .ok m, .ok r =>
      if entries = 0 ∨ 65536 < entries then finish s x stBadPacket
      else
        let id := s.nextId
        let key := deadlineKey (pacedDeadline s q p.deadline)
        let d : Draw := { id := id, queue := p.queue, index := p.index, world := x.world, owner := x.owner
                          frame := currentFrame s x.owner, key := key, mesh := m, pixel := r, outs := os, entries := entries }
        makeLaunch { s with draws := s.draws ++ [d], nextId := id + 1 } (.mesh id) q m p.deadline

/-! ### Segments and the weight store (R55, R90) -/

/-- R90: the definition is refused. -/
def segdefRefused (s : State) (w : Nat) (name backing : DWord) (w2 : Nat) : Bool :=
  let size := fld w2 21 11
  (findSegment s w name).isSome || size == 0 || decide (1024 < size) || decide (1024 < fld w2 11 10 + size)
    || fld w2 48 2 == 3 || fld w2 35 3 == 7 || (fld w2 48 2 == 1 && backing.toNat % 128 != 0) || decide (16384 ≤ s.segments.length)

/-- segdef (R90). Word 2 has its world bits 0; a packet that names another world than its queue's is DENIED (R310). -/
def execSegdef (p : PktHd) (name backing word2 : DWord) (s : State) : Host.Outcome State Fault Refusal :=
  atPacket s p (.segdef p name backing word2) fun s x =>
    let w2 := word2.toNat
    let named := fld w2 58 6
    if named ≠ 0 then finish s x (if named = x.world then stBadPacket else stDenied)
    else if segdefRefused s x.world name backing w2 then finish s x stRefused
    else
      let g : Segment :=
        { uid := s.nextId, world := x.world, name := name, backing := backing, owner := fld w2 50 8
          life := if fld w2 48 2 = 0 then .kernel else if fld w2 48 2 = 1 then .kept else .pinned
          state := .defined, core := 0, swizzle := fld w2 35 3, size := fld w2 21 11, vbase := fld w2 11 10 }
      finish { s with segments := s.segments ++ [g], nextId := s.nextId + 1 } x stOk

/-- R54, R310: the packet's world may write a region: none of another world has its entry or overlaps it on a named die, nor
will one that is still to be loaded there (R55). -/
def wsloadStatus (s : State) (w region dies offset length : Nat) : Nat :=
  let foreign := (s.wregions.any fun r =>
      fld dies r.die 1 == 1 && r.world != w && (r.entry == region || overlaps r.base r.len offset length))
    || s.wsloads.any fun r =>
      (dies &&& r.dies) % 4 != 0 && r.world != w && (r.region == region || overlaps r.offset r.len offset length)
  if offset % 0x10000 ≠ 0 ∨ length % 0x10000 ≠ 0 ∨ 0x30000000 < offset + length then stBadPacket
  else if foreign then stDenied
  else stOk

/-- wsload (R55): placement of the world's groves on the named dies stops. -/
def execWsload (p : PktHd) (source : DWord) (region dies offset length : Nat) (s : State) : Host.Outcome State Fault Refusal :=
  atPacket s p (.wsload p source region dies offset length) fun s x =>
    let st := wsloadStatus s x.world region dies offset length
    if st ≠ stOk then finish s x st
    else
      { s with wsloads := s.wsloads ++ [{ queue := p.queue, index := p.index, world := x.world, source := source, region := region
                                          dies := dies, offset := offset, len := length }] }

/-- A region of a die's weight store is written, with its table entry. -/
def writeRegion (x : WsLoad) (bs : List Byte) (bad : Nat → Bool) (s : State) (die : Nat) : State :=
  if fld x.dies die 1 = 0 then s
  else
    let poison := ((List.range (x.len / 4)).filter bad).map fun k => Poison.weight die (x.offset / 4 + k)
    { s with
      weight := s.weight.set die (memWrite (s.weight.getD die []) x.offset bs)
      wregions := s.wregions.filter (fun r => !(r.die == die && r.entry == x.region))
        ++ [{ die := die, entry := x.region, base := x.offset, len := x.len, world := x.world }]
      poison := s.poison.filter (fun
        | .weight d k => !(d == die && decide (x.offset ≤ 4 * k) && decide (4 * k < x.offset + x.len))
        | _ => true) ++ poison }

/-- Poison of a word of a world's memory. -/
def wordPoisoned (s : State) (w va : Nat) : Bool :=
  match translateFront s w va needRead with
  | (.ok pa _, _) => memPoisoned s pa 4
  | _ => false

/-- wsloadRegionWrite (R55, R393): every grove of the world on the dies has ended. -/
def execWsloadRegionWrite (queue index : Nat) (s : State) : Host.Outcome State Fault Refusal :=
  match s.wsloads.find? fun x => x.queue == queue && x.index == index with
  | none => .next s
  | some x =>
    if !mayDma s x.world || s.groves.any fun g => g.world == x.world && fld x.dies (dieOf g.core) 1 == 1 then .next s
    else match frontRead s x.world x.source.toNat x.len with
      | .error c =>
        let t := readEffects s x.world x.source.toNat x.len
        if c.1 = 0xff then .next (requestAts t x.world c.2)
        else
          .next (setPacketStatus { t with wsloads := t.wsloads.filter fun y => !(y.queue == queue && y.index == index) }
            queue index stBadPacket)
      | .ok (bs, s) =>
        let bad (k : Nat) : Bool := !s.poison.isEmpty && wordPoisoned s x.world (x.source.toNat + 4 * k)
        let t := [0, 1].foldl (writeRegion x bs bad) s
        .next (setPacketStatus { t with wsloads := t.wsloads.filter fun y => !(y.queue == queue && y.index == index) } queue index stOk)

/-! ### Queues (R305, R310, R319) -/

/-- The fields of a queue descriptor. -/
def parseQueue (no : Nat) (ws : List DWord) : Queue :=
  let w (i : Nat) : Nat := (ws.getD i 0).toNat
  { no := no, ring := ws.getD 0 0, rdaddr := ws.getD 1 0, wraddr := ws.getD 2 0, world := fld (w 3) 58 6, owner := fld (w 3) 50 8
    cls := fld (w 3) 48 2, lsize := fld (w 3) 44 4, weight := fld (w 3) 36 8, paced := fld (w 3) 35 1 == 1
    period := w 4, cost := fld (w 5) 32 32, lead := fld (w 5) 0 32, pin := ws.getD 6 0, pinlen := fld (w 7) 0 8 }

/-- R305: the descriptor breaks a limit. -/
def queueBad (s : State) (ws : List DWord) : Bool :=
  let q := parseQueue 0 ws
  q.cls == 3 || (q.cls == 2 && q.world != 0) || !(getWorld s q.world).live || decide (q.lsize < 4) || q.owner == 255
    || (q.cls == 0) == (q.weight == 0) || q.ring.toNat % 64 != 0 || q.rdaddr.toNat % 8 != 0 || q.wraddr.toNat % 8 != 0
    || fld (ws.getD 3 0).toNat 0 35 != 0 || (ws.getD 7 0).toNat / 256 != 0
    || (q.cls != 1 && (q.period != 0 || q.cost != 0 || q.pin != 0 || q.pinlen != 0))

/-- R319: ⌈C × 2^16 / P⌉. -/
def reserveTerm (q : Queue) : Nat := (q.cost * 2 ^ 16 + q.period - 1) / q.period

/-- R319: the sum over real-time queues but one stays within a reserve of `ures` / 256 cores. -/
def admitted (s : State) (ures but more : Nat) : Bool :=
  decide ((s.queues.filter fun q => q.cls == 1 && q.no != but).foldl (fun n q => n + reserveTerm q) 0 + more ≤ 4 * ures * 2 ^ 8 / 5)

/-- R319, R405: a real-time definition is refused. -/
def queueRefused (s : State) (q : Queue) : Bool :=
  q.cls == 1 && (fld ((s.host.accepted.getD 0 0).toNat) 5 1 == 0 || q.period == 0 || decide (s.ures * q.period < q.cost * 256)
    || q.pin.toNat % 4096 != 0 || decide (128 < q.pinlen) || !admitted s s.ures q.no (reserveTerm q))

/-- The lines of memory that a queue pins (R319): those of its pages that translate. -/
def pinnedLines (s : State) (q : Queue) : List Nat × State :=
  if q.cls ≠ 1 ∨ q.pin = 0 then ([], s)
  else (List.range q.pinlen).foldl (fun (acc : List Nat × State) (k : Nat) =>
    match translateFront acc.2 q.world (q.pin.toNat + 128 * k) needFetch with
    | (.ok pa _, s) => (acc.1 ++ [pa / 128], s)
    | (_, s) => (acc.1, s)) ([], s)

/-- R319: the queues that a test picks pin the lines that their code translates to now. -/
def repinQueues (s : State) (f : Queue → Bool) : State :=
  refillPins ((s.queues.filter f).foldl (fun s q =>
    let (ls, s) := pinnedLines s q
    { s with queues := s.queues.map fun x => if x.no = q.no then { x with pinLines := ls } else x }) s)

/-- R307, R309: a queue's indices begin anew. What the packets that were taken before have under way keeps apart from what is
to come by an index 2^64 above, whose completion word is the same. -/
def retireQueue (s : State) (queue : Nat) : State :=
  let old (q i : Nat) : Nat := if q = queue then i + 2 ^ 64 else i
  let src (l : Launch) : Launch := match l.src with
    | .packet q i => { l with src := .packet q (old q i) }
    | _ => l
  { s with
    packets := s.packets.map fun x => if x.begun then { x with hd.index := old x.hd.queue x.hd.index } else x
    launches := s.launches.map src
    wsloads := s.wsloads.map fun x => { x with index := old x.queue x.index }
    tlbinvs := s.tlbinvs.map fun x => { x with index := old x.queue x.index }
    graphs := s.graphs.map fun x => { x with index := old x.queue x.index }
    nodes := s.nodes.map fun x => (x.1, { x.2 with run := (x.2.run.1, old x.2.run.1 x.2.run.2) })
    draws := s.draws.map fun x => { x with index := old x.queue x.index }
    presents := s.presents.map fun x => { x with waiting := x.waiting.map fun (q, i) => (q, old q i) } }

/-- A queue is defined, in place of the one of its number; its pinned lines are held in every L2 slice (R319). -/
def defineQueue (s : State) (q : Queue) : State :=
  let (ls, s) := pinnedLines s q
  refillPins { s with queues := s.queues.filter (·.no != q.no) ++ [{ q with pinLines := ls }] }

/-- qdef (R305, R319). -/
def execQdef (p : PktHd) (queue : Nat) (desc : DWord) (s : State) : Host.Outcome State Fault Refusal :=
  atPacket s p (.qdef p queue desc) fun s x =>
    withSource s x desc 64 fun s ws =>
      let q := parseQueue queue ws
      if queueBad s ws then finish s x stBadPacket
      else if queueRefused s q then finish s x stRefused
      else retireQueue (finish (defineQueue s q) x stOk) queue

/-- qreset (R307, R310): the untaken packets are abandoned. -/
def execQreset (p : PktHd) (queue : Nat) (index : DWord) (s : State) : Host.Outcome State Fault Refusal :=
  atPacket s p (.qreset p queue index) fun s x =>
    match getQueue s queue with
    | none => finish s x stBadPacket
    | some q =>
      let write (s : State) (a : DWord) : State := match frontWrite s q.world a.toNat (leList 8 index.toNat) with
        | .ok s => s
        | .error _ => writeEffects s q.world a.toNat
      retireQueue (finish (setQueue (write (write s q.rdaddr) q.wraddr) { q with faulted := false }) x stOk) queue

/-! ### Budgets (R319, R320) -/

/-- The caps of an owner or a world from the next period on. -/
def setBudget (s : State) (world owner : Nat) (cycles bytes : DWord) : State :=
  let set (b : Budget) : Budget := { b with nextCycles := cycles.toNat, nextBytes := bytes.toNat }
  if s.budgets.any fun b => b.world == world && b.owner == owner then
    { s with budgets := s.budgets.map fun b => if b.world = world ∧ b.owner = owner then set b else b }
  else { s with budgets := s.budgets ++ [set { world := world, owner := owner }] }

/-- budget (R310, R319, R320). -/
def execBudget (p : PktHd) (world owner : Nat) (cycles bytes : DWord) (reserve : Nat) (s : State) :
    Host.Outcome State Fault Refusal :=
  atPacket s p (.budget p world owner cycles bytes reserve) fun s x =>
    let whole := world == 0 && owner == 255
    if reserve != 0 && !whole then finish s x stBadPacket
    else if whole && !admitted s reserve 256 0 then finish s x stRefused
    else finish (setBudget (if whole then { s with ures := reserve } else s) world owner cycles bytes) x stOk

/-! ### TLB invalidation (R45) -/

def isGlobal : AccPlace → Bool
  | .global .. => true
  | _ => false

/-- An entry of a world maps part of a range. -/
def mapsRange (w base len : Nat) (e : TlbEntry) : Bool := e.world == w && overlaps e.va e.size base len

/-- No TLB or walk cache holds a translation of the range. -/
def dropTranslations (s : State) (w base len : Nat) : State :=
  { s with
    tlb := s.tlb.filter fun e => !mapsRange w base len e
    utlb := s.utlb.filter fun e => !mapsRange w base len e
    walkCache := s.walkCache.filter fun c => !(c.world == w && overlaps (c.region * 0x200000) 0x200000 base len) }

/-- tlbinv (R45). -/
def execTlbinv (p : PktHd) (world : Nat) (base length : DWord) (s : State) : Host.Outcome State Fault Refusal :=
  atPacket s p (.tlbinv p world base length) fun s x =>
    if 63 < world then finish s x stBadPacket
    else
      let s := dropTranslations s world base.toNat length.toNat
      { s with tlbinvs := s.tlbinvs ++
          [{ queue := p.queue, index := p.index, world := world, base := base.toNat, len := length.toNat
             accesses := (s.pend.filter fun a => a.world == world && isGlobal a.place).map (·.id)
             insts := (s.insts.filter fun i => i.world == world && i.started).map (·.id) }] }

/-- Every access made through the old translations has been performed. A store, or a write of a card, counts as performed
once the core data cache or the slice has taken it: its bytes may reach memory, under their own line's world, later. The
manual names a coherence point for atomics alone; where this puts it for stores is log 38's choice. -/
def drained (s : State) (accesses insts : List Nat) : Bool :=
  !(s.pend.any fun a => accesses.contains a.id) && !(s.insts.any fun i => insts.contains i.id)

/-- The queue pins code of the range. -/
def pinsRange (w base len : Nat) (q : Queue) : Bool := q.world == w && overlaps q.pin.toNat (128 * q.pinlen) base len

/-- tlbInvalidationComplete (R45): lines pinned through an old translation are pinned no more. -/
def execTlbInvalidationComplete (queue index : Nat) (s : State) : Host.Outcome State Fault Refusal :=
  match s.tlbinvs.find? fun x => x.queue == queue && x.index == index with
  | none => .next s
  | some x =>
    if drained s x.accesses x.insts then
      .next (setPacketStatus { repinQueues s (pinsRange x.world x.base x.len) with
        tlbinvs := s.tlbinvs.filter fun y => !(y.queue == queue && y.index == index) } queue index stOk)
    else .next s

/-! ### Completion (R303, R309) -/

/-- R309: the completion word. -/
def completionWord (index status : Nat) : Nat := index % 2 ^ 48 * 2 ^ 16 + status

/-- R309: the record of a signal address that fails translation. -/
def signalRecord (s : State) (x : Packet) (c : Cause) : State :=
  oweRecord s x.world [BitVec.ofNat 64 x.hd.signal, 0, 0, recordWord3 4 c.1 c.2 0 x.world 0 0 0]

/-- The completion's notify add, and the packet is gone. -/
def completePacket (s : State) (x : Packet) : State :=
  let s := { s with packets := s.packets.filter fun y => !(y.hd.queue == x.hd.queue && y.hd.index == x.hd.index) }
  if x.hd.ne && holdsNotify s x.world x.hd.nidx then notifyAdd s x.hd.nidx 1 else s

/-- packetCompletion (R309): the completion word, then the notify add, then packets held by bar. -/
def execPacketCompletion (queue index : Nat) (s : State) : Host.Outcome State Fault Refusal :=
  match s.packets.find? fun x => x.hd.queue == queue && x.hd.index == index with
  | none => .next s
  | some x =>
    match x.status with
    | none => .next s
    | some st =>
      if !mayDma s x.world then .next s
      else if x.hd.signal = 0 then .next (completePacket s x)
      else match frontWriteAll s x.world x.hd.signal (leList 8 (completionWord index st)) with
        | .ok s => .next (completePacket s x)
        | .error c =>
          let t := refusedWrite s x.world ((List.range 8).map (x.hd.signal + ·))
          if c.1 = 0xff then .next (requestAts t x.world c.2)
          else .next (completePacket (signalRecord t x c) x)

end Sys2Proof.Machine
end

