-- ==== Sys2Proof/Machine/Owners.lean ====
section
/-! DEFINITION. Ownership packets (R362 to R368), frames and grants (R371 to R373), latches, composition, backdrops and
capture (R364, R374 to R377). -/

namespace Sys2Proof.Machine

/-! ### Owner maps, descriptors, planes and heads (R363, R366, R368) -/

/-- Writes n owner bytes of a row. -/
def writeRow (s : State) (va n owner : Nat) : Except Cause State := frontWriteAll s 0 va (List.replicate n (BitVec.ofNat 8 owner))

/-- Rows of a rectangle. -/
def writeRows (base width x0 owner w : Nat) : Nat → Nat → State → Except Cause State
  | 0, _, s => .ok s
  | n + 1, y, s => match writeRow s (base + y * width + x0) w owner with
    | .ok s => writeRows base width x0 owner w n (y + 1) s
    | .error c => .error c

/-- R35: what the first byte of a rectangle that cannot be written leaves; the rectangle itself is not written (R368). -/
def rowsRefused (s : State) (base width x0 y0 w h : Nat) : State :=
  refusedWrite s 0 ((List.range h).flatMap fun j => (List.range w).map fun i => base + (y0 + j) * width + x0 + i)

/-- maprect (R368). -/
def execMaprect (p : PktHd) (head plane owner x0 y0 w h : Nat) (s : State) : Host.Outcome State Fault Refusal :=
  atPacket s p (.maprect p head plane owner x0 y0 w h) fun s x =>
    let hd := getHead s head
    if 100 ≤ head ∨ 4 ≤ plane ∨ hd.width < x0 + w ∨ hd.height < y0 + h then finish s x stRefused
    else match writeRows (getPlane s head plane).omap.toNat hd.width x0 owner w h y0 s with
      | .ok s => finish s x stOk
      | .error _ => finish (rowsRefused s (getPlane s head plane).omap.toNat hd.width x0 y0 w h) x stRefused

/-- The fields of a surface descriptor (R366). -/
def parseDesc (ws : List DWord) : Desc :=
  let w (i : Nat) : Nat := (ws.getD i 0).toNat
  { base := ws.getD 0 0, width := fld (w 1) 50 14 + 1, height := fld (w 1) 36 14 + 1, pitch := fld (w 1) 20 16
    world := fld (w 2) 58 6, owner := fld (w 2) 50 8, kind := fld (w 2) 48 2, fmt := fld (w 2) 45 2, head := fld (w 2) 38 7
    plane := fld (w 2) 36 2, reader := fld (w 2) 28 8 }

def isOwner (o : Nat) : Bool := decide (1 ≤ o) && decide (o ≤ 254)

/-- R366: a valid descriptor breaks a limit. -/
def descBad (s : State) (d : Desc) : Bool :=
  let hd := getHead s d.head
  d.kind == 3 || decide (2 ≤ d.fmt) || d.base.toNat % 128 != 0 || decide (d.pitch * 64 < d.width * pixelBytes d)
    || (d.kind == 0 && !isOwner d.owner)
    || (d.kind != 0 && (d.world != 0 || d.owner != 0 || d.fmt != 0 || decide (100 ≤ d.head) || d.width != hd.width || d.height != hd.height))
    || (d.kind == 2 && !isOwner d.reader)

/-- R369: a valid descriptor is the one in use by each head that names it; one that is cleared stays in use. -/
def useDesc (s : State) (index : Nat) (d : Desc) : State :=
  { s with heads := s.heads.map fun (x : Nat × Head) => if x.2.odesc = index then (x.1, { x.2 with out := some d }) else x }

/-- desc (R366, R368). -/
def execDesc (p : PktHd) (index : Nat) (source : DWord) (s : State) : Host.Outcome State Fault Refusal :=
  atPacket s p (.desc p index source) fun s x =>
    withSource s x source 32 fun s ws =>
      let d := parseDesc ws
      let w (i : Nat) : Nat := (ws.getD i 0).toNat
      let v := fld (w 2) 47 1 == 1
      if 0xfffe < index ∨ fld (w 1) 0 20 ≠ 0 ∨ fld (w 2) 0 28 ≠ 0 ∨ w 3 ≠ 0 ∨ (v && descBad s d) = true then finish s x stRefused
      else if v then finish (useDesc { s with descs := mapSet s.descs index d } index d) x stOk
      else finish { s with descs := mapErase s.descs index } x stOk

/-- plane (R363, R368). -/
def execPlane (p : PktHd) (head plane : Nat) (source : DWord) (s : State) : Host.Outcome State Fault Refusal :=
  atPacket s p (.plane p head plane source) fun s x =>
    withSource s x source 32 fun s ws =>
      let w (i : Nat) : Nat := (ws.getD i 0).toNat
      if 100 ≤ head ∨ 4 ≤ plane ∨ w 0 % 64 ≠ 0 ∨ fld (w 1) 0 55 ≠ 0 ∨ w 2 ≠ 0 ∨ w 3 ≠ 0 then finish s x stRefused
      else
        let pl : Plane := { omap := ws.getD 0 0, opac := fld (w 1) 56 8, en := fld (w 1) 55 1 == 1 }
        finish { s with planes := mapSet s.planes (4 * head + plane) pl } x stOk

/-- The fields of a head record (R363). -/
def parseHead (ws : List DWord) : Head :=
  let w (i : Nat) : Nat := (ws.getD i 0).toNat
  { width := fld (w 0) 50 14 + 1, height := fld (w 0) 36 14 + 1, en := fld (w 0) 35 1 == 1, cap := fld (w 0) 34 1 == 1
    shead := fld (w 0) 27 7, capr := fld (w 0) 19 8, t0 := w 1, guard := fld (w 2) 32 32, period := fld (w 2) 0 32
    fill := hi32 (ws.getD 3 0), bg := lo32 (ws.getD 3 0), odesc := fld (w 4) 48 16, nidx := fld (w 4) 36 12, ne := fld (w 4) 35 1 == 1 }

/-- A reserved field of a head record is nonzero. -/
def headReserved (ws : List DWord) : Bool :=
  let w (i : Nat) : Nat := (ws.getD i 0).toNat
  fld (w 0) 0 19 != 0 || fld (w 4) 0 35 != 0 || w 5 != 0 || w 6 != 0 || w 7 != 0

/-- The record names a valid rgba8 surface of the head's size. -/
def outputOk (s : State) (r : Head) : Bool :=
  match mapGet s.descs r.odesc with
  | some d => d.kind == 0 && d.fmt == 0 && d.width == r.width && d.height == r.height
  | none => false

/-- R363, R405: a head record is refused; `r` holds the timing that would be in force. A source head that is the head
itself is judged by the new record. -/
def headBad (s : State) (h : Nat) (r : Head) : Bool :=
  let src := if r.shead = h then r else getHead s r.shead
  (decide (r.period < 2000000) && !(decide (h < 4) && r.period == 0)) || decide (r.period < r.guard)
    || (r.cap && (decide (h < 4) || decide (100 ≤ r.shead) || src.cap || src.width != r.width || src.height != r.height
        || !isOwner r.capr))
    || (r.en && decide (4 ≤ h) && (!outputOk s r || fld ((s.host.accepted.getD 0 0).toNat) 3 1 == 0))

/-- R364: the first latch at or after now. -/
def firstLatch (s : State) (r : Head) : Nat :=
  if r.period = 0 ∨ s.time ≤ r.t0 then 0 else (s.time - r.t0 + r.period - 1) / r.period

/-- The descriptor in use as a head's output: the one that its index names, or, where that is not valid, the one in use
before under the same index (R369). -/
def outputOf (s : State) (old r : Head) : Option Desc :=
  (mapGet s.descs r.odesc).orElse fun _ => if old.odesc = r.odesc then old.out else none

/-- The head after a HEAD op: a change of timing of a head that latches waits for its next latch (R368). -/
def headAfter (s : State) (h : Nat) (old r : Head) : Head :=
  if h < 4 then
    (let r := { r with t0 := old.t0, period := old.period, newTiming := old.newTiming }
     { r with nextLatch := if old.en then old.nextLatch else firstLatch s r })
  else if old.en && r.en then
    (if r.t0 = old.t0 ∧ r.period = old.period then { r with nextLatch := old.nextLatch }
     else { r with t0 := old.t0, period := old.period, nextLatch := old.nextLatch, newTiming := some (r.t0, r.period) })
  else { r with nextLatch := firstLatch s r }

/-- head (R363, R365, R368). -/
def execHead (p : PktHd) (head : Nat) (source : DWord) (s : State) : Host.Outcome State Fault Refusal :=
  atPacket s p (.head p head source) fun s x =>
    withSource s x source 64 fun s ws =>
      let r := parseHead ws
      let old := getHead s head
      let judged := if head < 4 then { r with t0 := old.t0, period := old.period } else r
      if 100 ≤ head ∨ headReserved ws = true ∨ (head < 4 ∧ (r.t0 ≠ 0 ∨ r.period ≠ 0)) ∨ headBad s head judged = true then
        finish s x stRefused
      else finish { s with heads := mapSet s.heads head { headAfter s head old r with out := outputOf s old r } } x stOk

/-- A word of a head record as the system world reads it back (R363, R365): the timing that was written last, which may wait
for the head's next latch (log 39). -/
def readHead (s : State) (head word : Nat) : DWord :=
  let h := getHead s head
  let t := h.newTiming.getD (h.t0, h.period)
  let bit (b : Bool) (k : Nat) : Nat := if b then 2 ^ k else 0
  if 100 ≤ head then 0
  else BitVec.ofNat 64 (match word with
    | 0 => (h.width - 1) * 2 ^ 50 + (h.height - 1) * 2 ^ 36 + bit h.en 35 + bit h.cap 34 + h.shead * 2 ^ 27 + h.capr * 2 ^ 19
    | 1 => t.1
    | 2 => h.guard * 2 ^ 32 + t.2
    | 3 => h.fill.toNat * 2 ^ 32 + h.bg.toNat
    | 4 => h.odesc * 2 ^ 48 + h.nidx * 2 ^ 36 + bit h.ne 35
    | _ => 0)

/-- dpLinkTraining (R365): firmware writes the timing of a physical head; it takes effect at the next latch. -/
def execDpLinkTraining (head : Nat) (t0 period : DWord) (s : State) : Host.Outcome State Fault Refusal :=
  if 4 ≤ head ∨ period.toNat < 2000000 ∨ 2 ^ 32 ≤ period.toNat then .next s
  else
    let old := getHead s head
    let new : Head := { old with t0 := t0.toNat, period := period.toNat, newTiming := none }
    let r := if old.en && old.period != 0 then { old with newTiming := some (t0.toNat, period.toNat) }
      else { new with nextLatch := firstLatch s new }
    .next { s with heads := mapSet s.heads head r }

/-! ### Frames and grants (R371 to R373, R376) -/

/-- A present packet's image takes the place of the owner-plane's last; one that waited is replaced (R376). -/
def replacePresent (s : State) (n : Present) : State :=
  let same (y : Present) : Bool := y.owner == n.owner && y.head == n.head && y.plane == n.plane
  let s := match (s.presents.find? same).bind (·.waiting) with
    | some (q, i) => setPacketStatus s q i stOk
    | none => s
  { s with presents := s.presents.filter (fun y => !same y) ++ [n] }

/-- present (R371, R376, R378). -/
def execPresent (p : PktHd) (head plane desc frame : Nat) (s : State) : Host.Outcome State Fault Refusal :=
  atPacket s p (.present p head plane desc frame) fun s x =>
    match mapGet s.descs desc with
    | none => finish s x stBadPacket
    | some d =>
      let o := x.owner
      if 100 ≤ head ∨ 4 ≤ plane ∨ d.kind ≠ 1 ∨ d.head ≠ head ∨ d.plane ≠ plane
          ∨ (frame ≠ currentFrame s o ∧ frame ≠ mapGetD s.lf o 0xffffffff) then finish s x stBadPacket
      else
        let s := if frame = currentFrame s o then { s with lf := mapSet s.lf o frame } else s
        replacePresent { s with pacing := mapSet s.pacing o head }
          { owner := o, head := head, plane := plane, desc := desc, image := d, waiting := some (p.queue, p.index) }

/-- The fields of a grant entry that a GRANT writes (R372). -/
def parseGrant (ws : List DWord) : Grant :=
  let w (i : Nat) : Nat := (ws.getD i 0).toNat
  { first := fld (w 0) 32 32, expiry := fld (w 0) 0 32, surface := fld (w 1) 16 16, grantee := fld (w 1) 8 8
    grantor := fld (w 1) 0 8, capture := fld (w 2) 1 1 == 1, sample := fld (w 2) 0 1 == 1 }

/-- The enabled capture head of an output descriptor. -/
def captureHead (s : State) (surface : Nat) : Option Head :=
  (s.heads.find? fun x => x.2.en && x.2.cap && x.2.odesc == surface).map (·.2)

/-- R372, R373: one more than the index of the latest latch of the capture head of an output: an enabled head before one that
is not enabled any more, and without either the latest latch that composes to it. -/
def captureClock (s : State) (surface : Nat) : Nat :=
  match (captureHead s surface).orElse fun _ => (s.heads.find? fun x => x.2.cap && x.2.odesc == surface).map (·.2) with
  | some h => h.nextLatch
  | none => ((s.composing.filter fun c => c.record.cap && c.record.odesc == surface).map (·.latch + 1)).foldl max 0

/-- R372: one more than the grantee's frame clock: its current frame, or the capture head's latest latch. Frames are counted
mod 2^32 (R371), latches are not (R364). -/
def nextFrame (s : State) (g : Grant) : Nat :=
  if g.capture then captureClock s g.surface else (currentFrame s g.grantee + 1) % 2 ^ 32

def getGrant (s : State) (e : Nat) : Grant := mapGetD s.grants e {}

/-- grant (R372). -/
def execGrant (p : PktHd) (entry : Nat) (source : DWord) (s : State) : Host.Outcome State Fault Refusal :=
  atPacket s p (.grant p entry source) fun s x =>
    withSource s x source 32 fun s ws =>
      let g := parseGrant ws
      let reserved := fld (ws.getD 2 0).toNat 2 60 != 0 || ws.getD 3 0 != 0
      let bad := reserved || decide (4096 ≤ entry) || (getGrant s entry).state != .free || g.capture == g.sample || !isOwner g.grantee
        || !isOwner g.grantor || g.grantor == g.grantee
        || (if g.capture then (captureHead s g.surface).isNone else (mapGet s.descs g.surface).isNone)
      if bad then finish s x stRefused
      else finish { s with grants := mapSet s.grants entry { g with state := .active, first := max g.first (nextFrame s g) } } x stOk

/-- withdraw (R373). -/
def execWithdraw (p : PktHd) (entry : Nat) (s : State) : Host.Outcome State Fault Refusal :=
  atPacket s p (.withdraw p entry) fun s x =>
    let g := getGrant s entry
    if 4096 ≤ entry ∨ g.state ≠ .active then finish s x stRefused
    else finish { s with grants := mapSet s.grants entry { g with state := .withdrawn, wframe := nextFrame s g } } x stOk

/-- R277, R312: an armed node of an owner's queue that has not become ready: its work will run in the frame of its GRAPH. -/
def nodeAwaits (s : State) (owner wframe : Nat) (nd : Node) : Bool :=
  nd.armed && !nd.ready && decide (nd.frame < wframe) && ((getQueue s nd.queue).map (·.owner)) == some owner

/-- R373: nothing can any longer ask about a withdrawn grant. -/
def grantSpent (s : State) (g : Grant) : Bool :=
  if g.sample then
    decide (g.wframe ≤ currentFrame s g.grantee)
      && !(s.launches.any fun l => l.owner == g.grantee && decide (l.frame < g.wframe))
      && !(s.draws.any fun d => d.owner == g.grantee && decide (d.frame < g.wframe))
      && !(s.nodes.any fun n => nodeAwaits s g.grantee g.wframe n.2)
  else !(s.composing.any fun c => c.record.cap && c.record.odesc == g.surface && decide (c.latch < g.wframe))
    && match s.heads.find? fun x => x.2.cap && x.2.odesc == g.surface && x.2.en with
      | none => true
      | some (_, h) => decide (g.wframe ≤ h.nextLatch)

/-- grantFree (R373). -/
def execGrantFree (entry : Nat) (s : State) : Host.Outcome State Fault Refusal :=
  let g := getGrant s entry
  if g.state = .withdrawn ∧ grantSpent s g = true then .next { s with grants := mapErase s.grants entry } else .next s

/-! ### The blend (R377) -/

/-- div255 (R377). -/
def div255 (x : Nat) : Nat := (x + 128 + (x + 128) / 256) / 256

/-- Channel c of a pixel: R, G, B, A. -/
def channel (p : Word) (c : Nat) : Nat := fld p.toNat (8 * c) 8

def packChannels (f : Nat → Nat) : Word := BitVec.ofNat 32 (f 0 + f 1 * 2 ^ 8 + f 2 * 2 ^ 16 + f 3 * 2 ^ 24)

/-- R377: src over dst under an opacity. -/
def blendPixel (dst src : Word) (opac : Nat) : Word :=
  let s (c : Nat) : Nat := div255 (channel src c * opac)
  packChannels fun c => min 255 (s c + div255 (channel dst c * (255 - s 3)))

/-! ### Composition (R364, R374 to R377) -/

/-- What the composer reads at an address of world 0: bytes, poison and physical address; none where it cannot be
read. -/
def composerRead (s : State) (va n : Nat) : Option (List Byte × Bool × Nat) × State :=
  match translateFront s 0 va needRead with
  | (.ok pa _, t) => (some (rawRead t 0 pa n, memPoisoned t pa n, pa), t)
  | (_, t) => (none, t)

/-- R375: a pixel of owner o may be captured at latch k. -/
def captured (s : State) (h : Head) (o k : Nat) : Bool :=
  o == 0 || o == h.capr || s.grants.any fun (_, g) =>
    g.state != .free && g.capture && g.grantor == o && g.grantee == h.capr && g.surface == h.odesc && decide (g.first ≤ k)
      && (g.expiry == 0xffffffff || decide (k ≤ g.expiry)) && (g.state == .active || decide (k < g.wframe))

/-- A pixel in the making: its value so far, the first poison met on it, and the state. -/
abbrev PixelState := Word × Option (Nat × Nat) × State

/-- Plane n of the heads `from_` at pixel (x, y), for head h at latch k (R377). -/
def composePlane (h from_ : Head) (src k x y : Nat) (acc : PixelState) (n : Nat) : PixelState :=
  let (dst, poison, s) := acc
  let pl := getPlane s src n
  if !pl.en || poison.isSome then acc
  else match composerRead s (pl.omap.toNat + y * from_.width + x) 1 with
    | (r, s) =>
      let o := match r with
        | some (bs, _, _) => (bs.headD 0).toNat
        | none => (Config.freeByte s.free (2 ^ 52 + y * 2 ^ 14 + x)).toNat
      let mapBad := (r.map fun q => if q.2.1 then some (q.2.2, n) else none).getD none
      if mapBad.isSome then (dst, mapBad, s)
      else if o = 255 then (dst, poison, s)
      else match s.presents.find? fun p => p.owner == o && p.head == src && p.plane == n with
        | none => (dst, poison, s)
        | some p =>
          let d := p.image
          if h.cap && !captured s h o k then (blendPixel dst h.fill pl.opac, poison, s)
          else match composerRead s ((d.base.toNat + pixelOffset d x y) % 2 ^ 64) 4 with
            | (some (_, true, pa), s) => (dst, some (pa, n), s)
            | (some (bs, false, _), s) => (blendPixel dst (BitVec.ofNat 32 (leVal bs)) pl.opac, poison, s)
            | (none, s) => (blendPixel dst (Config.freeWord s.free 10 (y * 2 ^ 14 + x)) pl.opac, poison, s)

/-- compose(h, k, p) over the planes below n; a poisoned pixel is bg(h) (R377). -/
def composePixel (h from_ : Head) (src k n : Nat) (s : State) (x y : Nat) : PixelState :=
  let (v, poison, s) := (List.range n).foldl (composePlane h from_ src k x y) (h.bg, none, s)
  (if poison.isSome then h.bg else v, poison, s)

/-- A picture: its pixels, row-major, and the first poison met. -/
def composePicture (h from_ : Head) (src k n : Nat) (s : State) : List Word × Option (Nat × Nat) × State :=
  (List.range (h.width * h.height)).foldl (fun (acc : List Word × Option (Nat × Nat) × State) i =>
    let (px, bad, s) := acc
    let (v, p, s) := composePixel h from_ src k n s (i % h.width) (i / h.width)
    (px ++ [v], bad.orElse fun _ => p, s)) ([], none, s)

/-- One 5-tap pass along a line of pixels, indices clamped (R374). -/
def blurTap (at_ : Int → Word) (i : Int) : Word :=
  packChannels fun c =>
    (channel (at_ (i - 2)) c + 4 * channel (at_ (i - 1)) c + 6 * channel (at_ i) c + 4 * channel (at_ (i + 1)) c
      + channel (at_ (i + 2)) c + 8) / 16

def clampIndex (i : Int) (n : Nat) : Nat := if i < 0 then 0 else min i.toNat (n - 1)

/-- R374: a horizontal pass, then a vertical pass. -/
def blurPicture (w h : Nat) (px : List Word) : List Word :=
  let rows := (List.range (w * h)).map fun i =>
    blurTap (fun k => px.getD (i / w * w + clampIndex k w) 0) (i % w : Nat)
  (List.range (w * h)).map fun i => blurTap (fun k => rows.getD (clampIndex k h * w + i % w) 0) (i / w : Nat)

/-- R377: the record of poison that a latch met. -/
def poisonRecord (s : State) (head : Nat) : Option (Nat × Nat) → State
  | none => s
  | some (pa, n) => oweRecord s 0 [BitVec.ofNat 64 pa, 0, 0, recordWord3 2 0x0f 6 (head * 256 + n) 0 0 0 0]

/-- Presents that waited for a latch of the head are done (R376). -/
def presentsDone (s : State) (head : Nat) : State :=
  let s := s.presents.foldl (fun s p => match p.waiting with
    | some (q, i) => if p.head = head then setPacketStatus s q i stOk else s
    | none => s) s
  { s with presents := s.presents.map fun p => if p.head = head then { p with waiting := none } else p }

/-- R374: the backdrops of a head, each from the planes below its own. -/
def formBackdrops (h : Head) (head k : Nat) : Map Desc → State → List (Desc × List Word) × Option (Nat × Nat) × State
  | [], s => ([], none, s)
  | (_, d) :: r, s =>
    if d.kind ≠ 2 ∨ d.head ≠ head then formBackdrops h head k r s
    else
      let (px, bad, s) := composePicture h h head k d.plane s
      let (rest, bad', s) := formBackdrops h head k r s
      ((d, blurPicture h.width h.height px) :: rest, bad.orElse fun _ => bad', s)

/-- R364, R368: what a latch leaves in the head: the next index, under a timing that was waiting. -/
def afterLatch (s : State) (h : Head) : Head :=
  match h.newTiming with
  | none => { h with nextLatch := h.nextLatch + 1 }
  | some (t0, p) =>
    let now := h.t0 + h.nextLatch * h.period
    { h with t0 := t0, period := p, newTiming := none
             nextLatch := if p = 0 ∨ now < t0 then 0 else (max now s.time - t0) / p + 1 }

/-- A latch of the head is due. -/
def latchDue (s : State) (h : Head) : Bool := s.closing && h.en && h.period != 0 && decide (h.t0 + h.nextLatch * h.period ≤ s.time)

/-- latch (R364, R375 to R377): the composition keeps the record and the descriptors that it began with. -/
def execLatch (head : Nat) (s : State) : Host.Outcome State Fault Refusal :=
  let h := getHead s head
  if !latchDue s h then .next s
  else
    let src := if h.cap then h.shead else head
    let k := h.nextLatch
    let (px, bad, s) := composePicture h (getHead s src) src k 4 s
    let (bd, bad', s) := formBackdrops h head k s.descs s
    let s := poisonRecord (presentsDone s head) head (bad.orElse fun _ => bad')
    let c : Composition :=
      { head := head, latch := k, end_ := h.t0 + k * h.period + h.guard, record := h, pixels := px, backdrops := bd }
    .next ({ s with composing := s.composing ++ [c], heads := mapSet s.heads head (afterLatch s h) })

/-- The pixels of a picture go to an image; one whose address does not translate is lost. -/
def writePicture (d : Desc) (w : Nat) (px : List Word) (s : State) : State :=
  ((List.range px.length).zip px).foldl (fun s (q : Nat × Word) =>
    match writePixel s d (q.1 % w) (q.1 / w) (q.2.setWidth 64) with
    | .ok s => s
    | .error _ => lostPixel s d (q.1 % w) (q.1 / w)) s

/-- R374: the backdrops are written. -/
def writeBackdrops (w : Nat) (bs : List (Desc × List Word)) (s : State) : State :=
  bs.foldl (fun (s : State) (b : Desc × List Word) => writePicture b.1 w b.2 s) s

/-- compositionComplete (R364): at the end of the guard, by the record and the descriptors of the latch (R369). -/
def execCompositionComplete (head : Nat) (s : State) : Host.Outcome State Fault Refusal :=
  match s.composing.find? (·.head == head) with
  | none => .next s
  | some c =>
    if s.time < c.end_ then .next s
    else
      let h := c.record
      let s := { s with composing := s.composing.filter fun x => !(x.head == head && x.latch == c.latch)
                        frames := mapSet s.frames head c.pixels }
      let s := writeBackdrops h.width c.backdrops s
      if head < 4 then .next s
      else
        let s := match h.out with
          | some d => writePicture d h.width c.pixels s
          | none => s
        .next (if h.ne then notifyAdd s h.nidx 1 else s)

end Sys2Proof.Machine
end

