-- ==== Sys2Proof/Machine/HostSide.lean ====
section
/-! DEFINITION. The firmware mailbox and its commands (R391, R392), the states of a world's interface (R393 to R395), ATS
(R387, R396), keys and entropy (R397, R398), links (R399), firmware (R400, R401), and host accesses through CXL.mem
(R388). -/

namespace Sys2Proof.Machine

/-! ### The mailbox (R391) -/

def mbOk : Nat := 0
def mbBusy : Nat := 1
def mbBadArg : Nat := 2
def mbEntropy : Nat := 3
def mbSignature : Nat := 4
def mbVersion : Nat := 5

def mailboxWord (s : State) (i : Nat) : Nat := (s.host.mailbox.getD i 0).toNat

/-- A command runs (R391). -/
def commandRuns (s : State) : Bool := mailboxWord s 7 == 0xff

/-- The command of a code runs. -/
def commandIs (s : State) (code : Nat) : Bool := commandRuns s && mailboxWord s 0 % 256 == code

/-- Firmware writes the status last. -/
def answer (s : State) (st : Nat) : State :=
  { s with host := { s.host with mailbox := s.host.mailbox.set 7 (BitVec.ofNat 64 st) } }

/-- A command of a code: before the feature vector is committed it answers BUSY (R405). -/
def onCommand (s : State) (code : Nat) (f : State → State) : Host.Outcome State Fault Refusal :=
  if !commandIs s code then .next s
  else if !s.host.committed then .next (answer s mbBusy)
  else .next (f s)

/-- A source that a command cannot read is BAD_ARG (log 42), and what its translations have left stands (R35, R40). One on a host
page whose translation is wanting has the host asked for it, and the command goes on once it has come (R387). -/
def badSource (s : State) (va n : Nat) (c : Cause) : State :=
  let t := readEffects s 0 va n
  if c.1 = 0xff then requestAts t 0 c.2 else answer t mbBadArg

/-- mailboxUndefinedCommand (R391). -/
def execMailboxUndefinedCommand (s : State) : Host.Outcome State Fault Refusal :=
  let code := mailboxWord s 0 % 256
  if !commandRuns s || (decide (1 ≤ code) && decide (code ≤ 6)) then .next s
  else .next (answer s (if s.host.committed then mbBadArg else mbBusy))

/-! ### Binding (R83, R84, R390) -/

/-- The limb holds a strand. -/
def limbHeld (s : State) (core limb : Nat) : Bool := s.strands.any fun st => st.resident && st.core == core && st.limb == limb

/-- The bank group holds an allocation. -/
def groupHeld (s : State) (core g : Nat) : Bool :=
  (usedRanges s core).any fun (b, n) => overlaps b n (g * 0x40000) 0x40000

/-- A named unit is in use. -/
def unitsBusy (s : State) (core limbs groups : Nat) : Bool :=
  (List.range 4).any fun k => (fld limbs k 1 == 1 && limbHeld s core k) || (fld groups k 1 == 1 && groupHeld s core k)

/-- R84: zeros are written through a bank group. -/
def zeroGroup (s : State) (core g : Nat) : State :=
  let lo := g * 0x40000
  let s := setScratch s core ((scratchMem s core).filter fun x => !(decide (lo ≤ x.1) && decide (x.1 < lo + 0x40000)))
  { s with
    poison := s.poison.filter fun
      | .scratch c k => !(c == core && decide (lo ≤ 4 * k) && decide (4 * k < lo + 0x40000))
      | _ => true
    writers := s.writers.filter fun x =>
      !(decide (core * 8192 + lo / 128 ≤ x.1) && decide (x.1 < core * 8192 + lo / 128 + 2048)) }

/-- Binds the named units of a core to a world, or to none; a limb's stores and a group are zeroed (R84, R390). -/
def bindUnits (s : State) (core limbs groups : Nat) (w : Option Nat) : State :=
  (List.range 4).foldl (fun s k =>
    let u := 4 * core + k
    let s := if fld limbs k 1 = 1 then
        { s with
          cleared := u :: s.cleared.filter (· != u), used := s.used.filter (storeLimb · != u)
          limbWorld := match w with
            | some w => mapSet s.limbWorld u w
            | none => mapErase s.limbWorld u }
      else s
    if fld groups k 1 = 1 then
      { zeroGroup s core k with groupWorld := match w with
          | some w => mapSet s.groupWorld u w
          | none => mapErase s.groupWorld u }
    else s) s

/-- worldBind (R390, R391). -/
def execWorldBind (s : State) : Host.Outcome State Fault Refusal :=
  onCommand s 2 fun s =>
    let w := mailboxWord s 1
    let core := mailboxWord s 2
    let limbs := mailboxWord s 3
    let groups := mailboxWord s 4
    if !(getWorld s w).live || decide (96 ≤ core) || decide (16 ≤ limbs) || decide (16 ≤ groups) then answer s mbBadArg
    else if unitsBusy s core limbs groups then answer s mbBusy
    else answer (bindUnits s core limbs groups (some w)) mbOk

/-- worldUnbind (R391). -/
def execWorldUnbind (s : State) : Host.Outcome State Fault Refusal :=
  onCommand s 3 fun s =>
    let core := mailboxWord s 1
    let limbs := mailboxWord s 2
    let groups := mailboxWord s 3
    if 96 ≤ core ∨ 16 ≤ limbs ∨ 16 ≤ groups then answer s mbBadArg
    else if unitsBusy s core limbs groups then answer s mbBusy
    else answer (bindUnits s core limbs groups none) mbOk

/-! ### Making a world (R389, R391, R397, R398) -/

/-- A fault block as WORLD_CREATE reads it; the fields that hardware writes begin at 0 (R324). -/
def parseFaultBlock (ws : List DWord) : FaultBlock :=
  let w (i : Nat) : Nat := (ws.getD i 0).toNat
  { ring := ws.getD 0 0, nidx := fld (w 1) 52 12, ne := fld (w 1) 51 1 == 1, allstop := fld (w 1) 50 1 == 1
    lsize := fld (w 1) 44 4, rdidx := ws.getD 3 0, save := ws.getD 4 0, wpen := fld (w 5) 4 2, bpen := fld (w 5) 0 4
    bp := (List.range 4).map fun i => ws.getD (6 + i) 0, wa := [ws.getD 10 0, ws.getD 12 0], wc := [ws.getD 11 0, ws.getD 13 0] }

/-- R37, R40, R389: where a world's root may lie. -/
def rootOk (s : State) (w root : Nat) : Bool :=
  root % 0x10000 == 0 && tierOf s root == .hbm && (tagOk s w root || tagOk s 0 root)

/-- A feature bit of the accepted vector (R405). -/
def accepted (s : State) (bit : Nat) : Bool := fld ((s.host.accepted.getD 0 0).toNat) bit 1 == 1

/-- The operands that WORLD_CREATE cannot take. -/
def createBad (s : State) : Bool :=
  let w := mailboxWord s 1
  w == 0 || decide (64 ≤ w) || (getWorld s w).live || decide (2 ≤ mailboxWord s 2) || (mailboxWord s 2 == 1 && !accepted s 4)
    || mailboxWord s 3 != w || !rootOk s w (mailboxWord s 4) || decide (2 ^ 32 ≤ mailboxWord s 5)

/-- worldCreate (R391, R397): a confidential world's key pair comes from the DRBG; a key is a number of its own here, since
the key bits themselves are never seen (log 5). -/
def execWorldCreate (s : State) : Host.Outcome State Fault Refusal :=
  onCommand s 1 fun s =>
    if createBad s then answer s mbBadArg
    else match frontRead s 0 (mailboxWord s 6) 112 with
      | .error c => badSource s (mailboxWord s 6) 112 c
      | .ok (bs, s) =>
        let conf := mailboxWord s 2 == 1
        if conf && s.host.reseeding.isSome then s
        else if conf && !s.host.seeded then answer s mbEntropy
        else
          let n := s.host.creations + 1
          let w : World :=
            { no := mailboxWord s 1, root := BitVec.ofNat 64 (mailboxWord s 4), conf := conf, tdi := mailboxWord s 3
              quota := mailboxWord s 5, fb := parseFaultBlock (dwords bs), key := some n }
          answer { s with worlds := s.worlds.filter (·.no != w.no) ++ [w], host := { s.host with creations := n } } mbOk

/-! ### Teardown (R392) -/

/-- Kills the strands of a world. -/
def killWorld (s : State) (w : Nat) : State :=
  ((s.strands.filter (·.world == w)).map (·.home)).foldl (fun s h => match getStrand s h with
    | some st => killStrand s st
    | none => s) s

/-- The work of a world that has not started does not start, and its launches complete with KILLED. -/
def killLaunches (s : State) (w : Nat) : State :=
  let dead (d : Draw) : Draw := { d with killed := true, prims := [] }
  let stopped (l : Launch) : Launch := { l with killed := true, total := l.next, inHeap := false }
  let s : State := { s with
    draws := s.draws.map fun d => if d.world = w then dead d else d
    launches := s.launches.map fun l => if l.world = w then stopped l else l }
  let s := ((s.launches.filter (·.world == w)).map (·.id)).foldl tryLaunchDone s
  ((s.draws.filter (·.world == w)).map (·.id)).foldl tryDrawDone s

/-- The queue's packets are of the world. -/
def queueOf (s : State) (q w : Nat) : Bool := ((getQueue s q).map (·.world)).getD 64 == w

/-- The graphs of a world start no further node. -/
def killGraphs (s : State) (w : Nat) : State :=
  (s.graphs.filter fun g => queueOf s g.queue w).foldl (fun s g =>
    let g := { g with failed := some (g.failed.getD stKilled) }
    let s := { s with graphs := s.graphs.map fun x => if x.queue = g.queue ∧ x.index = g.index then g else x }
    tryGraphDone (disarm s g) g) s

/-- Weight-store loads that have not been made. -/
def killWsloads (s : State) (w : Nat) : State :=
  let t := (s.wsloads.filter (·.world == w)).foldl (fun s x => setPacketStatus s x.queue x.index stKilled) s
  { t with wsloads := t.wsloads.filter (·.world != w) }

/-- R72: a SEQ waits until its world is torn down; its chain then goes no further. -/
def abandonSeqs (s : State) (w : Nat) : State :=
  (s.insts.filter fun i => i.world == w && i.started && i.segment.isNone && cardKind i.card == kSeq).foldl (fun s i =>
    match getChain s i.core i.ch i.world i.seq with
    | none => dropInst s i.id
    | some c =>
      let s := setChain (dropInst s i.id) { c with frames := [] }
      chainCheck { s with insts := s.insts.filter fun x =>
          !(x.segment.isNone && x.core == c.core && x.ch == c.ch && x.world == c.world && x.seq == c.seq && !x.started) }
        c.core c.ch c.world c.seq) s

/-- A world's bytes for host memory leave the caches while the world may still write there (R387). -/
def flushHost (s : State) (w : Nat) : State :=
  let mine (l : Line) : Bool := l.world == w && tierOf s (l.line * 128) == .host
  let s := (s.dcache.filter mine).foldl (fun s l => coreFlush s l.place l.line) s
  (s.slices.filter mine).foldl (fun s l => sliceFlush s l.place l.line) s

/-- Steps 1 and 2 of R392. -/
def beginTeardown (s : State) (w : Nat) : State :=
  let s := setWorld s { getWorld s w with quiescing := true, dying := true }
  killWsloads (killGraphs (killLaunches (killWorld s w) w) w) w

/-- Step 3 of R392: nothing of the world is in flight. -/
def worldDrained (s : State) (w : Nat) : Bool :=
  !(s.strands.any (·.world == w)) && !(s.groves.any (·.world == w)) && !(s.launches.any (·.world == w))
    && !(s.draws.any (·.world == w)) && !(s.graphs.any fun g => queueOf s g.queue w) && !(s.chains.any (·.world == w))
    && !(s.insts.any (·.world == w)) && !(s.pend.any (·.world == w)) && !(s.mx.any (·.world == w)) && !(s.nreqs.any (·.world == w))
    && !(s.packets.any fun x => x.world == w && x.status.isSome)

/-- Step 5 of R392: every HBM4 page of the world is zeroed and its tag cleared. -/
def zeroPages (s : State) (w : Nat) : State :=
  let mine (pa : Nat) : Bool := decide (pa < 0x2000000000) && (mapGetD s.tags (pa / 0x200000) 0).toNat == 0x80 + w
  { s with
    mem := s.mem.filter fun x => !mine x.1
    poison := s.poison.filter fun
      | .memory k => !mine (4 * k)
      | _ => true
    tags := s.tags.filter fun x => x.2.toNat != 0x80 + w
    dcache := s.dcache.filter (·.world != w)
    slices := s.slices.filter (·.world != w) }

/-- Step 7 of R392: its limbs and bank groups are unbound and zeroed. -/
def freeUnits (s : State) (w : Nat) : State :=
  let s := (s.groupWorld.filter (·.2 == w)).foldl (fun s g => zeroGroup s (g.1 / 4) (g.1 % 4)) s
  let limbs := (s.limbWorld.filter (·.2 == w)).map (·.1)
  { s with
    cleared := limbs ++ s.cleared.filter fun u => !limbs.contains u
    used := s.used.filter fun x => !limbs.contains (storeLimb x)
    limbWorld := s.limbWorld.filter (·.2 != w), groupWorld := s.groupWorld.filter (·.2 != w) }

/-- Steps 4 to 8 of R392. The channels' counters and error bits go with the world (R59, R62). -/
def finishTeardown (s : State) (w : Nat) : State :=
  let s := flushHost s w
  let s := (s.segments.filter (·.world == w)).foldl removeSegment s
  let s := zeroPages s w
  let s := { s with
    tlb := s.tlb.filter (·.world != w), utlb := s.utlb.filter (·.world != w), walkCache := s.walkCache.filter (·.world != w)
    walks := s.walks.filter (·.world != w), ats := s.ats.filter (·.world != w), packets := s.packets.filter (·.world != w)
    channels := s.channels.filter (·.world != w) }
  let s := freeUnits s w
  setWorld s { getWorld s w with
    live := false, tstate := .unlocked, quiescing := false, dying := false, heldRecords := [], key := none }

/-- One step of a teardown: it begins, or, once the world has drained, ends. -/
def teardown (s : State) (w : Nat) : State :=
  if !(getWorld s w).dying then beginTeardown s w
  else
    let s := abandonSeqs s w
    if worldDrained s w then finishTeardown s w else s

/-- A world other than world 0 that exists. -/
def guest (s : State) (w : Nat) : Bool := decide (w ≠ 0) && (getWorld s w).live

/-- worldDestroy (R391, R392): the status is written when the teardown ends. -/
def execWorldDestroy (s : State) : Host.Outcome State Fault Refusal :=
  onCommand s 4 fun s =>
    let w := mailboxWord s 1
    if !guest s w then answer s mbBadArg
    else
      let s := teardown s w
      if guest s w then s else answer s mbOk

/-! ### Interface states (R393 to R395) -/

/-- lockInterface (R393, R405). -/
def execLockInterface (world : Nat) (s : State) : Host.Outcome State Fault Refusal :=
  let x := getWorld s world
  if guest s world && x.tstate == .unlocked && x.ideKeyed && accepted s 1 && !x.dying then
    .next (setWorld s { x with tstate := .locked })
  else .next s

/-- startInterface (R393). -/
def execStartInterface (world : Nat) (s : State) : Host.Outcome State Fault Refusal :=
  let x := getWorld s world
  if guest s world && x.tstate == .locked && !x.dying then .next (setWorld s { x with tstate := .run }) else .next s

/-- stopInterface (R393): from any state, the teardown. -/
def execStopInterface (world : Nat) (s : State) : Host.Outcome State Fault Refusal :=
  if guest s world then .next (teardown s world) else .next s

/-- The grants of a world's strands end. -/
def stopLanes (s : State) (w : Nat) : State := (s.strands.filter (·.world == w)).foldl ungrant s

/-- R394: the world's traffic begins to stop: every strand is to be saved. -/
def beginQuiesce (s : State) (w : Nat) (firmware : Bool) : State :=
  let s := setWorld s { getWorld s w with quiescing := true, forFirmware := firmware }
  { s with strands := s.strands.map fun st => if st.world = w ∧ st.resident = true then { st with toSave := true } else st }

/-- A tile of the world's draws is about to be written (R355): its shading groves have all exited. -/
def tileUnwritten (s : State) (w : Nat) : Bool :=
  s.draws.any fun d => d.world == w && d.tiles.any fun t => t.shading && !passRuns s d.id t.index true

/-- R394: nothing of the world is in flight. -/
def worldStill (s : State) (w : Nat) : Bool :=
  !tileUnwritten s w && !(s.wsloads.any (·.world == w)) && !(s.packets.any fun x => x.world == w && x.status.isSome)
    && !(s.strands.any fun st => st.world == w && st.resident) && !(s.chains.any (·.world == w)) && !(s.insts.any (·.world == w))
    && !(s.pend.any (·.world == w)) && !(s.mx.any (·.world == w)) && !(s.nreqs.any (·.world == w))

/-- The response: the world is quiesced. What it wrote for host memory has left the caches (R387). -/
def endQuiesce (s : State) (w : Nat) : State :=
  if worldStill s w then
    (let s := flushHost s w
     setWorld s { getWorld s w with quiescing := false, tstate := .quiesced })
  else s

/-- quiesce (R394): it begins, or, once nothing of the world is in flight, is answered. -/
def execQuiesce (world : Nat) (s : State) : Host.Outcome State Fault Refusal :=
  let x := getWorld s world
  if !guest s world || x.tstate != .run || x.dying then .next s
  else if x.quiescing then .next (endQuiesce s world)
  else .next (beginQuiesce s world false)

/-- The write that an entry of the latch is. -/
def latchedWrite (e : Nat × Word × Nat) : Instr :=
  if 4096 ≤ e.1 then .doorbellWrite { queue := e.1 - 4096, requester := e.2.2 } else .notifyWrite e.1 e.2.1 e.2.2

/-- The writes of the latch are made next, in arrival order, then those that the port has held (R314, R394, R408): each is
done, with all that follows from it at once, before the one after it. Those of a quiesced world go back to the latch. While
the device boots or is in S1 to S3 the latch stays as it is. -/
def applyLatch (s : State) : State :=
  if latched s then s
  else
    { s with
      host := { s.host with latch := [], held := [] }
      turns := (s.host.latch.map latchedWrite ++ s.host.held).map Turn.event ++ s.turns }

/-- resume (R394): saved strands may be restored, latched writes are applied and packets are taken again. -/
def execResume (world : Nat) (s : State) : Host.Outcome State Fault Refusal :=
  let x := getWorld s world
  if guest s world && x.tstate == .quiesced && !x.dying then
    .next (applyLatch (setWorld s { x with tstate := .run, forFirmware := false }))
  else .next s

/-- R393, R395: ERROR; the strands stop and are not saved. What was saved stays saved (R402). -/
def toError (s : State) (w : Nat) : State :=
  let s := stopLanes (setWorld s { getWorld s w with tstate := .error, quiescing := false }) w
  { s with strands := s.strands.map fun st => if st.world = w then { st with toSave := false } else st }

/-- tdiError (R395). -/
def execTdiError (world : Nat) (s : State) : Host.Outcome State Fault Refusal :=
  let x := getWorld s world
  if guest s world && (x.tstate == .locked || x.tstate == .run || x.tstate == .quiesced) && !x.dying then .next (toError s world)
  else .next s

/-- ideStreamKeying (R393). -/
def execIdeStreamKeying (world : Nat) (s : State) : Host.Outcome State Fault Refusal :=
  if guest s world && accepted s 1 then .next (setWorld s { getWorld s world with ideKeyed := true }) else .next s

/-! ### ATS (R387, R396) -/

/-- Nodes whose record waited for a translation are looked at again (R312). -/
def retryNodes (s : State) : State :=
  ((s.nodes.filter fun x => x.2.armed && !x.2.ready && x.2.count == 0).map (·.1)).foldl nodeReady s

/-- atsTranslationCompletion (R387): the translation is cached; a refused one is forgotten, and asked for again. -/
def execAtsTranslationCompletion (id : Nat) (result : Option Nat) (s : State) : Host.Outcome State Fault Refusal :=
  match s.ats.find? fun a => a.id == id && a.host.isNone with
  | none => .next s
  | some _ =>
    match result with
    | none => .next { s with ats := s.ats.filter (·.id != id) }
    | some h =>
      .next (retryNodes
        { s with ats := s.ats.map fun a => if a.id = id then { a with host := some (h % 2 ^ 35) } else a })

/-- Host pages to which the translations of a range lead (R396). -/
def rangeHosts (s : State) (w base len : Nat) : List Nat :=
  s.ats.filterMap fun a => if a.world = w ∧ overlaps (a.page * 4096) 4096 base len = true then a.host else none

/-- The address is on one of some host pages. -/
def onHostPages (s : State) (hosts : List Nat) (pa : Nat) : Bool :=
  tierOf s pa == .host && hosts.contains ((pa - 0x800000000000) / 4096)

/-- A request goes out through a translation of the range. -/
def accessThrough (s : State) (hosts : List Nat) : AccPlace → Bool
  | .global pa _ => onHostPages s hosts pa
  | _ => false

/-- A range of global addresses of a world reaches one of the host pages, through a page that may be read or written, whatever
other range is being invalidated (R396). -/
def rangeThrough (s : State) (hosts : List Nat) (w a n : Nat) : Bool :=
  (List.range ((a % 4096 + n + 4095) / 4096)).any fun k => [needRead, needWrite].any fun need =>
    match (translateFront { s with atsinvs := [] } w ((a / 4096 + k) * 4096 % 2 ^ 64) need).1 with
    | .ok pa _ => onHostPages s hosts pa
    | _ => false

/-- A started card instance, or a segment load or eviction, reaches one of the host pages. -/
def instThrough (s : State) (hosts : List Nat) (i : Inst) : Bool :=
  match i.segment with
  | some (uid, _) =>
    (match s.segments.find? (·.uid == uid) with
     | some x => rangeThrough s hosts i.world x.backing.toNat (x.size * 1024)
     | none => false)
  | none => (instRegions i).any fun (x : Region) => x.2.1 == 1 && rangeThrough s hosts i.world x.2.2.1 x.2.2.2

/-- atsInvalidateRequest (R396): new uses of the range block; what has gone out through its translations is waited for. -/
def execAtsInvalidateRequest (world : Nat) (base length : DWord) (s : State) : Host.Outcome State Fault Refusal :=
  let x := getWorld s world
  if guest s world && (x.tstate == .run || x.tstate == .quiesced) then
    let hosts := rangeHosts s world base.toNat length.toNat
    .next { s with
      nextId := s.nextId + 1
      atsinvs := s.atsinvs ++
        [{ id := s.nextId, world := world, base := base.toNat, len := length.toNat, arrived := s.time
           accesses := (s.pend.filter fun a => a.world == world && accessThrough s hosts a.place).map (·.id)
           insts := (s.insts.filter fun i => i.world == world && i.started && instThrough s hosts i).map (·.id) }] }
  else .next s

/-- The translations of an invalidated range are dropped, with the pins of lines that they led to (R319), and the completion is
sent. -/
def dropAts (s : State) (x : AtsInv) : State :=
  repinQueues { s with
    atsinvs := s.atsinvs.filter (·.id != x.id)
    ats := s.ats.filter fun a => !(a.world == x.world && overlaps (a.page * 4096) 4096 x.base x.len) }
    fun q => q.world == x.world && q.pinLines.any fun l => tierOf s (128 * l) == .host

/-- atsInvalidateCompletion (R396). -/
def execAtsInvalidateCompletion (id : Nat) (s : State) : Host.Outcome State Fault Refusal :=
  match s.atsinvs.find? (·.id == id) with
  | none => .next s
  | some x => if drained s x.accesses x.insts then .next (dropAts s x) else .next s

/-- atsDrainTimeout (R395, R396): 1 ms after the request. -/
def execAtsDrainTimeout (id : Nat) (s : State) : Host.Outcome State Fault Refusal :=
  match s.atsinvs.find? (·.id == id) with
  | none => .next s
  | some x =>
    if x.arrived + 1000000 ≤ s.time ∧ drained s x.accesses x.insts = false then .next (toError (dropAts s x) x.world) else .next s

/-- cxlMemHostAccess (R388): the host reads or writes a byte of an HBM4 page of world 0; another page is refused. -/
def execCxlMemHostAccess (pa : Nat) (write : Option Byte) (s : State) : Host.Outcome State Fault Refusal :=
  if !accepted s 0 || tierOf s pa != .hbm then .next s
  else if !tagOk s 0 pa then .next (refuseTag s 0 pa)
  else match write with
    | some b => .next (memPoisonWrite (rawWrite s 0 pa [b]) pa 1 false)
    | none => .next s

/-! ### Entropy (R398) -/

/-- entropyHealthFail (R398): key generation stops, and the DRBG is unseeded. Once no reseed has passed, none is tried
until the source passes its start-up tests again. -/
def execEntropyHealthFail (s : State) : Host.Outcome State Fault Refusal :=
  if s.host.sourceOk then .next { s with host := { s.host with seeded := false, reseeding := some (s.time, 0) } }
  else .next { s with host := { s.host with seeded := false } }

/-- No reseed has passed: a confidential create that waits answers ENTROPY_FAIL. -/
def reseedsFailed (s : State) : State :=
  let s := { s with host := { s.host with reseeding := none, sourceOk := false, lastRerun := s.time } }
  if commandIs s 1 && mailboxWord s 2 == 1 then answer s mbEntropy else s

/-- entropyReseed (R398): up to three within 1 ms of the failure. -/
def execEntropyReseed (s : State) : Host.Outcome State Fault Refusal :=
  match s.host.reseeding with
  | none => .next s
  | some (t, n) =>
    if t + 1000000 < s.time then .next (reseedsFailed s)
    else if Config.cryptoCheck 3 [s.free, n] then .next { s with host := { s.host with seeded := true, reseeding := none } }
    else if 3 ≤ n + 1 then .next (reseedsFailed s)
    else .next { s with host := { s.host with reseeding := some (t, n + 1) } }

/-- The sessions that could not be made are tried again (R398). -/
def retrySessions (s : State) : List Turn :=
  ((List.range s.ports.length).filter fun p => ((s.ports[p]?).map (·.retry)).getD false).map fun p => Turn.event (.spdmSession p)

/-- entropyStartupRerun (R398): every 100 ms, until the source passes. -/
def execEntropyStartupRerun (s : State) : Host.Outcome State Fault Refusal :=
  if s.host.sourceOk || decide (s.time < s.host.lastRerun + 100000000) then .next s
  else
    let ok := Config.cryptoCheck 4 [s.free]
    .next { s with
      turns := retrySessions s ++ s.turns
      host := { s.host with lastRerun := s.time, sourceOk := ok, seeded := s.host.seeded || ok } }

/-! ### Links (R74, R399) -/

def getPort (s : State) (p : Nat) : Option Port := s.ports[p]?

def setPort (s : State) (p : Nat) (x : Port) : State := { s with ports := s.ports.set p x }

/-- The number of the UCIe link between the compute dies, beside Oxzer ports 0 to 7. -/
def ucieLink : Nat := 8

/-- The header of a flit in clear (R399): the low 32 bits of its counter, its channel and the length of its payload. -/
def flitHeader (f : Flit) : DWord :=
  BitVec.ofNat 64 (f.counter % 2 ^ 32 + f.channel % 16 * 2 ^ 32 + f.payload.length % 2 ^ 8 * 2 ^ 36)

/-- Traffic between the compute dies is sent over the UCIe link, while it is up. What the fabric sends, and when, is left open
(log 45). -/
def linkSend (s : State) (payload : List Byte) : State :=
  if portUp s ucieLink then queueFlits s ucieLink none (payload.map fun b => (b, false)) else s

/-- A COPY whose bytes were still to be sent when its port went down (R74). -/
def failPeer (s : State) (i : Inst) : State :=
  match getGrove s i.grove with
  | some g => failInst s i g (cfault i fPort 0) (0, 0, 0)
  | none => s

/-- R399: the port goes down; the instances whose flits it had fault with PORT (R74). -/
def portDown (s : State) (port : Nat) (x : Port) : State :=
  let fs := x.window ++ x.backlog
  let s := setPort s port { x with
    failures := 0, refused := 0, trained := false, session := false, keys := false, window := [], backlog := [] }
  (s.insts.filter fun i => cardKind i.card == kPeer && fs.any (·.inst == some i.id)).foldl failPeer s

/-- An arriving Oxzer flit starts an exit to S0 (R408). -/
def wakeByFlit (s : State) (port : Nat) : State := if port = ucieLink then s else wake s

/-- flitReceive (R399): a flit that fails its tag is dropped, and eight in a row take the port down; one in sequence is
accepted. The header is authenticated with the payload. -/
def execFlitReceive (port : Nat) (head : FlitHead) (payload : List Byte) (tag : Nat) (s : State) :
    Host.Outcome State Fault Refusal :=
  match getPort s port with
  | none => .next s
  | some x =>
    if !portUp s port then .next s
    else if !Config.cryptoCheck 5 (x.salt :: x.received :: head.seq :: head.channel :: head.len :: tag :: payload.map (·.toNat)) then
      .next (wakeByFlit (if 8 ≤ x.failures + 1 then portDown s port x
        else setPort s port { x with failures := x.failures + 1 }) port)
    else
      .next (wakeByFlit (setPort s port
        { x with failures := 0, received := if head.seq = x.received % 2 ^ 32 then x.received + 1 else x.received }) port)

/-- R399: the neighbour accepts the oldest flit of the window, and the next one that waits is sent. -/
def flitAccepted (s : State) (port : Nat) : State :=
  match getPort s port with
  | none => s
  | some x => if portUp s port then setPort s port (sendFlits 64 { x with refused := 0, window := x.window.drop 1 }) else s

/-- R399, R402: the oldest flit of the window fails its tag at the neighbour: it stays in the window and is replayed under its
own counter. Eight in a row take the port down. -/
def flitFailed (s : State) (port : Nat) : State :=
  match getPort s port with
  | none => s
  | some x =>
    if !portUp s port || x.window.isEmpty then s
    else if 8 ≤ x.refused + 1 then portDown s port x
    else setPort s port { x with refused := x.refused + 1 }

/-- The counters under new keys: flits of the window keep their order, and are sealed again. -/
def renumbered (x : Port) (salt : Nat) : Port :=
  sendFlits 64 { x with
    window := (List.range x.window.length).zipWith (fun k (f : Flit) => { f with counter := k }) x.window
    sent := x.window.length, received := 0, salt := salt }

/-- keyUpdate (R399): new keys, and the counters begin again. -/
def execKeyUpdate (port : Nat) (s : State) : Host.Outcome State Fault Refusal :=
  match getPort s port with
  | none => .next s
  | some x =>
    if portUp s port then .next (setPort s port (renumbered x ((Config.freeKey s.free).toNat % 2 ^ 32))) else .next s

/-- spdmSession (R398, R399, R405): a session whose random values cannot be drawn leaves the port not up, and is tried again
later. -/
def execSpdmSession (port : Nat) (s : State) : Host.Outcome State Fault Refusal :=
  match getPort s port with
  | none => .next s
  | some x =>
    if !x.trained || !(port == ucieLink || accepted s 2) then .next s
    else if s.host.seeded then
      .next (setPort s port (renumbered { x with session := true, keys := true, failures := 0, refused := 0, retry := false }
        ((Config.freeKey s.free).toNat % 2 ^ 32)))
    else .next (setPort s port { x with retry := true })

/-! ### Firmware (R400, R401) -/

/-- fwStage (R400): the image's signature, then its version. -/
def execFwStage (s : State) : Host.Outcome State Fault Refusal :=
  onCommand s 5 fun s =>
    match frontRead s 0 (mailboxWord s 1) (mailboxWord s 2) with
    | .error c => badSource s (mailboxWord s 1) (mailboxWord s 2) c
    | .ok (bs, s) =>
      let image := bs.map (·.toNat)
      if !Config.cryptoCheck 0 image then answer s mbSignature
      else if !Config.cryptoCheck 1 image then answer s mbVersion
      else answer { s with host := { s.host with staged := some (Config.freeChoice s.free 40 % 256) } } mbOk

/-- Every TDI in RUN is to be quiesced for the hand-over. -/
def quiesceAll (s : State) : State :=
  (s.worlds.filter fun w => w.no != 0 && w.live && w.tstate == .run && !w.dying).foldl (fun s w =>
    let x := getWorld s w.no
    if x.quiescing then endQuiesce s w.no else beginQuiesce s w.no true) s

/-- The TDIs that the hand-over quiesced resume. -/
def resumeAll (s : State) : State :=
  applyLatch { s with worlds := s.worlds.map fun w =>
    if w.forFirmware = true ∧ w.tstate = .quiesced then { w with tstate := .run, forFirmware := false } else w }

/-- The security version of the running firmware, which word 3 of the offered and of the accepted vector reports (R405). -/
def setSvn (s : State) (v : Nat) : State :=
  { s with host := { s.host with
    svn := v, offered := s.host.offered.set 3 (BitVec.ofNat 64 (v % 256)), accepted := s.host.accepted.set 3 (BitVec.ofNat 64 (v % 256)) } }

/-- fwActivate (R401): TDIs quiesce; then the standby takes over, or refuses the table's version. -/
def execFwActivate (s : State) : Host.Outcome State Fault Refusal :=
  onCommand s 6 fun s =>
    if s.worlds.any fun w => w.no != 0 && w.live && w.tstate == .run && !w.dying then quiesceAll s
    else if Config.cryptoCheck 2 [s.free, s.host.staged.getD 0] then
      answer (resumeAll (setSvn { s with host := { s.host with activeB := !s.host.activeB, staged := none } }
        (s.host.staged.getD s.host.svn))) mbOk
    else answer (resumeAll s) mbVersion

end Sys2Proof.Machine
end

