-- ==== Sys2Proof/Machine/MemoryInsns.lean ====
section
/-! DEFINITION. Loads, stores and prefetches (R215 to R223). -/

namespace Sys2Proof.Machine

/-- R165: the order and scope of a plain load or store. -/
def loadOrder : POrd → Order
  | .relaxed => .relaxed
  | .ordered _ => .acquire

def storeOrder : POrd → Order
  | .relaxed => .relaxed
  | .ordered _ => .release

def pordScope : POrd → Scope
  | .relaxed => .thread
  | .ordered sc => sc

/-- ld (R215). -/
def execLd (h : Hd) (na : Bool) (ord : POrd) (size : Size) (rd ra rb : Reg) (off : BitVec 16) (s : State) :
    Host.Outcome State Fault Refusal :=
  memInsn s h { space := .global, bytes := sizeBytes size, signed := sizeSigned size, kind := 0, rd := rd, ra := ra, rb := rb
                off := off, na := na, order := loadOrder ord, scope := pordScope ord }

/-- lds (R215). -/
def execLds (h : Hd) (ord : POrd) (size : Size) (rd ra rb : Reg) (off : BitVec 16) (s : State) :
    Host.Outcome State Fault Refusal :=
  memInsn s h { space := .scratch, bytes := sizeBytes size, signed := sizeSigned size, kind := 0, rd := rd, ra := ra, rb := rb
                off := off, order := loadOrder ord, scope := pordScope ord }

/-- st (R215). -/
def execSt (h : Hd) (na : Bool) (ord : POrd) (size : Size) (rd ra rb : Reg) (off : BitVec 16) (s : State) :
    Host.Outcome State Fault Refusal :=
  memInsn s h { space := .global, bytes := sizeBytes size, kind := 1, rd := rd, ra := ra, rb := rb
                off := off, na := na, order := storeOrder ord, scope := pordScope ord }

/-- sts (R215). -/
def execSts (h : Hd) (ord : POrd) (size : Size) (rd ra rb : Reg) (off : BitVec 16) (s : State) :
    Host.Outcome State Fault Refusal :=
  memInsn s h { space := .scratch, bytes := sizeBytes size, kind := 1, rd := rd, ra := ra, rb := rb
                off := off, order := storeOrder ord, scope := pordScope ord }

/-- ldw (R222). -/
def execLdw (h : Hd) (size : Size) (rd ra rb : Reg) (off : BitVec 16) (s : State) : Host.Outcome State Fault Refusal :=
  memInsn s h { space := .weight, bytes := sizeBytes size, signed := sizeSigned size, kind := 0, rd := rd, ra := ra, rb := rb
                off := off }

/-- R223: brings the line of an address near, or does nothing; the bytes that this moves are charged, and none is moved where
a byte cap is used up (R320). -/
def prefStep (l2 : Bool) (ra rb : Reg) (off : BitVec 16) (_ : Issue) (s : State) (st : Strand) (t : Nat) : StepOut :=
  let a := reqAddress { space := .global, bytes := 1, kind := 0, rd := .zero, ra := ra, rb := rb, off := off } s.free st t
  match translate s st.core st.limb st.world a needRead with
  | (.ok pa c, s) =>
    if c = 1 ∨ bytesExhausted s st.world st.owner = true then .ok s st none none
    else
      let s := if l2 then sliceServe s st.core (pa / 128) st.world (byteMask (pa % 128) 1)
        else (globalRead s st.core st.world (accessCaching c) pa 1).2.2
      .ok (chargeBytes s st.world st.owner) st none none
  | (_, s) => .ok s st none none

/-- pref (R223). -/
def execPref (h : Hd) (l2 : Bool) (ra rb : Reg) (off : BitVec 16) (s : State) : Host.Outcome State Fault Refusal :=
  perThread s h (fun _ => []) (spanRegs true ra ++ [rb]) (prefStep l2 ra rb off)

end Sys2Proof.Machine
end

