-- ==== Sys2Proof/Machine/Power.lean ====
section
/-! DEFINITION. Resets and the boot order (R403, R404), the feature vector (R405), power states (R406 to R409), thermal limits
(R410), and BAR 0: its registers, and the cores' status apertures (R7, R333, R386, R391, R405, R410). -/

namespace Sys2Proof.Machine

/-! ### Resets (R403, R404) -/

/-- The device while the boot order is carried out from a step on: everything as after reset, but for the turns still to
come; no world, and mailbox status 0xff (R404). -/
def booting (s : State) (step : Nat) (h : HostIf) : State :=
  { State.reset with
    turns := s.turns, turnNo := s.turnNo, free := s.free, worlds := []
    host := { h with bootStep := step, mailbox := [0, 0, 0, 0, 0, 0, 0, 0xff], accepted := acceptedReset h.offered } }

/-- The device in fundamental reset, at the beginning of the boot order; memory after power-on reads as log 6 says. One that
has tripped stays there (R410). -/
def resetDevice (s : State) (tripped : Bool) : State :=
  { booting s 1 { offered := s.host.offered } with power := { tripped := tripped } }

/-- fundamentalReset (R403, R404, R410): the boot order from step 1; it does not free a device that has tripped. -/
def execFundamentalReset (s : State) : Host.Outcome State Fault Refusal := .next (resetDevice s s.power.tripped)

/-- Power is cycled (R403, R410). -/
def cyclePower (s : State) : State := resetDevice s false

/-- The device answers configuration requests only: no image has verified (R404), or it has tripped (R410). -/
def unanswering (s : State) : Bool := s.host.noImage || s.power.tripped

/-- pfFlr (R403): the boot order from step 3, by the firmware that runs: memory keeps its bytes, its tags and keys are gone,
the port stays trained and the population as it is. -/
def execPfFlr (s : State) : Host.Outcome State Fault Refusal :=
  if s.power.tripped || s.host.bootStep == 1 || s.host.bootStep == 2 then .next s
  else
    .next { booting s 3 { offered := s.host.offered, activeB := s.host.activeB, staged := s.host.staged, svn := s.host.svn
                          hdm := s.host.hdm } with
      mem := s.mem
      poison := s.poison.filter fun
        | .memory _ => true
        | _ => false }

/-- R32: the HDM ranges of the expanders, given by their capacities in the order in which they are enumerated, one after
another from a page of the CXL window of 2^20 pages: each whole pages, cut at the window's end. -/
def placeHdm (page : Nat) : List Nat → List (Nat × Nat)
  | [] => []
  | c :: r =>
    let n := min (c / 0x200000) (2 ^ 20 - page)
    (page, n) :: placeHdm (page + n) r

/-- R32, R404: the capacities of the expanders that the port finds: none where it trains as PCIe. -/
def expanders (free : Nat) : List Nat :=
  if Config.freeChoice free 42 % 2 = 0 then []
  else (List.range (Config.freeChoice free 43)).map fun k => Config.freeChoice free (1000 + k)

/-- Step 2 of R404: the population words, and feature bit cxl where the port trains as CXL (R32, R405). -/
def trainMemory (s : State) : State :=
  let cxl := Config.freeChoice s.free 42 % 2
  let hdm := placeHdm 0 (expanders s.free)
  let pages := hdm.foldl (fun n x => n + x.2) 0
  { s with host := { s.host with
    hdm := hdm
    offered := [BitVec.ofNat 64 (0x3e + cxl), featureWords.getD 1 0, BitVec.ofNat 64 (pages * 2 ^ 32 + 122070), s.host.offered.getD 3 0] } }

/-- Step 1 of R404: Damiz A verifies the image under R400, or else Damiz B does; with neither the device stays there until it
is reset. -/
def verifyImage (s : State) : State :=
  if s.host.noImage then s else
  let good (b : Nat) : Bool := Config.cryptoCheck 0 [s.free, b] && Config.cryptoCheck 1 [s.free, b]
  if good 0 || good 1 then
    { s with host := { s.host with
      bootStep := 2, activeB := !good 0, svn := Config.freeChoice s.free (if good 0 then 44 else 45) % 256 } }
  else { s with host := { s.host with noImage := true } }

/-- The next step of the boot order (R404). Device time, cleared in step 3, is then aligned to the host under PTM. -/
def bootAct (s : State) : State :=
  let go (s : State) (n : Nat) : State := { s with host := { s.host with bootStep := n } }
  match s.host.bootStep with
  | 1 => verifyImage s
  | 2 => go (trainMemory s) 3
  | 3 => go { s with time := 0, host := { s.host with ptm := Config.freeKey s.free } } 4
  | 4 =>
    let ok := Config.cryptoCheck 4 [s.free]
    go { s with host := { s.host with seeded := ok, sourceOk := ok, lastRerun := s.time } } 5
  | 5 => go { s with worlds := [{ no := 0 }], ports := s.ports.map fun x => { x with trained := true } } 6
  | 6 => go (setSvn { s with host := { s.host with accepted := acceptedReset s.host.offered } } s.host.svn) 7
  | 7 => applyLatch (go (answer s mbOk) 0)
  | _ => s

/-- vfFlr (R403): the teardown of a world. -/
def execVfFlr (world : Nat) (s : State) : Host.Outcome State Fault Refusal :=
  if guest s world then .next (teardown s world) else .next s

/-! ### The feature vector (R405) -/

/-- featureCommit (R405): once; a bit that was not offered becomes 0. -/
def execFeatureCommit (s : State) : Host.Outcome State Fault Refusal :=
  if s.host.committed then .next s
  else
    let o := s.host.offered
    .next { s with host := { s.host with
      committed := true, accepted := (acceptedReset o).set 0 (s.host.accepted.getD 0 0 &&& o.getD 0 0) } }

/-! ### Power states (R406 to R409) -/

/-- R406: exit latency in ticks. -/
def exitLatency : PState → Nat
  | .s0 => 0
  | .s1 => 2000
  | .s2 => 40000
  | .s3 => 400000

/-- R407: the state's own condition. -/
def mayEnter (s : State) : PState → Bool
  | .s0 => true
  | .s1 => !s.strands.any (eligible s)
  | .s2 => !s.strands.any (eligible s) && !s.strands.any (·.resident) && s.chains.isEmpty && s.mx.isEmpty && s.insts.isEmpty
      && !s.launches.any (·.inHeap)
  | .s3 => !s.strands.any (eligible s) && !s.strands.any (·.resident) && s.chains.isEmpty && s.mx.isEmpty && s.insts.isEmpty
      && !s.launches.any (·.inHeap) && !s.heads.any (·.2.en)

/-- R407: the deepest state that the tolerance and the device allow. -/
def deepest (s : State) : PState :=
  (([PState.s3, .s2, .s1].find? fun p => decide (exitLatency p ≤ s.power.tolerance) && mayEnter s p)).getD .s0

/-- R407: the tick by which the head's next latch wants an exit to begin. -/
def latchWake (h : Head) (p : PState) : Nat := h.t0 + h.nextLatch * h.period - 4000 - exitLatency p

/-- R407: a latch is near. -/
def latchNear (s : State) (p : PState) : Bool :=
  s.heads.any fun (_, h) => h.en && h.period != 0 && decide (latchWake h p ≤ s.time)

/-- R236, R408: a timed waitn has run out. -/
def waitnDue (s : State) : Bool :=
  s.strands.any fun st => match st.status with
    | .waitNotify n => (match n.until_ with
      | some t => decide (t ≤ s.time)
      | none => false)
    | _ => false

/-- latencyToleranceWrite (R407, R409): a change during an entry is followed by an exit; so is one that forbids the state
the device is in. -/
def execLatencyToleranceWrite (ns : Word) (s : State) : Host.Outcome State Fault Refusal :=
  let changed := s.power.entering.isSome && ns.toNat != s.power.tolerance
  .next { s with power := { s.power with
    tolerance := ns.toNat
    pendingExit := s.power.pendingExit || changed || decide (ns.toNat < exitLatency s.power.state) } }

/-- powerStateEntry (R407): the idle device begins its entry into a state deeper than the one it is in. -/
def execPowerStateEntry (s : State) : Host.Outcome State Fault Refusal :=
  let p := deepest s
  if s.power.entering.isSome || s.power.exiting.isSome || s.power.pendingExit
      || decide (exitLatency p ≤ exitLatency s.power.state) || latchNear s p || s.power.tripped || s.host.bootStep != 0 then .next s
  else .next { s with power := { s.power with entering := some p } }

/-- R406: in S2 and S3 the caches have been written back and invalidated. -/
def emptyCaches (s : State) : State :=
  let s := s.dcache.foldl (fun s l => coreFlush s l.place l.line) s
  s.slices.foldl (fun s l => sliceFlush s l.place l.line) s

/-- An exit begins (R406, R408). -/
def beginExit (s : State) : State :=
  { s with power := { s.power with pendingExit := false, exiting := some (s.time + exitLatency s.power.state) } }

/-- Something asks for an exit from a state (R407 to R409): a pending exit, a latch that is near, a timed waitn, or that
the state's own condition holds no longer. -/
def exitWanted (s : State) (p : PState) : Bool := s.power.pendingExit || latchNear s p || waitnDue s || !mayEnter s p

/-- powerEntryComplete (R406, R409): an exit that is wanted starts at once. -/
def execPowerEntryComplete (s : State) : Host.Outcome State Fault Refusal :=
  match s.power.entering with
  | none => .next s
  | some p =>
    let s := if p = .s1 then s else emptyCaches s
    let s := { s with power := { s.power with state := p, entering := none } }
    .next (if exitWanted s p then beginExit s else s)

/-- powerStateExit (R407, R408). A device on its way to a deeper state enters it first (R409). -/
def execPowerStateExit (s : State) : Host.Outcome State Fault Refusal :=
  if s.power.state == .s0 || s.power.exiting.isSome || s.power.entering.isSome then .next s
  else if exitWanted s s.power.state then .next (beginExit s)
  else .next s

/-- s0Reached (R319, R408): the pinned lines are held again, and the latched writes are applied in arrival order. What woke the
device meanwhile has had its exit. -/
def execS0Reached (s : State) : Host.Outcome State Fault Refusal :=
  match s.power.exiting with
  | none => .next s
  | some t =>
    if s.time < t then .next s
    else .next (applyLatch (refillPins { s with power := { s.power with state := .s0, exiting := none, pendingExit := false } }))

/-! ### Thermal and power limits (R410) -/

/-- The limits of the board's ROM: Tc lies above Tj, and the cap is at most 450 W. -/
def tj : Nat := Config.boardLimit 0
def tc : Nat := max (Config.boardLimit 1) (tj + 1)
def powerCap : Nat := min (Config.boardLimit 2) 450

/-- A die of the last reading passes a limit: each has its sensors. -/
def diePasses (s : State) (limit : Nat) : Bool := s.power.sensors.any fun t => decide (limit < t)

/-- The power readings of the last 10 ms. -/
def recentWatts (s : State) : List Nat := (s.power.watts.filter fun x => decide (s.time < x.1 + 10000000)).map (·.2)

/-- sensorRead (R410): every 100 µs; a die past Tc brings the clock to 800 MHz at once. -/
def execSensorRead (compute : Nat × Nat) (base power : Nat) (s : State) : Host.Outcome State Fault Refusal :=
  if s.time < s.power.lastSensor + 100000 then .next s
  else
    let s := { s with power := { s.power with
      sensors := [compute.1, compute.2, base], lastSensor := s.time
      watts := (s.time, power) :: s.power.watts.filter fun x => decide (s.time < x.1 + 10000000) } }
    if diePasses s tc then
      .next { s with power := { s.power with crit := true, mhz := 800, critSince := some (s.power.critSince.getD s.time) } }
    else .next { s with power := { s.power with critSince := none } }

/-- R410: the clock has to slow: for heat, or for power. -/
def tooHot (s : State) : Bool := diePasses s tj
def tooMuch (s : State) : Bool := decide (powerCap * (recentWatts s).length < (recentWatts s).sum)

/-- R410: every die and the power are low enough for the clock to rise. -/
def coolEnough (s : State) : Bool :=
  (s.power.sensors.all fun t => decide (t + 3 ≤ tj))
    && decide (100 * (recentWatts s).sum < 95 * powerCap * (recentWatts s).length)

/-- clockStep (R410): every 1 ms. At the lowest clock nothing is slowed, and no bit is set. -/
def execClockStep (s : State) : Host.Outcome State Fault Refusal :=
  let p := s.power
  if s.time < p.lastStep + 1000000 then .next s
  else if tooHot s || tooMuch s then
    if p.mhz ≤ 1600 then .next { s with power := { p with lastStep := s.time } }
    else
      .next { s with power := { p with
        lastStep := s.time, mhz := max 1600 (p.mhz - 100), therm := p.therm || tooHot s, pwr := p.pwr || tooMuch s } }
  else if coolEnough s then .next { s with power := { p with lastStep := s.time, mhz := min 3200 (p.mhz + 100) } }
  else .next { s with power := { p with lastStep := s.time } }

/-- thermalTrip (R410): a die still above Tc 100 ms later; the device is held in fundamental reset. -/
def execThermalTrip (s : State) : Host.Outcome State Fault Refusal :=
  match s.power.critSince with
  | none => .next s
  | some t => if t + 100000000 ≤ s.time then .next (resetDevice s true) else .next s

/-- The state word at BAR 0 offset 0x0210 (R410). -/
def thermalWord (s : State) : Word :=
  let p := s.power
  BitVec.ofNat 32 (p.mhz * 2 ^ 16 + (if p.crit then 8 else 0) + (if p.pwr then 4 else 0) + (if p.therm then 2 else 0)
    + (if p.mhz < 3200 then 1 else 0))

/-! ### Registers of BAR 0 (R7, R391, R405, R410) -/

/-- A 64-bit word after a write of one of its halves. -/
def setHalf (w : DWord) (high : Bool) (v : Word) : DWord := if high then mk64 (lo32 w) v else mk64 v (hi32 w)

def setWordHalf (ws : List DWord) (off : Nat) (v : Word) : List DWord :=
  ws.set (off / 8) (setHalf (ws.getD (off / 8) 0) (off % 8 == 4) v)

/-- The event of a mailbox command (R391). -/
def commandEvent (code : Nat) : Instr :=
  match code with
  | 1 => .worldCreate
  | 2 => .worldBind
  | 3 => .worldUnbind
  | 4 => .worldDestroy
  | 5 => .fwStage
  | 6 => .fwActivate
  | _ => .mailboxUndefinedCommand

/-- R391: a write to 0x40 starts the command; while one runs it is ignored. -/
def startCommand (s : State) : State :=
  if mailboxWord s 7 = 0xff then s
  else { answer (wake s) 0xff with turns := .event (commandEvent (mailboxWord s 0 % 256)) :: s.turns }

/-- R333, R386: the word of a strand window at an offset of BAR 0, as home identity and place in the layout: core c's status
aperture is at 0x1_0000_0000 + 0x1000_0000 c, and in it the window of identity k of that core at 0x10_0000 + 0x1_0000 k. -/
def windowPlace (offset : Nat) : Option (Nat × Nat) :=
  let a := offset - 0x100000000
  let core := a / 0x10000000
  let o := a % 0x10000000 - 0x100000
  if offset < 0x100000000 ∨ 96 ≤ core ∨ a % 0x10000000 < 0x100000 ∨ 1152 ≤ o / 0x10000 then none
  else some (1152 * core + o / 0x10000, o % 0x10000)

/-- What a 32-bit read of the physical function's BAR 0 returns: words of the mailbox, the offered and accepted vectors, the
tolerance, the thermal state and strand windows; 0 at the registers that are only written (R7), and elsewhere. Until boot
is complete the mailbox status reads 0xff (R404). -/
def registerValue (s : State) (offset : Nat) : Word :=
  let word (ws : List DWord) (o : Nat) : Word := (if o % 8 = 4 then hi32 else lo32) (ws.getD (o / 8) 0)
  if offset % 4 ≠ 0 then 0
  else if offset < 0x40 then word s.host.mailbox offset
  else if 0x100 ≤ offset ∧ offset < 0x120 then word s.host.offered (offset - 0x100)
  else if 0x120 ≤ offset ∧ offset < 0x140 then word s.host.accepted (offset - 0x120)
  else if offset = 0x200 then BitVec.ofNat 32 s.power.tolerance
  else if offset = 0x210 then thermalWord s
  else match windowPlace offset with
    | some (strand, o) => readWindow s strand o
    | none => 0

/-- A write of BAR 0 that is taken now. -/
def writeRegister (s : State) (offset : Nat) (value : Word) : State :=
  if offset % 4 ≠ 0 then s
  else if offset < 0x38 then { wake s with host := { s.host with mailbox := setWordHalf s.host.mailbox offset value } }
  else if offset = 0x40 then startCommand s
  else if offset = 0x120 then
    (if s.host.committed then s
     else { s with host := { s.host with accepted := setWordHalf s.host.accepted 0 (value &&& 0x3f) } })
  else if offset = 0x140 then { s with turns := .event .featureCommit :: s.turns }
  else if offset = 0x200 then { s with turns := .event (.latencyToleranceWrite value) :: s.turns }
  else if offset = 0x210 then
    { s with power := { s.power with
      crit := s.power.crit && !value.getLsbD 3, pwr := s.power.pwr && !value.getLsbD 2
      therm := s.power.therm && !value.getLsbD 1 } }
  else match windowPlace offset with
    | some (strand, o) => { s with turns := .event (.strandWindowWrite strand o value) :: s.turns }
    | none => s

/-- registerWrite (R7, R386): a 32-bit write of the physical function's BAR 0: the mailbox's words, its start, word 0 of the
accepted vector below its reserved bits, commit, the tolerance, the status bits cleared by a 1, and strand windows. Other
offsets hold nothing that a write changes. Posted writes keep their order, so nothing passes one that is held, and while the
latch is full in S1 to S3 the port takes none (R408). -/
def execRegisterWrite (offset : Nat) (value : Word) (s : State) : Host.Outcome State Fault Refusal :=
  if !s.host.held.isEmpty || (drowsy s && decide (256 ≤ s.host.latch.length)) then .next (holdWrite s (.registerWrite offset value)) else .next (writeRegister s offset value)

end Sys2Proof.Machine
end

