-- ==== Sys2Proof/Machine/Special.lean ====
section
/-! DEFINITION. The special functions (R211 to R213). The manual bounds the results of all but sqrt and fixes no bits
within the bound: the bits are Config.special wherever these lie within the bound (log 5). The exact results are
evaluated in fixed point of 400 fraction bits, far below a unit of the bound. -/

namespace Sys2Proof.Machine

/-! ### Fixed-point evaluation -/

def fracBits : Nat := 400
def fixOne : Nat := 2 ^ fracBits

/-- Σ over the odd powers z^(2k+1) / (2k+1) of atanh, or with alternating signs of atan; `p` is z^(2k+1). -/
def oddSeries (alternate : Bool) (zz : Nat) : Nat → Nat → Nat → Int
  | 0, _, _ => 0
  | n + 1, k, p =>
    (if alternate && k % 2 == 1 then -((p / (2 * k + 1) : Nat) : Int) else ((p / (2 * k + 1) : Nat) : Int))
      + oddSeries alternate zz n (k + 1) (p * zz / fixOne)

/-- atanh and atan of a fixed-point number below 1. -/
def atanhFix (z : Nat) : Int := oddSeries false (z * z / fixOne) 140 0 z
def atanFix (z : Nat) : Int := oddSeries true (z * z / fixOne) 140 0 z

def ln2Fix : Nat := (2 * atanhFix (fixOne / 3)).toNat

/-- π = 16 atan(1/5) - 4 atan(1/239). -/
def piFix : Nat := (16 * atanFix (fixOne / 5) - 4 * atanFix (fixOne / 239)).toNat

/-- e^x of a fixed-point x in [0, 1): Σ x^k / k!. -/
def expSeries (x : Nat) : Nat → Nat → Nat → Nat
  | 0, _, _ => 0
  | n + 1, k, term => term + expSeries x n (k + 1) (term * x / fixOne / k)

def expFix (x : Nat) : Nat := expSeries x 90 1 fixOne

/-- Σ (-1)^k x^(2k+j) / (2k+j)! from a first term: sine for j = 1, cosine for j = 0. -/
def trigSeries (xx : Nat) : Nat → Nat → Nat → Int
  | 0, _, _ => 0
  | n + 1, k, term => (term : Int) - trigSeries xx n (k + 2) (term * xx / fixOne / ((k + 1) * (k + 2)))

def sinFix (x : Nat) : Int := trigSeries (x * x / fixOne) 60 1 x
def cosFix (x : Nat) : Int := trigSeries (x * x / fixOne) 60 0 fixOne

/-- sin of a finite value, or cos, as a fixed-point number: a is brought to within π / 4 of a multiple of π / 2. -/
def sinCos (cosine neg : Bool) (n d : Nat) : Int :=
  let half := piFix / 2
  let x := n * fixOne / d
  let q := (2 * x + half) / (2 * half)
  let r : Int := (x : Int) - q * half
  let quad := if cosine then q + 1 else q
  let y := if quad % 2 = 0 then (if r < 0 then -sinFix r.natAbs else sinFix r.natAbs) else cosFix r.natAbs
  let y := if quad / 2 % 2 = 0 then y else -y
  if neg && !cosine then -y else y

/-- 2^a: a fixed-point number in [1, 2) and an exponent. Below -200 every result rounds alike. -/
def exp2Fix (neg : Bool) (n d : Nat) : Nat × Int :=
  let a : Int := sgn neg n
  let a := if a < -200 * (d : Int) then -200 * (d : Int) else a
  let i := a / d
  let f := (a - i * d).toNat * fixOne / d
  (expFix (f * ln2Fix / fixOne), i)

/-- log2 of a positive value, as a fixed-point number. -/
def log2Fix (n d : Nat) : Int :=
  let e := floorLog2 n d
  let m := n * pow2Den e * fixOne / (d * pow2Num e)
  let z := (m - fixOne) * fixOne / (m + fixOne)
  e * fixOne + 2 * atanhFix z * fixOne / ln2Fix

/-- The integer square root, bit by bit. -/
def isqrt (n : Nat) : Nat → Nat → Nat
  | 0, r => r
  | k + 1, r => isqrt n k (if (r + 2 ^ k) * (r + 2 ^ k) ≤ n then r + 2 ^ k else r)

/-- √(n / d) with 200 fraction bits below, and a sticky bit under them. -/
def sqrtSticky (n d : Nat) : Nat × Nat :=
  let t := isqrt (n * 4 ^ 200 / d) 300 0
  (2 * t + (if t * t * d = n * 4 ^ 200 then 0 else 1), 2 ^ 201)

/-! ### Bounds (R212) -/

/-- |r - y| ≤ k × ulp(y), for a code r and an exact value y. Where y is irrational, n / d is y to some 2^-380: far closer
than y comes to a power of two, or r - y to a multiple of a unit, so both tests say what they say of y itself. -/
def withinBound (k : Nat) (neg : Bool) (n d : Nat) (r : Nat) : Bool :=
  match decodeFloat f32 r with
  | .fin s a b =>
    let e : Int := if n = 0 then -126 else max (floorLog2 n d) (-126)
    let u := e - 23
    let diff := (sgn s a * d - sgn neg n * b).natAbs
    decide (diff * pow2Den u ≤ k * pow2Num u * (b * d))
  | _ => false

/-- R212: in [-1, 1], of y's sign, and not 0: all that is asked beyond 2^24. -/
def withinUnit (neg : Bool) (r : Nat) : Bool :=
  match decodeFloat f32 r with
  | .fin s a b => s == neg && a != 0 && decide (a ≤ b)
  | _ => false

/-- The bits of the hardware where they keep the bound (log 5). -/
def choose (op : Nat) (a fmode : Word) (ok : Nat → Bool) (nearest : Nat) : Nat :=
  let r := (Config.special op a fmode).toNat
  if ok r then r else nearest

def nearestCode (neg : Bool) (n d : Nat) : Nat := (roundFloat f32 0 false neg n d).1

/-- R151, R150 step 4: the flags of a result that counts as inexact, and its flush. -/
def inexactResult (fmode : Word) (r : Nat) : Nat × Flags :=
  if isSubnormal f32 r then
    (if flushesOut f32 fmode then signBit f32 (signField f32 r) else r, flagUf ||| flagNx)
  else (r, flagNx)

/-- An exact result: no flag, but for the flush (R150 step 4). -/
def exactResult (fmode : Word) (neg : Bool) (n d : Nat) : Nat × Flags := roundFloat f32 0 (flushesOut f32 fmode) neg n d

def f32Nan : Nat := 0x7fc00000
def f32Inf (neg : Bool) : Nat := if neg then 0xff800000 else 0x7f800000
def f32One : Nat := 0x3f800000

/-- n / d is 2^k for some k with lo ≤ k ≤ hi. -/
def isPow2 (n d : Nat) (lo hi : Int) : Bool :=
  let e := floorLog2 n d
  n * pow2Den e == d * pow2Num e && decide (lo ≤ e) && decide (e ≤ hi)

/-! ### The functions (R211 to R213): a code and `fmode` to a code and flags -/

def sinCosCode (cosine : Bool) (fmode a : Word) : Nat × Flags :=
  match decodeFlush f32 fmode a.toNat with
  | .nan s => (f32Nan, flagIf s flagNv)
  | .inf _ => (f32Nan, flagNv)
  | .fin neg n d =>
    if n = 0 then (if cosine then f32One else signBit f32 neg, 0)
    else if n * 4096 < d then inexactResult fmode (if cosine then f32One else a.toNat)
    else
      let y := sinCos cosine neg n d
      let yn := decide (y < 0)
      let near := nearestCode yn y.natAbs fixOne
      let k := if n ≤ 2 ^ 18 * d then 2 else 4
      let ok (r : Nat) : Bool :=
        if n ≤ 2 ^ 24 * d then withinBound k yn y.natAbs fixOne r && (withinUnit false r || withinUnit true r || r % 2 ^ 31 == 0)
        else withinUnit yn r
      inexactResult fmode (choose (if cosine then 1 else 0) a fmode ok near)

def exp2Code (fmode a : Word) : Nat × Flags :=
  match decodeFlush f32 fmode a.toNat with
  | .nan s => (f32Nan, flagIf s flagNv)
  | .inf neg => (if neg then 0 else f32Inf false, 0)
  | .fin neg n d =>
    if !neg ∧ 128 * d ≤ n then (f32Inf false, flagOf ||| flagNx)
    else if n % d = 0 ∧ (!neg ∨ n ≤ 149 * d) then
      let e : Int := sgn neg (n / d)
      exactResult fmode false (pow2Num e) (pow2Den e)
    else
      let (m, i) := exp2Fix neg n d
      let yn := m * pow2Num i
      let yd := fixOne * pow2Den i
      inexactResult fmode (choose 2 a fmode (withinBound 1 false yn yd) (nearestCode false yn yd))

def log2Code (fmode a : Word) : Nat × Flags :=
  match decodeFlush f32 fmode a.toNat with
  | .nan s => (f32Nan, flagIf s flagNv)
  | .inf neg => if neg then (f32Nan, flagNv) else (f32Inf false, 0)
  | .fin neg n d =>
    if n = 0 then (f32Inf true, flagDz)
    else if neg then (f32Nan, flagNv)
    else
      let e := floorLog2 n d
      if isPow2 n d (-149) 127 then exactResult fmode (decide (e < 0)) e.natAbs 1
      else
        let y := log2Fix n d
        let yn := decide (y < 0)
        inexactResult fmode (choose 3 a fmode (withinBound 1 yn y.natAbs fixOne) (nearestCode yn y.natAbs fixOne))

def rcpCode (fmode a : Word) : Nat × Flags :=
  match decodeFlush f32 fmode a.toNat with
  | .nan s => (f32Nan, flagIf s flagNv)
  | .inf neg => (signBit f32 neg, 0)
  | .fin neg n d =>
    if n = 0 then (f32Inf neg, flagDz)
    else if n * 2 ^ 128 ≤ d then (f32Inf neg, flagOf ||| flagNx)
    else if isPow2 n d (-126) 126 then exactResult fmode neg d n
    else inexactResult fmode (choose 4 a fmode (withinBound 1 neg d n) (nearestCode neg d n))

def rsqrtCode (fmode a : Word) : Nat × Flags :=
  match decodeFlush f32 fmode a.toNat with
  | .nan s => (f32Nan, flagIf s flagNv)
  | .inf neg => if neg then (f32Nan, flagNv) else (0, 0)
  | .fin neg n d =>
    if n = 0 then (f32Inf neg, flagDz)
    else if neg then (f32Nan, flagNv)
    else
      let e := floorLog2 n d
      if isPow2 n d (-126) 126 ∧ e % 2 = 0 then exactResult fmode false (pow2Den (e / 2)) (pow2Num (e / 2))
      else
        let (yn, yd) := sqrtSticky d n
        inexactResult fmode (choose 5 a fmode (withinBound 1 false yn yd) (nearestCode false yn yd))

def sqrtCode (mode : Nat) (fmode a : Word) : Nat × Flags :=
  match decodeFlush f32 fmode a.toNat with
  | .nan s => (f32Nan, flagIf s flagNv)
  | .inf neg => if neg then (f32Nan, flagNv) else (f32Inf false, 0)
  | .fin neg n d =>
    if n = 0 then (signBit f32 neg, 0)
    else if neg then (f32Nan, flagNv)
    else
      let (yn, yd) := sqrtSticky n d
      roundFloat f32 mode (flushesOut f32 fmode) false yn yd

/-- A special function of a register. -/
def specialOp (s : State) (h : Hd) (rd ra : Reg) (f : Word → Word → Nat × Flags) : Host.Outcome State Fault Refusal :=
  byDest s h rd (fun _ => []) [ra] (plainStep fun free st t =>
    let (v, fl) := f st.fmode (readReg free st t ra)
    raiseFlags (writeReg st t rd (BitVec.ofNat 32 v)) fl)

/-- sinr (R211). -/
def execSinr (h : Hd) (rd ra : Reg) (s : State) : Host.Outcome State Fault Refusal := specialOp s h rd ra (sinCosCode false)
/-- cosr (R211). -/
def execCosr (h : Hd) (rd ra : Reg) (s : State) : Host.Outcome State Fault Refusal := specialOp s h rd ra (sinCosCode true)
/-- exp2 (R211). -/
def execExp2 (h : Hd) (rd ra : Reg) (s : State) : Host.Outcome State Fault Refusal := specialOp s h rd ra exp2Code
/-- log2 (R211). -/
def execLog2 (h : Hd) (rd ra : Reg) (s : State) : Host.Outcome State Fault Refusal := specialOp s h rd ra log2Code
/-- rcp (R211). -/
def execRcp (h : Hd) (rd ra : Reg) (s : State) : Host.Outcome State Fault Refusal := specialOp s h rd ra rcpCode
/-- rsqrt (R211). -/
def execRsqrt (h : Hd) (rd ra : Reg) (s : State) : Host.Outcome State Fault Refusal := specialOp s h rd ra rsqrtCode
/-- sqrt (R211): correctly rounded. -/
def execSqrt (h : Hd) (rm : Rm) (rd ra : Reg) (s : State) : Host.Outcome State Fault Refusal :=
  specialOp s h rd ra (fun fm => sqrtCode (modeOf rm fm) fm)

end Sys2Proof.Machine
end

