-- ==== Sys2Proof/Machine/Dispatch.lean ====
section
/-! DEFINITION. What each step of the part does: one arm for each constructor of `Instr`, in the order of
spec/opcode_table.json. The arms of the first part act on the strand whose issue is being carried out
(`State.issuer`); the others are events of the part and of its surroundings. -/

namespace Sys2Proof.Machine

def exec (i : Instr) (s : State) : Host.Outcome State Fault Refusal :=
  match i with
  -- integer (R174 to R180)
  | .add h ty sat rd ra b => Sys2Proof.Machine.execAdd h ty sat rd ra b s
  | .sub h ty sat rd ra b => Sys2Proof.Machine.execSub h ty sat rd ra b s
  | .mul h ty sat rd ra b => Sys2Proof.Machine.execMul h ty sat rd ra b s
  | .mulhi h ty rd ra b => Sys2Proof.Machine.execMulhi h ty rd ra b s
  | .mad h ty sat rd ra rb rc => Sys2Proof.Machine.execMad h ty sat rd ra rb rc s
  | .div h ty sat rd ra b => Sys2Proof.Machine.execDiv h ty sat rd ra b s
  | .rem h ty rd ra b => Sys2Proof.Machine.execRem h ty rd ra b s
  | .min h ty rd ra b => Sys2Proof.Machine.execMin h ty rd ra b s
  | .max h ty rd ra b => Sys2Proof.Machine.execMax h ty rd ra b s
  | .abs h sat rd ra => Sys2Proof.Machine.execAbs h sat rd ra s
  | .neg h ty sat rd ra => Sys2Proof.Machine.execNeg h ty sat rd ra s
  | .and h ty rd ra b => Sys2Proof.Machine.execAnd h ty rd ra b s
  | .or h ty rd ra b => Sys2Proof.Machine.execOr h ty rd ra b s
  | .xor h ty rd ra b => Sys2Proof.Machine.execXor h ty rd ra b s
  | .not h ty rd ra => Sys2Proof.Machine.execNot h ty rd ra s
  | .andn h ty rd ra b => Sys2Proof.Machine.execAndn h ty rd ra b s
  | .shl h ty sat rd ra b => Sys2Proof.Machine.execShl h ty sat rd ra b s
  | .shr h ty rd ra b => Sys2Proof.Machine.execShr h ty rd ra b s
  | .sar h ty rd ra b => Sys2Proof.Machine.execSar h ty rd ra b s
  | .rotl h ty rd ra b => Sys2Proof.Machine.execRotl h ty rd ra b s
  | .bfx h ty rd ra b => Sys2Proof.Machine.execBfx h ty rd ra b s
  | .bfi h ty rd ra rb rc => Sys2Proof.Machine.execBfi h ty rd ra rb rc s
  | .clz h ty rd ra => Sys2Proof.Machine.execClz h ty rd ra s
  | .popc h ty rd ra => Sys2Proof.Machine.execPopc h ty rd ra s
  | .brev h ty rd ra => Sys2Proof.Machine.execBrev h ty rd ra s
  | .ilv h ty rd ra rb rc => Sys2Proof.Machine.execIlv h ty rd ra rb rc s
  | .dilv h ty rd ra b => Sys2Proof.Machine.execDilv h ty rd ra b s
  | .lea h ty rd ra rb rc => Sys2Proof.Machine.execLea h ty rd ra rb rc s
  | .mov h ty rd a => Sys2Proof.Machine.execMov h ty rd a s
  | .movi h ty rd imm => Sys2Proof.Machine.execMovi h ty rd imm s
  | .mulw h ty rd ra b => Sys2Proof.Machine.execMulw h ty rd ra b s
  -- compare, predicates, select, vote, exchange, scan (R181 to R186)
  | .cmp h ty c pd ra b => Sys2Proof.Machine.execCmp h ty c pd ra b s
  | .pand h n pd pa pb => Sys2Proof.Machine.execPand h n pd pa pb s
  | .por h n pd pa pb => Sys2Proof.Machine.execPor h n pd pa pb s
  | .pxor h n pd pa pb => Sys2Proof.Machine.execPxor h n pd pa pb s
  | .pnot h pd pa => Sys2Proof.Machine.execPnot h pd pa s
  | .pmov h pd pa => Sys2Proof.Machine.execPmov h pd pa s
  | .sel h b64 rd ra rb pc => Sys2Proof.Machine.execSel h b64 rd ra rb pc s
  | .voteAny h pd pa => Sys2Proof.Machine.execVoteAny h pd pa s
  | .voteAll h pd pa => Sys2Proof.Machine.execVoteAll h pd pa s
  | .voteBallot h rd pa => Sys2Proof.Machine.execVoteBallot h rd pa s
  | .xch h mode rd ra b => Sys2Proof.Machine.execXch h mode rd ra b s
  | .scan h ty sat op rd x => Sys2Proof.Machine.execScan h ty sat op rd x s
  -- control (R187 to R194)
  | .bra h off => Sys2Proof.Machine.execBra h off s
  | .braU h off => Sys2Proof.Machine.execBraU h off s
  | .brx h ra => Sys2Proof.Machine.execBrx h ra s
  | .call h fc off => Sys2Proof.Machine.execCall h fc off s
  | .callx h ra => Sys2Proof.Machine.execCallx h ra s
  | .ret h => Sys2Proof.Machine.execRet h s
  | .meet h off => Sys2Proof.Machine.execMeet h off s
  | .meetPop h => Sys2Proof.Machine.execMeetPop h s
  | .exit h => Sys2Proof.Machine.execExit h s
  | .wait rbBit loads stores chains matrix => Sys2Proof.Machine.execWait rbBit loads stores chains matrix s
  | .nop h => Sys2Proof.Machine.execNop h s
  -- floating point (R196 to R202)
  | .fadd h ty rm rd ra rb => Sys2Proof.Machine.execFadd h ty rm rd ra rb s
  | .fsub h ty rm rd ra rb => Sys2Proof.Machine.execFsub h ty rm rd ra rb s
  | .fmul h ty rm rd ra rb => Sys2Proof.Machine.execFmul h ty rm rd ra rb s
  | .fma h ty rm rd ra rb rc => Sys2Proof.Machine.execFma h ty rm rd ra rb rc s
  | .fmin h ty rd ra rb => Sys2Proof.Machine.execFmin h ty rd ra rb s
  | .fmax h ty rd ra rb => Sys2Proof.Machine.execFmax h ty rd ra rb s
  | .fabs h ty rd ra => Sys2Proof.Machine.execFabs h ty rd ra s
  | .fneg h ty rd ra => Sys2Proof.Machine.execFneg h ty rd ra s
  | .fcmp h ty c pd ra rb => Sys2Proof.Machine.execFcmp h ty c pd ra rb s
  | .fclass h ty rd ra => Sys2Proof.Machine.execFclass h ty rd ra s
  -- conversion and special functions (R203 to R213)
  | .cvt h dst src rm rd ra rb rc => Sys2Proof.Machine.execCvt h dst src rm rd ra rb rc s
  | .cvtScaleComputing h slot src rm rd ra rb rc => Sys2Proof.Machine.execCvtScaleComputing h slot src rm rd ra rb rc s
  | .pack6 h rd ra => Sys2Proof.Machine.execPack6 h rd ra s
  | .unpack6 h rd ra => Sys2Proof.Machine.execUnpack6 h rd ra s
  | .pack h var rm rd ra rb => Sys2Proof.Machine.execPack h var rm rd ra rb s
  | .unpack h var rd ra => Sys2Proof.Machine.execUnpack h var rd ra s
  | .sinr h rd ra => Sys2Proof.Machine.execSinr h rd ra s
  | .cosr h rd ra => Sys2Proof.Machine.execCosr h rd ra s
  | .exp2 h rd ra => Sys2Proof.Machine.execExp2 h rd ra s
  | .log2 h rd ra => Sys2Proof.Machine.execLog2 h rd ra s
  | .rcp h rd ra => Sys2Proof.Machine.execRcp h rd ra s
  | .rsqrt h rd ra => Sys2Proof.Machine.execRsqrt h rd ra s
  | .sqrt h rm rd ra => Sys2Proof.Machine.execSqrt h rm rd ra s
  -- memory (R215 to R223)
  | .ld h na ord size rd ra rb off => Sys2Proof.Machine.execLd h na ord size rd ra rb off s
  | .lds h ord size rd ra rb off => Sys2Proof.Machine.execLds h ord size rd ra rb off s
  | .st h na ord size rd ra rb off => Sys2Proof.Machine.execSt h na ord size rd ra rb off s
  | .sts h ord size rd ra rb off => Sys2Proof.Machine.execSts h ord size rd ra rb off s
  | .ldw h size rd ra rb off => Sys2Proof.Machine.execLdw h size rd ra rb off s
  | .pref h l2 ra rb off => Sys2Proof.Machine.execPref h l2 ra rb off s
  -- atomics (R225 to R230)
  | .atomAdd h nr o sc sp wide rd ra rb off => Sys2Proof.Machine.execAtomAdd h nr o sc sp wide rd ra rb off s
  | .atomMin h signed nr o sc sp wide rd ra rb off => Sys2Proof.Machine.execAtomMin h signed nr o sc sp wide rd ra rb off s
  | .atomMax h signed nr o sc sp wide rd ra rb off => Sys2Proof.Machine.execAtomMax h signed nr o sc sp wide rd ra rb off s
  | .atomAnd h nr o sc sp wide rd ra rb off => Sys2Proof.Machine.execAtomAnd h nr o sc sp wide rd ra rb off s
  | .atomOr h nr o sc sp wide rd ra rb off => Sys2Proof.Machine.execAtomOr h nr o sc sp wide rd ra rb off s
  | .atomXor h nr o sc sp wide rd ra rb off => Sys2Proof.Machine.execAtomXor h nr o sc sp wide rd ra rb off s
  | .atomXchg h nr o sc sp wide rd ra rb off => Sys2Proof.Machine.execAtomXchg h nr o sc sp wide rd ra rb off s
  | .atomCas h nr o sc sp wide rd ra rb off => Sys2Proof.Machine.execAtomCas h nr o sc sp wide rd ra rb off s
  | .atomInc h nr o sc sp wide rd ra rb off => Sys2Proof.Machine.execAtomInc h nr o sc sp wide rd ra rb off s
  | .atomFadd h nr o sc sp rd ra rb off => Sys2Proof.Machine.execAtomFadd h nr o sc sp rd ra rb off s
  -- synchronisation (R231 to R239)
  | .fence h o sc => Sys2Proof.Machine.execFence h o sc s
  | .bar h level red rd ra => Sys2Proof.Machine.execBar h level red rd ra s
  | .waitn h rd ra rb rc => Sys2Proof.Machine.execWaitn h rd ra rb rc s
  | .waitnTake h rd ra rb rc => Sys2Proof.Machine.execWaitnTake h rd ra rb rc s
  | .ntfy h ra rb => Sys2Proof.Machine.execNtfy h ra rb s
  | .graft h pd ra rb => Sys2Proof.Machine.execGraft h pd ra rb s
  -- segments and engine (R240 to R246)
  | .attach h mode pd ra => Sys2Proof.Machine.execAttach h mode pd ra s
  | .detach h ra => Sys2Proof.Machine.execDetach h ra s
  | .segfree h pd ra => Sys2Proof.Machine.execSegfree h pd ra s
  | .enq h ch w rd ra => Sys2Proof.Machine.execEnq h ch w rd ra s
  | .seqw h ch w rd ra => Sys2Proof.Machine.execSeqw h ch w rd ra s
  -- matrix (R257 to R265); the rc field `zero` selects the default maps
  | .mz h tile => Sys2Proof.Machine.execMz h tile s
  | .mma h tile ra rb rc sa sb => Sys2Proof.Machine.execMma h tile ra rb rc sa sb s
  | .mmaSp h tile ra rb rc sa sb => Sys2Proof.Machine.execMmaSp h tile ra rb rc sa sb s
  | .mconv h tile ra rb rc sa sb => Sys2Proof.Machine.execMconv h tile ra rb rc sa sb s
  | .mld h fmt tile ra rb => Sys2Proof.Machine.execMld h fmt tile ra rb s
  | .mst h fmt tile ra rb => Sys2Proof.Machine.execMst h fmt tile ra rb s
  -- graphics, ray queries, neural requests (R272 to R282)
  | .bin h rd ra => Sys2Proof.Machine.execBin h rd ra s
  | .pout h fmt out ra => Sys2Proof.Machine.execPout h fmt out ra s
  | .discard h => Sys2Proof.Machine.execDiscard h s
  | .smp h zeroEdge fmt rd ra rb => Sys2Proof.Machine.execSmp h zeroEdge fmt rd ra rb s
  | .rqOpen h cull opq closest rd ra rb => Sys2Proof.Machine.execRqOpen h cull opq closest rd ra rb s
  | .rqNext h rd ra => Sys2Proof.Machine.execRqNext h rd ra s
  | .rqClose h => Sys2Proof.Machine.execRqClose h s
  | .nreq h rd ra rb rc => Sys2Proof.Machine.execNreq h rd ra rb rc s
  | .nget h rd ra => Sys2Proof.Machine.execNget h rd ra s
  -- system (R284 to R287)
  | .mfs h rd num => Sys2Proof.Machine.execMfs h rd num s
  | .mts h rd num => Sys2Proof.Machine.execMts h rd num s
  | .bkpt h => Sys2Proof.Machine.execBkpt h s
  | .trap h ra => Sys2Proof.Machine.execTrap h ra s
  | .fret h rd ra rb => Sys2Proof.Machine.execFret h rd ra rb s
  -- events of faults, walks and lanes; a strand is named by its home identity (R27, R28)
  | .faultRecordDeferredWrite world => Sys2Proof.Machine.execFaultRecordDeferredWrite world s
  | .haltRelease world => Sys2Proof.Machine.execHaltRelease world s
  | .walkComplete id => Sys2Proof.Machine.execWalkComplete id s
  | .parkWake strand => Sys2Proof.Machine.execParkWake strand s
  | .laneGrant core limb lane => Sys2Proof.Machine.execLaneGrant core limb lane s
  | .forcedIssue strand => Sys2Proof.Machine.execForcedIssue strand s
  | .graftDeadlockBreak grove => Sys2Proof.Machine.execGraftDeadlockBreak grove s
  | .barrierArrival strand => Sys2Proof.Machine.execBarrierArrival strand s
  | .waitnTimeout strand => Sys2Proof.Machine.execWaitnTimeout strand s
  | .memoryAccessComplete id => Sys2Proof.Machine.execMemoryAccessComplete id s
  | .epochWrap => Sys2Proof.Machine.execEpochWrap s
  | .wsRefreshWindow group => Sys2Proof.Machine.execWsRefreshWindow group s
  | .controlEccKill strand => Sys2Proof.Machine.execControlEccKill strand s
  -- events of the matrix, traversal and copy engines and of segments
  | .matrixOpStart core limb => Sys2Proof.Machine.execMatrixOpStart core limb s
  | .matrixOpComplete core limb => Sys2Proof.Machine.execMatrixOpComplete core limb s
  | .nreqBatchStart core limb => Sys2Proof.Machine.execNreqBatchStart core limb s
  | .nreqComplete core limb id => Sys2Proof.Machine.execNreqComplete core limb id s
  | .traversalReturn strand => Sys2Proof.Machine.execTraversalReturn strand s
  | .cardAdmit core => Sys2Proof.Machine.execCardAdmit core s
  | .cardStart core inst => Sys2Proof.Machine.execCardStart core inst s
  | .cardComplete core inst => Sys2Proof.Machine.execCardComplete core inst s
  | .seqCardComplete core inst => Sys2Proof.Machine.execSeqCardComplete core inst s
  | .peerCopyAck core inst => Sys2Proof.Machine.execPeerCopyAck core inst s
  | .segmentLineLand world name line => Sys2Proof.Machine.execSegmentLineLand world name line s
  | .segmentEvictionComplete world name => Sys2Proof.Machine.execSegmentEvictionComplete world name s
  -- events of strands
  | .strandEnd strand => Sys2Proof.Machine.execStrandEnd strand s
  | .contextSave strand => Sys2Proof.Machine.execContextSave strand s
  | .contextRestore strand limb lane slot => Sys2Proof.Machine.execContextRestore strand limb lane slot s
  | .strandRestart strand => Sys2Proof.Machine.execStrandRestart strand s
  | .strandWindowWrite strand offset value => Sys2Proof.Machine.execStrandWindowWrite strand offset value s
  -- queues and packets (R305 to R313)
  | .doorbellWrite bell => Sys2Proof.Machine.execDoorbellWrite bell s
  | .queueExamination queue => Sys2Proof.Machine.execQueueExamination queue s
  | .packetTake queue => Sys2Proof.Machine.execPacketTake queue s
  | .launch p record => Sys2Proof.Machine.execLaunch p record s
  | .graph p first count => Sys2Proof.Machine.execGraph p first count s
  | .draw p mesh pixel outs entries => Sys2Proof.Machine.execDraw p mesh pixel outs entries s
  | .notify p index addend => Sys2Proof.Machine.execNotify p index addend s
  | .present p head plane desc frame => Sys2Proof.Machine.execPresent p head plane desc frame s
  | .segdef p name backing word2 => Sys2Proof.Machine.execSegdef p name backing word2 s
  | .wsload p source region dies offset length => Sys2Proof.Machine.execWsload p source region dies offset length s
  | .wsloadRegionWrite queue index => Sys2Proof.Machine.execWsloadRegionWrite queue index s
  | .qdef p queue desc => Sys2Proof.Machine.execQdef p queue desc s
  | .qreset p queue index => Sys2Proof.Machine.execQreset p queue index s
  | .tlbinv p world base length => Sys2Proof.Machine.execTlbinv p world base length s
  | .tlbInvalidationComplete queue index => Sys2Proof.Machine.execTlbInvalidationComplete queue index s
  | .nodedef p first count source => Sys2Proof.Machine.execNodedef p first count source s
  | .nmap p first count source => Sys2Proof.Machine.execNmap p first count source s
  | .budget p world owner cycles bytes reserve => Sys2Proof.Machine.execBudget p world owner cycles bytes reserve s
  | .maprect p head plane owner x0 y0 w h => Sys2Proof.Machine.execMaprect p head plane owner x0 y0 w h s
  | .desc p index source => Sys2Proof.Machine.execDesc p index source s
  | .grant p entry source => Sys2Proof.Machine.execGrant p entry source s
  | .withdraw p entry => Sys2Proof.Machine.execWithdraw p entry s
  | .plane p head plane source => Sys2Proof.Machine.execPlane p head plane source s
  | .head p head source => Sys2Proof.Machine.execHead p head source s
  | .grantFree entry => Sys2Proof.Machine.execGrantFree entry s
  | .packetCompletion queue index => Sys2Proof.Machine.execPacketCompletion queue index s
  | .nodeComplete node => Sys2Proof.Machine.execNodeComplete node s
  | .deficitRoundRobin => Sys2Proof.Machine.execDeficitRoundRobin s
  | .grovePlacement => Sys2Proof.Machine.execGrovePlacement s
  | .preemption => Sys2Proof.Machine.execPreemption s
  | .budgetPeriod => Sys2Proof.Machine.execBudgetPeriod s
  | .notifyWrite index addend requester => Sys2Proof.Machine.execNotifyWrite index addend requester s
  -- tiles and composition (R352 to R364)
  | .tileResolve draw core => Sys2Proof.Machine.execTileResolve draw core s
  | .tileSecondResolution draw tile => Sys2Proof.Machine.execTileSecondResolution draw tile s
  | .tileOutputWrite draw tile => Sys2Proof.Machine.execTileOutputWrite draw tile s
  | .latch head => Sys2Proof.Machine.execLatch head s
  | .compositionComplete head => Sys2Proof.Machine.execCompositionComplete head s
  -- firmware mailbox (R391); the operands stand in the mailbox words
  | .worldCreate => Sys2Proof.Machine.execWorldCreate s
  | .worldBind => Sys2Proof.Machine.execWorldBind s
  | .worldUnbind => Sys2Proof.Machine.execWorldUnbind s
  | .worldDestroy => Sys2Proof.Machine.execWorldDestroy s
  | .fwStage => Sys2Proof.Machine.execFwStage s
  | .fwActivate => Sys2Proof.Machine.execFwActivate s
  | .mailboxUndefinedCommand => Sys2Proof.Machine.execMailboxUndefinedCommand s
  -- interface states, invalidation, entropy, links (R393 to R399)
  | .lockInterface world => Sys2Proof.Machine.execLockInterface world s
  | .startInterface world => Sys2Proof.Machine.execStartInterface world s
  | .stopInterface world => Sys2Proof.Machine.execStopInterface world s
  | .quiesce world => Sys2Proof.Machine.execQuiesce world s
  | .resume world => Sys2Proof.Machine.execResume world s
  | .tdiError world => Sys2Proof.Machine.execTdiError world s
  | .atsInvalidateRequest world base length => Sys2Proof.Machine.execAtsInvalidateRequest world base length s
  | .atsInvalidateCompletion id => Sys2Proof.Machine.execAtsInvalidateCompletion id s
  | .atsDrainTimeout id => Sys2Proof.Machine.execAtsDrainTimeout id s
  | .entropyHealthFail => Sys2Proof.Machine.execEntropyHealthFail s
  | .entropyReseed => Sys2Proof.Machine.execEntropyReseed s
  | .entropyStartupRerun => Sys2Proof.Machine.execEntropyStartupRerun s
  | .flitReceive port head payload tag => Sys2Proof.Machine.execFlitReceive port head payload tag s
  | .keyUpdate port => Sys2Proof.Machine.execKeyUpdate port s
  | .spdmSession port => Sys2Proof.Machine.execSpdmSession port s
  -- resets, power, thermal limits, registers (R403 to R410)
  | .fundamentalReset => Sys2Proof.Machine.execFundamentalReset s
  | .pfFlr => Sys2Proof.Machine.execPfFlr s
  | .vfFlr world => Sys2Proof.Machine.execVfFlr world s
  | .featureCommit => Sys2Proof.Machine.execFeatureCommit s
  | .latencyToleranceWrite ns => Sys2Proof.Machine.execLatencyToleranceWrite ns s
  | .powerStateEntry => Sys2Proof.Machine.execPowerStateEntry s
  | .powerEntryComplete => Sys2Proof.Machine.execPowerEntryComplete s
  | .powerStateExit => Sys2Proof.Machine.execPowerStateExit s
  | .s0Reached => Sys2Proof.Machine.execS0Reached s
  | .sensorRead die0 die1 power => Sys2Proof.Machine.execSensorRead die0 die1 power s
  | .clockStep => Sys2Proof.Machine.execClockStep s
  | .thermalTrip => Sys2Proof.Machine.execThermalTrip s
  | .registerWrite offset value => Sys2Proof.Machine.execRegisterWrite offset value s
  | .dpLinkTraining head t0 period => Sys2Proof.Machine.execDpLinkTraining head t0 period s
  | .cxlMemHostAccess pa write => Sys2Proof.Machine.execCxlMemHostAccess pa write s
  | .atsTranslationCompletion id result => Sys2Proof.Machine.execAtsTranslationCompletion id result s
  | .ideStreamKeying world => Sys2Proof.Machine.execIdeStreamKeying world s

end Sys2Proof.Machine
end

