-- ==== Sys2Proof/Machine/Turns.lean ====
section
/-! DEFINITION. The turns that are no row of the table (log 2): time, early write-back, the host's and system software's
writes, and soft errors; what may happen in a power state; and placing an instruction where the next step fetches it
(log 8). -/

namespace Sys2Proof.Machine

/-! ### Time (R1, R5, R51, R306, R320, R364, R396, R398, R408, R410) -/

/-- The deadline of a timed waitn. -/
def waitnUntil (st : Strand) : Option Nat :=
  match st.status with
  | .waitNotify n => n.until_
  | _ => none

/-- The next multiple of a number after now. -/
def nextMultiple (now n : Nat) : Nat := (now / n + 1) * n

/-- Heads that latch. -/
def activeHeads (s : State) : List (Nat × Head) := s.heads.filter fun x => x.2.en && x.2.period != 0

/-- Instants at which something is due by time alone. -/
def instants (s : State) : List Nat :=
  [nextMultiple s.time (2 ^ 44), nextMultiple s.time 1000000, nextMultiple s.time 10000, s.power.lastStep + 1000000]
    ++ (activeHeads s).map (fun x => x.2.t0 + x.2.nextLatch * x.2.period)
    ++ (activeHeads s).map (fun x => latchWake x.2 (s.power.entering.getD s.power.state))
    ++ s.composing.map (·.end_) ++ s.strands.filterMap waitnUntil ++ s.atsinvs.map (fun x => x.arrived + 1000000)
    ++ s.power.exiting.toList ++ (s.power.critSince.map (· + 100000000)).toList
    ++ (if s.host.sourceOk then [] else [s.host.lastRerun + 100000000])

/-- The first instant after now, at most n ticks away. -/
def nextInstant (s : State) (n : Nat) : Nat :=
  (instants s).foldl (fun best t => if s.time < t ∧ t < best then t else best) (s.time + n)

/-- What is due by time alone at an instant that has come, but for what comes at the end of its tick. -/
def dueEvents (s : State) : List Instr :=
  (if s.time % 2 ^ 44 = 0 then [Instr.epochWrap] else [])
    ++ (if s.time / 1000000 ≠ s.period then [.budgetPeriod] else [])
    ++ (if s.power.lastStep + 1000000 ≤ s.time then [.clockStep] else [])
    ++ (if s.time % 10000 = 0 then s.queues.map (fun q => Instr.queueExamination q.no) else [])
    ++ (s.atsinvs.filter fun x => decide (x.arrived + 1000000 ≤ s.time)).map (fun x => Instr.atsDrainTimeout x.id)
    ++ (match s.power.exiting with
        | some t => if t ≤ s.time then [.s0Reached] else []
        | none => [])
    ++ (match s.power.critSince with
        | some t => if t + 100000000 ≤ s.time then [.thermalTrip] else []
        | none => [])
    ++ (if !s.host.sourceOk && decide (s.host.lastRerun + 100000000 ≤ s.time) then [.entropyStartupRerun] else [])

/-- What must have begun before time moves on: the device leaves its power state, or, with a latch near, first ends its
entry (R407 to R409). -/
def sleepMoves (s : State) : List Instr :=
  match s.power.entering with
  | some p => if latchNear s p || waitnDue s then [.powerEntryComplete] else []
  | none =>
    if s.power.state != .s0 && s.power.exiting.isNone && exitWanted s s.power.state then [.powerStateExit] else []

/-- What comes at the end of a tick: latches, so that a PRESENT taken in it is used (R376); then compositions that end in it
(R364); and waits that run out, whose condition may still come true in it (R247). -/
def lastOfTick (s : State) : List Instr :=
  (s.heads.filter fun x => latchDue { s with closing := true } x.2).map (fun x => Instr.latch x.1)
    ++ (s.composing.filter fun c => decide (c.end_ ≤ s.time)).map (fun c => Instr.compositionComplete c.head)
    ++ (if s.power.state = .s0 then
          (s.strands.filter fun st => match waitnUntil st with
            | some t => decide (t ≤ s.time)
            | none => false).map (fun st => Instr.waitnTimeout st.home)
        else [])

/-- Device time advances by n ticks. Before it leaves a tick, what comes at its end happens; and it stops at every instant at
which something is due. -/
def passTime (s : State) (n : Nat) : State :=
  if n = 0 then s
  else match if s.power.tripped then [] else sleepMoves s ++ lastOfTick s with
    | i :: is => { s with closing := true, turns := (i :: is).map Turn.event ++ .pass n :: s.turns }
    | [] =>
      let t := nextInstant s n
      let left := s.time + n - t
      let s := { s with time := t, closing := false }
      { s with turns := (dueEvents s).map Turn.event ++ (if left = 0 then [] else [.pass left]) ++ s.turns }

/-! ### Writes of the host and of the system world (R34, R304, R305, R324) -/

def setAt (ws : List DWord) (i : Nat) (high : Bool) (v : Word) : List DWord := ws.set i (setHalf (ws.getD i 0) high v)

/-- R324: a 32-bit write of a world's fault block; fields that hardware writes keep their value. A 1 in halted releases the
world. -/
def writeFaultBlock (s : State) (w off : Nat) (v : Word) : State :=
  let x := getWorld s w
  let fb := x.fb
  let put (f : FaultBlock) : State := setWorld s { x with fb := f }
  let high := off % 8 == 4
  let n := v.toNat
  if off % 4 ≠ 0 ∨ x.live = false then s
  else match off / 8 with
    | 0 => put { fb with ring := setHalf fb.ring high v }
    | 1 =>
      if high then
        (let f : FaultBlock := { fb with nidx := fld n 20 12, ne := fld n 19 1 == 1, allstop := fld n 18 1 == 1, lsize := fld n 12 4 }
         let s := put f
         if fld n 17 1 = 1 then releaseHalt s w else s)
      else s
    | 3 => put { fb with rdidx := setHalf fb.rdidx high v }
    | 4 => put { fb with save := setHalf fb.save high v }
    | 5 => if high then s else put { fb with wpen := fld n 4 2, bpen := fld n 0 4 }
    | 6 | 7 | 8 | 9 => put { fb with bp := setAt fb.bp (off / 8 - 6) high v }
    | 10 => put { fb with wa := setAt fb.wa 0 high v }
    | 11 => put { fb with wc := setAt fb.wc 0 high v }
    | 12 => put { fb with wa := setAt fb.wa 1 high v }
    | 13 => put { fb with wc := setAt fb.wc 1 high v }
    | _ => s

/-- Firmware gives world 0 its root and its first privileged queue, while none is defined. -/
def bringUpQueue (s : State) (queue : Nat) (root : DWord) (words : List DWord) : State :=
  let q := parseQueue queue words
  if s.queues.any (·.cls == 2) || q.cls != 2 || queueBad s words || decide (256 ≤ queue) then s
  else { setWorld s { getWorld s 0 with root := root } with queues := s.queues.filter (·.no != queue) ++ [q] }

/-- A store of the host to its own memory (R304, R306). -/
def storeHost (s : State) (pa : Nat) (b : Byte) : State :=
  if tierOf s pa = .host then { s with mem := memSet s.mem pa b } else s

/-! ### Turns -/

/-- R336: a register or a tile element of a strand is poisoned. -/
def poisonStrand (s : State) (h : Nat) (f : Strand → Strand) : State :=
  match getStrand s h with
  | some st => setStrand s (f st)
  | none => s

/-- The poison mask of a 32-bit word of a line, of the bytes that the line holds. -/
def wordPoison (l : Line) (word : Nat) : BitVec 128 := byteMask (4 * (word % 32)) 4 &&& l.valid

/-- R336: a word of a line of a core data cache, or of a slice, is poisoned. -/
def poisonCore (s : State) (core line word : Nat) : State :=
  match getLine s.dcache core line with
  | some l => { s with dcache := putLine s.dcache { l with poison := l.poison ||| wordPoison l word } }
  | none => s

def poisonSlice (s : State) (cl line word : Nat) : State :=
  match getLine s.slices cl line with
  | some l => { s with slices := putLine s.slices { l with poison := l.poison ||| wordPoison l word } }
  | none => s

/-- A slice drops a line early, but for a pinned one (R294, R319). -/
def evictSliceLine (s : State) (cl line : Nat) : State :=
  match getLine s.slices cl line with
  | some l => if pinned s line then s else dropSliceLine s l
  | none => s

/-- A core data cache drops a line early (R294); what its slice then moves is charged to the line's world (R320). -/
def evictCoreLine (s : State) (core line : Nat) : State :=
  match getLine s.dcache core line with
  | some l => chargeBytes (coreFlush s core line) l.world 255
  | none => s

/-- R133: the issue of an instruction about to be made pauses after some thread-steps. -/
def cutIssue (s : State) (steps : Nat) (i : Instr) : State :=
  match getStrand s s.issuer with
  | some st => setStrand s { st with cut := some steps, doing := some i }
  | none => s

/-- An issue that has met no cut has none left to meet. -/
def uncut (home : Nat) : Host.Outcome State Fault Refusal → Host.Outcome State Fault Refusal
  | .next s => match getStrand s home with
    | some st => .next (setStrand s { st with cut := none, doing := none })
    | none => .next s
  | o => o

/-- The acts that have no row. A tag's reserved bit reads as 0 (R8, R34). -/
def turnAct (t : Turn) (s : State) : State :=
  match t with
  | .pass n => passTime s n
  | .evictCore core line => evictCoreLine s core line
  | .evictSlice cl line => evictSliceLine s cl line
  | .evictTlb core i => { s with tlb := (s.tlb.filter (·.core == core)).eraseIdx i ++ s.tlb.filter (·.core != core) }
  | .hostStore pa b => storeHost s pa b
  | .tagWrite page e =>
    let e := e &&& 0xbf
    if page < 65536 then { s with tags := if e = 0 then mapErase s.tags page else mapSet s.tags page e } else s
  | .faultBlockWrite w off v => writeFaultBlock s w off v
  | .firmwareQueue q root ws => bringUpQueue s q root ws
  | .eccMemory pa => { s with poison := Poison.memory (pa / 4) :: s.poison }
  | .eccScratch core off => { s with poison := Poison.scratch core (off / 4) :: s.poison }
  | .eccWeight die off => { s with poison := Poison.weight die (off / 4) :: s.poison }
  | .eccRegister h slot tix => poisonStrand s h fun st => { st with poisoned := .v (64 * slot + tix) :: st.poisoned }
  | .eccUniform h n => poisonStrand s h fun st => { st with poisoned := .s n :: st.poisoned }
  | .eccTemporary h k tix => poisonStrand s h fun st => { st with poisoned := .q (64 * k + tix) :: st.poisoned }
  | .eccSap h => poisonStrand s h fun st => { st with poisoned := .sap :: st.poisoned }
  | .eccCore core line word => poisonCore s core line word
  | .eccSlice cl line word => poisonSlice s cl line word
  | .groveExit g => tryGroveExit s g
  | .eccTile h k => poisonStrand s h fun st => { st with tpoison := k :: st.tpoison }
  | .portTrain p => match getPort s p with
    | some x => setPort s p { x with trained := true }
    | none => s
  | .bootStep => bootAct s
  | .flitAccepted p => flitAccepted s p
  | .flitFailed p => flitFailed s p
  | .matrixStoreByte core limb k => storeEarly s core limb k
  | .registerRead off => readBack s (if unanswering s then none else some ((registerValue s off).setWidth 64))
  | .notifyRead off requester => readNotify s off requester
  | .directoryRead w name k => readBack s (some (readDirectory s w name k))
  | .segmentTableRead core e k => readBack s (some (readSegmentTable s core e k))
  | .headRead h k => readBack s (some (readHead s h k))
  | .powerCycle => cyclePower s
  | .linkSend payload => linkSend s payload
  | .event _ | .issue .. | .issuePart .. => s

/-- R406: what the cores and the L2 slices do, whose clocks stand still from S1 on: issues and strands, walks and requests,
matrix operations, neural requests and traversals, resolvers, and the accesses of copy engines, which read scratch and the
slices. What is under way waits for S0. -/
def coreWork : Instr → Bool
  | .laneGrant .. | .forcedIssue .. | .graftDeadlockBreak .. | .barrierArrival .. | .waitnTimeout .. | .walkComplete ..
  | .parkWake .. | .memoryAccessComplete .. | .controlEccKill .. | .matrixOpStart .. | .matrixOpComplete ..
  | .nreqBatchStart .. | .nreqComplete .. | .traversalReturn .. | .cardAdmit .. | .cardStart .. | .segmentLineLand ..
  | .segmentEvictionComplete .. | .strandEnd .. | .contextSave .. | .contextRestore .. | .strandRestart .. | .tileResolve ..
  | .tileSecondResolution .. | .tileOutputWrite .. => true
  | _ => false

/-- R406: what needs the copy engines' logic, or puts work into the cores, which are off from S2 on. -/
def engineWork : Instr → Bool
  | .cardComplete .. | .seqCardComplete .. | .peerCopyAck .. | .grovePlacement => true
  | _ => false

/-- R406: what needs the composer, the display PHYs or the standby Damiz, which are off in S3. -/
def displayWork : Instr → Bool
  | .latch .. | .compositionComplete .. | .dpLinkTraining .. | .fwStage | .fwActivate => true
  | _ => false

/-- What happens before the boot order is complete: the resets, and writes of the notify aperture, which wait (R404). -/
def runsInBoot : Instr → Bool
  | .fundamentalReset | .pfFlr | .notifyWrite .. | .doorbellWrite .. => true
  | _ => false

/-- What happens in a power state (R406): everything but what needs a unit that the state has off. The front end and firmware
run in each of them (log 46). -/
def runsIn : PState → Instr → Bool
  | .s0, _ => true
  | .s1, i => !coreWork i
  | .s2, i => !coreWork i && !engineWork i
  | .s3, i => !coreWork i && !engineWork i && !displayWork i

/-- The turn may be taken: a device that has tripped is held in reset until its power is cycled (R410); one that boots does
nothing else, and one without an image waits for a reset (R404); and one asleep does what its state keeps clocked (R406). An
instruction word is no event of its own: a lane issues it. -/
def mayTake (s : State) (t : Turn) : Bool :=
  match t with
  | .event i =>
    !i.isWord && !s.power.tripped && (if s.host.noImage then i == .fundamentalReset
      else if s.host.bootStep ≠ 0 then runsInBoot i
      else runsIn s.power.state i)
  | .issue .. | .issuePart .. | .evictCore .. | .evictSlice .. | .evictTlb .. | .matrixStoreByte .. =>
    !s.power.tripped && s.power.state == .s0 && s.host.bootStep == 0
  | .bootStep => !s.power.tripped
  | .powerCycle | .pass .. | .registerRead .. | .notifyRead .. | .hostStore .. => true
  | _ => !s.power.tripped && s.host.bootStep == 0

/-! ### Placing an instruction (log 8) -/

/-- Where the instruction is placed: an address of the first HBM4 stack, the same virtual and physical. -/
def placedAt : Nat := 0x200000

def placedCode : DWord := 0x200000

/-- The launch of the strand that runs it. -/
def placedLaunch (id : Nat) : Launch :=
  { id := id, src := .packet 0 0, queue := 0, world := 0, owner := 0, cls := 2, frame := 0
    record := { code := placedCode, acc := 8, diverge := 8, depth := 352, frame := 96, x := 16
                slots := List.replicate 8 (0, 0), args := List.replicate 8 0 }
    key := 0, next := 1, total := 1, inHeap := false }

def placedGrove (id launch : Nat) : Grove :=
  { id := id, launch := launch, lin := 0, core := 0, world := 0, owner := 0, base := 0, size := 0, count := 1 }

/-- The strand: 16 threads of which the first has not exited; its registers v0 to v95 hold 0. -/
def placedStrand (grove launch : Nat) : Strand :=
  { home := 0, core := 0, limb := 0, lane := 0, slot := 0, world := 0, owner := 0, launch := launch, grove := grove
    width := 16, depth := 352, entry := 96, ntiles := 8, diverge := 8
    threads := { pc := placedCode, height := 96, fsize := 96 } ::
      List.replicate 15 { pc := placedCode, exited := true, height := 96, fsize := 96 }
    vregs := (List.range 96).map fun j => (64 * j, 0) }

/-- Its page, in the micro-TLB of limb 0 of core 0. -/
def placedPage : TlbEntry :=
  { core := 0, world := 0, va := placedAt, pa := placedAt, size := 0x1000, r := true, w := true, x := true, cache := 0
    dirty := true, pte := 0 }

/-- A strand of world 0 that holds lane 0 of limb 0 of core 0 and stands at the word. -/
def placeWord (s : State) (nbits w : Nat) : State :=
  { s with
    turns := [.issue 0 0 0]
    mem := memWrite s.mem placedAt (leList 8 (w % 2 ^ nbits))
    tags := mapSet s.tags 1 0x80
    dcache := dropLine s.dcache 0 (placedAt / 128)
    slices := dropLine s.slices 0 (placedAt / 128)
    utlb := placedPage :: s.utlb
    limbWorld := mapSet s.limbWorld 0 0
    groupWorld := mapSet s.groupWorld 0 0
    lanes := mapSet s.lanes 0 { granted := some 0 }
    strands := placedStrand s.nextId s.nextLaunch :: s.strands.filter (·.home != 0)
    groves := placedGrove s.nextId s.nextLaunch :: s.groves
    launches := placedLaunch s.nextLaunch :: s.launches
    nextId := s.nextId + 1
    nextLaunch := s.nextLaunch + 1
    host := { s.host with bootStep := 0, noImage := false }
    power := { s.power with state := .s0, tripped := false } }

end Sys2Proof.Machine
end

