-- ==== Sys2Proof/Machine/Step.lean ====
section
/-! DEFINITION. One step of the device: the next turn of the State's list, or, where the list is empty, the next free
turn (log 2). -/

namespace Sys2Proof.Machine

/-- A turn's outcome, with the records that it owes written (R325); bytes moved for no owner are charged to none
(R320). -/
def settled : Host.Outcome State Fault Refusal → Host.Outcome State Fault Refusal
  | .next s => .next { settleRecords s with moved := 0 }
  | o => o

/-- Carries out one turn: an event of the table, the issue of a lane's next instruction, or an act that has no
row. A turn that may not be taken changes nothing. -/
def stepTurn (t : Turn) (s : State) : Host.Outcome State Fault Refusal :=
  if mayTake s t then
    match t with
    | .event i => exec i s
    | .issue core limb lane =>
      match fetchLane s core limb lane with
      | .run i s => exec i s
      | .stop s => .next s
    | .issuePart core limb lane steps =>
      match fetchLane s core limb lane with
      | .run i s => uncut s.issuer (exec i (cutIssue s steps i))
      | .stop s => .next s
    | t => .next (turnAct t s)
  else .next s

def step (s : State) : Host.Outcome State Fault Refusal :=
  match s.turns with
  | [] => settled (stepTurn (Config.freeTurn s.turnNo) { s with turnNo := s.turnNo + 1, free := s.free + 1 })
  | t :: r => settled (stepTurn t { s with turns := r, free := s.free + 1 })

/-- s with the instruction whose bits are w placed where the next step fetches (log 8). -/
def State.withFetchWord (s : State) (nbits w : Nat) : State := placeWord s nbits w

end Sys2Proof.Machine
end

