-- ==== Sys2Proof/Safety.lean ====
section
/-! DEFINITION. The terms in which claims are stated: a step that goes on, an instruction that issues and nothing stops,
how one that has completed leaves the device, and what it has written. The part's own faults are next states. -/

namespace Sys2Proof

open Machine

/-- The step from a state ends in a next state. -/
def StepsOn (s : State) : Prop := ∃ s', step s = .next s'

/-! ### An instruction that issues -/

/-- The issuing strand makes the issue i under a guard, and nothing outside the instruction stops it: no hardware
breakpoint is met and no stepping is set (R334), no register of the strand is poisoned (R336), and the issue neither goes on
after a pause nor pauses for the device to act between two thread-steps (R133). -/
structure Issuing (s : State) (g : Guard) (i : Issue) : Prop where
  issue : issueOf s g = some i
  fresh : i.going = false
  breakpoint : breakpointAt s i.st i.pc = none
  stepping : i.st.stepm = 0
  poison : i.st.poisoned = []
  whole : i.st.cut = none

/-- The guard under which an instruction issues (R156). A `wait` has none (R193). -/
def guardOf : Instr → Guard
  | .add h .. | .sub h .. | .mul h .. | .mulhi h .. | .mad h .. | .div h .. | .rem h .. | .min h .. | .max h .. |
    .abs h .. | .neg h .. | .and h .. | .or h .. | .xor h .. | .not h .. | .andn h .. | .shl h .. | .shr h .. |
    .sar h .. | .rotl h .. | .bfx h .. | .bfi h .. | .clz h .. | .popc h .. | .brev h .. | .ilv h .. | .dilv h .. |
    .lea h .. | .mov h .. | .movi h .. | .mulw h .. | .cmp h .. | .pand h .. | .por h .. | .pxor h .. | .pnot h .. |
    .pmov h .. | .sel h .. | .voteAny h .. | .voteAll h .. | .voteBallot h .. | .xch h .. | .scan h .. | .bra h .. |
    .braU h .. | .brx h .. | .call h .. | .callx h .. | .ret h | .meet h .. | .meetPop h | .exit h | .nop h |
    .fadd h .. | .fsub h .. | .fmul h .. | .fma h .. | .fmin h .. | .fmax h .. | .fabs h .. | .fneg h .. |
    .fcmp h .. | .fclass h .. | .cvt h .. | .cvtScaleComputing h .. | .pack6 h .. | .unpack6 h .. | .pack h .. |
    .unpack h .. | .sinr h .. | .cosr h .. | .exp2 h .. | .log2 h .. | .rcp h .. | .rsqrt h .. | .sqrt h .. |
    .ld h .. | .lds h .. | .st h .. | .sts h .. | .ldw h .. | .pref h .. | .atomAdd h .. | .atomMin h .. |
    .atomMax h .. | .atomAnd h .. | .atomOr h .. | .atomXor h .. | .atomXchg h .. | .atomCas h .. | .atomInc h .. |
    .atomFadd h .. | .fence h .. | .bar h .. | .waitn h .. | .waitnTake h .. | .ntfy h .. | .graft h .. |
    .attach h .. | .detach h .. | .segfree h .. | .enq h .. | .seqw h .. | .mz h .. | .mma h .. | .mmaSp h .. |
    .mconv h .. | .mld h .. | .mst h .. | .bin h .. | .pout h .. | .discard h | .smp h .. | .rqOpen h .. |
    .rqNext h .. | .rqClose h | .nreq h .. | .nget h .. | .mfs h .. | .mts h .. | .bkpt h | .trap h .. |
    .fret h .. => h.guard
  | _ => .always

/-- The instruction is an instruction word, in either reading of one of `cvt` (R205). -/
def Issuable (i : Instr) : Prop := i.isWord = true ∨ ∃ h n src rm rd ra rb rc, i = .cvtScaleComputing h n src rm rd ra rb rc

/-- An instruction that has checks of its own before any thread-step (R132): a condition of R169 or R204, a format slot, or
the convergence of its strand. -/
def checksFirst : Instr → Bool
  | .call .. | .callx .. | .bar .. | .cvt .. | .cvtScaleComputing .. | .bin .. | .pout .. | .discard .. | .mz .. | .mma ..
  | .mmaSp .. | .mconv .. | .mld .. | .mst .. => true
  | _ => false

/-- Where the instruction is a `wait`, it heads its grant and every counter is at or below its limit (R124, R125). -/
def MayIssue (s : State) (st : Strand) (ins : Instr) : Prop :=
  ∀ rb l sto c m, ins = .wait rb l sto c m → (getLane s (strandLane st)).issues = 0 ∧
    (st.outs.filter (·.cls == 0)).length ≤ l.val ∧ (st.outs.filter (·.cls == 1)).length ≤ sto.val ∧ st.chains ≤ c.val ∧
    st.matrix ≤ m.val

/-! ### A copy card that starts -/

/-- Instance id of a core has been admitted and nothing holds its start back: no edge, no budget, no state of its world
(R75, R320, R393). Its grove's private range, `len` bytes from `base` within the first bank group of the core, is bound to its
world; the grove has no window that comes before it; no byte is poisoned. -/
structure StartsNow (s : State) (core id : Nat) (i : Inst) (g : Grove) (base len : Nat) : Prop where
  found : (s.insts.find? fun x => x.id == id && x.core == core && x.segment.isNone) = some i
  grove : getGrove s i.grove = some g
  fresh : i.started = false
  runs : mayDma s i.world = true
  budget : instHeld s i = false
  first : mayStart s i s.insts = true
  clean : s.poison = []
  place : g.base = base ∧ g.size = len ∧ g.core = core ∧ base + len ≤ 0x40000
  owner : mapGet s.groupWorld (4 * core) = some i.world

/-- What stands at the place of a value; none where nothing has been written. -/
def valueAt (st : Strand) : RKey → Option Word
  | .v n => mapGet st.vregs n
  | .q n => mapGet st.qregs n
  | .s n => mapGet st.sregs n
  | .sap => some st.sap

/-- The threads for which a destination is written: the active ones, or the lead thread alone for a uniform destination
(R107, R171). -/
def takers (i : Issue) (rd : Reg) : List Nat := if Machine.isUniform rd then i.active.take 1 else i.active

/-- The registers of a destination: none for `zero` (R107), two of a pair. -/
def destRegs (wide : Bool) : Reg → List Reg
  | .zero => []
  | r => if wide then [r, nextReg r] else [r]

/-- The place outlasts the issue: the rb bit ends the run, and with it q0 to q5 (R107, R124). -/
def outlasts (h : Hd) : RKey → Bool
  | .q _ => !h.rb
  | _ => true

/-! ### An instruction that has completed -/

/-- What every instruction leaves of its strand, but for its threads, its registers, its flags and its place in the
issue. -/
def apartFromWork (st : Strand) : Strand :=
  { st with
    threads := [], vregs := [], qregs := [], sregs := [], sap := 0, fstat := 0, step := 0, interrupted := false
    partTag := none, skipBp := none, cut := none, doing := none, rbWait := false, runHead := true, runEntry := none, outs := [] }

/-- Thread k after an issue: moved on past the instruction where it stood at the PC (R171). -/
def past (i : Issue) (k : Nat) : Thread :=
  { getThread i.st k with pc := if k ∈ i.present then i.pc + 8 else (getThread i.st k).pc }

/-- Thread k after an issue that sets the PC of its active threads; a guard-false thread moves on (R171). -/
def gone (i : Issue) (next : Nat → DWord) (k : Nat) : Thread :=
  if k ∈ i.active then { getThread i.st k with pc := next k } else past i k

/-- The frame of an instruction. From s to t, the issuing strand has become st. Its threads are those given, but for
waiting counts (R129); it is the strand b but for threads, registers, flags and its place in the issue; and nothing else
of the device has changed but the lane's count of issues and its grant (R124) and the work charged (R316, R320). Where
the instruction acts on the device as well, s is the state that this has left. -/
structure Moved (s t : State) (b st : Strand) (th : Nat → Thread) : Prop where
  strand : getStrand t s.issuer = some st
  others : ∀ x, x ≠ s.issuer → getStrand t x = getStrand s x
  device : { t with strands := s.strands, lanes := s.lanes, launches := s.launches, queues := s.queues
                    budgets := s.budgets } = s
  lanes : ∀ n, n ≠ strandLane b → getLane t n = getLane s n
  rest : apartFromWork st = apartFromWork b
  count : st.threads.length = b.threads.length
  threads : ∀ k, k < b.threads.length → ∃ w, getThread st k = { th k with waiting := w }

/-- Every register stands as it stood. -/
def RegsKept (h : Hd) (i : Issue) (st : Strand) : Prop :=
  ∀ key, outlasts h key = true → valueAt st key = valueAt i.st key

/-- The destination rd, a pair where `wide` holds, has been written for its takers with the values given, and every
other register stands as in the strand b. A destination that names no place, `zero` or one outside the window, discards
its value. -/
structure Written (h : Hd) (i : Issue) (b st : Strand) (rd : Reg) (wide : Bool) (val : Nat → DWord) : Prop where
  low : rd ≠ .zero → ∀ k ∈ takers i rd, ∀ key, regKey i.st k rd = some key → outlasts h key = true →
    valueAt st key = some (lo32 (val k))
  high : rd ≠ .zero → wide = true → ∀ k ∈ takers i rd, ∀ key, regKey i.st k (nextReg rd) = some key →
    outlasts h key = true → valueAt st key = some (hi32 (val k))
  same : ∀ key, (∀ k ∈ takers i rd, ∀ r ∈ destRegs wide rd, regKey i.st k r ≠ some key) → outlasts h key = true →
    valueAt st key = valueAt b key

/-- The same of a run of registers, the first of which is rd: register j of the run takes `val k j`. -/
structure WrittenGroup (h : Hd) (i : Issue) (st : Strand) (rd : Reg) (regs : List Reg) (val : Nat → Nat → Word) : Prop where
  set : ∀ k ∈ takers i rd, ∀ j r, regs[j]? = some r → ∀ key, regKey i.st k r = some key → outlasts h key = true →
    valueAt st key = some (val k j)
  same : ∀ key, (∀ k ∈ takers i rd, ∀ r ∈ regs, regKey i.st k r ≠ some key) → outlasts h key = true →
    valueAt st key = valueAt i.st key

/-- The instruction completes with a result in rd alone: every thread at the PC has moved on past it, and flags and
predicates stand as they stood. -/
def GivesResult (ins : Instr) (h : Hd) (rd : Reg) (wide : Bool) (val : State → Issue → Nat → DWord) : Prop :=
  ∀ s i, Issuing s h.guard i → ∃ t st, exec ins s = .next t ∧ Moved s t i.st st (past i) ∧
    Written h i i.st st rd wide (val s i) ∧ st.fstat = i.st.fstat

/-- The same of an instruction that raises flags as well: those that stood, and those of its takers. -/
def GivesFloat (ins : Instr) (h : Hd) (rd : Reg) (wide : Bool) (val : State → Issue → Nat → DWord)
    (flags : State → Issue → Nat → Flags) : Prop :=
  ∀ s i, Issuing s h.guard i → ∃ t st, exec ins s = .next t ∧ Moved s t i.st st (past i) ∧
    Written h i i.st st rd wide (val s i) ∧ st.fstat = (takers i rd).foldl (fun f k => f ||| flags s i k) i.st.fstat

/-- The instruction completes with predicates of its active threads alone: those that `val` gives a value, and it raises
flags. -/
def GivesPred (ins : Instr) (h : Hd) (val : State → Issue → Nat → Fin 16 → Option Bool)
    (flags : State → Issue → Nat → Flags) : Prop :=
  ∀ s i, Issuing s h.guard i → ∃ (t : State) (st : Strand) (p : Nat → BitVec 16),
    exec ins s = .next t ∧ Moved s t i.st st (fun k => { past i k with preds := p k }) ∧
    (∀ k, k < i.st.threads.length → ∀ q : Fin 16, (p k).getLsbD q =
      if k ∈ i.active then (val s i k q).getD (getPred i.st k q) else getPred i.st k q) ∧
    RegsKept h i st ∧ st.fstat = i.active.foldl (fun f k => f ||| flags s i k) i.st.fstat

/-- The one predicate pd, as `GivesPred` takes it. -/
def one (pd : Fin 16) (b : Bool) (q : Fin 16) : Option Bool := if q = pd then some b else none

/-- The instruction completes and only moves its threads: the active ones to `next`. -/
def GoesTo (ins : Instr) (h : Hd) (next : State → Issue → Nat → DWord) : Prop :=
  ∀ s i, Issuing s h.guard i → ∃ t st, exec ins s = .next t ∧ Moved s t i.st st (gone i (next s i)) ∧
    RegsKept h i st ∧ st.fstat = i.st.fstat

/-! ### Values in the spec's own terms -/

/-- A result of R172: the exact value, clamped to the type's range under `.sat`; a write takes it modulo 2^N. -/
def narrowed (ty : ITy) (sat : Bool) (x : Int) : DWord :=
  BitVec.ofInt 64 (if sat then
    (match ty with
     | .u32 => max 0 (min x (2 ^ 32 - 1))
     | .i32 => max (-2 ^ 31) (min x (2 ^ 31 - 1))
     | .b64 => x)
  else x)

/-- The bits of a register, or of a pair. -/
def bitsAt (free : Nat) (st : Strand) (k : Nat) (wide : Bool) (r : Reg) : DWord :=
  if wide then readPair free st k r else (readReg free st k r).setWidth 64

/-- The bits of a second source (R159). -/
def bitsAtB (free : Nat) (st : Strand) (k : Nat) (wide : Bool) : RegImm → DWord
  | .reg r => bitsAt free st k wide r
  | .imm v => v.signExtend 64

/-- A value from its bits. -/
def ofBits (f : Nat → Bool) : DWord := (BitVec.ofBoolListLE ((List.range 64).map f)).setWidth 64

/-! ### Memory instructions -/

/-- The threads for which a memory instruction issues requests: a store for each active thread, a load or atomic for
those that its destination is written for (R107, R218, R227). -/
def requesters (q : MemReq) (i : Issue) : List Nat := if q.kind = 1 then i.active else takers i q.rd

/-- The address a is within reach of the strand, at a place (R162, R224): its translation is at hand and permits the
access, its line of the scratch view is present and may be written, or a region of the weight store holds it. -/
def Reaches (q : MemReq) (s : State) (st : Strand) (a : Nat) (place : Nat → AccPlace) : Prop :=
  match q.space with
  | .global => ∃ pa c, place = (fun o => .global (pa + o) (if q.na ∧ c = 0 then 3 else c)) ∧
      translate s st.core st.limb st.world a (if q.kind = 0 then needRead else if q.kind = 1 then needWrite else needBoth)
        = (.ok pa c, s)
  | .scratch => ∃ g p denied, place = scratchPlace s g a ∧ getGrove s st.grove = some g ∧
      viewMap s g a = some (p, denied) ∧ (denied = true → q.kind = 0) ∧ linePresent s st.core p = true
  | .weight => place = (fun o => .weight (a + o)) ∧ weightOk s (dieOf st.core) st.world a q.bytes = true

/-- The parts of an access: two of 8 bytes for one of 16, the lower first (R293). -/
def accessParts (q : MemReq) : List (Nat × Nat) := if q.bytes = 16 then [(0, 8), (8, 8)] else [(0, q.bytes)]

/-- The request of a part, numbered id, of thread k. -/
def requestOf (q : MemReq) (s : State) (st : Strand) (k : Nat) (place : Nat → AccPlace) (id : Nat) (part : Nat × Nat) : Access :=
  { id := id, strand := st.home, tix := k, tag := s.nextId, core := st.core, world := st.world
    place := place part.1, len := part.2, op := reqOp q (reqData q s.free st k) part.1 part.2, signed := q.signed, rd := q.rd
    dest := ((reqDest q st k).drop (part.1 / 4)).take ((part.2 + 3) / 4), order := q.order, scope := q.scope
    uniform := isUniform q.rd && q.kind != 1 }

/-- The requests of the threads, in step order, numbered from id on. -/
def requestsFrom (q : MemReq) (s : State) (st : Strand) (place : Nat → Nat → AccPlace) : Nat → List Nat → List Access
  | _, [] => []
  | id, k :: ks =>
    ((accessParts q).zip (List.range (accessParts q).length)).map
      (fun (p : (Nat × Nat) × Nat) => requestOf q s st k (place k) (id + p.2) p.1)
      ++ requestsFrom q s st place (id + (accessParts q).length) ks

/-- A memory instruction that begins completes its issue with its requests sent, none of them performed yet (R218, R219):
its addresses are aligned and within reach, its counter is below 63 (R125), no acquire of the strand is pending (R221) and
no watchpoint of the world is enabled. Its destinations are not readable until a wait has counted it (R10). -/
def SendsRequests (ins : Instr) (h : Hd) (q : MemReq) : Prop :=
  ∀ (s : State) (i : Issue) (place : Nat → Nat → AccPlace), Issuing s h.guard i → i.st.partTag = none →
    acquirePending s i.st = false → (i.st.outs.filter (·.cls == reqClass q)).length < 63 →
    (getWorld s i.st.world).fb.wpen = 0 → requesters q i ≠ [] →
    (∀ k ∈ requesters q i, reqAddress q s.free i.st k % q.bytes = 0 ∧
      Reaches q s i.st (reqAddress q s.free i.st k) (place k)) →
    let reqs := requestsFrom q s i.st place (s.nextId + 1) (requesters q i)
    ∃ t st, exec ins s = .next t ∧
      Moved { s with pend := s.pend ++ reqs, nextId := s.nextId + 1 + reqs.length } t
        { i.st with shadow := i.st.shadow ++ (requesters q i).flatMap fun k =>
            (reqDest q i.st k).map fun key => (key, s.nextId) } st (past i) ∧
      RegsKept h i st ∧ st.fstat = i.st.fstat ∧
      st.outs = ((i.st.outs ++ [({ tag := s.nextId, cls := reqClass q, left := 0 } : Outstanding)]).map fun (o : Outstanding) =>
        if o.tag = s.nextId then { o with left := o.left + reqs.length } else o).filter fun o => o.left != 0

/-! ### Stops -/

/-- TAKING AN EXCEPTION (R131, R132, R325, R335), from s to t: the issuing strand b has stopped as st with f; its threads
are those given, but for waiting counts; its registers and flags stand; its record is owed to its world unless the world
is halted, and under allstop the other strands of the world halt with it; its lane is granted to another. Nothing else of
the device has changed but the work charged. -/
structure Stopped (s t : State) (b st : Strand) (f : FaultInfo) (th : Nat → Thread) : Prop where
  strand : getStrand t s.issuer = some st
  status : st.status = .faulted f
  rest : apartFromWork { st with status := b.status } = apartFromWork b
  kept : ∀ key, valueAt st key = valueAt b key
  flags : st.fstat = b.fstat
  count : st.threads.length = b.threads.length
  threads : ∀ k, k < b.threads.length → ∃ w, getThread st k = { th k with waiting := w }
  record : t.due = s.due ++ (if (getWorld s b.world).fb.halted then [] else
    [(b.world, [f.pc, BitVec.ofNat 64 (handleOf b.home b.gen * 2 ^ 32), f.addr,
      recordWord3 0 f.cls f.cause f.detail b.world b.owner (if f.pre then 0 else f.step) (if f.pre then 1 else 0)])])
  others : ∀ x, x ≠ s.issuer → getStrand t x = (getStrand s x).map fun y =>
    if y.world = b.world ∧ (getWorld s b.world).fb.allstop = true ∧ (getWorld s b.world).fb.halted = false
    then { y with halted := true } else y
  lane : (getLane t (strandLane b)).granted ≠ some b.home
  device : { t with strands := s.strands, lanes := s.lanes, launches := s.launches, queues := s.queues
                    budgets := s.budgets, worlds := s.worlds, due := s.due } = s

/-! ### Records in scratch -/

/-- The n bytes at a view offset of the strand's grove may be read: aligned, within the view (R224), their lines present
(R89) in bank groups of the world (R83). -/
def Readable (s : State) (st : Strand) (g : Grove) (a n align : Nat) : Prop :=
  a % align = 0 ∧ ∀ k, k < n → ∃ p denied, viewMap s g (a + k) = some (p, denied) ∧ linePresent s st.core p = true ∧
    scratchOwned s st.core st.world p = true

/-- Those bytes. -/
def scratchRecord (s : State) (st : Strand) (g : Grove) (a n : Nat) : List Byte :=
  (List.range n).map fun k => match viewMap s g (a + k) with
    | some (p, _) => memGet (scratchMem s st.core) p
    | none => 0

/-- A memory or graphics instruction may begin to issue: it is not inside one already, no acquire of the strand is
pending (R221), and its counter is below 63 (R125). -/
def MayBegin (s : State) (st : Strand) (cls : Nat) : Prop :=
  st.partTag = none ∧ acquirePending s st = false ∧ (st.outs.filter (·.cls == cls)).length < 63

/-- The keys of a group of n registers from rd on, of thread k. -/
def groupKeys (st : Strand) (k : Nat) (rd : Reg) (n : Nat) : List RKey :=
  (List.range n).filterMap fun j => regKey st k (groupReg rd j)

/-- Two states that differ in memory, its caches and its translations alone. -/
def SameButMemory (t s : State) : Prop :=
  { t with mem := s.mem, lineKeys := s.lineKeys, poison := s.poison, dcache := s.dcache, slices := s.slices
           tlb := s.tlb, utlb := s.utlb, moved := s.moved, due := s.due } = s

/-! ### Packets -/

/-- The effect of a packet is to come: it has been taken, with what it says and whose it is, and has not begun (R307). -/
def Due (s : State) (p : PktHd) (i : Instr) (x : Packet) : Prop :=
  (s.packets.find? fun y => y.hd == p && !y.begun && y.act == i) = some x

/-- The state in which its effect is carried out. -/
def begun (s : State) (p : PktHd) : State :=
  { s with packets := s.packets.map fun y => if y.hd = p then { y with begun := true } else y }

/-- Packets, of which one's work is done with a status (R309). -/
def workDone (ps : List Packet) (queue index status : Nat) : List Packet :=
  ps.map fun y => if y.hd.queue = queue ∧ y.hd.index = index ∧ y.status.isNone then { y with status := some status } else y

/-- The packet's effect is carried out with a status: what it has made of the device is s1. -/
def Completes (i : Instr) (p : PktHd) (s : State) (status : Nat) (s1 : State) : Prop :=
  exec i s = .next { s1 with packets := workDone s1.packets p.queue p.index status }

/-- It completes with a status and has no effect. -/
def Rejected (i : Instr) (p : PktHd) (s : State) (status : Nat) : Prop := Completes i p s status (begun s p)

/-- The bits hi to lo of a 64-bit word, numbered as the spec's tables number them. -/
def wordBits (w : DWord) (hi lo : Nat) : Nat := w.toNat / 2 ^ lo % 2 ^ (hi - lo + 1)

/-! ### The mailbox -/

/-- The command of a code runs: the mailbox's status reads 0xff, and the driver has committed the feature vector (R391,
R405). -/
abbrev Commanded (s : State) (code : Nat) : Prop :=
  (s.host.mailbox.getD 7 0).toNat = 0xff ∧ (s.host.mailbox.getD 0 0).toNat % 256 = code ∧
    s.host.committed = true

/-- Operand n of the command. -/
def operand (s : State) (n : Nat) : Nat := (s.host.mailbox.getD n 0).toNat

/-- The command ends in the state t with a status, which firmware writes last. -/
def Answers (i : Instr) (s : State) (status : Nat) (t : State) : Prop :=
  exec i s = .next { t with host := { t.host with mailbox := t.host.mailbox.set 7 (BitVec.ofNat 64 status) } }

/-! ### Words, packets and memories -/

/-- The words whose opcode is op are those of the instructions that P names. -/
def WordsOf (op : Nat) (P : Instr → Prop) : Prop :=
  ∀ (w : Nat) (i : Instr), w < 2 ^ 64 → decode w = .ok i → (w / 2 ^ 56 = op ↔ P i)

/-- The fields of a packet fit their places (R308, R310, R368). -/
def PacketFits : Instr → Prop
  | .launch .. => True
  | .graph _ a b => a < 2 ^ 32 ∧ b < 2 ^ 32
  | .draw _ _ _ _ n => n < 2 ^ 32
  | .notify _ n _ => n < 2 ^ 32
  | .present _ h m i v => h < 2 ^ 8 ∧ m < 2 ^ 8 ∧ i < 2 ^ 32 ∧ v < 2 ^ 32
  | .segdef _ _ _ x => x &&& 0x0000ffc7000007ff = 0
  | .wsload _ _ r d o l => r < 2 ^ 6 ∧ d < 2 ^ 2 ∧ o < 2 ^ 32 ∧ l < 2 ^ 32
  | .qdef _ q _ | .qreset _ q _ | .tlbinv _ q _ _ => q < 2 ^ 8
  | .nodedef _ a b _ | .nmap _ a b _ => a < 2 ^ 32 ∧ b < 2 ^ 32
  | .budget _ w o _ _ r => w < 2 ^ 6 ∧ o < 2 ^ 8 ∧ r < 2 ^ 16
  | .maprect _ h n o x y w k =>
    h < 2 ^ 8 ∧ n < 2 ^ 8 ∧ o < 2 ^ 8 ∧ x < 2 ^ 16 ∧ y < 2 ^ 16 ∧ w < 2 ^ 16 ∧ k < 2 ^ 16
  | .desc _ i _ | .grant _ i _ | .withdraw _ i => i < 2 ^ 32
  | .plane _ h n _ => h < 2 ^ 8 ∧ n < 2 ^ 8
  | .head _ h _ => h < 2 ^ 8
  | _ => False

/-! ### Numbers as rationals -/

/-- 2^e. -/
def twoTo (e : Int) : Rat := if 0 ≤ e then ((2 ^ e.toNat : Nat) : Rat) else 1 / ((2 ^ (-e).toNat : Nat) : Rat)

/-- R136: the magnitude that a finite code stands for. -/
def magnitude (f : FFormat) (c : Nat) : Rat :=
  if expField f c = 0 then ((mantField f c : Nat) : Rat) * twoTo (1 - f.bias - f.mbits)
  else ((2 ^ f.mbits + mantField f c : Nat) : Rat) * twoTo (expField f c - f.bias - f.mbits)

/-- The signed value of a finite value; 0 for the others. -/
def amount : FVal → Rat
  | .fin s n d => (sgn s n : Rat) / ((d : Nat) : Rat)
  | _ => 0

/-- R147: m is what a magnitude x, of a value of the given sign, rounds to among the integers. -/
def Rounds (mode : Nat) (neg : Bool) (x : Rat) (m : Nat) : Prop :=
  let r : Rat := (m : Nat)
  r = x ∨ ((∀ k : Nat, ((k : Nat) : Rat) ≠ x) ∧ x - 1 < r ∧ r < x + 1 ∧
    match mode with
    | 0 => 2 * (r - x) ≤ 1 ∧ 2 * (x - r) ≤ 1 ∧ (2 * (r - x) = 1 ∨ 2 * (x - r) = 1 → m % 2 = 0)
    | 1 => r < x
    | 2 => if neg then r < x else x < r
    | 3 => if neg then x < r else r < x
    | 4 => 2 * (r - x) ≤ 1 ∧ 2 * (x - r) < 1
    | _ => m % 2 = 1)

/-- A code after step 1 of R150: a subnormal source of a flushed class is a zero of its sign. -/
def flushedIn (f : FFormat) (fmode : Word) (c : Nat) : Nat :=
  if isSubnormal f c ∧ flushesIn f fmode then signBit f (signField f c) else c

/-- A code through step 4 of R150: a subnormal result of a flushed class is a zero of its sign, with its flags. -/
def flushedOut (f : FFormat) (fmode : Word) (c : Nat) : Nat × Flags :=
  if isSubnormal f c ∧ flushesOut f fmode then (signBit f (signField f c), flagUf ||| flagNx) else (c, 0)

/-- The order of the codes that are no NaN, both zeros alike: sign and magnitude. -/
def rank (f : FFormat) (c : Nat) : Int := sgn (signField f c) (c % 2 ^ (f.mbits + f.ebits))

/-- The floating-point formats (R135). -/
def floatFormats : List FFormat := [Fmt.fp32, .fp16, .bf16, .e4m3, .e5m2, .e3m2, .e2m3, .e2m1].filterMap floatFormat

/-- Every memory of the device is in its one canonical form: the bytes at physical addresses, the weight stores and the
cores' scratch. -/
def MemoryCanonical (s : State) : Prop :=
  Memory.wf s.mem = true ∧ (∀ m ∈ s.weight, Memory.wf m = true) ∧ ∀ x ∈ s.scratch, Memory.wf x.2 = true

end Sys2Proof
end

