-- ==== Sys2Proof/Certificates/Slice0/Obligations.lean ====
section
/-! DEFINITION. The statements for the provers. Each names the rules of spec/ that it formalises. -/

open Sys2Proof Sys2Proof.Machine

/-! ### Integer instructions -/

/-- R172, R174: the arithmetic instructions write the exact result, clamped under `.sat`, else modulo 2^N. -/
def Claims.ArithmeticResults : Prop :=
  ∀ (h : Hd) (ty : ITy) (sat : Bool) (rd ra rb rc : Reg) (b : RegImm),
    ((Instr.add h ty sat rd ra b).WellFormed → GivesResult (.add h ty sat rd ra b) h rd (wideB ty) fun s i k =>
      narrowed ty sat (readTyped s.free i.st k ty ra + readTypedB s.free i.st k ty b)) ∧
    ((Instr.sub h ty sat rd ra b).WellFormed → GivesResult (.sub h ty sat rd ra b) h rd (wideB ty) fun s i k =>
      narrowed ty sat (readTyped s.free i.st k ty ra - readTypedB s.free i.st k ty b)) ∧
    ((Instr.mul h ty sat rd ra b).WellFormed → GivesResult (.mul h ty sat rd ra b) h rd (wideB ty) fun s i k =>
      narrowed ty sat (readTyped s.free i.st k ty ra * readTypedB s.free i.st k ty b)) ∧
    ((Instr.mad h ty sat rd ra rb rc).WellFormed → GivesResult (.mad h ty sat rd ra rb rc) h rd (wideB ty) fun s i k =>
      narrowed ty sat (readTyped s.free i.st k ty ra * readTyped s.free i.st k ty rb + readTyped s.free i.st k ty rc)) ∧
    ((Instr.abs h sat rd ra).WellFormed → GivesResult (.abs h sat rd ra) h rd false fun s i k =>
      narrowed .i32 sat (max (readTyped s.free i.st k .i32 ra) (- readTyped s.free i.st k .i32 ra))) ∧
    ((Instr.neg h ty sat rd ra).WellFormed → GivesResult (.neg h ty sat rd ra) h rd (wideB ty) fun s i k =>
      narrowed ty sat (- readTyped s.free i.st k ty ra))

/-- R174: the high half of a product, the exact product to a pair, and the smaller and the larger operand. -/
def Claims.ProductAndOrderResults : Prop :=
  ∀ (h : Hd) (ty : ITy) (rd ra : Reg) (b : RegImm),
    ((Instr.mulhi h ty rd ra b).WellFormed → GivesResult (.mulhi h ty rd ra b) h rd false fun s i k =>
      BitVec.ofInt 64 (readTyped s.free i.st k ty ra * readTypedB s.free i.st k ty b / 2 ^ 32)) ∧
    ((Instr.mulw h ty rd ra b).WellFormed → GivesResult (.mulw h ty rd ra b) h rd true fun s i k =>
      BitVec.ofInt 64 (readTyped s.free i.st k ty ra * readTypedB s.free i.st k ty b)) ∧
    ((Instr.min h ty rd ra b).WellFormed → GivesResult (.min h ty rd ra b) h rd false fun s i k =>
      BitVec.ofInt 64 (min (readTyped s.free i.st k ty ra) (readTypedB s.free i.st k ty b))) ∧
    ((Instr.max h ty rd ra b).WellFormed → GivesResult (.max h ty rd ra b) h rd false fun s i k =>
      BitVec.ofInt 64 (max (readTyped s.free i.st k ty ra) (readTypedB s.free i.st k ty b)))

/-- R175: division truncates toward zero, the remainder has the sign of a, and division by zero has the values of the
table. -/
def Claims.DivisionResults : Prop :=
  ∀ (h : Hd) (ty : ITy) (sat : Bool) (rd ra : Reg) (b : RegImm),
    ((Instr.div h ty sat rd ra b).WellFormed → GivesResult (.div h ty sat rd ra b) h rd false fun s i k =>
      let x := readTyped s.free i.st k ty ra
      let y := readTypedB s.free i.st k ty b
      if y = 0 then
        (if ty = .i32 then (if x < 0 then 0x80000000 else 0x7fffffff) else 0xffffffff)
      else narrowed ty sat (x.tdiv y)) ∧
    ((Instr.rem h ty rd ra b).WellFormed → GivesResult (.rem h ty rd ra b) h rd false fun s i k =>
      let x := readTyped s.free i.st k ty ra
      let y := readTypedB s.free i.st k ty b
      BitVec.ofInt 64 (if y = 0 then x else x.tmod y))

/-- R176: the logic instructions act on the bits of their operands. -/
def Claims.LogicResults : Prop :=
  ∀ (h : Hd) (ty : ITy) (rd ra : Reg) (b : RegImm),
    ((Instr.and h ty rd ra b).WellFormed → GivesResult (.and h ty rd ra b) h rd (wideB ty) fun s i k =>
      bitsAt s.free i.st k (wideB ty) ra &&& bitsAtB s.free i.st k (wideB ty) b) ∧
    ((Instr.or h ty rd ra b).WellFormed → GivesResult (.or h ty rd ra b) h rd (wideB ty) fun s i k =>
      bitsAt s.free i.st k (wideB ty) ra ||| bitsAtB s.free i.st k (wideB ty) b) ∧
    ((Instr.xor h ty rd ra b).WellFormed → GivesResult (.xor h ty rd ra b) h rd (wideB ty) fun s i k =>
      bitsAt s.free i.st k (wideB ty) ra ^^^ bitsAtB s.free i.st k (wideB ty) b) ∧
    ((Instr.not h ty rd ra).WellFormed → GivesResult (.not h ty rd ra) h rd (wideB ty) fun s i k =>
      ~~~ bitsAt s.free i.st k (wideB ty) ra) ∧
    ((Instr.andn h ty rd ra b).WellFormed → GivesResult (.andn h ty rd ra b) h rd (wideB ty) fun s i k =>
      bitsAt s.free i.st k (wideB ty) ra &&& ~~~ bitsAtB s.free i.st k (wideB ty) b)

/-- R176: shifts by the low 8 bits of the amount; at or above N they give 0, the sign, or under `.sat` the bound. -/
def Claims.ShiftResults : Prop :=
  ∀ (h : Hd) (ty : ITy) (sat : Bool) (rd ra : Reg) (b : RegImm),
    ((Instr.shl h ty sat rd ra b).WellFormed → GivesResult (.shl h ty sat rd ra b) h rd (wideB ty) fun s i k =>
      narrowed ty sat (readTyped s.free i.st k ty ra * 2 ^ ((readSingleB s.free i.st k b).toNat % 256))) ∧
    ((Instr.shr h ty rd ra b).WellFormed → GivesResult (.shr h ty rd ra b) h rd (wideB ty) fun s i k =>
      bitsAt s.free i.st k (wideB ty) ra >>> ((readSingleB s.free i.st k b).toNat % 256)) ∧
    ((Instr.sar h ty rd ra b).WellFormed → GivesResult (.sar h ty rd ra b) h rd (wideB ty) fun s i k =>
      (if ty = .b64 then readPair s.free i.st k ra else (readReg s.free i.st k ra).signExtend 64).sshiftRight
        ((readSingleB s.free i.st k b).toNat % 256)) ∧
    ((Instr.rotl h ty rd ra b).WellFormed → GivesResult (.rotl h ty rd ra b) h rd (wideB ty) fun s i k =>
      let n := (readSingleB s.free i.st k b).toNat % 256
      if ty = .b64 then (readPair s.free i.st k ra).rotateLeft n
      else ((readReg s.free i.st k ra).rotateLeft n).setWidth 64)

/-- R177: a field taken out, and a field put in. -/
def Claims.FieldResults : Prop :=
  ∀ (h : Hd) (ty : ITy) (rd ra rb rc : Reg) (b : RegImm),
    ((Instr.bfx h ty rd ra b).WellFormed → GivesResult (.bfx h ty rd ra b) h rd (wideB ty) fun s i k =>
      let c := readSingleB s.free i.st k b
      let pos := min (fld c.toNat 0 7) (bitsOf ty)
      let len := min (fld c.toNat 8 7) (bitsOf ty)
      if ty = .i32 then (((readReg s.free i.st k ra).signExtend 64).extractLsb' pos len).signExtend 64
      else ((bitsAt s.free i.st k (wideB ty) ra).extractLsb' pos len).setWidth 64) ∧
    ((Instr.bfi h ty rd ra rb rc).WellFormed → GivesResult (.bfi h ty rd ra rb rc) h rd (wideB ty) fun s i k =>
      let c := readReg s.free i.st k rc
      let pos := min (fld c.toNat 0 7) (bitsOf ty)
      let len := min (fld c.toNat 8 7) (bitsOf ty)
      ofBits fun j => if pos ≤ j ∧ j < pos + len then (bitsAt s.free i.st k (wideB ty) rb).getLsbD (j - pos)
        else (bitsAt s.free i.st k (wideB ty) ra).getLsbD j)

/-- R178: leading zeros, one bits, and the bits in reverse. -/
def Claims.BitCountResults : Prop :=
  ∀ (h : Hd) (ty : ITy) (rd ra : Reg),
    ((Instr.clz h ty rd ra).WellFormed → GivesResult (.clz h ty rd ra) h rd false fun s i k =>
      BitVec.ofNat 64 (((List.range (bitsOf ty)).takeWhile fun j =>
        !(bitsAt s.free i.st k (wideB ty) ra).getLsbD (bitsOf ty - 1 - j)).length)) ∧
    ((Instr.popc h ty rd ra).WellFormed → GivesResult (.popc h ty rd ra) h rd false fun s i k =>
      BitVec.ofNat 64 (((List.range 64).filter fun j => (bitsAt s.free i.st k (wideB ty) ra).getLsbD j).length)) ∧
    ((Instr.brev h ty rd ra).WellFormed → GivesResult (.brev h ty rd ra) h rd (wideB ty) fun s i k =>
      ofBits fun j => decide (j < bitsOf ty) && (bitsAt s.free i.st k (wideB ty) ra).getLsbD (bitsOf ty - 1 - j))

/-- R179: three coordinates interleaved, 10 or 21 bits of each, and one of them taken out again. -/
def Claims.InterleaveResults : Prop :=
  ∀ (h : Hd) (ty : ITy) (rd ra rb rc : Reg) (b : RegImm),
    ((Instr.ilv h ty rd ra rb rc).WellFormed → GivesResult (.ilv h ty rd ra rb rc) h rd (wideB ty) fun s i k =>
      ofBits fun j => decide (j / 3 < if ty = .b64 then 21 else 10) &&
        (readReg s.free i.st k (if j % 3 = 2 then ra else if j % 3 = 1 then rb else rc)).getLsbD (j / 3)) ∧
    ((Instr.dilv h ty rd ra b).WellFormed → GivesResult (.dilv h ty rd ra b) h rd false fun s i k =>
      let sel := (readSingleB s.free i.st k b).toNat
      ofBits fun j => decide (sel ≤ 2) && decide (j < if ty = .b64 then 21 else 10) &&
        (bitsAt s.free i.st k (wideB ty) ra).getLsbD (3 * j + sel))

/-- R180, R183: moves, the selected of two values, and the address arithmetic. -/
def Claims.MoveResults : Prop :=
  ∀ (h : Hd) (ty : ITy) (wide : Bool) (rd ra rb rc : Reg) (pc : Fin 16) (a : RegImm) (imm : Word),
    ((Instr.mov h ty rd a).WellFormed → GivesResult (.mov h ty rd a) h rd (wideB ty) fun s i k =>
      bitsAtB s.free i.st k (wideB ty) a) ∧
    ((Instr.movi h ty rd imm).WellFormed → GivesResult (.movi h ty rd imm) h rd (wideB ty) fun _ _ _ =>
      imm.signExtend 64) ∧
    ((Instr.sel h wide rd ra rb pc).WellFormed → GivesResult (.sel h wide rd ra rb pc) h rd wide fun s i k =>
      bitsAt s.free i.st k wide (if getPred i.st k pc then ra else rb)) ∧
    ((Instr.lea h ty rd ra rb rc).WellFormed → GivesResult (.lea h ty rd ra rb rc) h rd true fun s i k =>
      readPair s.free i.st k ra + (if ty = .i32 then (readReg s.free i.st k rb).signExtend 64
        else (readReg s.free i.st k rb).setWidth 64) <<< ((readReg s.free i.st k rc).toNat % 8))

/-! ### Predicates, votes, exchange, scan -/

/-- R181, R182: a comparison and the predicate instructions write one predicate of each active thread. -/
def Claims.PredicateResults : Prop :=
  ∀ (h : Hd) (ty : ITy) (c : Cond) (n : Bool) (pd pa pb : Fin 16) (ra : Reg) (b : RegImm),
    (GivesPred (.cmp h ty c pd ra b) h (fun s i k =>
      let x := readTyped s.free i.st k ty ra
      let y := readTypedB s.free i.st k ty b
      one pd (match c with
        | .eq => decide (x = y)
        | .ne => decide (x ≠ y)
        | .lt => decide (x < y)
        | .le => decide (x ≤ y)
        | .gt => decide (x > y)
        | .ge => decide (x ≥ y))) fun _ _ _ => 0) ∧
    (GivesPred (.pand h n pd pa pb) h (fun _ i k => one pd (getPred i.st k pa && xor n (getPred i.st k pb)))
      fun _ _ _ => 0) ∧
    (GivesPred (.por h n pd pa pb) h (fun _ i k => one pd (getPred i.st k pa || xor n (getPred i.st k pb)))
      fun _ _ _ => 0) ∧
    (GivesPred (.pxor h n pd pa pb) h (fun _ i k => one pd (xor (getPred i.st k pa) (xor n (getPred i.st k pb))))
      fun _ _ _ => 0) ∧
    (GivesPred (.pnot h pd pa) h (fun _ i k => one pd (!getPred i.st k pa)) fun _ _ _ => 0) ∧
    GivesPred (.pmov h pd pa) h (fun _ i k => one pd (getPred i.st k pa)) fun _ _ _ => 0

/-- R122, R184: a vote combines a predicate of the active threads as it stood when the issue began. -/
def Claims.VoteResults : Prop :=
  ∀ (h : Hd) (pd pa : Fin 16) (rd : Reg),
    (GivesPred (.voteAny h pd pa) h (fun _ i _ => one pd (decide (∃ j ∈ i.active, getPred i.st j pa = true)))
      fun _ _ _ => 0) ∧
    (GivesPred (.voteAll h pd pa) h (fun _ i _ => one pd (decide (∀ j ∈ i.active, getPred i.st j pa = true)))
      fun _ _ _ => 0) ∧
    ((Instr.voteBallot h rd pa).WellFormed → GivesResult (.voteBallot h rd pa) h rd true fun _ i _ =>
      ofBits fun j => decide (j ∈ i.active) && getPred i.st j pa)

/-- R122, R185: xch reads a register of another thread as it stood when the issue began, its own where the source lies
outside the strand. What an exited source gives is undefined: a free value. -/
def Claims.ExchangeResults : Prop :=
  ∀ (h : Hd) (mode : XchMode) (rd ra : Reg) (b : RegImm), (Instr.xch h mode rd ra b).WellFormed →
    GivesResult (.xch h mode rd ra b) h rd false fun s i k =>
      let d := (readSingleB s.free i.st k b).toNat
      let j : Int := match mode with
        | .idx => d
        | .xor => ((k ^^^ d : Nat) : Int)
        | .up => (k : Int) - d
        | .down => (k : Int) + d
      (if 0 ≤ j ∧ j < i.st.width ∧ j ≠ k then
        (if (getThread i.st j.toNat).exited then Config.freeWord s.free 5 j.toNat else readReg s.free i.st j.toNat ra)
      else readReg s.free i.st k ra).setWidth 64


/-- R186: scan carries a value through `sap` in step order: each active thread takes the combination of all values so far,
and `sap` keeps the last. -/
def Claims.ScanResults : Prop :=
  ∀ (h : Hd) (ty : ITy) (sat : Bool) (op : ScanOp) (rd : Reg) (x : RegImm), (Instr.scan h ty sat op rd x).WellFormed →
    ∀ s i, Issuing s h.guard i → shadowed i.st .sap = false →
      let value (w : Word) : Int := if ty = .i32 then w.toInt else w.toNat
      let combine (a b : Word) : Word := match op with
        | .add => lo32 (narrowed ty sat (value a + value b))
        | .min => if value b < value a then b else a
        | .max => if value a < value b then b else a
        | .and => a &&& b
        | .or => a ||| b
        | .xor => a ^^^ b
      let upTo (ks : List Nat) : Word := ks.foldl (fun acc k =>
        combine acc (if x = .reg .sap then acc else readSingleB s.free i.st k x)) i.st.sap
      ∃ t st, exec (.scan h ty sat op rd x) s = .next t ∧ Moved s t i.st st (past i) ∧
        Written h i { i.st with sap := upTo i.active } st rd false
          (fun k => (upTo (i.active.filter (· ≤ k))).setWidth 64) ∧
        st.fstat = i.st.fstat

/-! ### Control -/

/-- R171, R187, R188, R194: branches set the PC of the active threads, bra.u that of every thread at the PC, and nop
moves every thread at the PC on. -/
def Claims.BranchResults : Prop :=
  ∀ (h : Hd) (off : Word) (ra : Reg),
    (GoesTo (.bra h off) h fun _ i _ => i.pc + 8 + 8 * off.signExtend 64) ∧
    (∀ s i, Issuing s h.guard i → ∃ t st, exec (.braU h off) s = .next t ∧
      Moved s t i.st st (fun k => { getThread i.st k with
        pc := if k ∉ i.present then (getThread i.st k).pc
          else if i.active = [] then i.pc + 8 else i.pc + 8 + 8 * off.signExtend 64 }) ∧
      RegsKept h i st ∧ st.fstat = i.st.fstat) ∧
    (GoesTo (.brx h ra) h fun s i k => i.lr.code + 8 * (readReg s.free i.st k ra).setWidth 64) ∧
    GoesTo (.nop h) h fun _ i _ => i.pc + 8

/-- R113, R189, R190: where nothing is spilled or filled, a call writes the link word above the caller's frame and enters
the callee's, and a return goes back to the caller's frame and link. -/
def Claims.CallResults : Prop :=
  ∀ (h : Hd) (fc : BitVec 7) (off : Word) (ra : Reg) (s : State) (i : Issue), Issuing s h.guard i →
    let linkOf (k : Nat) : Word := BitVec.ofNat 32 ((i.pc + 8 - i.lr.code).toNat / 8 * 128 + (getThread i.st k).fsize)
    let room (k n : Nat) : Prop := 1 ≤ n ∧ n ≤ 96 ∧ (getThread i.st k).fsize + 1 + n ≤ i.st.depth ∧
      (getThread i.st k).height + 1 + n - (getThread i.st k).floor ≤ i.st.depth
    let entered (next : Nat → DWord) (frame : Nat → Nat) (k : Nat) : Thread :=
      if k ∈ i.active then
        { getThread i.st k with
          pc := next k, base := (getThread i.st k).height + 1, fsize := frame k
          height := (getThread i.st k).height + 1 + frame k }
      else past i k
    let linked (st : Strand) : Prop := ∀ key, outlasts h key = true →
      (∀ k ∈ i.active, key = .v (64 * (getThread i.st k).height + k) → valueAt st key = some (linkOf k)) ∧
      ((∀ k ∈ i.active, key ≠ .v (64 * (getThread i.st k).height + k)) → valueAt st key = valueAt i.st key)
    (i.pc + 8 - i.lr.code).toNat / 8 < 2 ^ 25 →
    ((∀ k ∈ i.active, room k fc.toNat) →
      ∃ t st, exec (.call h fc off) s = .next t ∧
        Moved s t i.st st (entered (fun _ => i.pc + 8 + 8 * off.signExtend 64) (fun _ => fc.toNat)) ∧
        linked st ∧ st.fstat = i.st.fstat) ∧
    ((∀ k ∈ i.active, room k (fld (readReg s.free i.st k ra).toNat 0 7)) →
      ∃ t st, exec (.callx h ra) s = .next t ∧
        Moved s t i.st st (entered
          (fun k => i.lr.code + 8 * BitVec.ofNat 64 ((readReg s.free i.st k ra).toNat / 128))
          (fun k => fld (readReg s.free i.st k ra).toNat 0 7)) ∧
        linked st ∧ st.fstat = i.st.fstat)

/-- R113, R190: a return goes back to the frame and to the offset of the link word below its own; the caller of the frame
returned to is resident here (R114). -/
def Claims.ReturnResults : Prop :=
  ∀ (h : Hd) (s : State) (i : Issue), Issuing s h.guard i →
    let linkOf (k : Nat) : Nat := (mapGetD i.st.vregs (64 * ((getThread i.st k).base - 1) + k) 0).toNat
    let below (k : Nat) : Nat := (getThread i.st k).base - 1 - fld (linkOf k) 0 7
    (∀ k ∈ i.active, (getThread i.st k).base ≠ 0 ∧
      (mapGet i.st.vregs (64 * ((getThread i.st k).base - 1) + k)).isSome = true ∧
      (below k = 0 ∨ (getThread i.st k).floor < below k)) →
    ∃ t st, exec (.ret h) s = .next t ∧
      Moved s t i.st st (fun k => if k ∈ i.active then
        { getThread i.st k with
          pc := i.lr.code + 8 * BitVec.ofNat 64 (linkOf k / 128)
          height := (getThread i.st k).base - 1
          base := below k
          fsize := fld (linkOf k) 0 7 }
      else past i k) ∧ RegsKept h i st ∧ st.fstat = i.st.fstat

/-- R116, R191: meet pushes the thread's meeting value and takes the label's, meet.pop takes the pushed one back, and what the window wrote above the
stack (R333) is gone; a push
onto a full stack and a pop of an empty one fault (R116), so each thread must have room or a value. -/
def Claims.MeetResults : Prop :=
  ∀ (h : Hd) (off : Word) (s : State) (i : Issue), Issuing s h.guard i →
    ((∀ k ∈ i.active, (getThread i.st k).mstack.length < i.st.diverge) →
      ∃ t st, exec (.meet h off) s = .next t ∧
        Moved s t i.st st (fun k => if k ∈ i.active then
          { past i k with
            mstack := (getThread i.st k).mstack ++ [(getThread i.st k).meet], mrest := []
            meet := BitVec.ofNat 32 ((i.pc + 8 + 8 * off.signExtend 64 - i.lr.code).toNat / 8) }
        else past i k) ∧ RegsKept h i st ∧ st.fstat = i.st.fstat) ∧
    ((∀ k ∈ i.active, (getThread i.st k).mstack ≠ []) →
      ∃ t st, exec (.meetPop h) s = .next t ∧
        Moved s t i.st st (fun k => if k ∈ i.active then
          { past i k with
            mstack := (getThread i.st k).mstack.dropLast, mrest := []
            meet := (getThread i.st k).mstack.getLastD 0 }
        else past i k) ∧ RegsKept h i st ∧ st.fstat = i.st.fstat)

/-- R190, R192: each active thread exits, at an exit or at a return with no caller frame, and its neural requests are
released. No sibling here waits for the strand in a graft (R118). -/
def Claims.ExitResults : Prop :=
  ∀ (h : Hd) (s : State) (i : Issue), Issuing s h.guard i →
    (∀ w ∈ s.strands, ∀ g, w.status = .waitGraft g → g.partner ≠ i.st.home) →
    ∀ ins, (ins = .exit h ∨ ins = .ret h ∧ ∀ k ∈ i.active, (getThread i.st k).base = 0) →
    ∃ t st, exec ins s = .next t ∧
      Moved { s with nreqs := s.nreqs.map fun r =>
          if r.strand = i.st.home ∧ r.tix ∈ i.active then { r with dropped := true } else r } t i.st st
        (fun k => if k ∈ i.active then { past i k with exited := true, tickets := [] } else past i k) ∧
      RegsKept h i st ∧ st.fstat = i.st.fstat

/-- R10, R124, R125, R193: at the first issue of a grant, where every counter is at or below its limit, wait moves every
thread at its PC on, and one that heads its run makes the loads that have completed readable; a counter above its limit ends the grant with
nothing done; and after the first issue the grant, and the run, end before the wait. That a wait at a run's head makes
every completed load readable, whatever its limit on loads, is the model's reading of R10 (log 28). -/
def Claims.WaitResults : Prop :=
  ∀ (rb : Bool) (loads stores chains matrix : Fin 64) (s : State) (i : Issue), Issuing s .always i →
    let met : Prop := (i.st.outs.filter (·.cls == 0)).length ≤ loads.val ∧
      (i.st.outs.filter (·.cls == 1)).length ≤ stores.val ∧ i.st.chains ≤ chains.val ∧ i.st.matrix ≤ matrix.val
    ((getLane s (strandLane i.st)).issues = 0 → met → i.active ≠ [] →
      ∃ t st, exec (.wait rb loads stores chains matrix) s = .next t ∧
        Moved s t (if i.st.runHead then { i.st with shadow := i.st.shadow.filter fun e => i.st.outs.any (·.tag == e.2) }
          else i.st) st (past i) ∧
        RegsKept ⟨rb, .always⟩ i st ∧ st.fstat = i.st.fstat) ∧
    ((getLane s (strandLane i.st)).issues = 0 → ¬ met →
      exec (.wait rb loads stores chains matrix) s = .next (ungrant s i.st)) ∧
    ((getLane s (strandLane i.st)).issues ≠ 0 →
      exec (.wait rb loads stores chains matrix) s = .next (ungrant (setStrand s (newRun s i.st)) i.st))

/-! ### Floating point, conversions, special functions -/

/-- R150, R196 to R200, R202: the arithmetic instructions work element by element under the sampled mode and raise the
flags of their elements; fclass raises none. -/
def Claims.FloatResults : Prop :=
  ∀ (h : Hd) (ty : FTy) (rm : Rm) (rd ra rb rc : Reg),
    let a (s : State) (i : Issue) (k : Nat) : Word := readReg s.free i.st k ra
    let b (s : State) (i : Issue) (k : Nat) : Word := readReg s.free i.st k rb
    let c (s : State) (i : Issue) (k : Nat) : Word := readReg s.free i.st k rc
    let m (i : Issue) : Nat := modeOf rm i.st.fmode
    let of (f : State → Issue → Nat → Word × Flags) (ins : Instr) : Prop :=
      GivesFloat ins h rd false (fun s i k => (f s i k).1.setWidth 64) (fun s i k => (f s i k).2)
    of (fun s i k => packedOp ty (fun ff x y _ => fAdd ff (m i) i.st.fmode false x y) (a s i k) (b s i k) 0)
      (.fadd h ty rm rd ra rb) ∧
    of (fun s i k => packedOp ty (fun ff x y _ => fAdd ff (m i) i.st.fmode true x y) (a s i k) (b s i k) 0)
      (.fsub h ty rm rd ra rb) ∧
    of (fun s i k => packedOp ty (fun ff x y _ => fMul ff (m i) i.st.fmode x y) (a s i k) (b s i k) 0)
      (.fmul h ty rm rd ra rb) ∧
    of (fun s i k => packedOp ty (fun ff x y z => fFma ff (m i) i.st.fmode x y z) (a s i k) (b s i k) (c s i k))
      (.fma h ty rm rd ra rb rc) ∧
    of (fun s i k => packedOp ty (fun ff x y _ => fMinMax ff i.st.fmode false x y) (a s i k) (b s i k) 0)
      (.fmin h ty rd ra rb) ∧
    of (fun s i k => packedOp ty (fun ff x y _ => fMinMax ff i.st.fmode true x y) (a s i k) (b s i k) 0)
      (.fmax h ty rd ra rb) ∧
    of (fun s i k => packedOp ty (fun ff x _ _ => fAbsNeg ff i.st.fmode false x) (a s i k) 0 0) (.fabs h ty rd ra) ∧
    of (fun s i k => packedOp ty (fun ff x _ _ => fAbsNeg ff i.st.fmode true x) (a s i k) 0 0) (.fneg h ty rd ra) ∧
    of (fun s i k => packedOp ty (fun ff x _ _ => (fClass ff x, 0)) (a s i k) 0 0) (.fclass h ty rd ra)

/-- R201: a comparison sets one predicate, or two from an even one on, of each active thread, and its flags. -/
def Claims.FloatCompareResults : Prop :=
  ∀ (h : Hd) (ty : FTy) (c : FCond) (pd : Fin 16) (ra rb : Reg), (Instr.fcmp h ty c pd ra rb).WellFormed →
    let at_ (s : State) (i : Issue) (k lo len : Nat) : Bool × Flags :=
      fCompare (typeFormat ty) i.st.fmode c (fld (readReg s.free i.st k ra).toNat lo len)
        (fld (readReg s.free i.st k rb).toNat lo len)
    GivesPred (.fcmp h ty c pd ra rb) h
      (fun s i k q => if ty = .f32 then one pd (at_ s i k 0 32).1 q
        else (one pd (at_ s i k 0 16).1 q).orElse fun _ => one (pd + 1) (at_ s i k 16 16).1 q)
      (fun s i k => if ty = .f32 then (at_ s i k 0 32).2 else (at_ s i k 0 16).2 ||| (at_ s i k 16 16).2)

/-- R136, R150: the value of a source code: its sign and magnitude, an infinity or a NaN, and a zero of its sign where a
subnormal of a flushed class comes in. -/
def Claims.SourceValues : Prop :=
  ∀ (f : FFormat) (fm : Word) (c : Nat), f ∈ floatFormats → c < 2 ^ f.width →
    let k := c % 2 ^ (f.mbits + f.ebits)
    let x := decodeFlush f fm c
    (isSubnormal f c = true → flushesIn f fm = true → x = .fin (signField f c) 0 1) ∧
    (k ≤ largestCode f → (isSubnormal f c && flushesIn f fm) = false →
      ∃ n d, 0 < d ∧ x = .fin (signField f c) n d ∧ ((n : Nat) : Rat) / ((d : Nat) : Rat) = magnitude f c) ∧
    (f.specials = 1 → k = largestCode f + 1 → x = .inf (signField f c)) ∧
    (f.specials = 1 → largestCode f + 1 < k → x = .nan (k / 2 ^ (f.mbits - 1) % 2 == 0)) ∧
    (f.specials = 2 → largestCode f < k → x = .nan false)

/-- R147, R148, R150, R151: a value that is not 0 rounds, under each mode, to a multiple of the unit of its binade or of
the subnormals; one above the largest magnitude overflows, one that comes out subnormal and inexact underflows, and a
subnormal of a flushed class becomes zero. -/
def Claims.Rounding : Prop :=
  ∀ (f : FFormat) (mode : Nat) (flush neg : Bool) (n d : Nat) (e : Int),
    f ∈ floatFormats → mode < 6 → 0 < n → 0 < d →
    let y : Rat := ((n : Nat) : Rat) / ((d : Nat) : Rat)
    twoTo e ≤ y → y < twoTo (e + 1) →
    let unit := twoTo (max e (1 - f.bias) - f.mbits)
    let least := twoTo (1 - f.bias)
    let out := roundFloat f mode flush neg n d
    ∃ m : Nat, Rounds mode neg (y / unit) m ∧
      let r := ((m : Nat) : Rat) * unit
      if magnitude f (largestCode f) < r then
        out = (signBit f neg + (if f.specials = 1 ∧ (mode = 0 ∨ mode = 4 ∨ (mode = 2 ∧ neg = false) ∨ (mode = 3 ∧ neg = true))
          then largestCode f + 1 else largestCode f), flagOf ||| flagNx)
      else if flush = true ∧ 0 < r ∧ r < least then out = (signBit f neg, flagUf ||| flagNx)
      else ∃ k, k ≤ largestCode f ∧ magnitude f k = r ∧
        out = (signBit f neg + k, if r = y then 0 else if 0 < r ∧ r < least then flagUf ||| flagNx else flagNx)

/-- R198: the sum, the product and the fused product and sum of finite values are rounded from their exact values, an
exact zero has the sign that the operands and the mode give, infinities follow their rules, and NaN and the invalid cases
give the canonical NaN. -/
def Claims.FloatValues : Prop :=
  ∀ (f : FFormat) (fm : Word) (mode a b c : Nat) (sub : Bool),
    f ∈ [f32, f16, bf16] → a < 2 ^ f.width → b < 2 ^ f.width → c < 2 ^ f.width →
    let x := decodeFlush f fm a
    let y := decodeFlush f fm b
    let z := decodeFlush f fm c
    let nan := canonicalNan f
    let inf (neg : Bool) : Nat × Flags := (signBit f neg + largestCode f + 1, 0)
    let isRound (v : Rat) (out : Nat × Flags) : Prop :=
      ∃ (neg : Bool) (n d : Nat), 0 < d ∧ (neg = true ↔ v < 0) ∧ ((sgn neg n : Int) : Rat) / ((d : Nat) : Rat) = v ∧
        out = roundFloat f mode (flushesOut f fm) neg n d
    let finite (v : FVal) : Prop := ∃ s n d, v = .fin s n d
    let sum := fAdd f mode fm sub a b
    let prod := fMul f mode fm a b
    let fused := fFma f mode fm a b c
    (isNan x = true ∨ isNan y = true →
      sum = (nan, flagIf (isSignalling x || isSignalling y) flagNv) ∧
      prod = (nan, flagIf (isSignalling x || isSignalling y) flagNv)) ∧
    (isNan x = true ∨ isNan y = true ∨ isNan z = true →
      fused = (nan, flagIf (isSignalling x || isSignalling y || isSignalling z ||
        (isInf x && isZero y) || (isZero x && isInf y)) flagNv)) ∧
    (finite x → finite y →
      let v := amount x + (if sub then - amount y else amount y)
      let w := amount x * amount y
      (v ≠ 0 → isRound v sum) ∧
      (v = 0 → sum = (signBit f (if isNeg x = (isNeg y != sub) then isNeg x else mode == 3), 0)) ∧
      (w ≠ 0 → isRound w prod) ∧ (w = 0 → prod = (signBit f (isNeg x != isNeg y), 0)) ∧
      (∀ s, z = .inf s → fused = inf s) ∧
      (finite z → (w + amount z ≠ 0 → isRound (w + amount z) fused) ∧
        (w + amount z = 0 → fused = (signBit f (if (isNeg x != isNeg y) = isNeg z then isNeg z else mode == 3), 0)))) ∧
    (∀ s, x = .inf s →
      (finite y ∨ y = .inf (s != sub) → sum = inf s) ∧ (y = .inf (s == sub) → sum = (nan, flagNv)) ∧
      (isZero y = true → prod = (nan, flagNv)) ∧
      (isNan y = false → isZero y = false → prod = inf (s != isNeg y) ∧
        (finite z ∨ z = .inf (s != isNeg y) → fused = inf (s != isNeg y)) ∧
        (z = .inf (s == isNeg y) → fused = (nan, flagNv)))) ∧
    (∀ s, y = .inf s →
      (finite x → sum = inf (s != sub)) ∧ (isZero x = true → prod = (nan, flagNv)) ∧
      (isNan x = false → isZero x = false → prod = inf (s != isNeg x) ∧
        (finite z ∨ z = .inf (s != isNeg x) → fused = inf (s != isNeg x)) ∧
        (z = .inf (s == isNeg x) → fused = (nan, flagNv)))) ∧
    ((isInf x && isZero y || isZero x && isInf y) = true → fused = (nan, flagNv ||| flagIf (isSignalling z) flagNv))

/-- R199, R201: fmin and fmax take the lesser and the greater operand, -0 below +0, and the operand that is no NaN; the
comparisons order magnitudes by sign, with both zeros equal, and NaN unordered. -/
def Claims.CompareValues : Prop :=
  ∀ (f : FFormat) (fm : Word) (a b : Nat), f ∈ [f32, f16, bf16] → a < 2 ^ f.width → b < 2 ^ f.width →
    let x := flushedIn f fm a
    let y := flushedIn f fm b
    let isNanA := isNan (decodeFlush f fm a)
    let isNanB := isNan (decodeFlush f fm b)
    let nv := flagIf (isSignalling (decodeFlush f fm a) || isSignalling (decodeFlush f fm b)) flagNv
    let below := rank f x < rank f y ∨ (rank f x = rank f y ∧ signField f x = true)
    let gives (max : Bool) (c : Nat) : Prop :=
      fMinMax f fm max a b = ((flushedOut f fm c).1, nv ||| (flushedOut f fm c).2)
    (isNanA = true → isNanB = true → ∀ max, fMinMax f fm max a b = (canonicalNan f, nv)) ∧
    (isNanA = true → isNanB = false → ∀ max, gives max y) ∧ (isNanA = false → isNanB = true → ∀ max, gives max x) ∧
    (isNanA = false → isNanB = false → gives false (if below then x else y) ∧ gives true (if below then y else x)) ∧
    (isNanA = true ∨ isNanB = true →
      (∀ q ∈ [FCond.eq, .ordered], fCompare f fm q a b = (false, nv)) ∧
      (∀ q ∈ [FCond.ne, .unordered], fCompare f fm q a b = (true, nv)) ∧
      (∀ q ∈ [FCond.lt, .le, .gt, .ge], fCompare f fm q a b = (false, flagNv))) ∧
    (isNanA = false → isNanB = false →
      fCompare f fm .eq a b = (decide (rank f x = rank f y), 0) ∧ fCompare f fm .ne a b = (decide (rank f x ≠ rank f y), 0) ∧
      fCompare f fm .lt a b = (decide (rank f x < rank f y), 0) ∧ fCompare f fm .le a b = (decide (rank f x ≤ rank f y), 0) ∧
      fCompare f fm .gt a b = (decide (rank f y < rank f x), 0) ∧ fCompare f fm .ge a b = (decide (rank f y ≤ rank f x), 0) ∧
      fCompare f fm .unordered a b = (false, 0) ∧ fCompare f fm .ordered a b = (true, 0))

/-- R142, R148, R152, R206: a conversion multiplies by the source's scales, divides by the destination's, and rounds each
element once; integers saturate, and infinities and NaN follow the destination's format. -/
def Claims.ConversionValues : Prop :=
  ∀ (dst : Slot) (e : Option Nat) (mode : Nat) (fm : Word) (vs : List FVal), dst.fmt ≠ .o4 → mode < 6 →
    let each (v : FVal) : Nat × Flags := encodeFmt dst.fmt mode fm (divideScale v e dst.ten)
    (cvtEncode dst e mode fm vs).1 = vs.map (fun v => (each v).1) ∧
    (∀ b < 32, (cvtEncode dst e mode fm vs).2.getLsbD b = vs.any fun v => (each v).2.getLsbD b) ∧
    (∀ (s : Bool) (n d : Nat), 0 < d →
      (∀ (x : Nat) (t : Option (Bool × Nat × Nat)), x < 255 → (∀ y ∈ t, 0 < y.2.1 ∧ 0 < y.2.2) →
        let scale := twoTo ((x : Int) - 127) * (match t with
          | none => 1
          | some y => ((sgn y.1 y.2.1 : Int) : Rat) / ((y.2.2 : Nat) : Rat))
        amount (applyScale (.fin s n d) (some x) t) = amount (.fin s n d) * scale ∧
        amount (divideScale (.fin s n d) (some x) t) * scale = amount (.fin s n d)) ∧
      divideScale (.fin s n d) none none = .fin s n d ∧ applyScale (.fin s n d) none none = .fin s n d ∧
      applyScale (.fin s n d) (some 255) none = .nan false ∧
      (∀ f, floatFormat dst.fmt = some f → encodeFmt dst.fmt mode fm (.fin s n d) = roundFloat f mode (flushesOut f fm) s n d) ∧
      (floatFormat dst.fmt = none →
        let y : Rat := ((n : Nat) : Rat) / ((d : Nat) : Rat)
        let lo : Int := [(Fmt.i32, -2147483648), (.i8, -128), (.u8, 0), (.i4, -8)].lookup dst.fmt |>.getD 0
        let hi : Int := [(Fmt.i32, 2147483647), (.i8, 127), (.u8, 255), (.i4, 7)].lookup dst.fmt |>.getD 0
        let code (v : Int) : Nat := (v % 2 ^ fmtWidth dst.fmt).toNat
        ∃ m : Nat, Rounds mode s y m ∧ encodeFmt dst.fmt mode fm (.fin s n d) =
          (if dst.fmt = .u8 ∧ sgn s m < 0 then (0, flagNv)
           else if sgn s m < lo then (code lo, flagOf ||| flagNx)
           else if hi < sgn s m then (code hi, flagOf ||| flagNx)
           else (code (sgn s m), if ((m : Nat) : Rat) = y then 0 else flagNx)) ∧
        encodeFmt dst.fmt mode fm (.inf s) = (code (if s then lo else hi), flagNv) ∧
        ∀ q, encodeFmt dst.fmt mode fm (.nan q) = (0, flagNv)) ∧
      (∀ f, floatFormat dst.fmt = some f →
        encodeFmt dst.fmt mode fm (.inf s) =
          (if f.specials = 1 then (signBit f s + largestCode f + 1, 0) else (signBit f s + largestCode f, flagNv)) ∧
        ∀ q, encodeFmt dst.fmt mode fm (.nan q) = (if f.specials = 0 then (0, flagNv) else (canonicalNan f, 0)))) ∧
    canonicalNan f32 = 0x7fc00000 ∧ canonicalNan f16 = 0x7e00 ∧ canonicalNan bf16 = 0x7fc0 ∧
    floatFormat .e4m3 = some ⟨8, 3, 4, 7, 2, 8⟩ ∧ canonicalNan ⟨8, 3, 4, 7, 2, 8⟩ = 0x7f

/-- R226, R230: atom.fadd adds in FP32 to the nearest, without flushing, and a NaN sum is the canonical NaN. -/
def Claims.AtomicFloatAdd : Prop :=
  ∀ (signed : Bool) (old v cmp : Nat), old < 2 ^ 32 → v < 2 ^ 32 →
    let x := decodeFloat f32 old
    let y := decodeFloat f32 v
    let new := atomNew 9 signed 4 old v cmp
    (isNan x = true ∨ isNan y = true → new = 0x7fc00000) ∧
    (∀ s, x = .inf s → y = .inf (!s) → new = 0x7fc00000) ∧
    (∀ s, x = .inf s → isNan y = false → y ≠ .inf (!s) → new = 0x7f800000 + signBit f32 s) ∧
    (∀ s, y = .inf s → (∃ t n d, x = .fin t n d) → new = 0x7f800000 + signBit f32 s) ∧
    (∀ s t n m d e, x = .fin s n d → y = .fin t m e →
      (amount x + amount y = 0 → new = signBit f32 (s && t)) ∧
      (amount x + amount y ≠ 0 → ∃ (neg : Bool) (n' d' : Nat), 0 < d' ∧ (neg = true ↔ amount x + amount y < 0) ∧
        ((sgn neg n' : Int) : Rat) / ((d' : Nat) : Rat) = amount x + amount y ∧
        new = (roundFloat f32 0 false neg n' d').1))

/-- R203, R204, R206: a conversion between formats or valid slots reads a group of registers, scales, and writes a group;
its fields suit the slots (R204), and the destination's slot has no scale array (that is the scale-computing form). -/
def Claims.ConversionResults : Prop :=
  ∀ (h : Hd) (dst src : FmtSel) (rm : Rm) (rd ra rb rc : Reg) (s : State) (i : Issue) (d e : Slot),
    Issuing s h.guard i → sideOf i.lr dst = some d → sideOf i.lr src = some e → d.ssrc ≠ 1 →
    (e.ssrc = 1 ∨ rb.code = 0) → rc.code = 0 →
    let n := max (perReg e.fmt) (perReg d.fmt)
    groupOk (n / perReg e.fmt) ra = true → groupOk (n / perReg d.fmt) rd = true →
    let read (k : Nat) : List FVal × Flags :=
      cvtRead e (fld (readReg s.free i.st k rb).toNat 0 8) i.st.fmode (readGroup s.free i.st k ra (n / perReg e.fmt)) n
    let made (k : Nat) : List Nat × Flags :=
      cvtEncode d (if d.ssrc = 2 then some d.cscale else none) (modeOf rm i.st.fmode) i.st.fmode (read k).1
    ∃ t st, exec (.cvt h dst src rm rd ra rb rc) s = .next t ∧ Moved s t i.st st (past i) ∧
      WrittenGroup h i st rd (if rd = .zero then [] else (List.range (n / perReg d.fmt)).map (regAfter rd))
        (fun k j => (packCodes d.fmt (made k).1).getD j 0) ∧
      st.fstat = (takers i rd).foldl (fun f k => f ||| ((read k).2 ||| (made k).2)) i.st.fstat

/-- R205: a scale-computing conversion, of a strand whose threads are all active, gives each block of 32 elements the
scale code that R143 chooses for it, converts under that code, and writes the code to rc. -/
def Claims.ScaleComputingResults : Prop :=
  ∀ (h : Hd) (slot : Fin 8) (src : FmtSel) (rm : Rm) (rd ra rb rc : Reg) (s : State) (i : Issue) (d e : Slot),
    Issuing s h.guard i → slotOf i.lr slot = some d → sideOf i.lr src = some e → d.ssrc = 1 →
    (e.ssrc = 1 ∨ rb.code = 0) → rd.isThread = true → rc.isThread = true →
    let n := max (perReg e.fmt) (perReg d.fmt)
    groupOk (n / perReg e.fmt) ra = true → groupOk (n / perReg d.fmt) rd = true →
    i.active = List.range i.st.width → 0 < i.st.width →
    let read (k : Nat) : List FVal × Flags :=
      cvtRead e (fld (readReg s.free i.st k rb).toNat 0 8) i.st.fmode (readGroup s.free i.st k ra (n / perReg e.fmt)) n
    let code (k : Nat) : Nat :=
      blockScale d.fmt ((List.range (32 / n)).flatMap fun j => (read (k / (32 / n) * (32 / n) + j)).1)
    let made (k : Nat) : List Nat × Flags :=
      cvtEncode d (some (code k)) (modeOf rm i.st.fmode) i.st.fmode (read k).1
    let group := (List.range (n / perReg d.fmt)).map (regAfter rd)
    rc ∉ group →
    ∃ t st, exec (.cvtScaleComputing h slot src rm rd ra rb rc) s = .next t ∧ Moved s t i.st st (past i) ∧
      WrittenGroup h i st rd (group ++ [rc])
        (fun k j => if j < n / perReg d.fmt then (packCodes d.fmt (made k).1).getD j 0 else BitVec.ofNat 32 (code k)) ∧
      st.fstat = i.active.foldl (fun f k => f ||| ((read k).2 ||| (made k).2)) i.st.fstat

/-- R122, R207 to R210: pack and unpack, of halves and of 6-bit elements across a quad of threads; an exited thread's
element is undefined: a free value. -/
def Claims.PackResults : Prop :=
  ∀ (h : Hd) (var : PackVar) (uvar : UnpackVar) (rm : Rm) (rd ra rb : Reg),
    (GivesFloat (.pack h var rm rd ra rb) h rd false
      (fun s i k => let a := readReg s.free i.st k ra
        let b := readReg s.free i.st k rb
        let m := modeOf rm i.st.fmode
        ((match var with
        | .f16 => BitVec.ofNat 32 ((cvtOne .fp16 .fp32 m i.st.fmode a.toNat).1
            + 65536 * (cvtOne .fp16 .fp32 m i.st.fmode b.toNat).1)
        | .bf16 => BitVec.ofNat 32 ((cvtOne .bf16 .fp32 m i.st.fmode a.toNat).1
            + 65536 * (cvtOne .bf16 .fp32 m i.st.fmode b.toNat).1)
        | .b16 => (b.setWidth 16 ++ a.setWidth 16 : BitVec 32)) : Word).setWidth 64)
      (fun s i k => let a := (readReg s.free i.st k ra).toNat
        let b := (readReg s.free i.st k rb).toNat
        let m := modeOf rm i.st.fmode
        match var with
        | .f16 => (cvtOne .fp16 .fp32 m i.st.fmode a).2 ||| (cvtOne .fp16 .fp32 m i.st.fmode b).2
        | .bf16 => (cvtOne .bf16 .fp32 m i.st.fmode a).2 ||| (cvtOne .bf16 .fp32 m i.st.fmode b).2
        | .b16 => 0)) ∧
    ((Instr.unpack h uvar rd ra).WellFormed → GivesFloat (.unpack h uvar rd ra) h rd true
      (fun s i k => let half (lo : Nat) : Word :=
          let c := fld (readReg s.free i.st k ra).toNat lo 16
          match uvar with
          | .f16 => BitVec.ofNat 32 (cvtOne .fp32 .fp16 0 i.st.fmode c).1
          | .bf16 => BitVec.ofNat 32 (cvtOne .fp32 .bf16 0 i.st.fmode c).1
          | .u16 => BitVec.ofNat 32 c
          | .i16 => BitVec.ofInt 32 (if c < 2 ^ 15 then c else (c : Int) - 2 ^ 16)
        mk64 (half 0) (half 16))
      (fun s i k => let half (lo : Nat) : Flags :=
          let c := fld (readReg s.free i.st k ra).toNat lo 16
          match uvar with
          | .f16 => (cvtOne .fp32 .fp16 0 i.st.fmode c).2
          | .bf16 => (cvtOne .fp32 .bf16 0 i.st.fmode c).2
          | _ => 0
        half 0 ||| half 16)) ∧
    (GivesResult (.pack6 h rd ra) h rd false fun s i k => ofBits fun j =>
      let u := k / 4 * 4 + j / 6
      decide (j < 24) && (if (getThread i.st u).exited then Config.freeWord s.free 5 u
        else readReg s.free i.st u ra).getLsbD (j % 6)) ∧
    GivesResult (.unpack6 h rd ra) h rd false fun s i k => ofBits fun j =>
      decide (j < 6) && (readReg s.free i.st k ra).getLsbD (6 * (k % 4) + j)

/-- R211 to R213: the special functions write the code and raise the flags of their function. -/
def Claims.SpecialFunctionResults : Prop :=
  ∀ (h : Hd) (rm : Rm) (rd ra : Reg),
    let of (f : Word → Word → Nat × Flags) (ins : Instr) : Prop :=
      GivesFloat ins h rd false (fun s i k => BitVec.ofNat 64 (f i.st.fmode (readReg s.free i.st k ra)).1)
        (fun s i k => (f i.st.fmode (readReg s.free i.st k ra)).2)
    of (sinCosCode false) (.sinr h rd ra) ∧ of (sinCosCode true) (.cosr h rd ra) ∧ of exp2Code (.exp2 h rd ra) ∧
    of log2Code (.log2 h rd ra) ∧ of rcpCode (.rcp h rd ra) ∧ of rsqrtCode (.rsqrt h rd ra) ∧
    of (fun fm => sqrtCode (modeOf rm fm) fm) (.sqrt h rm rd ra)

/-- R213: the special functions at zeros, infinities and NaN, at finite operands below zero, in the exact cases and where
they overflow. -/
def Claims.SpecialFunctionTable : Prop :=
  ∀ (fm : Word) (mode : Nat),
    (∀ neg : Bool,
      let zero : Word := if neg then 0x80000000 else 0
      sinCosCode false fm zero = (zero.toNat, 0) ∧ sinCosCode true fm zero = (0x3f800000, 0) ∧
      exp2Code fm zero = (0x3f800000, 0) ∧ log2Code fm zero = (0xff800000, flagDz) ∧
      rcpCode fm zero = (f32Inf neg, flagDz) ∧ rsqrtCode fm zero = (f32Inf neg, flagDz) ∧
      sqrtCode mode fm zero = (zero.toNat, 0)) ∧
    (∀ a ∈ [0x7f800000, 0xff800000], ∀ cosine, sinCosCode cosine fm a = (0x7fc00000, flagNv)) ∧
    exp2Code fm 0x7f800000 = (0x7f800000, 0) ∧ exp2Code fm 0xff800000 = (0, 0) ∧
    log2Code fm 0x7f800000 = (0x7f800000, 0) ∧ log2Code fm 0xff800000 = (0x7fc00000, flagNv) ∧
    rcpCode fm 0x7f800000 = (0, 0) ∧ rcpCode fm 0xff800000 = (0x80000000, 0) ∧
    rsqrtCode fm 0x7f800000 = (0, 0) ∧ rsqrtCode fm 0xff800000 = (0x7fc00000, flagNv) ∧
    sqrtCode mode fm 0x7f800000 = (0x7f800000, 0) ∧ sqrtCode mode fm 0xff800000 = (0x7fc00000, flagNv) ∧
    (∀ f ∈ [sinCosCode false, sinCosCode true, exp2Code, log2Code, rcpCode, rsqrtCode, sqrtCode mode],
      ∀ (a : Word) (q : Bool), decodeFlush f32 fm a.toNat = .nan q → f fm a = (0x7fc00000, flagIf q flagNv)) ∧
    (∀ (a : Word) (n d : Nat), decodeFlush f32 fm a.toNat = .fin true n d → n ≠ 0 →
      ∀ f ∈ [log2Code, rsqrtCode, sqrtCode mode], f fm a = (0x7fc00000, flagNv)) ∧
    (∀ (a : Word) (neg : Bool) (n d : Nat) (k : Int), decodeFlush f32 fm a.toNat = .fin neg n d →
      let x := amount (.fin neg n d)
      (x = (k : Int) → -149 ≤ k → k ≤ 127 → ∃ c, c ≤ 0x7f7fffff ∧ magnitude f32 c = twoTo k ∧ exp2Code fm a = flushedOut f32 fm c) ∧
      (128 ≤ x → exp2Code fm a = (0x7f800000, flagOf ||| flagNx)) ∧
      (x = twoTo k → ∃ c, c % 2 ^ 31 ≤ 0x7f7fffff ∧ signField f32 c = decide (k < 0) ∧ magnitude f32 c = ((k.natAbs : Nat) : Rat) ∧
        log2Code fm a = (c, 0)) ∧
      (∀ m, n ≠ 0 → magnitude f32 a.toNat = m → (isSubnormal f32 a.toNat && flushesIn f32 fm) = false →
        (m ≤ twoTo (-128) → rcpCode fm a = (f32Inf neg, flagOf ||| flagNx)) ∧
        (m = twoTo k → -126 ≤ k → k ≤ 126 → ∃ c, c ≤ 0x7f7fffff ∧ magnitude f32 c = twoTo (-k) ∧
          rcpCode fm a = (signBit f32 neg + c, 0)) ∧
        (neg = false → m = twoTo (2 * k) → -63 ≤ k → k ≤ 63 → ∃ c, c ≤ 0x7f7fffff ∧ magnitude f32 c = twoTo (-k) ∧
          rsqrtCode fm a = (c, 0))))

/-- R211, R212: rcp and rsqrt lie within one unit of the exact value and sqrt is rounded from it under each mode; sinr of
a small operand is the operand and cosr is 1.0; the others lie within the bound of the value evaluated in fixed point
(log 5: what the bits are within the bound is a free value). Every result but the exact ones sets nx. -/
def Claims.SpecialBounds : Prop :=
  ∀ (fm a : Word) (neg : Bool) (n d : Nat), decodeFlush f32 fm a.toNat = .fin neg n d → n ≠ 0 →
    let x : Rat := ((n : Nat) : Rat) / ((d : Nat) : Rat)
    -- a result that counts as inexact, after the flush
    let inexact (c : Nat) : Nat × Flags :=
      if isSubnormal f32 c then (if flushesOut f32 fm then signBit f32 (signField f32 c) else c, flagUf ||| flagNx)
      else (c, flagNx)
    let unit (e : Int) : Rat := twoTo (max e (-126) - 23)
    let near (k : Nat) (y r : Rat) : Prop := ∃ e, twoTo e ≤ max y (-y) ∧ max y (-y) < twoTo (e + 1) ∧
      r - y ≤ ((k : Nat) : Rat) * unit e ∧ y - r ≤ ((k : Nat) : Rat) * unit e
    let value (c : Nat) : Rat := amount (decodeFloat f32 c)
    let signed : Rat := if neg then -x else x
    (twoTo (-128) < x → (∀ k : Int, -126 ≤ k → k ≤ 126 → x ≠ twoTo k) →
      ∃ c, c % 2 ^ 31 ≤ 0x7f7fffff ∧ near 1 (1 / signed) (value c) ∧ rcpCode fm a = inexact c) ∧
    (neg = false → (∀ k : Int, -63 ≤ k → k ≤ 63 → x ≠ twoTo (2 * k)) →
      ∃ (c : Nat) (e : Int), c ≤ 0x7f7fffff ∧ twoTo (2 * e) * x ≤ 1 ∧ 1 < twoTo (2 * e + 2) * x ∧
        (value c - unit e) * (value c - unit e) * x ≤ 1 ∧ 1 ≤ (value c + unit e) * (value c + unit e) * x ∧
        rsqrtCode fm a = (c, flagNx)) ∧
    (neg = false → ∀ mode < 6, ∃ (m : Nat) (e : Int),
      let r : Rat := ((m : Nat) : Rat)
      -- x in square units
      let q := x / (unit e * unit e)
      twoTo (2 * e) ≤ x ∧ x < twoTo (2 * e + 2) ∧
      (r * r = q ∨ (r - 1) * (r - 1) < q ∧ q < (r + 1) * (r + 1) ∧
        (mode = 0 ∨ mode = 4 → (2 * r - 1) * (2 * r - 1) < 4 * q ∧ 4 * q < (2 * r + 1) * (2 * r + 1)) ∧
        (mode = 1 ∨ mode = 3 → r * r < q) ∧ (mode = 2 → q < r * r) ∧ (mode = 5 → m % 2 = 1)) ∧
      ∃ c, c ≤ 0x7f7fffff ∧ value c = r * unit e ∧ sqrtCode mode fm a = (c, if r * r = q then 0 else flagNx)) ∧
    (x < twoTo (-12) → sinCosCode false fm a = inexact a.toNat ∧ sinCosCode true fm a = (0x3f800000, flagNx)) ∧
    (∀ (cosine : Bool) (y : Rat), y = ((sinCos cosine neg n d : Int) : Rat) / ((fixOne : Nat) : Rat) →
      twoTo (-12) ≤ x → twoTo (-149) ≤ max y (-y) → max y (-y) ≤ 1 →
      ∃ c, sinCosCode cosine fm a = inexact c ∧ -1 ≤ value c ∧ value c ≤ 1 ∧
        (x ≤ twoTo 18 → near 2 y (value c)) ∧ (x ≤ twoTo 24 → near 4 y (value c)) ∧
        (twoTo 24 < x → (value c < 0 ↔ y < 0) ∧ value c ≠ 0)) ∧
    (∀ y : Rat, y = (((exp2Fix neg n d).1 : Nat) : Rat) * twoTo (exp2Fix neg n d).2 / ((fixOne : Nat) : Rat) →
      0 < y → y ≤ magnitude f32 0x7f7fffff → signed < 128 → (∀ k : Int, -149 ≤ k → signed ≠ (k : Int)) →
      ∃ c, c ≤ 0x7f7fffff ∧ near 1 y (value c) ∧ exp2Code fm a = inexact c) ∧
    (∀ y : Rat, y = ((log2Fix n d : Int) : Rat) / ((fixOne : Nat) : Rat) →
      neg = false → y ≠ 0 → max y (-y) ≤ 150 → (∀ k : Int, x ≠ twoTo k) →
      ∃ c, c % 2 ^ 31 ≤ 0x7f7fffff ∧ near 1 y (value c) ∧ log2Code fm a = inexact c)

/-! ### Memory -/

/-- R125, R215, R216, R218, R222: loads and stores send the requests of their threads. -/
def Claims.LoadStoreRequests : Prop :=
  ∀ (h : Hd) (na : Bool) (ord : POrd) (size : Size) (rd ra rb : Reg) (off : BitVec 16),
    let q (space : MSpace) (kind : Nat) : MemReq :=
      { space := space, bytes := sizeBytes size, kind := kind, rd := rd, ra := ra, rb := rb, off := off }
    let scope : Scope := match ord with
      | .relaxed => .thread
      | .ordered sc => sc
    ((Instr.ld h na ord size rd ra rb off).WellFormed → SendsRequests (.ld h na ord size rd ra rb off) h
      { q .global 0 with
        signed := size == .i8 || size == .i16, na := na, order := if ord = .relaxed then .relaxed else .acquire
        scope := scope }) ∧
    ((Instr.lds h ord size rd ra rb off).WellFormed → SendsRequests (.lds h ord size rd ra rb off) h
      { q .scratch 0 with
        signed := size == .i8 || size == .i16, order := if ord = .relaxed then .relaxed else .acquire
        scope := scope }) ∧
    ((Instr.st h na ord size rd ra rb off).WellFormed → SendsRequests (.st h na ord size rd ra rb off) h
      { q .global 1 with na := na, order := if ord = .relaxed then .relaxed else .release, scope := scope }) ∧
    ((Instr.sts h ord size rd ra rb off).WellFormed → SendsRequests (.sts h ord size rd ra rb off) h
      { q .scratch 1 with order := if ord = .relaxed then .relaxed else .release, scope := scope }) ∧
    ((Instr.ldw h size rd ra rb off).WellFormed → SendsRequests (.ldw h size rd ra rb off) h
      { q .weight 0 with signed := size == .i8 || size == .i16 })

/-- R125, R218, R225 to R229: atomics send the requests of their threads; one that returns nothing counts as a store. -/
def Claims.AtomicRequests : Prop :=
  ∀ (h : Hd) (signed nr : Bool) (o : Order) (sc : Scope) (sp : Space) (wide : Bool) (rd ra rb : Reg) (off : BitVec 16),
    let q (op : Nat) (signed wide : Bool) : MemReq :=
      { space := if sp = .global then .global else .scratch, bytes := if wide then 8 else 4, kind := 2, atomOp := op
        atomSigned := signed, noResult := nr, rd := rd, ra := ra, rb := rb, off := off, order := o, scope := sc }
    let sends (ins : Instr) (q : MemReq) : Prop := ins.WellFormed → SendsRequests ins h q
    sends (.atomAdd h nr o sc sp wide rd ra rb off) (q 0 false wide) ∧
    sends (.atomMin h signed nr o sc sp wide rd ra rb off) (q 1 signed wide) ∧
    sends (.atomMax h signed nr o sc sp wide rd ra rb off) (q 2 signed wide) ∧
    sends (.atomAnd h nr o sc sp wide rd ra rb off) (q 3 false wide) ∧
    sends (.atomOr h nr o sc sp wide rd ra rb off) (q 4 false wide) ∧
    sends (.atomXor h nr o sc sp wide rd ra rb off) (q 5 false wide) ∧
    sends (.atomXchg h nr o sc sp wide rd ra rb off) (q 6 false wide) ∧
    sends (.atomCas h nr o sc sp wide rd ra rb off) (q 7 false wide) ∧
    sends (.atomInc h nr o sc sp wide rd ra rb off) (q 8 false wide) ∧
    sends (.atomFadd h nr o sc sp rd ra rb off) (q 9 false false)

/-- R223: a prefetch always completes, and changes nothing but memory's caches, its translations and what these write
back; where its address has no translation at hand it changes nothing at all. -/
def Claims.PrefetchResults : Prop :=
  ∀ (h : Hd) (l2 : Bool) (ra rb : Reg) (off : BitVec 16) (s : State) (i : Issue), Issuing s h.guard i →
    let at_ (k : Nat) : Nat := (readPair s.free i.st k ra + (readReg s.free i.st k rb).setWidth 64 + off.signExtend 64).toNat
    ∃ s1 t st, exec (.pref h l2 ra rb off) s = .next t ∧ Moved s1 t i.st st (past i) ∧ SameButMemory s1 s ∧
      RegsKept h i st ∧ st.fstat = i.st.fstat ∧
      ((∀ k ∈ i.active, translate s i.st.core i.st.limb i.st.world (at_ k) needRead = (.miss, s)) → s1 = s)

/-- R216, R218, R219, R226, R227: a request that may be performed is performed at its place: a load's value and an
atomic's old value reach the destination, extended as the instruction says, and no other register; a store and an atomic
write their bytes and no others; the request is off the list and its instruction counts it. The place is scratch of the
world (R83), or memory that the world may reach (R35, R387), without caching, where no copy is held (R48); the order is relaxed. -/
def Claims.AccessPerformed : Prop :=
  ∀ (id : Nat) (s : State) (a : Access) (st : Strand), s.pend.find? (·.id == id) = some a →
    mayPerform s a s.pend = true → requestHeld s a = false → a.order = .relaxed → getStrand s a.strand = some st →
    s.poison = [] → (∀ b c, a.op ≠ .texel b c) → (∀ v, a.op = .store v → v.length = a.len) → a.dest.Nodup →
    let written (old : List Byte) : List Byte := match a.op with
      | .store v => v
      | .atom op sg v cmp => leList a.len (atomNew op sg a.len (leVal old) v cmp)
      | _ => old
    let word (old : List Byte) (n : Nat) : Word :=
      if n = 0 then
        (if a.len ≤ 2 ∧ a.signed = true ∧ 2 ^ (8 * a.len - 1) ≤ leVal old then
          BitVec.ofInt 32 ((leVal old : Int) - 2 ^ (8 * a.len))
        else BitVec.ofNat 32 (leVal old))
      else BitVec.ofNat 32 (leVal old / 2 ^ 32)
    let delivered (old : List Byte) (st' : Strand) : Prop :=
      (∀ n key, a.dest[n]? = some key → n < (a.len + 3) / 4 → (∀ v, a.op ≠ .store v) →
        valueAt st' key = some (word old n)) ∧
      (∀ key, (key ∉ a.dest ∨ ∃ v, a.op = .store v) → valueAt st' key = valueAt st key) ∧
      st'.outs = (countPerformed st a.tag).outs ∧ st'.threads = st.threads ∧ st'.fstat = st.fstat ∧
      { apartFromWork st' with poisoned := st.poisoned } = apartFromWork st
    (∀ off, a.place = .scratch off → scratchOwned s a.core a.world off = true → a.len ∈ [1, 2, 4, 8] →
      let old := memRead (scratchMem s a.core) off a.len
      ∃ t st', exec (.memoryAccessComplete id) s = .next t ∧ getStrand t a.strand = some st' ∧ delivered old st' ∧
        (∀ x, memGet (scratchMem t a.core) x =
          if off ≤ x ∧ x < off + a.len then (written old).getD (x - off) 0 else memGet (scratchMem s a.core) x) ∧
        (∀ c, c ≠ a.core → scratchMem t c = scratchMem s c) ∧ (∀ x, x ≠ a.strand → getStrand t x = getStrand s x) ∧
        { t with strands := s.strands, scratch := s.scratch, pend := s.pend, budgets := s.budgets, moved := s.moved } = s ∧
        t.pend = s.pend.filter (·.id != a.id)) ∧
    (∀ pa, a.place = .global pa 1 → a.len ∈ [1, 2, 4, 8] → pa % 128 + a.len ≤ 128 →
      getLine s.dcache a.core (pa / 128) = none → getLine s.slices (a.core / 8) (pa / 128) = none →
      tagOk s a.world pa = true → tagOk s a.world (pa / 128 * 128) = true →
      (a.world = 0 ∨ (getWorld s a.world).tstate = .run) →
      (∀ j, j < 128 → encrypted s (pa / 128 * 128 + j) = false) →
      let old := memRead s.mem pa a.len
      ∃ t st', exec (.memoryAccessComplete id) s = .next t ∧ getStrand t a.strand = some st' ∧ delivered old st' ∧
        (∀ x, memGet t.mem x = if pa ≤ x ∧ x < pa + a.len then (written old).getD (x - pa) 0 else memGet s.mem x) ∧
        (∀ x, x ≠ a.strand → getStrand t x = getStrand s x) ∧
        { t with strands := s.strands, mem := s.mem, pend := s.pend, budgets := s.budgets, moved := s.moved } = s ∧
        t.pend = s.pend.filter (·.id != a.id))

/-- R46, R47, R48: a core that writes a cached line it does not hold writes its cache and not memory, and reads back what
it wrote. Its set has room (R46). -/
def Claims.WriteBackCache : Prop :=
  ∀ (s : State) (core w pa : Nat) (bs : List Byte), 0 < bs.length → pa % 128 + bs.length ≤ 128 →
    getLine s.dcache core (pa / 128) = none →
    (s.dcache.filter fun l => l.place == core && l.line % 128 == pa / 128 % 128).length < 16 →
    (globalWrite s core w .cached pa bs false).mem = s.mem ∧
    (globalRead (globalWrite s core w .cached pa bs false) core w .cached pa bs.length).1 = bs

/-- R226, R230: what an atomic writes: sums modulo the width, the smaller and the larger by sign, bitwise combinations,
exchange, compare and swap, and an increment that wraps to 0 at its bound. -/
def Claims.AtomicTable : Prop :=
  ∀ (bytes : Nat) (signed : Bool) (old v cmp : Nat), bytes ∈ [4, 8] → old < 2 ^ (8 * bytes) → v < 2 ^ (8 * bytes) →
    let order (x : Nat) : Int := if signed then (BitVec.ofNat (8 * bytes) x).toInt else x
    atomNew 0 signed bytes old v cmp = (old + v) % 2 ^ (8 * bytes) ∧
    order (atomNew 1 signed bytes old v cmp) = min (order old) (order v) ∧
    order (atomNew 2 signed bytes old v cmp) = max (order old) (order v) ∧
    atomNew 3 signed bytes old v cmp = old &&& v ∧ atomNew 4 signed bytes old v cmp = old ||| v ∧
    atomNew 5 signed bytes old v cmp = old ^^^ v ∧ atomNew 6 signed bytes old v cmp = v ∧
    (old = cmp → atomNew 7 signed bytes old v cmp = v) ∧ (old ≠ cmp → atomNew 7 signed bytes old v cmp = old) ∧
    (v ≤ old → atomNew 8 signed bytes old v cmp = 0) ∧ (old < v → atomNew 8 signed bytes old v cmp = old + 1)

/-! ### Synchronisation -/

/-- R52, R231: a fence of a strand whose load and store counters are 0 completes; a release at copse scope or wider leaves
the core no dirty line, an acquire leaves its lines valid only where they are dirty, and no fence of narrower scope does
anything but move its threads on. -/
def Claims.FenceResults : Prop :=
  ∀ (h : Hd) (o : FOrd) (sc : Scope) (s : State) (i : Issue), Issuing s h.guard i → i.st.outs = [] →
    ∃ s1 t st, exec (.fence h o sc) s = .next t ∧ Moved s1 t i.st st (past i) ∧ RegsKept h i st ∧ st.fstat = i.st.fstat ∧
      { s1 with mem := s.mem, lineKeys := s.lineKeys, poison := s.poison, dcache := s.dcache, slices := s.slices
                acquire := s.acquire, moved := s.moved, due := s.due } = s ∧
      (scopeWide sc = false → { s1 with moved := s.moved } = s) ∧
      (i.active ≠ [] → scopeWide sc = true → o ≠ .acquire → ∀ l ∈ t.dcache, l.place = i.st.core → l.dirty = 0) ∧
      (i.active ≠ [] → scopeWide sc = true → o ≠ .release → ∀ l ∈ t.dcache, l.place = i.st.core → l.valid = l.dirty) ∧
      (i.active ≠ [] → scopeStand sc = true → o ≠ .release →
        mapGetD t.acquire i.st.core 0 = s.time / 1024 % 2 ^ 34 + 1)

/-- R232 to R234: at a bar, reached by every thread of its strand that has not exited, the strand begins to wait with each
thread's payload read, and its threads stay. -/
def Claims.BarrierBegins : Prop :=
  ∀ (h : Hd) (level : BarLevel) (red : BarRed) (rd ra : Reg) (s : State) (i : Issue), Issuing s h.guard i →
    i.active.length = (i.st.threads.filter fun th => !th.exited).length → i.active ≠ [] →
    let w : BarWait :=
      { level := level, red := red, rd := rd, pc := i.pc, arrived := false, fmode := i.st.fmode
        payload := if red = .none then [] else i.active.map fun k => (k, readReg s.free i.st k ra) }
    ∃ t st, exec (.bar h level red rd ra) s = .next t ∧
      Moved s t { i.st with status := .waitBar w } st (getThread i.st) ∧
      (∀ key, valueAt st key = valueAt i.st key) ∧ st.fstat = i.st.fstat

/-- R233 to R235: a strand whose load and store counters are 0 arrives at its barrier, after the release of its scope. With
it, every strand of the generation having arrived, all of them leave: each is ready, past the bar, and has the reduction
of all payloads in linear order of grove, sidx and thread, and its flags. That each computes it under the fmode of its own
issue is the model's reading of R235 (log 33). -/
def Claims.BarrierArrives : Prop :=
  ∀ (home : Nat) (s : State) (st : Strand) (b : BarWait) (g : Grove), getStrand s home = some st →
    st.status = .waitBar b → b.arrived = false → st.outs = [] → getGrove s st.grove = some g →
    let s1 := setStrand (chargeBytes (releaseActs s st.core (barScope b.level)) st.world st.owner) { st with status := .waitBar { b with arrived := true } }
    let members := barMembers s1 b.level g
    ((∃ m ∈ members, arrivedAt b.level m = none) → exec (.barrierArrival home) s = .next s1) ∧
    (members ≠ [] → (∀ m ∈ members, arrivedAt b.level m ≠ none ∧ m.stepm = 0) →
      ∃ t, exec (.barrierArrival home) s = .next t ∧
        ∀ m ∈ members, ∃ m' ∈ members, ∃ b' st', m'.home = m.home ∧ m'.status = .waitBar b' ∧
          getStrand t m.home = some st' ∧ st'.status = .ready ∧
          (∀ k, k < m'.threads.length → (getThread m' k).exited = false → (getThread m' k).pc = b'.pc →
            held (strandRecord s m').code m' k = false → (getThread st' k).pc = b'.pc + 8) ∧
          (∀ k key, k < m'.threads.length → (getThread m' k).exited = false → regKey m' k b'.rd = some key →
            b'.red ≠ .none → (m'.rbWait = false ∨ ∀ n, key ≠ .q n) →
            valueAt st' key = some (barValue s.free (members.filterMap (arrivedAt b.level)) b'.fmode).1) ∧
          st'.fstat = if b'.red = .none then m'.fstat
            else m'.fstat ||| (barValue s.free (members.filterMap (arrivedAt b.level)) b'.fmode).2)

/-- R236, R238: a waitn on a register of its world whose condition holds completes at its issue: the lead thread's rd takes
the register's value, waitn.take subtracts the threshold, and the acquire at system scope follows. Where the condition
does not hold the strand begins to wait, with its time limit. -/
def Claims.WaitnResults : Prop :=
  ∀ (h : Hd) (take : Bool) (rd ra rb rc : Reg) (s : State) (i : Issue) (lead : Nat) (rest : List Nat),
    Issuing s h.guard i → i.active = lead :: rest → acquirePending s i.st = false → owesRelease s i.st = false →
    let ins : Instr := if take then .waitnTake h rd ra rb rc else .waitn h rd ra rb rc
    let k := (readReg s.free i.st lead ra).toNat
    let limit := readReg s.free i.st lead rb
    let x := mapGetD s.notify k 0
    k ≤ 4095 → (mapGet s.ntable k).map (·.world) = some i.st.world →
    (limit.toNat ≤ x.toNat →
      ∃ t st, exec ins s = .next t ∧
        Moved (acquireActs { s with notify := if take then mapSet s.notify k (x - limit) else s.notify } i.st.core .system)
          t i.st st (past i) ∧
        Written h { i with active := [lead] } i.st st rd false (fun _ => x.setWidth 64) ∧ st.fstat = i.st.fstat) ∧
    let w : NotifyWait :=
      { index := k, threshold := limit.toNat, take := take, rd := rd, lead := lead, arrival := s.nextId
        until_ := if (readReg s.free i.st lead rc).toNat = 0 then none
          else some (s.time + (readReg s.free i.st lead rc).toNat) }
    (x.toNat < limit.toNat →
      ∃ t st, exec ins s = .next t ∧
        Moved { s with nextId := s.nextId + 1 } t { i.st with status := .waitNotify w } st (getThread i.st) ∧
        (∀ key, valueAt st key = valueAt i.st key) ∧ st.fstat = i.st.fstat)

/-- R236, R247: at the end of the tick in which the time of a waitn has passed it completes with the register's value in
rd; where its condition holds in that tick the condition wins: it completes as served, with its take and its acquire. -/
def Claims.WaitnTimeoutResults : Prop :=
  ∀ (home : Nat) (s : State) (st : Strand) (n : NotifyWait) (d : Nat), getStrand s home = some st →
    st.status = .waitNotify n → n.until_ = some d → d ≤ s.time → s.closing = true → st.stepm = 0 → st.rbWait = false →
    let x := mapGetD s.notify n.index 0
    let s1 := if x.toNat < n.threshold then s
      else acquireActs { s with notify := if n.take then mapSet s.notify n.index (x - BitVec.ofNat 32 n.threshold)
        else s.notify } st.core .system
    ∃ t st', exec (.waitnTimeout home) s = .next t ∧ getStrand t home = some st' ∧ st'.status = .ready ∧
      (∀ key, regKey st n.lead n.rd = some key → valueAt st' key = some x) ∧
      (∀ key, regKey st n.lead n.rd ≠ some key → valueAt st' key = valueAt st key) ∧
      (∀ k, k < st.threads.length → getThread st' k = { getThread st k with
        pc := if (getThread st k).exited = false ∧ (getThread st k).pc = (getThread st n.lead).pc ∧
            held (strandRecord s st).code st k = false then (getThread st k).pc + 8 else (getThread st k).pc }) ∧
      { t with strands := s.strands } = s1 ∧ ∀ x, x ≠ home → getStrand t x = getStrand s x

/-- R237, R238, R314: ntfy, with its counters at 0 and a register of its world, releases at system scope and adds its
operand to the register. Here no strand waits on the register and its entry arms no node. -/
def Claims.NotifyResults : Prop :=
  ∀ (h : Hd) (ra rb : Reg) (s : State) (i : Issue) (lead : Nat) (rest : List Nat), Issuing s h.guard i →
    i.active = lead :: rest → i.st.outs = [] →
    let k := (readReg s.free i.st lead ra).toNat
    k ≤ 4095 → (∃ e, mapGet s.ntable k = some e ∧ e.world = i.st.world ∧ e.arm = false) →
    (∀ w ∈ s.strands, ∀ n, w.status = .waitNotify n → n.index ≠ k) →
    let s1 := chargeBytes (releaseActs s i.st.core .system) i.st.world i.st.owner
    ∃ t st, exec (.ntfy h ra rb) s = .next t ∧
      Moved { s1 with notify := mapSet s.notify k (mapGetD s.notify k 0 + readReg s.free i.st lead rb) } t i.st st (past i) ∧
      RegsKept h i st ∧ st.fstat = i.st.fstat

/-! ### Segments and the copy engine -/

/-- R98, R100, R240, R241: an attach that meets no fault and need not wait completes, with the predicate in every thread at
the PC; a failed one changes nothing; a successful one leaves the segment among those of the grove. -/
def Claims.AttachResults : Prop :=
  ∀ (h : Hd) (mode : AttachMode) (pd : Fin 16) (ra : Reg) (s s1 : State) (i : Issue) (lead : Nat) (rest : List Nat)
    (g : Grove) (x : Segment) (ok : Bool), Issuing s h.guard i → i.active = lead :: rest →
    getGrove s i.st.grove = some g → findSegment s i.st.world (readPair s.free i.st lead ra) = some x →
    attachFault s g (some x) mode = none → attachActs s g x mode (i.st.evictionOf == some x.uid) = .done s1 ok →
    ∃ (t : State) (st : Strand) (p : Nat → BitVec 16), exec (.attach h mode pd ra) s = .next t ∧
      Moved s1 t { i.st with evictionOf := none } st (fun k => { past i k with preds := p k }) ∧
      (∀ k, k < i.st.threads.length → ∀ r : Fin 16, (p k).getLsbD r =
        if k ∈ i.present ∧ r = pd then ok else getPred i.st k r) ∧
      RegsKept h i st ∧ st.fstat = i.st.fstat ∧ (ok = false → s1 = s) ∧
      (ok = true → ∃ g', getGrove s1 i.st.grove = some g' ∧ g'.attached.any (·.uid == x.uid) = true)

/-- R91, R101, R102, R242: a detach of a segment that the grove holds, with nothing under way in its window, completes: the
grove no longer holds it and its count of attaches falls, its storage going with the last where it is freed, damaged or of
kernel lifetime. -/
def Claims.DetachResults : Prop :=
  ∀ (h : Hd) (ra : Reg) (s : State) (i : Issue) (lead : Nat) (rest : List Nat) (g : Grove) (x : Segment),
    Issuing s h.guard i → i.active = lead :: rest → getGrove s i.st.grove = some g →
    heldSegment s g (readPair s.free i.st lead ra) = some x → (i.st.outs.filter (·.cls == 1)) = [] →
    (∀ c ∈ s.chains, chainTouches g x c = false) → (∀ a ∈ s.pend, accessIn s g x.pbase (x.size * 1024) a = false) →
    let left := g.attached.filter (·.uid != x.uid)
    ∃ s1 t st, exec (.detach h ra) s = .next t ∧ Moved s1 t i.st st (past i) ∧ RegsKept h i st ∧ st.fstat = i.st.fstat ∧
      getGrove s1 i.st.grove = some { g with attached := left } ∧
      (1 < x.attaches → getSegment s1 x.uid = some { x with attaches := x.attaches - 1 }) ∧
      (x.attaches = 1 → x.freed = true → getSegment s1 x.uid = none) ∧
      (x.attaches = 1 → x.freed = false → ∃ y, getSegment s1 x.uid = some y ∧ y.attaches = 0 ∧
        y.dtime = s.time % 2 ^ 64 ∧ (x.state = .damaged ∨ x.life = .kernel → y.stored = false) ∧
        (x.state ≠ .damaged → x.life ≠ .kernel → y.stored = x.stored ∧ y.state = x.state))

/-- R102, R243: segfree always completes, with the predicate set where the world knows the name; the name becomes unknown,
and a segment without attaches goes at once. -/
def Claims.SegfreeResults : Prop :=
  ∀ (h : Hd) (pd : Fin 16) (ra : Reg) (s : State) (i : Issue) (lead : Nat) (rest : List Nat), Issuing s h.guard i →
    i.active = lead :: rest →
    let found := findSegment s i.st.world (readPair s.free i.st lead ra)
    ∃ (s1 t : State) (st : Strand) (p : Nat → BitVec 16), exec (.segfree h pd ra) s = .next t ∧ Moved s1 t i.st st (fun k => { past i k with preds := p k }) ∧
      (∀ k, k < i.st.threads.length → ∀ r : Fin 16, (p k).getLsbD r =
        if k ∈ i.present ∧ r = pd then found.isSome else getPred i.st k r) ∧
      RegsKept h i st ∧ st.fstat = i.st.fstat ∧ (found = none → s1 = s) ∧
      (∀ x, found = some x → x.attaches ≠ 0 → getSegment s1 x.uid = some { x with freed := true }) ∧
      (∀ x, found = some x → x.attaches = 0 → getSegment s1 x.uid = none)

/-- R59, R60, R80, R245: an enq with no acquire pending, its stores performed and room on the channel enqueues the chain at
the head its lead thread names, walked now: rd takes the chain's sequence number, and the strand counts one chain more. -/
def Claims.EnqueueResults : Prop :=
  ∀ (h : Hd) (ch : Fin 4) (wide : Bool) (rd ra : Reg) (s : State) (i : Issue) (lead : Nat) (rest : List Nat) (g : Grove)
    (r : Except ChainFault (List Card)), Issuing s h.guard i → i.active = lead :: rest →
    (Instr.enq h ch wide rd ra).WellFormed → acquirePending s i.st = false → (i.st.outs.filter (·.cls == 1)) = [] →
    (s.chains.filter fun c => c.core == i.st.core && c.ch == ch.val).length < 64 → i.st.chains < 63 →
    enqWalk s i.st lead ch ra = some (g, r) →
    let seq := (getChannel s i.st.core ch i.st.world).issued + 1
    let b := { i.st with chains := i.st.chains + 1 }
    ∃ s1 t st, exec (.enq h ch wide rd ra) s = .next t ∧ Moved s1 t b st (past i) ∧
      Written h { i with active := [lead] } b st rd wide (fun _ => BitVec.ofNat 64 seq) ∧ st.fstat = i.st.fstat ∧
      getChannel s1 i.st.core ch i.st.world = { getChannel s i.st.core ch i.st.world with issued := seq } ∧
      s1.chains = s.chains ++ [newChain i.st ch seq (readReg s.free i.st lead ra).toNat r] ∧
      { s1 with channels := s.channels, chains := s.chains, writers := s.writers, mem := s.mem, lineKeys := s.lineKeys
                poison := s.poison, dcache := s.dcache, slices := s.slices, tlb := s.tlb, utlb := s.utlb
                walkCache := s.walkCache, moved := s.moved, due := s.due } = s

/-- R246: a seqw whose channel has completed the chain it names completes with the count in rd and an acquire at copse
scope; until then the strand waits. A narrow count is compared modulo 2^32. -/
def Claims.SequenceWaitResults : Prop :=
  ∀ (h : Hd) (ch : Fin 4) (wide : Bool) (rd ra : Reg) (s : State) (i : Issue) (lead : Nat) (rest : List Nat),
    Issuing s h.guard i → i.active = lead :: rest → (Instr.seqw h ch wide rd ra).WellFormed → acquirePending s i.st = false →
    let target := if wide then (readPair s.free i.st lead ra).toNat else (readReg s.free i.st lead ra).toNat
    let n := (getChannel s i.st.core ch i.st.world).completed
    let reached : Prop := if wide then target ≤ n else 0 ≤ (BitVec.ofNat 32 n - BitVec.ofNat 32 target).toInt
    (reached → ∃ t st, exec (.seqw h ch wide rd ra) s = .next t ∧
      Moved (acquireActs s i.st.core .copse) t i.st st (past i) ∧
      Written h { i with active := [lead] } i.st st rd wide (fun _ => BitVec.ofNat 64 n) ∧ st.fstat = i.st.fstat) ∧
    (¬ reached → ∃ t st, exec (.seqw h ch wide rd ra) s = .next t ∧
      Moved s t { i.st with status := .waitSeq ⟨ch, target, wide, rd, lead⟩ } st (getThread i.st) ∧
      (∀ key, valueAt st key = valueAt i.st key) ∧ st.fstat = i.st.fstat)

/-! ### The matrix unit -/

/-- R249, R267: with every thread active, its tile there and its checks passed, a matrix instruction queues its operation,
which the strand's matrix counter counts; a full queue parks the strand. -/
def Claims.MatrixQueued : Prop :=
  ∀ (h : Hd) (tile sa sb : Fin 8) (ra rb rc : Reg) (fmt : FmtSel) (s : State) (i : Issue) (lead : Nat) (rest : List Nat)
    (g : Grove), Issuing s h.guard i → i.active = lead :: rest → i.active.length = i.st.width → tile.val < i.st.ntiles →
    getGrove s i.st.grove = some g → i.st.matrix < 63 →
    let a := (readReg s.free i.st lead ra).toNat
    let b := (readReg s.free i.st lead rb).toNat
    let c := (readReg s.free i.st lead rc).toNat
    let waiting := (s.mx.filter fun o => o.core == i.st.core && o.limb == i.st.limb && !o.running).length
    let queues (ins : Instr) (op : MxOp) : Prop :=
      (waiting < 16 → ∃ t st, exec ins s = .next t ∧
        Moved { s with mx := s.mx ++ [op], nextId := s.nextId + 1 } t { i.st with matrix := i.st.matrix + 1 } st (past i) ∧
        RegsKept h i st ∧ st.fstat = i.st.fstat) ∧
      (16 ≤ waiting → exec ins s =
        .next (ungrant (setStrand s { i.st with status := .parked (.matrixQueue i.st.core i.st.limb) })
          { i.st with status := .parked (.matrixQueue i.st.core i.st.limb) }))
    let op (kind : MxKind) : MxOp :=
      { id := s.nextId, core := i.st.core, limb := i.st.limb, strand := i.st.home, grove := i.st.grove, world := i.st.world
        kind := kind, tile := tile, fmode := i.st.fmode, after := (i.st.outs.filter (·.cls == 1)).map (·.tag) }
    queues (.mz h tile) (op .mz) ∧
    (∀ x y m poison, slotOf i.lr sa = some x → slotOf i.lr sb = some y → mxFormat x.fmt = true → mxFormat y.fmt = true →
      (rc = .zero ∨ ∀ j p d, j < 64 → viewMap s g (c + j) = some (p, d) → scratchOwned s i.st.core i.st.world p = true) →
      let multiplies (kind : MxKind) (ins : Instr) : Prop :=
        mapOf s i.st g kind (if rc = .zero then none else some c) sa sb x y = .ok (m, poison) →
        operandsChk s i.st g kind a b m x y = .pass →
        queues ins { op kind with
          a := a, b := b, map := m, poison := poison, slotA := (i.lr.slots.getD sa (0, 0)).1, slotB := (i.lr.slots.getD sb (0, 0)).1 }
      multiplies .mma (.mma h tile ra rb rc sa sb) ∧ multiplies .mmaSp (.mmaSp h tile ra rb rc sa sb) ∧
      (fmtWidth x.fmt ∈ [8, 16] → multiplies .mconv (.mconv h tile ra rb rc sa sb))) ∧
    (∀ x, sideOf i.lr fmt = some x → tileSlotBad i.lr fmt = none → (b = 0 ∨ 4 * fmtWidth x.fmt ≤ b) →
      let moves (kind : MxKind) (ins : Instr) : Prop :=
        operandChk s g 0 i.st.world false (kind == .mst) a b (4 * fmtWidth x.fmt) 32 = .pass →
        queues ins { op kind with a := a, b := b, slotA := match fmt with
          | .fmt f => BitVec.ofNat 64 f.code
          | .slot k => (i.lr.slots.getD k (0, 0)).1 }
      moves .mld (.mld h fmt tile ra rb) ∧ moves .mst (.mst h fmt tile ra rb))

/-- R85, R252, R253, R254, R256, R261, R263, R267: what the checks of a multiplying instruction pass: an aligned map record in the
grove's private allocation, its lines present, whose words break no rule, and for mconv a shape record as good; then
operands of aligned lines that lie there, with their scale arrays and bitmaps. -/
def Claims.MatrixChecksPass : Prop :=
  ∀ (s : State) (st : Strand) (g : Grove) (kind : MxKind) (sa sb : Fin 8) (x y : Slot), g.size ≤ 0x100000 →
    let inside (a n : Nat) : Prop := a + n ≤ g.size
    let present (a n : Nat) : Prop := ∀ k, k < n → linePresent s g.core (g.base + a + k) = true
    (∀ off, off % 64 = 0 → inside off 64 → present off 64 →
      let rs := recordBytes s st g off 64
      let ws := (dwords (rs.map (·.1))).map (·.toNat)
      let m := parseMap ws
      mapBad kind ws x y = false →
      (kind ≠ .mconv → mapOf s st g kind (some off) sa sb x y = .ok (m, rs.any (·.2))) ∧
      (kind = .mconv → x.ssrc ≠ 1 → m.shape % 8 = 0 → inside m.shape 128 → present m.shape 128 →
        let ds := recordBytes s st g m.shape 128
        shapeBad (ds.map (·.1)) m x = false →
        mapOf s st g kind (some off) sa sb x y =
          .ok ({ m with dims := convDims (ds.map (·.1)) }, rs.any (·.2) || ds.any (·.2)))) ∧
    (∀ (m : OpMap) (a b : Nat),
      let lines (at_ stride len n : Nat) : Prop := at_ % 8 = 0 ∧ stride % 8 = 0 ∧ ∀ j, j < n →
        inside (at_ + j * (if stride = 0 then len else stride)) len
      let operandA : Prop := m.aws = false ∧
        lines a m.astride (4 * fmtWidth x.fmt * if m.at_ then 1 else m.kn) (32 * if m.at_ then m.kn else 1)
      let operandB : Prop := m.bws = false ∧
        lines b m.bstride (4 * fmtWidth y.fmt * if m.bt then m.kn else 1) (32 * if m.bt then 1 else m.kn)
      let scales : Prop := (x.ssrc = 1 → inside m.ascale (32 * m.kn)) ∧ (y.ssrc = 1 → inside m.bscale (32 * m.kn))
      let bitmaps : Prop := m.abits % 8 = 0 ∧ m.bbits % 8 = 0 ∧ inside m.abits (128 * m.kn) ∧ inside m.bbits (128 * m.kn)
      let box : Prop := a % 8 = 0 ∧ ∀ d ∈ boxPoints m.dims, 0 ≤ (a : Int) + d ∧
        inside ((a : Int) + d).toNat (fmtWidth x.fmt / 8)
      (kind = .mma → operandA → operandB → scales → operandsChk s st g kind a b m x y = .pass) ∧
      (kind = .mmaSp → operandA → operandB → scales → bitmaps → operandsChk s st g kind a b m x y = .pass) ∧
      (kind = .mconv → box → operandB → scales → operandsChk s st g kind a b m x y = .pass))

/-- R252, R264 to R267: mz with every thread active and its tile there, mma under the default maps with its operands in aligned
lines of the grove's private allocation, and mld and mst of a tile that lies there, complete their issue with one
operation queued and counted. -/
def Claims.MatrixDefaultQueued : Prop :=
  ∀ (h : Hd) (tile sa sb : Fin 8) (ra rb : Reg) (fmt : FmtSel) (s : State) (i : Issue) (lead : Nat) (rest : List Nat)
    (g : Grove), Issuing s h.guard i → i.active = lead :: rest → i.active.length = i.st.width → tile.val < i.st.ntiles →
    getGrove s i.st.grove = some g → g.size ≤ 0x100000 → i.st.matrix < 63 →
    (s.mx.filter fun o => o.core == i.st.core && o.limb == i.st.limb && !o.running).length < 16 →
    let a := (readReg s.free i.st lead ra).toNat
    let b := (readReg s.free i.st lead rb).toNat
    let queues (ins : Instr) (kind : MxKind) (at_ by_ : Nat) : Prop := ∃ (t : State) (st : Strand) (op : MxOp),
      exec ins s = .next t ∧
      Moved { s with mx := s.mx ++ [op], nextId := s.nextId + 1 } t { i.st with matrix := i.st.matrix + 1 } st (past i) ∧
      RegsKept h i st ∧ st.fstat = i.st.fstat ∧ op.id = s.nextId ∧ op.core = i.st.core ∧ op.limb = i.st.limb ∧
      op.strand = i.st.home ∧ op.kind = kind ∧ op.tile = tile ∧ op.a = at_ ∧ op.b = by_ ∧ op.map = {} ∧
      op.fmode = i.st.fmode ∧ op.running = false
    queues (.mz h tile) .mz 0 0 ∧
    (∀ x y, slotOf i.lr sa = some x → slotOf i.lr sb = some y → mxFormat x.fmt = true → mxFormat y.fmt = true →
      x.ssrc ≠ 1 → y.ssrc ≠ 1 → a % 8 = 0 → b % 8 = 0 → a + 32 * (4 * fmtWidth x.fmt) ≤ g.size →
      b + 32 * (4 * fmtWidth y.fmt) ≤ g.size → queues (.mma h tile ra rb .zero sa sb) .mma a b) ∧
    (∀ x, sideOf i.lr fmt = some x → tileSlotBad i.lr fmt = none →
      let len := 4 * fmtWidth x.fmt
      a % 8 = 0 → b % 8 = 0 → b = 0 ∨ len ≤ b → a + 31 * (if b = 0 then len else b) + len ≤ g.size →
      queues (.mld h fmt tile ra rb) .mld a b ∧ queues (.mst h fmt tile ra rb) .mst a b)

/-- R249, R269, R270, R282: the first of a limb's queued operations starts, once none of the limb's runs and no batch holds its
unit, the lines it touches are present, and the stores that its strand issued before it have been performed. -/
def Claims.MatrixStarts : Prop :=
  ∀ (core limb : Nat) (s : State) (o : MxOp),
    (s.mx.filter fun x => x.core == core && x.limb == limb).head? = some o →
    (∀ x ∈ s.mx, x.core = core → x.limb = limb → x.running = false) →
    (∀ r ∈ s.nreqs, r.core = core → r.limb = limb → r.started = none) →
    (∀ g, getGrove s o.grove = some g → ∀ r ∈ mxRanges o, absentLine s g r.1 r.2 = none) →
    (∀ st, getStrand s o.strand = some st → ∀ x ∈ st.outs, x.tag ∉ o.after) →
    exec (.matrixOpStart core limb) s =
      .next { s with mx := s.mx.map fun x => if x.id = o.id then 
        { x with running := true, since := s.time, seen := scratchMem s o.core } else x }

/-- R249, R257, R258, R264, R265: the running operation of a limb completes: its strand's matrix counter falls by one and
its tile alone may change. mz leaves 0 in every element; an mst leaves its tile as it was, and the bytes of each row of it at
the addresses of the row, where they lie in a bank group of the world, and no other byte of scratch; an mma of two
I8 operands under the default maps adds to each element the products of a row of A and a column of B, modulo 2^32. -/
def Claims.MatrixCompletes : Prop :=
  ∀ (core limb : Nat) (s : State) (o : MxOp) (st : Strand),
    (s.mx.find? fun x => x.core == core && x.limb == limb && x.running) = some o → getStrand s o.strand = some st →
    mxNotRefreshing s o = true →
    ∃ t st', exec (.matrixOpComplete core limb) s = .next t ∧ getStrand t o.strand = some st' ∧
      st'.matrix = st.matrix - 1 ∧ t.mx = s.mx.filter (·.id != o.id) ∧
      (∀ key, key / 1024 ≠ o.tile → mapGet st'.tiles key = mapGet st.tiles key) ∧
      { st' with tiles := st.tiles, tpoison := st.tpoison, fstat := st.fstat, matrix := st.matrix, runEntry := st.runEntry } = st ∧
      (∀ x, x ≠ o.strand → getStrand t x = getStrand s x) ∧
      { t with strands := s.strands, mx := s.mx, scratch := s.scratch, poison := s.poison, due := s.due
               launches := s.launches, queues := s.queues, budgets := s.budgets } = s ∧
      (o.kind ≠ .mst → t.scratch = s.scratch ∧ t.poison = s.poison) ∧ (o.kind = .mz → t.due = s.due) ∧
      (o.kind ≠ .mst → (∀ p, scratchOwned s o.core o.world p = true) → t.due = s.due) ∧
      (o.kind = .mst → st'.tiles = st.tiles) ∧
      (o.kind = .mst → ∀ g, getGrove s o.grove = some g →
        -- byte k of row m is stored now, at p; the bytes that `written` counts have been stored already
        let holds (m k p : Nat) : Prop := ∃ a n d, (mxRanges o)[m]? = some (a, n) ∧ k < n ∧ viewMap s g (a + k) = some (p, d) ∧
          m * n + k ∉ o.written
        (∀ m k p, holds m k p → scratchOwned s o.core o.world p = true → (∀ m' k', holds m' k' p → m' = m ∧ k' = k) →
          memGet (scratchMem t o.core) p = ((storeRow s o st m).1.getD k (0, false)).1) ∧
        ∀ c p, (c = o.core → ∀ m k, ¬ holds m k p) → memGet (scratchMem t c) p = memGet (scratchMem s c) p) ∧
      (o.kind = .mz → ∀ m n, m < 32 → n < 32 →
        mapGet st'.tiles (1024 * o.tile + 32 * m + n) = some 0 ∧ 1024 * o.tile + 32 * m + n ∉ st'.tpoison) ∧
      (o.kind = .mma → o.map = {} → mxSlot o.slotA = { fmt := .i8 } → mxSlot o.slotB = { fmt := .i8 } →
        let byte (a : Nat) : Int := (mxByte { s with mx := t.mx } o false a).1.toInt
        ∀ m n, m < 32 → n < 32 →
          let key := 1024 * o.tile + 32 * m + n
          let old := mapGetD st.tiles key (if st.blankTiles then 0 else Config.freeWord s.free 7 key)
          mapGet st'.tiles key = some (old + BitVec.ofInt 32
            ((List.range 32).foldl (fun acc k => acc + byte (o.a + 32 * m + k) * byte (o.b + 32 * k + n)) 0)))

/-- R138, R148, R206, R254, R258, R259, R262, R265, R266: what matrix operations leave, value by value. An mld takes the elements of a
row from its line, and an mst gives them, I8 saturated to its range; an mma, mma.sp or mconv of I8 operands adds to each
element of its tile the products that are counted, modulo 2^32: of elements that stand where the map's strides, transposition
and bitmaps, or the shape's two spatial dimensions, say. Any other adds the products of each block of 16 in turn, each block
exactly and rounded once. -/
def Claims.MatrixValues : Prop :=
  ∀ (core limb : Nat) (s : State) (o : MxOp) (st : Strand),
    (s.mx.find? fun x => x.core == core && x.limb == limb && x.running) = some o → getStrand s o.strand = some st →
    mxNotRefreshing s o = true → o.map.kn ≤ 255 →
    ∃ t st', exec (.matrixOpComplete core limb) s = .next t ∧ getStrand t o.strand = some st' ∧
      let s1 : State := { s with mx := t.mx }
      let key (m n : Nat) : Nat := 1024 * o.tile + 32 * m + n
      let old (m n : Nat) : Word := mapGetD st.tiles (key m n) (if st.blankTiles then 0 else Config.freeWord s.free 7 (key m n))
      let byte (weight : Bool) (a : Nat) : Byte := (mxByte s1 o weight a).1
      let i8 : Prop := mxSlot o.slotA = { fmt := .i8 } ∧ mxSlot o.slotB = { fmt := .i8 }
      let step (stride n : Nat) : Nat := if stride = 0 then n else stride
      let lineA (j : Nat) : Nat := o.a + j * step o.map.astride (if o.map.at_ then 32 else 32 * o.map.kn)
      let lineB (j : Nat) : Nat := o.b + j * step o.map.bstride (if o.map.bt then 32 * o.map.kn else 32)
      let bit (base row k : Nat) : Bool := (byte false (base + 4 * o.map.kn * row + k / 8)).getLsbD (k % 8)
      let below (base row k : Nat) : Nat := ((List.range k).filter (bit base row)).length
      let sums (A B : Nat → Nat → Option Int) : Prop := ∀ m n, m < 32 → n < 32 →
        mapGet st'.tiles (key m n) = some (old m n + BitVec.ofInt 32 ((List.range (32 * o.map.kn)).foldl (fun acc k =>
          match A m k, B k n with
          | some a, some b => acc + a * b
          | _, _ => acc) 0))
      let dense (k n : Nat) : Option Int :=
        some (byte o.map.bws (if o.map.bt then lineB n + k else lineB k + n)).toInt
      (o.kind = .mld → mxSlot o.slotA = { fmt := .i8 } → ∀ m n, m < 32 → n < 32 →
        mapGet st'.tiles (key m n) = some ((byte false (o.a + m * step o.b 32 + n)).signExtend 32)) ∧
      (o.kind = .mst → mxSlot o.slotA = { fmt := .i8 } → ∀ m n, m < 32 → n < 32 →
        (storeRow s o st m).1.length = 32 ∧
        (((storeRow s o st m).1.getD n (0, false)).1 = BitVec.ofInt 8 (max (-128) (min (old m n).toInt 127)))) ∧
      (o.kind = .mma → i8 → sums (fun m k => some (byte o.map.aws (if o.map.at_ then lineA k + m else lineA m + k)).toInt) dense) ∧
      (o.kind = .mmaSp → i8 → sums
        (fun m k => if bit o.map.abits m k then some (byte o.map.aws (lineA m + below o.map.abits m k)).toInt else none)
        (fun k n => if bit o.map.bbits n k then some (byte o.map.bws (lineB n + below o.map.bbits n k)).toInt else none)) ∧
      (o.kind = .mconv → i8 → ∀ c st0 n1 st1 w1 p1 t1 sd1 n2 st2 w2 p2 t2 sd2 e1 e2 u v w x,
        o.map.dims = [(c, st0, u, v, w, x), (n1, st1, w1, p1, t1, sd1), (n2, st2, w2, p2, t2, sd2)] → o.map.oext = [e1, e2] →
        sums (fun m k =>
          let g := o.map.kstart + k / 32
          let ch := 32 * (g % (c / 32)) + k % 32
          let q := g / (c / 32)
          let y := o.map.ostart + m
          let x1 : Int := (y % e1 * sd1 + q % w1 * t1 : Nat) - (p1 : Int)
          let x2 : Int := (y / e1 % e2 * sd2 + q / w1 % w2 * t2 : Nat) - (p2 : Int)
          if y < e1 * e2 ∧ q < w1 * w2 ∧ 0 ≤ x1 ∧ x1 < n1 ∧ 0 ≤ x2 ∧ x2 < n2 then
            some (byte false ((o.a : Int) + ch * st0 + x1 * st1 + x2 * st2).toNat).toInt
          else none) dense) ∧
      (o.kind ∈ [.mma, .mmaSp, .mconv] → accumulatesInt (mxSlot o.slotA) (mxSlot o.slotB) = false → ∀ m n, m < 32 → n < 32 →
        mapGet st'.tiles (key m n) = some (BitVec.ofNat 32 ((List.range (2 * o.map.kn)).foldl (fun acc j =>
          let products := (List.range 16).filterMap fun i => match aElem s1 o m (16 * j + i), bElem s1 o (16 * j + i) n with
            | some a, some b => some (mxProduct a.1 b.1).1
            | _, _ => none
          (fAdd f32 0 o.fmode false acc (blockSum o.fmode products).1).1) (old m n).toNat))) ∧
      (o.kind = .mma → mxSlot o.slotA = { fmt := .bf16 } → o.map.at_ = false → ∀ m k, k < 32 * o.map.kn →
        let a := o.a + m * step o.map.astride (64 * o.map.kn) + 2 * k
        (aElem s1 o m k).map (·.1) = some (decodeFmt .bf16 o.fmode
          ((byte o.map.aws a).toNat + 256 * (byte o.map.aws (a + 1)).toNat))) ∧
      (o.kind = .mma → mxSlot o.slotB = { fmt := .e4m3 } → o.map.bt = false → ∀ k n, n < 32 →
        (bElem s1 o k n).map (·.1) = some (decodeFmt .e4m3 o.fmode (byte o.map.bws (o.b + k * step o.map.bstride 32 + n)).toNat))

/-! ### Graft -/

/-- R117, R239: a graft whose sibling has not reached one that names it waits, at its place. -/
def Claims.GraftBegins : Prop :=
  ∀ (h : Hd) (pd : Fin 16) (ra rb : Reg) (s : State) (i : Issue) (lead : Nat) (rest : List Nat) (w : Strand),
    Issuing s h.guard i → i.active = lead :: rest →
    let j := (readReg s.free i.st lead ra).toNat
    let c := (readReg s.free i.st lead rb).toInt
    c ≠ 0 → c % 8 = 0 → j ≠ i.st.sidx → j < ((getGrove s i.st.grove).map (·.count)).getD 0 →
    (s.strands.find? fun x => x.grove == i.st.grove && x.sidx == j && !x.threads.all (·.exited)) = some w →
    (∀ g, w.status = .waitGraft g → g.partner ≠ i.st.home) →
    let wait : GraftWait := { pc := i.pc, partner := w.home, count := c, pd := pd, arrival := s.nextId }
    ∃ t st, exec (.graft h pd ra rb) s = .next t ∧
      Moved { s with nextId := s.nextId + 1 } t { i.st with status := .waitGraft wait } st (getThread i.st) ∧
      (∀ key, valueAt st key = valueAt i.st key) ∧ st.fstat = i.st.fstat

/-- R117, R118, R239: two grafts that match complete together: where the room test holds, the depth goes from the giver to
the grower, and the giver keeps what it has in its frames and below its new depth; the predicate says in every thread of both
strands whether it has. -/
def Claims.GraftMatches : Prop :=
  ∀ (h : Hd) (pd : Fin 16) (ra rb : Reg) (s : State) (i : Issue) (lead : Nat) (rest : List Nat) (w : Strand)
    (gw : GraftWait), Issuing s h.guard i → i.active = lead :: rest →
    let j := (readReg s.free i.st lead ra).toNat
    let c := (readReg s.free i.st lead rb).toInt
    c ≠ 0 → c % 8 = 0 → j ≠ i.st.sidx → j < ((getGrove s i.st.grove).map (·.count)).getD 0 →
    (s.strands.find? fun x => x.grove == i.st.grove && x.sidx == j && !x.threads.all (·.exited)) = some w →
    getStrand s w.home = some w → w.home ≠ s.issuer → w.stepm = 0 → w.rbWait = false →
    w.status = .waitGraft gw → gw.partner = i.st.home → gw.count = -c →
    let n := c.natAbs
    let grow := if 0 < c then i.st else w
    let give := if 0 < c then w else i.st
    let others := ((s.strands.filter fun x => x.resident && strandLane x == strandLane i.st &&
      x.home != grow.home && x.home != give.home).map fun x => x.width * x.depth * 4).sum
    let ok : Prop := grow.resident = true ∧ give.resident = true ∧ strandLane grow = strandLane give ∧ n ≤ give.depth ∧
      grow.width * (grow.depth + n) * 4 + give.width * (give.depth - n) * 4 + others ≤ 22528 ∧
      (∀ th ∈ give.threads, th.height - th.floor ≤ give.depth - n) ∧ (strandRecord s give).frame ≤ give.depth - n
    let stays (x : Strand) (gives : Prop) (key : RKey) : Prop := ∀ m, key = .v m → gives →
      m / 64 < (getThread x (m % 64)).height ∨ m / 64 < (getThread x (m % 64)).floor + (x.depth - n)
    ∃ t st w' v, exec (.graft h pd ra rb) s = .next t ∧ (v = true ↔ ok) ∧
      getStrand t s.issuer = some st ∧ getStrand t w.home = some w' ∧ w'.status = .ready ∧
      st.depth = (if v then (if 0 < c then i.st.depth + n else i.st.depth - n) else i.st.depth) ∧
      w'.depth = (if v then (if 0 < c then w.depth - n else w.depth + n) else w.depth) ∧
      (∀ k, k < i.st.threads.length → (getThread i.st k).exited = false → getPred st k pd = v ∧
        (k ∈ i.present → (getThread st k).pc = i.pc + 8)) ∧
      (∀ k, k < w.threads.length → (getThread w k).exited = false → getPred w' k gw.pd = v) ∧
      (∀ key, stays w (v = true ∧ 0 < c) key → valueAt w' key = valueAt w key) ∧
      (∀ key, outlasts h key = true → stays i.st (v = true ∧ c < 0) key → valueAt st key = valueAt i.st key) ∧
      (∀ x, x ≠ s.issuer → x ≠ w.home → getStrand t x = getStrand s x) ∧
      (v = true → t.used = (useStore s (strandStore i.st)).used) ∧ (v = false → t.used = s.used) ∧
      { t with strands := s.strands, lanes := s.lanes, launches := s.launches, queues := s.queues
               budgets := s.budgets, used := s.used } = s

/-! ### Graphics instructions -/

/-- R272, R349, R350: what the binning unit makes of a record: one that is culled bins nothing, one without room in the
buffer is counted and dropped, and a listed one takes the next ID and an entry for each tile that its box overlaps. -/
def Claims.BinningUnit : Prop :=
  ∀ (d : Draw) (bs : List Byte),
    (primRecord bs = none → binPrimitive d bs = (0xffffffff, d)) ∧
    (∀ xs ys zs attr fl, primRecord bs = some (xs, ys, zs, attr, fl) →
      let area := signedArea xs ys
      let tiles := tilesOf (targetExtent d).1 (targetExtent d).2 xs ys
      let culled : Prop := area = 0 ∨ (area < 0 ∧ fld fl 1 1 = 1) ∨ (0 < area ∧ fld fl 2 1 = 1) ∨ tiles = []
      (culled → binPrimitive d bs = (0xffffffff, d)) ∧
      (¬ culled → d.entries < d.used + tiles.length →
        binPrimitive d bs = (0xfffffffe, { d with overflow := d.overflow + 1 })) ∧
      (¬ culled → d.used + tiles.length ≤ d.entries → ∃ p,
        binPrimitive d bs = (BitVec.ofNat 32 d.prims.length,
          { d with used := d.used + tiles.length, prims := d.prims ++ [p] }) ∧
        p.id = d.prims.length ∧ p.tiles = tiles ∧ p.mayDiscard = (fld fl 0 1 == 1) ∧ p.attr = attr ∧
        0 < signedArea p.xs p.ys) ∧
      ∀ tile, tile ∈ tiles ↔ ∃ tx ty, tile = tx + ty * (((targetExtent d).1 + 31) / 32) ∧
        32 * tx < (targetExtent d).1 ∧ 32 * ty < (targetExtent d).2 ∧
        minOf xs < 256 * (min (32 * tx + 32) (targetExtent d).1 : Nat) ∧ ((256 * (32 * tx) : Nat) : Int) < maxOf xs ∧
        minOf ys < 256 * (min (32 * ty + 32) (targetExtent d).2 : Nat) ∧ ((256 * (32 * ty) : Nat) : Int) < maxOf ys)

/-- R10, R272: in a mesh strand, bin hands the record of each thread to the binning unit in step order, and rd takes what
the unit gives, readable once a wait has counted it. Here no watchpoint of the world is enabled, and nothing is poisoned. -/
def Claims.BinResults : Prop :=
  ∀ (h : Hd) (rd ra : Reg) (s : State) (i : Issue) (g : Grove) (d : Draw) (draw : Nat), Issuing s h.guard i →
    i.st.kind = .mesh draw → getDraw s draw = some d → getGrove s i.st.grove = some g → MayBegin s i.st 0 →
    takers i rd ≠ [] → s.poison = [] → (getWorld s i.st.world).fb.wpen = 0 →
    (∀ k ∈ takers i rd, Readable s i.st g (readReg s.free i.st k ra).toNat 48 16) →
    let after (ks : List Nat) : Draw :=
      ks.foldl (fun d k => (binPrimitive d (scratchRecord s i.st g (readReg s.free i.st k ra).toNat 48)).2) d
    let value (k : Nat) : Word := (binPrimitive (after ((takers i rd).filter (· < k)))
      (scratchRecord s i.st g (readReg s.free i.st k ra).toNat 48)).1
    ∃ t st, exec (.bin h rd ra) s = .next t ∧
      Moved { setDraw s (after (takers i rd)) with nextId := s.nextId + 1 } t
        { i.st with shadow := i.st.shadow ++ (takers i rd).flatMap fun k => (groupKeys i.st k rd 1).map fun key => (key, s.nextId) }
        st (past i) ∧
      Written h i i.st st rd false (fun k => (value k).setWidth 64) ∧ st.fstat = i.st.fstat ∧
      st.outs = i.st.outs.filter (·.left != 0)

/-- R271, R273, R274: in the shading pass pout writes each active thread's colour, in the output's format, for its pixel
where its owner is the strand's, and else discards it with a record; the thread moves on as after a write. Every pout of
the coverage pass is dropped (R275). -/
def Claims.PoutResults : Prop :=
  ∀ (h : Hd) (fmt : PixFmt) (out : Fin 4) (ra : Reg) (s : State) (i : Issue) (draw tile : Nat) (shading : Bool)
    (pixels : List (Option Pixel)) (index : Nat) (d : Desc), Issuing s h.guard i →
    (Instr.pout h fmt out ra).WellFormed → i.st.kind = .pixel draw tile shading pixels →
    ((getDraw s draw).bind fun x => x.outs.getD out none) = some (index, d) →
    let colour (k : Nat) : Nat :=
      if fmt = .rgba8 then (readReg s.free i.st k ra).toNat else (readPair s.free i.st k ra).toNat
    let write (s' : State) (k : Nat) : State := match pixels.getD k none with
      | none => s'
      | some p =>
        let own := pixelOwner s' d p.x p.y
        if own.1 ≠ i.st.owner then discardPout own.2 i.st k index d p.x p.y own.1
        else
          let v : DWord := BitVec.ofNat 64 (convertPixel (fmt == .rgba16f) (d.fmt == 1) (colour k))
          updateTile own.2 draw tile fun x => { x with out := mapSet x.out (1024 * out.val + (32 * (p.y % 32) + p.x % 32)) v }
    ∃ t st, exec (.pout h fmt out ra) s = .next t ∧
      Moved (if shading then i.active.foldl write s else s) t i.st st (past i) ∧ RegsKept h i st ∧ st.fstat = i.st.fstat

/-- R273: the conversion of a channel: 16 bits to 8 clamps to [0, 1] and gives 0 for NaN, and the bounds of one format
are those of the other. -/
def Claims.PixelConversion : Prop :=
  channel8 0x7e00 = 0 ∧ channel8 0x7c00 = 255 ∧ channel8 0xfc00 = 0 ∧ channel8 0x3c00 = 255 ∧ channel8 0x4000 = 255 ∧
  channel8 0xbc00 = 0 ∧ channel8 0 = 0 ∧ channel8 0x3800 = 128 ∧ channel16 0 = 0 ∧ channel16 255 = 0x3c00 ∧
  ∀ c < 256, channel8 (channel16 c) = c

/-- R192, R275, R283: discard takes the pixel out of the primitive's coverage in the coverage pass, and in both passes the
active threads exit with their requests released. Here no graft waits for the strand. -/
def Claims.DiscardResults : Prop :=
  ∀ (h : Hd) (s : State) (i : Issue) (draw tile : Nat) (shading : Bool) (pixels : List (Option Pixel)),
    Issuing s h.guard i → i.st.kind = .pixel draw tile shading pixels →
    (∀ w ∈ s.strands, ∀ g, w.status = .waitGraft g → g.partner ≠ i.st.home) →
    let drop (s' : State) (k : Nat) : State := match pixels.getD k none with
      | some p => updateTile s' draw tile fun x => { x with discards := x.discards ++ [(p.prim, 32 * (p.y % 32) + p.x % 32)] }
      | none => s'
    ∃ t st, exec (.discard h) s = .next t ∧
      Moved { (if shading then s else i.active.foldl drop s) with
          nreqs := s.nreqs.map fun r =>
            if r.strand = i.st.home ∧ r.tix ∈ i.active then { r with dropped := true } else r } t i.st st
        (fun k => if k ∈ i.active then { past i k with exited := true, tickets := [] } else past i k) ∧
      RegsKept h i st ∧ st.fstat = i.st.fstat

/-- R10, R276, R277: smp of texels that the strand may read sends one request for each thread under the descriptor's
world, at the clamped coordinates; of texels that it may not, or that lie outside under `.zero`, it writes channels 0 and
the status. Finding a texel's owner in an owner map uses the map's leaf entries (R40). -/
def Claims.SampleResults : Prop :=
  ∀ (h : Hd) (zeroEdge : Bool) (fmt : PixFmt) (rd ra rb : Reg) (s : State) (i : Issue) (desc : Nat → Desc)
    (pa cache : Nat → Nat), Issuing s h.guard i → (Instr.smp h zeroEdge fmt rd ra rb).WellFormed → MayBegin s i.st 0 →
    takers i rd ≠ [] → (getWorld s i.st.world).fb.wpen = 0 →
    let index (k : Nat) : Nat := (readReg s.free i.st k ra).toNat
    (∀ k ∈ takers i rd, index k < 65536 ∧ mapGet s.descs (index k) = some (desc k) ∧
      ((desc k).kind ≠ 0 ∨ (desc k).world = i.st.world)) →
    let frame := ((getLaunch s i.st.launch).map (·.frame)).getD 0
    let x (k : Nat) : Nat := (readReg s.free i.st k rb).toNat % 65536
    let y (k : Nat) : Nat := (readReg s.free i.st k rb).toNat / 65536
    let outside (k : Nat) : Bool := decide ((desc k).width ≤ x k ∨ (desc k).height ≤ y k)
    let cx (k : Nat) : Nat := min (x k) ((desc k).width - 1)
    let cy (k : Nat) : Nat := min (y k) ((desc k).height - 1)
    let found (p : Nat → Bool) : State :=
      (((takers i rd).filter p).filter fun k => !(zeroEdge && outside k)).foldl
        (fun (s' : State) (k : Nat) => (pixelOwner s' (desc k) (cx k) (cy k)).2) s
    let may (k : Nat) : Option Word :=
      consent s (index k) (desc k) (pixelOwner (found (· < k)) (desc k) (cx k) (cy k)).1 i.st.owner frame
    let words : Nat := if fmt = .rgba8 then 2 else 4
    let regs := (List.range words).map (groupReg rd)
    let shadow := i.st.shadow ++ (takers i rd).flatMap fun k => (groupKeys i.st k rd words).map fun key => (key, s.nextId)
    ((∀ k ∈ takers i rd, (zeroEdge = true → outside k = false) ∧ may k = none ∧
        translate (found (· ≤ k)) i.st.core i.st.limb (desc k).world
          (((desc k).base.toNat + cy k * 64 * (desc k).pitch + cx k * if (desc k).fmt = 1 then 8 else 4) % 2 ^ 64) needRead
          = (.ok (pa k) (cache k), found (· ≤ k))) →
      let reqs := ((takers i rd).zip (List.range (takers i rd).length)).map fun (p : Nat × Nat) =>
        texelAccess { s with nextId := s.nextId + 1 + p.2 } i.st p.1 s.nextId fmt rd (desc p.1) (pa p.1) (cache p.1)
      ∃ t st, exec (.smp h zeroEdge fmt rd ra rb) s = .next t ∧
        Moved { found (fun _ => true) with pend := s.pend ++ reqs, nextId := s.nextId + 1 + reqs.length } t { i.st with shadow := shadow } st (past i) ∧
        RegsKept h i st ∧ st.fstat = i.st.fstat) ∧
    (∀ status : Nat → Word,
      (∀ k ∈ takers i rd, (zeroEdge = true ∧ outside k = true ∧ status k = 2) ∨
        ((zeroEdge = true → outside k = false) ∧ may k = some (status k))) →
      ∃ t st, exec (.smp h zeroEdge fmt rd ra rb) s = .next t ∧
        Moved { found (fun _ => true) with nextId := s.nextId + 1 } t { i.st with shadow := shadow } st (past i) ∧
        WrittenGroup h i st rd regs (fun k j => if j + (if fmt = .rgba8 then 1 else 2) = words then status k else 0) ∧
        st.fstat = i.st.fstat)

/-- R277: consent to read a texel: its owner may, nobody may where no owner is, and another may where the descriptor is a
backdrop that names it, or by a grant that stands in its frame. -/
def Claims.Consent : Prop :=
  ∀ (s : State) (index : Nat) (d : Desc) (owner reader frame : Nat),
    (owner = reader → consent s index d owner reader frame = none) ∧
    (owner ≠ reader → owner = 255 → consent s index d owner reader frame = some 4) ∧
    (owner ≠ 255 → d.kind = 2 → d.reader = reader → consent s index d owner reader frame = none) ∧
    (owner ≠ reader → owner ≠ 255 → (d.kind ≠ 2 ∨ d.reader ≠ reader) →
      (consent s index d owner reader frame = none ↔ ∃ e ∈ s.grants, e.2.sample = true ∧ e.2.grantor = owner ∧
        e.2.grantee = reader ∧ e.2.surface = index ∧ e.2.first ≤ frame ∧ frame ≤ e.2.expiry ∧
        (e.2.state = .active ∨ (e.2.state = .withdrawn ∧ frame < e.2.wframe))) ∧
      (consent s index d owner reader frame = none ∨ consent s index d owner reader frame = some 1))

/-- R273, R276, R336: a texel request that is performed writes the texel, in the form's words and converted from the
image's channels, and a status of 0 to its group, and a poisoned byte poisons the texel's words; the bytes in memory stand. -/
def Claims.TexelsRead : Prop :=
  ∀ (id : Nat) (s : State) (a : Access) (st : Strand) (from16 to16 : Bool) (pa : Nat),
    s.pend.find? (·.id == id) = some a → mayPerform s a s.pend = true → requestHeld s a = false → a.order = .relaxed →
    getStrand s a.strand = some st → a.op = .texel from16 to16 → a.len = (if from16 then 8 else 4) →
    a.dest.length = (if to16 then 4 else 2) → a.dest.Nodup → a.place = .global pa 1 → pa % 128 + a.len ≤ 128 →
    getLine s.dcache a.core (pa / 128) = none → getLine s.slices (a.core / 8) (pa / 128) = none →
    tagOk s a.world pa = true → tagOk s a.world (pa / 128 * 128) = true →
    (a.world = 0 ∨ (getWorld s a.world).tstate = .run) →
    (∀ j, j < 128 → encrypted s (pa / 128 * 128 + j) = false) →
    let texel := convertPixel from16 to16 (leVal (memRead s.mem pa a.len))
    let words : List Word := if to16 then [BitVec.ofNat 32 texel, BitVec.ofNat 32 (texel / 2 ^ 32), 0, 0] else [BitVec.ofNat 32 texel, 0]
    let bad := memPoisoned s pa a.len
    ∃ t st', exec (.memoryAccessComplete id) s = .next t ∧ getStrand t a.strand = some st' ∧
      (∀ n key, a.dest[n]? = some key → valueAt st' key = words[n]? ∧
        (key ∈ st'.poisoned ↔ bad = true ∧ n < words.length / 2)) ∧
      (∀ key, key ∉ a.dest → valueAt st' key = valueAt st key ∧ (key ∈ st'.poisoned ↔ key ∈ st.poisoned)) ∧
      st'.outs = (countPerformed st a.tag).outs ∧ st'.threads = st.threads ∧ st'.fstat = st.fstat ∧
      { apartFromWork st' with poisoned := st.poisoned } = apartFromWork st ∧
      (∀ x, x ≠ a.strand → getStrand t x = getStrand s x) ∧
      { t with strands := s.strands, pend := s.pend, budgets := s.budgets, moved := s.moved } = s ∧
      t.pend = s.pend.filter (·.id != a.id)

/-! ### Ray queries and neural requests -/

/-- R278, R279, R280: rq.open and rq.next hand their queries to the traversal unit and the strand parks, its threads moved
on; a thread whose query goes no further has a miss at once where no thread of the issue needs the unit. Here no watchpoint of the world is
enabled, and nothing is poisoned. -/
def Claims.QueryBegins : Prop :=
  ∀ (h : Hd) (cull opq closest : Bool) (rd ra rb : Reg) (s : State) (i : Issue) (g : Grove), Issuing s h.guard i →
    getGrove s i.st.grove = some g → i.active ≠ [] → rd.isQuad = true → (∀ k ∈ i.active, k < i.st.threads.length) →
    s.poison = [] → (getWorld s i.st.world).fb.wpen = 0 →
    let frameIn (k l : Nat) : Prop := frameOk i.lr g i.st k l = true
    let mode := (if cull then 4 else 0) + (if opq then 2 else 0) + (if closest then 1 else 0)
    let parks (ins : Instr) (ask : Nat → RqAsk) : Prop :=
      ∃ t st, exec ins s = .next t ∧
        Moved s t { i.st with
          status := .parked .traversal, rqPassed := i.present.filter fun k => !i.active.contains k
          queries := i.st.queries ++ i.active.map fun k => { tix := k, pc := i.pc, rd := rd, ask := ask k } } st (past i) ∧
        (∀ key, valueAt st key = valueAt i.st key) ∧ st.fstat = i.st.fstat
    let misses (ins : Instr) (excess : Nat → Nat) : Prop :=
      ∃ t st, exec ins s = .next t ∧ Moved s t i.st st
        (fun k => if k ∈ i.active then { past i k with qe := excess k } else past i k) ∧
        WrittenGroup h i st rd ((List.range 4).map (groupReg rd)) (fun k j => if j = 3 then Config.freeWord s.free 8 k else 0) ∧
        st.fstat = i.st.fstat
    ((∀ k ∈ i.active, (getThread i.st k).ql < i.lr.tdepth ∧ Readable s i.st g (readReg s.free i.st k ra).toNat 32 16 ∧
        frameIn k ((getThread i.st k).ql + 1)) →
      parks (.rqOpen h cull opq closest rd ra rb) fun k =>
        .open_ (scratchRecord s i.st g (readReg s.free i.st k ra).toNat 32) (readPair s.free i.st k rb) mode) ∧
    ((∀ k ∈ i.active, (getThread i.st k).ql = i.lr.tdepth ∧ i.lr.tclamp = true ∧ (getThread i.st k).qe ≠ 255) →
      i.st.queries = [] → misses (.rqOpen h cull opq closest rd ra rb) fun k => (getThread i.st k).qe + 1) ∧
    ((∀ k ∈ i.active, (getThread i.st k).qe = 0 ∧ 0 < (getThread i.st k).ql ∧ frameIn k (getThread i.st k).ql) →
      parks (.rqNext h rd ra) fun k => .next (readReg s.free i.st k ra != 0)) ∧
    ((∀ k ∈ i.active, 0 < (getThread i.st k).qe ∨ (getThread i.st k).ql = 0) →
      i.st.queries = [] → misses (.rqNext h rd ra) fun k => (getThread i.st k).qe)

/-- R279: rq.close lowers the excess count of each active thread, or else its query level, not below 0. -/
def Claims.QueryCloses : Prop :=
  ∀ (h : Hd) (s : State) (i : Issue), Issuing s h.guard i →
    ∃ t st, exec (.rqClose h) s = .next t ∧ Moved s t i.st st (fun k =>
        if k ∈ i.active then
          { past i k with
            qe := (getThread i.st k).qe - 1
            ql := if 0 < (getThread i.st k).qe then (getThread i.st k).ql else (getThread i.st k).ql - 1 }
        else past i k) ∧
      RegsKept h i st ∧ st.fstat = i.st.fstat

/-- R280: when every traversal of an issue has returned, the results, the headers, the levels and the excess counts are
written for every thread together, and the strand is eligible again; where one has faulted, the strand stops at the lowest
such thread, with the results, headers, levels and excess counts of the threads before it written and those from it on standing
at the instruction again, as they were. A header is written where the frame lies in a bank group of the world (R83), and no
other byte of scratch. -/
def Claims.TraversalReturns : Prop :=
  ∀ (home : Nat) (s s1 : State) (st : Strand) (g : Grove) (rs : List (Query × QueryEnd)) (e : Option (Nat × TravStop)),
    getStrand s home = some st → st.status = .parked .traversal → getGrove s st.grove = some g → st.stepm = 0 →
    st.rbWait = false → st.stopAfter = none → runQueries (strandRecord s st) g st st.queries [] s = (rs, e, s1) →
    (st.queries.map (·.tix)).Pairwise (· < ·) → (∀ x ∈ st.queries, x.tix < st.threads.length ∧ x.tix < 64) →
    let held (x : Query × QueryEnd) (p : Nat) (b : Byte) : Prop :=
      ∃ a h k, x.2.header = some (a, h) ∧ (headerBytes s1.free h)[k]? = some b ∧ p = g.base + a + k
    let written (t : State) (st' : Strand) : Prop :=
      (∀ x ∈ rs, (getThread st' x.1.tix).ql = x.2.level ∧ (getThread st' x.1.tix).qe = x.2.excess ∧
        (∀ j key, j < x.2.quad.length → regKey st x.1.tix (groupReg x.1.rd j) = some key →
          x.1.rd.isQuad = true → valueAt st' key = x.2.quad[j]?)) ∧
      (∀ x ∈ rs, ∀ p b, held x p b → scratchOwned s g.core st.world p = true → (∀ y ∈ rs, y ≠ x → ∀ c, ¬ held y p c) →
        memGet (scratchMem t g.core) p = b) ∧
      (∀ p, (∀ x ∈ rs, ∀ b, ¬ held x p b) → memGet (scratchMem t g.core) p = memGet (scratchMem s1 g.core) p)
    (e = none → ∃ t st', exec (.traversalReturn home) s = .next t ∧ getStrand t home = some st' ∧ st'.status = .ready ∧
      st'.queries = [] ∧ rs.map (·.1) = st.queries ∧ written t st' ∧
      (∀ k, (∀ x ∈ st.queries, x.tix ≠ k) → getThread st' k = getThread st k)) ∧
    (∀ k c addr, e = some (k, .fault c addr) → ∃ t st', exec (.traversalReturn home) s = .next t ∧
      getStrand t home = some st' ∧
      st'.status = .faulted { cls := c.1, cause := c.2, pc := (st.queries.head?.map (·.pc)).getD 0
                              addr := BitVec.ofNat 64 addr, step := k } ∧
      st'.step = k ∧ st'.interrupted = true ∧ rs.map (·.1) = st.queries.filter (·.tix < k) ∧ written t st' ∧
      (∀ x ∈ st.queries, k ≤ x.tix → (getThread st' x.tix).pc = (st.queries.head?.map (·.pc)).getD 0 ∧
        (getThread st' x.tix).ql = (getThread st x.tix).ql ∧ (getThread st' x.tix).qe = (getThread st x.tix).qe))

/-- R278, R279: what a query comes to. One that has ended repeats its final result; a candidate accepted without selector [0]
is its hit and ends it, so that its header says so; any other candidate is committed or rejected, and the traversal goes on.
A new query traverses from the root, one level up, with its ray's tmax as the bound and no hit committed. A traversal that ends gives its hit, or a miss, and
its header has ended; one that stops at a candidate reports it, and its header holds it pending. -/
def Claims.QueryResults : Prop :=
  ∀ (lr : LaunchRec) (g : Grove) (st : Strand) (x : Query) (accept : Bool) (s : State), x.ask = .next accept →
    (∀ a p d, viewMap s g a = some (p, d) → scratchOwned s g.core st.world p = true) →
    let h := readHeader s g st.world (frameAt lr st x.tix (getThread st x.tix).ql)
    let level := (getThread st x.tix).ql
    let a := frameAt lr st x.tix level
    let ends (e : QueryEnd) (at_ : Nat) (q : Trav) : Prop :=
      (∀ i, q.chit = some i → e.quad = [1, BitVec.ofNat 32 i, BitVec.ofNat 32 q.ct, BitVec.ofNat 32 q.cuv]) ∧
      (q.chit = none → e.quad.take 3 = [0, 0, 0]) ∧ e.excess = 0 ∧
      e.header = some (at_, { q := q, cand := none, ended := true })
    let reports (e : QueryEnd) (at_ : Nat) (q : Trav) (i t uv : Nat) : Prop :=
      e.quad = [2, BitVec.ofNat 32 i, BitVec.ofNat 32 t, BitVec.ofNat 32 uv] ∧ e.excess = 0 ∧
      e.header = some (at_, { q := q, cand := some (i, t, uv), ended := false })
    let traverses (y : Query) (cur : Option Nat) (q : Trav) (at_ lv : Nat) : Prop :=
      (∀ q1 s1, traverse st.core st.world (lr.tframe * 64) cur q s = .ok (.ended, q1, s1) →
        ∃ e, runQuery lr g st y s = .ok (e, s1) ∧ e.level = lv ∧ ends e at_ q1) ∧
      (∀ i t uv q1 s1, traverse st.core st.world (lr.tframe * 64) cur q s = .ok (.candidate i t uv, q1, s1) →
        ∃ e, runQuery lr g st y s = .ok (e, s1) ∧ e.level = lv ∧ reports e at_ q1 i t uv) ∧
      (∀ e, traverse st.core st.world (lr.tframe * 64) cur q s = .error e → runQuery lr g st y s = .error e)
    (h.ended = true → h.cand = none → ∃ e, runQuery lr g st x s = .ok (e, s) ∧ e.level = level ∧ ends e a h.q) ∧
    (∀ i t uv, h.cand = some (i, t, uv) → accept = true → h.q.mode % 2 = 0 → ∃ e, runQuery lr g st x s = .ok (e, s) ∧
      e.level = level ∧ ends e a { h.q with ct := t, chit := some i, cuv := uv }) ∧
    (h.ended = false → (accept = true → h.q.mode % 2 = 1) → ∀ i t uv, h.cand = some (i, t, uv) →
      traverses x none (if accept then { h.q with ct := t, chit := some i, cuv := uv } else h.q) a level) ∧
    (h.ended = false → h.cand = none → traverses x none h.q a level) ∧
    (∀ ray root mode, ∃ q, q.ray = ray ∧ q.root = root.toNat ∧ q.mode = mode ∧ q.ct = word32 ray 7 ∧ q.chit = none ∧
      q.stack = [] ∧ traverses { x with ask := .open_ ray root mode } (some 0) q (frameAt lr st x.tix (level + 1)) (level + 1))

/-- R281, R282: with its record well formed and its ranges good, and no watchpoint of the world enabled, nreq queues a request for each thread that holds fewer
than four, and rd takes the lowest free ticket; a thread that holds four has 0xffff_ffff and no request. -/
def Claims.NeuralRequests : Prop :=
  ∀ (h : Hd) (rd ra rb rc : Reg) (s : State) (i : Issue) (g : Grove) (x : Nat → Slot), Issuing s h.guard i →
    getGrove s i.st.grove = some g → (∀ k ∈ takers i rd, k < i.st.threads.length) →
    (getWorld s i.st.world).fb.wpen = 0 →
    let a (k : Nat) : Nat := (readReg s.free i.st k ra).toNat
    let b (k : Nat) : Nat := (readReg s.free i.st k rb).toNat
    let c (k : Nat) : Nat := (readReg s.free i.st k rc).toNat
    let record (k : Nat) : List (Byte × Bool) := recordBytes s i.st g (b k) 64
    let net (k : Nat) : Net := parseNet ((record k).map (·.1))
    let clear (write : Bool) (at_ : Nat) : Prop := rangeChk s g write at_ 64 = .pass ∧ absentLine s g at_ 64 = none
    (∀ k ∈ takers i rd, a k % 8 = 0 ∧ b k % 64 = 0 ∧ c k % 8 = 0 ∧ clear false (a k) ∧ clear false (b k) ∧
      clear false (c k) ∧ clear true (c k) ∧
      (∀ j p d, j < 64 → viewMap s g (b k + j) = some (p, d) → scratchOwned s i.st.core i.st.world p = true) ∧ (net k).bad = false ∧ netSlot i.lr (net k) = some (x k) ∧
      ∀ o ∈ (net k).wofs, o % 8 = 0 ∧
        weightOk s (dieOf i.st.core) i.st.world o (32 * (4 * fmtWidth (x k).fmt)) = true) →
    let free (k : Nat) : Option Nat :=
      (List.range 4).find? fun n => !(getThread i.st k).tickets.any (·.no == n)
    let asking := (takers i rd).filter fun k => (free k).isSome
    (s.nreqs.filter fun r => r.core == i.st.core && r.limb == i.st.limb).length + asking.length ≤ 64 →
    let reqs : List NReq := (asking.zip (List.range asking.length)).map fun (p : Nat × Nat) =>
      { id := s.nextId + p.2, core := i.st.core, limb := i.st.limb, world := i.st.world, strand := i.st.home
        grove := i.st.grove, tix := p.1, ticket := (free p.1).getD 0, input := a p.1, output := c p.1, net := b p.1
        wofs := (net p.1).wofs, relu := (net p.1).relu, slot := (i.lr.slots.getD (net p.1).wslot (0, 0)).1
        fmode := i.st.fmode, queued := s.time, poison := (record p.1).any (·.2) }
    ∃ t st, exec (.nreq h rd ra rb rc) s = .next t ∧
      Moved { s with nreqs := s.nreqs ++ reqs, nextId := s.nextId + reqs.length } t i.st st (fun k =>
        if k ∈ asking then
          { past i k with tickets := (getThread i.st k).tickets ++ [⟨(free k).getD 0, false, false⟩] }
        else past i k) ∧
      Written h i i.st st rd false (fun k => ((free k).map (BitVec.ofNat 64)).getD 0xffffffff) ∧ st.fstat = i.st.fstat

/-- R282: nget of requests that have completed, or that the thread does not hold, writes 0, 2 where the output carries
poison, or 1; a ticket so taken is free again. -/
def Claims.NeuralGets : Prop :=
  ∀ (h : Hd) (rd ra : Reg) (s : State) (i : Issue), Issuing s h.guard i →
    let held (k : Nat) : Option Ticket := (getThread i.st k).tickets.find? (·.no == (readReg s.free i.st k ra).toNat)
    (∀ k ∈ takers i rd, k < i.st.threads.length ∧ ∀ x, held k = some x → x.done = true) →
    ∃ t st, exec (.nget h rd ra) s = .next t ∧
      Moved s t i.st st (fun k =>
        if k ∈ takers i rd then
          { past i k with tickets := (getThread i.st k).tickets.filter (·.no != (readReg s.free i.st k ra).toNat) }
        else past i k) ∧
      Written h i i.st st rd false (fun k => match held k with
        | none => 1
        | some x => if x.poison then 2 else 0) ∧ st.fstat = i.st.fstat

/-- R282: a batch starts between two operations of the limb's unit, once 32 requests of one world and net record are
pending or the oldest of them has waited 512 core cycles: up to 32 of them, the oldest first, with the input bytes that
the requests' strands find now (R11). A batch's request that completes writes the 64 bytes of its last layer's outputs through the
grove's view, where the window still stands and its bank group is the world's (R83), and nothing else of scratch; it frees its
slot and closes its ticket. One whose strand has an earlier access to the output under way waits for that (R220); one that was
released writes nothing. -/
def Claims.NeuralBatches : Prop :=
  ∀ (core limb : Nat) (s : State), (s.nreqs.map (·.id)).Nodup →
    (∀ (r : NReq) (rest : List NReq) (g : Grove),
      (∀ o ∈ s.mx, o.core = core → o.limb = limb → o.running = false) →
      (∀ x ∈ s.nreqs, x.core = core → x.limb = limb → x.started = none ∧ x.world = r.world ∧ x.net = r.net ∧ x.grove = r.grove) →
      (s.nreqs.filter fun x => x.core == core && x.limb == limb) = r :: rest → getGrove s r.grove = some g →
      (32 ≤ (r :: rest).length ∨ 512000 ≤ (s.time - r.queued) * s.power.mhz) →
      ∃ t, exec (.nreqBatchStart core limb) s = .next t ∧ { t with nreqs := s.nreqs, due := s.due } = s ∧
        t.nreqs.length = s.nreqs.length ∧
        ∀ (j : Nat) (x : NReq), s.nreqs[j]? = some x → ∃ y : NReq, t.nreqs[j]? = some y ∧
          { y with started := x.started, poison := x.poison } = x ∧
          (∀ st, x.id ∈ ((r :: rest).take 32).map (·.id) → getStrand s x.strand = some st →
            let input := recordBytes s st g x.input 64
            y.started = some (input.map (·.1)) ∧ y.poison = (x.poison || input.any (·.2))) ∧
          (x.id ∉ ((r :: rest).take 32).map (·.id) → y = x)) ∧
    (∀ (id : Nat) (r : NReq) (bs : List Byte) (st : Strand) (g : Grove),
      (s.nreqs.find? fun x => x.core == core && x.limb == limb && x.id == id) = some r → r.started = some bs →
      getStrand s r.strand = some st → getGrove s r.grove = some g →
      (r.dropped = true → exec (.nreqComplete core limb id) s = .next { s with nreqs := s.nreqs.filter (·.id != id) }) ∧
      (r.dropped = false → outputWaits s g r = true → exec (.nreqComplete core limb id) s = .next s) ∧
      (r.dropped = false → outputWaits s g r = false → weightsReady s r (mxSlot r.slot) = true →
        let ys := runLayers s r (mxSlot r.slot) r.wofs
          ((List.range 32).map fun k => (leVal ((bs.drop (2 * k)).take 2), r.poison))
        ∃ t st', exec (.nreqComplete core limb id) s = .next t ∧ t.nreqs = s.nreqs.filter (·.id != id) ∧
          getStrand t r.strand = some st' ∧
          (getThread st' r.tix).tickets = ((getThread st r.tix).tickets.map fun (x : Ticket) =>
            if x.no = r.ticket then { x with done := true, poison := ys.any (·.2) } else x) ∧
          (∀ k, k ≠ r.tix → getThread st' k = getThread st k) ∧
          { st' with threads := st.threads, runEntry := st.runEntry } = st ∧
          (∀ n b p, n < 32 → b < 2 → viewMap s g (r.output + 2 * n) = some (p, false) → scratchOwned s g.core r.world p = true →
            (∀ n' b' p', n' < 32 → b' < 2 → (n', b') ≠ (n, b) → viewMap s g (r.output + 2 * n') = some (p', false) →
              p' + b' ≠ p + b) →
            memGet (scratchMem t g.core) (p + b) = (leList 2 (ys.getD n (0, false)).1).getD b 0) ∧
          (∀ c p, (c = g.core → ∀ n b p', n < 32 → b < 2 → viewMap s g (r.output + 2 * n) = some (p', false) → p ≠ p' + b) →
            memGet (scratchMem t c) p = memGet (scratchMem s c) p) ∧
          { t with strands := s.strands, nreqs := s.nreqs, scratch := s.scratch, poison := s.poison, due := s.due } = s ∧
          ∀ x, x ≠ r.strand → getStrand t x = getStrand s x))

/-! ### System instructions and exceptions -/

/-- R110, R111, R284: mfs reads a special register, a 64-bit one to a pair; mts writes the writable ones for the lead
thread: `fmode` without its reserved bits, `fstat`, a 1 to an error bit clears it, and `slim`. -/
def Claims.SpecialRegisters : Prop :=
  ∀ (h : Hd) (rd : Reg) (num : Fin 40),
    ((Instr.mfs h rd num).WellFormed → GivesResult (.mfs h rd num) h rd (decide (num.val ∈ [16, 18, 24, 26, 28, 30, 32]))
      fun s i k =>
        let th := getThread i.st k
        let ch (n : Nat) : Channel := getChannel s i.st.core n i.st.world
        BitVec.ofNat 64 (match num.val with
          | 0x00 => k | 0x01 => i.st.sidx
          | 0x02 => localCoord i.lr i.st k 0 | 0x03 => localCoord i.lr i.st k 1 | 0x04 => localCoord i.lr i.st k 2
          | 0x05 => globalIndex s i.lr i.st k 0 | 0x06 => globalIndex s i.lr i.st k 1 | 0x07 => globalIndex s i.lr i.st k 2
          | 0x08 => groveCoord s i.st 0 | 0x09 => groveCoord s i.st 1 | 0x0a => groveCoord s i.st 2
          | 0x0b => i.st.world | 0x0c => i.st.owner | 0x0d => i.st.width
          | 0x10 => s.time | 0x12 => (s.time / 2000 + 1) * 2000
          | 0x14 => i.st.fmode.toNat | 0x15 => i.st.fstat.toNat
          | 0x16 => (if (ch 0).err then 1 else 0) + (if (ch 1).err then 2 else 0) + (if (ch 2).err then 4 else 0)
              + (if (ch 3).err then 8 else 0)
          | 0x18 => (ch 0).completed | 0x1a => (ch 1).completed | 0x1c => (ch 2).completed | 0x1e => (ch 3).completed
          | 0x20 => i.st.slim.toNat | 0x22 => th.floor | 0x23 => th.height | 0x24 => th.fsize | 0x25 => i.st.depth
          | 0x26 => th.meet.toNat | _ => th.mstack.length)) ∧
    ∀ (s : State) (i : Issue) (lead : Nat) (rest : List Nat), Issuing s h.guard i → i.active = lead :: rest →
      let v := readReg s.free i.st lead rd
      let writes (n : Fin 40) (s1 : State) (b : Strand) : Prop :=
        ∃ t st, exec (.mts h rd n) s = .next t ∧ Moved s1 t b st (past i) ∧ RegsKept h i st ∧ st.fstat = b.fstat
      writes 0x14 s { i.st with fmode := if 6 ≤ v.toNat % 8 then v &&& 0xff0 else v &&& 0xff7 } ∧
      writes 0x15 s { i.st with fstat := v &&& 0x1f } ∧
      writes 0x16 { s with channels := s.channels.map fun c =>
        if c.core = i.st.core ∧ c.world = i.st.world ∧ v.getLsbD c.ch = true then { c with err := false } else c } i.st ∧
      (rd.isPair = true → writes 0x20 s { i.st with slim := readPair s.free i.st lead rd })

/-- R131, R132, R285, R286: bkpt stops its strand at every issue before any thread-step; trap stops it at the first active
thread-step with the low half of ra as detail, and does nothing where no thread is active. -/
def Claims.Breakpoints : Prop :=
  ∀ (h : Hd) (ra : Reg) (s : State) (i : Issue), Issuing s h.guard i →
    (∃ t st, exec (.bkpt h) s = .next t ∧
      let f : FaultInfo := { cls := 0x0e, cause := 1, pc := i.pc, pre := true }
      Stopped s t i.st st f (getThread i.st) ∧ st.step = i.st.step ∧ st.interrupted = i.st.interrupted) ∧
    (∀ k rest, i.active = k :: rest → ∃ t st, exec (.trap h ra) s = .next t ∧
      let f : FaultInfo :=
        { cls := 0x0e, cause := 3, detail := (readReg s.free i.st k ra).toNat % 65536, pc := i.pc, step := k }
      Stopped s t i.st st f (fun j => if j < k then past i j else getThread i.st j) ∧
        st.step = k ∧ st.interrupted = true) ∧
    (i.active = [] → ∃ t st, exec (.trap h ra) s = .next t ∧ Moved s t i.st st (past i) ∧ RegsKept h i st ∧
      st.fstat = i.st.fstat)

/-- R287, R329, R330: fret, from a strand of world 0, gives in rd the status of its action on the strand that a handle
names, and carries it out: a resumed strand is eligible again, a strand to be restarted waits for its outstanding work,
and every thread of a killed strand exits. The order in which the statuses are decided is the model's reading (log 29). -/
def Claims.FaultReturn : Prop :=
  ∀ (h : Hd) (rd ra rb : Reg) (s : State) (i : Issue) (lead : Nat) (rest : List Nat), Issuing s h.guard i →
    i.active = lead :: rest → i.st.world = 0 → (∀ y ∈ s.strands, y.stepm = 0) →
    let named := s.strands.find? fun x => handleOf x.home x.gen == (readReg s.free i.st lead ra).toNat
    let action := (readReg s.free i.st lead rb).toNat
    let answers (status : Word) (effect : State → Prop) : Prop :=
      ∃ s1 t st, exec (.fret h rd ra rb) s = .next t ∧ Moved s1 t i.st st (past i) ∧
        Written h { i with active := [lead] } i.st st rd false (fun _ => status.setWidth 64) ∧ st.fstat = i.st.fstat ∧
        effect s1
    (2 < action → answers 4 (· = s)) ∧
    (action ≤ 2 → named = none → answers 2 (· = s)) ∧
    (∀ x, action ≤ 2 → named = some x → x.home ≠ s.issuer → getStrand s x.home = some x →
      ((∀ f, x.status ≠ .faulted f) → answers 1 (· = s)) ∧
      (∀ f, x.status = .faulted f →
        (action = 0 → answers 0 (· = setStrand s { x with
          status := .ready, skipBp := if f.cls = 0x0e ∧ f.cause = 2 then some f.detail else none })) ∧
        (action = 1 → (strandRecord s x).preempt ≠ 1 → answers 3 (· = s)) ∧
        (action = 1 → (strandRecord s x).preempt = 1 → answers 0 (· = setStrand s { x with status := .restarting })) ∧
        (action = 2 → answers 0 fun s1 => ∃ x', getStrand s1 x.home = some x' ∧ x'.killed = true ∧ x'.status = .ready ∧
          ∀ th ∈ x'.threads, th.exited = true)))

/-- R98, R116, R118, R136, R189, R232, R238, R242, R267, R271, R287: some stops of an instruction with none of its effect,
and the code of each. That a stop of attach, detach, graft, waitn or ntfy reads as one before any thread-step is the model's reading (log 24, log 25). -/
def Claims.StopsWithoutEffect : Prop :=
  ∀ (h : Hd) (s : State) (i : Issue) (k : Nat) (rest : List Nat), Issuing s h.guard i → i.active = k :: rest →
    let before (ins : Instr) (cls cause detail : Nat) : Prop := ∃ t st, exec ins s = .next t ∧
      Stopped s t i.st st { cls := cls, cause := cause, detail := detail, pc := i.pc, pre := true } (getThread i.st)
    let at_ (ins : Instr) (cls cause : Nat) : Prop := ∃ t st, exec ins s = .next t ∧
      Stopped s t i.st st { cls := cls, cause := cause, pc := i.pc, step := k }
        (fun j => if j < k then past i j else getThread i.st j) ∧ st.step = k ∧ st.interrupted = true
    (∀ rd ra rb, i.st.world ≠ 0 → before (.fret h rd ra rb) 2 0x0b 0) ∧
    (∀ lv red rd ra, i.active.length ≠ (i.st.threads.filter fun th => !th.exited).length →
      before (.bar h lv red rd ra) 4 0 0) ∧
    (∀ tile : Fin 8, i.st.ntiles ≤ tile.val → before (.mz h tile) 3 0 5) ∧
    (∀ tile : Fin 8, tile.val < i.st.ntiles → i.active.length ≠ i.st.width → before (.mz h tile) 4 0 0) ∧
    (∀ rd ra, isMesh i.st.kind = false → before (.bin h rd ra) 3 0 6) ∧
    (isPixel i.st.kind = false → before (.discard h) 3 0 6) ∧
    (∀ pd ra rb, (readReg s.free i.st k rb).toInt = 0 → before (.graft h pd ra rb) 9 1 0) ∧
    (∀ (take : Bool) rd ra rb rc, acquirePending s i.st = false → owesRelease s i.st = false →
      let ins : Instr := if take then .waitnTake h rd ra rb rc else .waitn h rd ra rb rc
      let n := (readReg s.free i.st k ra).toNat
      (4095 < n → before ins 2 8 0) ∧ (n ≤ 4095 → (mapGet s.ntable n).map (·.world) ≠ some i.st.world → before ins 2 9 0)) ∧
    (∀ ra rb, let n := (readReg s.free i.st k ra).toNat
      (4095 < n → before (.ntfy h ra rb) 2 8 0) ∧
      (n ≤ 4095 → (mapGet s.ntable n).map (·.world) ≠ some i.st.world → before (.ntfy h ra rb) 2 9 0)) ∧
    (∀ mode pd ra g, getGrove s i.st.grove = some g → i.st.evictionOf = none →
      findSegment s i.st.world (readPair s.free i.st k ra) = none → before (.attach h mode pd ra) 8 1 0) ∧
    (∀ ra g, getGrove s i.st.grove = some g → heldSegment s g (readPair s.free i.st k ra) = none →
      before (.detach h ra) 8 7 0) ∧
    (∀ fmt out ra, isPixel i.st.kind = false → before (.pout h fmt out ra) 3 0 6) ∧
    (∀ (n : Fin 8) src rm rd ra rb rc, slotOf i.lr n = none → before (.cvt h (.slot n) src rm rd ra rb rc) 5 1 n) ∧
    (∀ (tile sa sb : Fin 8) ra rb rc, tile.val < i.st.ntiles → slotOf i.lr sa = none →
      before (.mma h tile ra rb rc sa sb) 5 1 sa) ∧
    (∀ (tile n : Fin 8) ra rb, tile.val < i.st.ntiles → slotOf i.lr n = none → before (.mld h (.slot n) tile ra rb) 5 1 n) ∧
    (∀ off, i.st.diverge ≤ (getThread i.st k).mstack.length → at_ (.meet h off) 6 1) ∧
    ((getThread i.st k).mstack = [] → at_ (.meetPop h) 6 2) ∧
    (∀ ra, (readReg s.free i.st k ra).toNat % 128 = 0 → (i.pc + 8 - i.lr.code).toNat / 8 < 2 ^ 25 → at_ (.callx h ra) 7 2)

/-- R132, R330, R334: a strand that meets an enabled hardware breakpoint of its world, but the one that stopped it last, stops
before the instruction, whichever it is, and the instruction has no effect; what an instruction itself checks before any
thread-step comes first, and of a `bkpt` there the choice is free (log 25). A strand that is stepped never goes on past an instruction that has completed: it
stops after it. -/
def Claims.BreakpointsAndStepping : Prop :=
  ∀ (ins : Instr) (s : State) (i : Issue), Issuable ins → issueOf s (guardOf ins) = some i → i.going = false →
    MayIssue s i.st ins →
    (∀ n : Fin 4, i.st.skipBp ≠ some n.val → (getWorld s i.st.world).fb.bpen / 2 ^ n.val % 2 = 1 →
      (getWorld s i.st.world).fb.bp.getD n 0 = i.pc →
      (∀ m : Fin 4, m < n → (getWorld s i.st.world).fb.bpen / 2 ^ m.val % 2 = 0 ∨ (getWorld s i.st.world).fb.bp.getD m 0 ≠ i.pc ∨
        i.st.skipBp = some m.val) →
      ∃ t st f, exec ins s = .next t ∧ Stopped s t i.st st f (getThread i.st) ∧ f.pc = i.pc ∧ f.pre = true ∧
        (f.cls = 0x0e ∧ f.cause = 2 ∧ f.detail = n ∨ checksFirst ins = true ∧ f.cls ∈ [3, 4, 5] ∨
          (∃ h, ins = .bkpt h) ∧ f.cls = 0x0e ∧ f.cause = 1)) ∧
    (i.st.status = .ready → i.st.stepm = 1 → i.st.cut = none → ∃ t st, exec ins s = .next t ∧
      getStrand t s.issuer = some st ∧ st.status ≠ .ready ∧
      ∀ f, st.status = .faulted f → f.cls = 0x0e → f.cause = 4 → f.pc = i.pc ∧ f.step = 0 ∧ f.pre = false) ∧
    ∀ h, breakpointAt s i.st i.pc = none → i.st.poisoned = [] → i.st.stepm = 1 → i.st.cut = none →
      (∀ rd imm ty, ins = .movi h ty rd imm → ins.WellFormed → ∃ t st, exec ins s = .next t ∧
        getStrand t s.issuer = some st ∧ st.status = .faulted { cls := 0x0e, cause := 4, pc := i.pc } ∧
        (∀ k ∈ i.present, (getThread st k).pc = i.pc + 8) ∧
        ∀ k ∈ takers i rd, ∀ n, regKey i.st k rd = some (.v n) → rd ≠ .zero → valueAt st (.v n) = some (lo32 (imm.signExtend 64))) ∧
      (ins = .nop h → ∃ t st, exec ins s = .next t ∧
        getStrand t s.issuer = some st ∧ st.status = .faulted { cls := 0x0e, cause := 4, pc := i.pc } ∧
        ∀ k ∈ i.present, (getThread st k).pc = i.pc + 8)

/-! ### Events of strands and lanes -/

/-- R38, R39, R44, R336: an entry is read where its table says: one that is not valid is not mapped, one that is valid and
malformed is bad, and poisoned bytes are an error of their own. That a table in a page of no world holds no valid entry (R35,
R40), and one at an address that nothing populates fails as BAD_PA, is the model's reading (log 12). -/
def Claims.PageEntries : Prop :=
  ∀ (s : State) (level pa : Nat), level < 4 →
    let e := leVal (memRead s.mem pa 8)
    let bits (lo n : Nat) : Nat := e / 2 ^ lo % 2 ^ n
    let bad : Prop := bits 1 1 ≠ 0 ∨ bits 9 3 ≠ 0 ∨ bits 48 8 ≠ 0 ∨ bits 58 6 ≠ 0 ∨ bits 56 2 = 3 ∨
      (level = 3 ∧ bits 2 1 = 1) ∨ (level = 0 ∧ bits 2 1 = 0) ∨ (level ≠ 0 ∧ bits 8 1 = 1) ∨
      (level = 2 ∧ bits 2 1 = 1 ∧ bits 12 18 ≠ 0) ∨ (level = 1 ∧ bits 2 1 = 1 ∧ bits 12 9 ≠ 0)
    let served : Prop := tierOf s pa ≠ .bad ∧ tableServed s pa = true
    (tierOf s pa = .bad → readEntry s level pa = .error causeBadPa) ∧
    (tierOf s pa ≠ .bad → tableServed s pa = false → readEntry s level pa = .error causeNotMapped) ∧
    (served → memPoisoned s pa 8 = true → readEntry s level pa = .error causeEccWalk) ∧
    (served → memPoisoned s pa 8 = false →
      (e % 2 = 0 → readEntry s level pa = .error causeNotMapped) ∧
      (e % 2 = 1 → bad → readEntry s level pa = .error causeBadPte) ∧
      (e % 2 = 1 → ¬ bad → readEntry s level pa = .ok e)) ∧
    causeNotMapped = (1, 2) ∧ causeBadPte = (1, 3)

/-- R37, R38, R42, R44: a walk of a canonical address: the entries are read at the places that the address selects, the first
that is not valid or that is malformed, at whichever level, gives its fault, and a leaf of 4 KiB or of 2 MiB gives its page,
its permissions in the order of R44. -/
def Claims.PageWalk : Prop :=
  ∀ (s : State) (w va e3 e2 e1 e0 : Nat),
    let root := (getWorld s w).root.toNat
    let a3 := root + 8 * (va / 2 ^ 39 % 8192)
    let a2 := e3 / 4096 % 2 ^ 36 * 4096 + 8 * (va / 2 ^ 30 % 512)
    let a1 := e2 / 4096 % 2 ^ 36 * 4096 + 8 * (va / 2 ^ 21 % 512)
    let a0 := e1 / 4096 % 2 ^ 36 * 4096 + 8 * (va / 4096 % 512)
    (canonical va = true ↔ va / 2 ^ 51 % 2 ^ 13 = 0 ∨ va / 2 ^ 51 % 2 ^ 13 = 0x1fff) ∧
    (canonical va = false → ∀ need, walkChecked s w va need = .error causeNoncanon) ∧
    (canonical va = true → ∀ need c, readEntry s 3 a3 = .error c → walkChecked s w va need = .error c) ∧
    (canonical va = true → readEntry s 3 a3 = .ok e3 → ∀ need c,
      (readEntry s 2 a2 = .error c → walkChecked s w va need = .error c) ∧
      (readEntry s 2 a2 = .ok e2 → e2 / 4 % 2 = 0 →
        (readEntry s 1 a1 = .error c → walkChecked s w va need = .error c) ∧
        (readEntry s 1 a1 = .ok e1 → e1 / 4 % 2 = 0 → readEntry s 0 a0 = .error c → walkChecked s w va need = .error c))) ∧
    (canonical va = true → readEntry s 3 a3 = .ok e3 → readEntry s 2 a2 = .ok e2 → e2 / 4 % 2 = 0 →
      readEntry s 1 a1 = .ok e1 → ∀ (small : Bool),
      (if small = true then e1 / 4 % 2 = 0 ∧ readEntry s 0 a0 = .ok e0 ∧ e0 / 256 % 2 = 0 else e0 = e1 ∧ e1 / 4 % 2 = 1) →
      let pa := if small = true then e0 / 4096 % 2 ^ 36 * 4096 + va % 4096 else e1 / 4096 % 2 ^ 36 * 4096 + va % 2 ^ 21
      (tierOf s pa = .bad → ∀ need, walkChecked s w va need = .error causeBadPa) ∧
      (tierOf s pa ≠ .bad →
        (e0 / 8 % 2 = 0 → walkChecked s w va needRead = .error causeReadDenied) ∧
        (e0 / 16 % 2 = 0 → walkChecked s w va needWrite = .error causeWriteDenied) ∧
        (e0 / 32 % 2 = 0 → walkChecked s w va needFetch = .error causeExecDenied) ∧
        (e0 / 8 % 2 = 1 → tagOk s w pa = false → walkChecked s w va needRead = .error causeTag) ∧
        (e0 / 8 % 2 = 1 → tagOk s w pa = true → ∃ l t, walkChecked s w va needRead = .ok (l, t) ∧
          l.pa + va % l.size = pa ∧ l.pte = (if small = true then a0 else a1))))

/-- R40, R41, R43, R44: a walk that completes is off the list; a strand that waits on it finds its page in its core's TLB
with the accessed bit set, or stops with the walk's fault at its own step, which follows the record of a table that
the controller has refused (R35; that it is recorded is the model's reading, log 12). -/
def Claims.WalkCompletes : Prop :=
  ∀ (id : Nat) (s : State) (k : Walk) (st : Strand) (need va : Nat), s.walks.find? (·.id == id) = some k →
    ((s.walks.filter (·.cluster == k.cluster)).take 16).any (·.id == id) = true →
    k.waiters = [(st.home, need, va)] → getStrand s st.home = some st → st.status = .parked (.walk id) →
    let s0 := { s with walks := s.walks.filter (·.id != id) }
    (∀ l t, walkCluster s0 (st.core / 8) k.world va need = .ok (l, t) →
      ∃ s1, exec (.walkComplete id) s = .next s1 ∧ getStrand s1 st.home = some st ∧ s1.walks = s0.walks ∧
        (∀ a, memGet s1.mem a =
          if a = l.pte then memGet s.mem a ||| (if need / 2 % 2 = 1 then 0xc0 else 0x80) else memGet s.mem a) ∧
        (∃ e r, s1.tlb = e :: r ∧ e.core = st.core ∧ e.world = k.world ∧ e.va = l.va ∧ e.pa = l.pa ∧ e.size = l.size ∧
          e.r = l.r ∧ e.w = l.w ∧ e.x = l.x) ∧
        { s1 with walks := s.walks, tlb := s.tlb, mem := s.mem, walkCache := s.walkCache } = s) ∧
    (∀ c, walkCluster s0 (st.core / 8) k.world va need = .error c →
      ∃ s1 st', exec (.walkComplete id) s = .next s1 ∧ getStrand s1 st.home = some st' ∧
        st'.status = .faulted { cls := c.1, cause := c.2, pc := parkedPc s st, addr := BitVec.ofNat 64 va, step := st.step
                                pre := need == needFetch } ∧
        ((getWorld s st.world).fb.halted = false → s1.due = (noteTables s0 k.world va).due ++ [(st.world, faultRecord st { cls := c.1, cause := c.2, pc := parkedPc s st, addr := BitVec.ofNat 64 va, step := st.step, pre := need == needFetch })]))

/-- R43, R60, R89, R125, R131, R221, R249, R282: a parked strand is eligible again once the cause of its park has cleared,
and at no time before. -/
def Claims.ParkWakes : Prop :=
  ∀ (home : Nat) (s : State) (st : Strand) (c : Park), getStrand s home = some st → st.status = .parked c →
    (parkCleared s st c = true → ((getWorld s st.world).tstate = .error → ∀ p va need, c = .ats p va need → need = 0) →
      exec (.parkWake home) s = .next (setStrand s { st with status := .ready })) ∧
    (∀ p va need, c = .ats p va need → parkCleared s st c = true → (getWorld s st.world).tstate = .error → need ≠ 0 →
      ∃ t st', exec (.parkWake home) s = .next t ∧ getStrand t home = some st' ∧
        st'.status = .faulted { cls := 2, cause := 4, pc := parkedPc s st, addr := BitVec.ofNat 64 va, step := st.step
                                pre := need == needFetch }) ∧
    (parkCleared s st c = false → exec (.parkWake home) s = .next s) ∧
    (∀ id, parkCleared s st (.walk id) = true ↔ ∀ k ∈ s.walks, k.id ≠ id) ∧
    (∀ core line, parkCleared s st (.line core line) = true ↔ mapGetD s.writers (core * 8192 + line) 0 = 0) ∧
    (parkCleared s st (.counterFull 0) = true ↔ (st.outs.filter (·.cls == 0)).length < 63) ∧
    (parkCleared s st (.counterFull 1) = true ↔ (st.outs.filter (·.cls == 1)).length < 63) ∧
    (parkCleared s st (.counterFull 2) = true ↔ st.chains < 63) ∧
    (parkCleared s st (.counterFull 3) = true ↔ st.matrix < 63) ∧
    (∀ core limb, parkCleared s st (.matrixQueue core limb) = true ↔
      (s.mx.filter fun o => o.core == core && o.limb == limb && !o.running).length < 16) ∧
    (parkCleared s st .acquire = true ↔ ∀ a ∈ s.pend, a.strand = st.home → isAcquire a.order = false) ∧
    (parkCleared s st .release = true ↔ ∀ a ∈ s.pend, a.strand = st.home → ¬ (isRelease a.order = true ∧ scopeWide a.scope = true)) ∧
    (parkCleared s st .budget = true ↔ bytesExhausted s st.world st.owner = false) ∧
    (parkCleared s st .drain = true ↔ st.outs = []) ∧
    (∀ core ch, parkCleared s st (.channel core ch) = true ↔
      (s.chains.filter fun x => x.core == core && x.ch == ch).length < 64) ∧
    (∀ core limb, parkCleared s st (.requestSlot core limb) = true ↔
      (s.nreqs.filter fun r => r.core == core && r.limb == limb).length < 64)

/-- R126, R131, R320, R321, R335, R393: which strands may be granted a lane, and which is: an eligible understory strand
before all others, else the main partition in round-robin order of slot from the one granted last. -/
def Claims.LaneGrants : Prop :=
  ∀ (core limb lane : Nat) (s : State) (st : Strand),
    let k := 128 * core + 32 * limb + lane
    let on (x : Strand) : Prop := x ∈ s.strands ∧ x.resident = true ∧ strandLane x = k
    (eligible s st = true ↔ st.resident = true ∧ st.status = .ready ∧ st.halted = false ∧ st.toSave = false ∧
      worldRuns s st.world = true ∧ cyclesExhausted s st.world st.owner = false ∧
      ∃ pc, issuePc (strandRecord s st).code st = some pc ∧ waitAllows s st pc = true) ∧
    ((getLane s k).granted = none → on st → eligible s st = true → (∀ x, on x → x.slot = st.slot → x = st) →
      (st.slot = 8 → exec (.laneGrant core limb lane) s =
        .next { s with lanes := mapSet s.lanes k { granted := some st.home, issues := 0, last := (getLane s k).last } }) ∧
      (st.slot < 8 → (∀ x, on x → eligible s x = true → x.slot ≠ 8 ∧
          (x.slot < 8 → (st.slot + 7 - (getLane s k).last % 8) % 8 ≤ (x.slot + 7 - (getLane s k).last % 8) % 8)) →
        exec (.laneGrant core limb lane) s =
          .next { s with lanes := mapSet s.lanes k { granted := some st.home, issues := 0, last := st.slot } }))

/-- R127, R129: where a thread of the strand that holds its lane has waited 256 lane cycles, the strand issues next, at the
PC of a thread that has waited longest. -/
def Claims.ForcedIssues : Prop :=
  ∀ (home : Nat) (s : State) (st : Strand) (k : Nat), getStrand s home = some st →
    (getLane s (strandLane st)).granted = some home → st.interrupted = false → k < st.threads.length →
    256 ≤ (getThread st k).waiting → (getThread st k).exited = false → held (strandRecord s st).code st k = false →
    exec (.forcedIssue home) s = .next { s with turns := .issue st.core st.limb st.lane :: s.turns } ∧
    ∃ j, j < st.threads.length ∧ (getThread st k).waiting ≤ (getThread st j).waiting ∧
      issuePc (strandRecord s st).code st = some (getThread st j).pc

/-- R119: where every resident strand of a grove that has not ended is blocked, the oldest graft that grows completes with
its predicate cleared and no depth changed. -/
def Claims.GraftDeadlocks : Prop :=
  ∀ (grove : Nat) (s : State) (x : Strand) (gw : GraftWait),
    let mates := s.strands.filter fun y => y.grove == grove
    (∀ y ∈ mates, y.resident = true → blocked mates y = true) → x ∈ mates → getStrand s x.home = some x →
    x.status = .waitGraft gw → 0 < gw.count → x.stepm = 0 → x.rbWait = false →
    (∀ y ∈ mates, ∀ g, y.status = .waitGraft g → 0 < g.count →
      y = x ∨ gw.arrival < g.arrival ∨ (gw.arrival = g.arrival ∧ x.sidx < y.sidx)) →
    ∃ t x', exec (.graftDeadlockBreak grove) s = .next t ∧ getStrand t x.home = some x' ∧ x'.status = .ready ∧
      x'.depth = x.depth ∧ (∀ k, k < x.threads.length → (getThread x k).exited = false → getPred x' k gw.pd = false) ∧
      (∀ key, valueAt x' key = valueAt x key) ∧ { t with strands := s.strands } = s ∧
      ∀ y, y ≠ x.home → getStrand t y = getStrand s y

/-- R325, R326, R327: what becomes of a record: a world without a ring drops and counts it; on a full ring a strand-fault
record waits and any other is dropped and counted; else it is written to the slot of the ring that the write index names,
with the low half of that index in word 1, and the index rises. A record that a full ring held is written once there is
room, the oldest first. -/
def Claims.FaultRecords : Prop :=
  ∀ (s : State) (w : Nat) (words : List DWord), words.length = 4 → s.worlds.any (·.no == w) = true →
    let x := getWorld s w
    let fb := x.fb
    let noRing : Prop := fb.ring = 0 ∨ fb.lsize < 4 ∨ 15 < fb.lsize
    let full : Prop := (fb.wridx - fb.rdidx).toNat = 2 ^ fb.lsize
    let lose (s : State) (x : World) : State := setWorld s { x with fb := { fb with lost := min (fb.lost + 1) 0xffffffff } }
    (noRing → writeRecord s (w, words) = lose s x) ∧
    (¬ noRing → full → (words.getD 3 0).toNat / 2 ^ 56 ≠ 0 → writeRecord s (w, words) = lose s x) ∧
    (¬ noRing → full → (words.getD 3 0).toNat / 2 ^ 56 = 0 →
      writeRecord s (w, words) = setWorld s { x with heldRecords := x.heldRecords ++ [words] }) ∧
    (¬ noRing → ¬ full → fb.ne = false → ∀ s1,
      frontWrite s 0 (fb.ring.toNat + 32 * (fb.wridx.toNat % 2 ^ fb.lsize))
        ([words.getD 0 0, words.getD 1 0 ||| BitVec.ofNat 64 (fb.wridx.toNat % 2 ^ 32), words.getD 2 0, words.getD 3 0].flatMap
          fun v => leList 8 v.toNat) = .ok s1 →
      writeRecord s (w, words) = setWorld s1 { x with fb := { fb with wridx := fb.wridx + 1 } }) ∧
    (∀ r rest, x.heldRecords = r :: rest → (noRing ∨ ¬ full) →
      exec (.faultRecordDeferredWrite w) s = .next (writeRecord (setWorld s { x with heldRecords := rest }) (w, r)))

/-- R335: a write of 1 to halted lets the halted strands of the world go on, and changes nothing else. -/
def Claims.HaltReleases : Prop :=
  ∀ (w : Nat) (s : State), ∃ t, exec (.haltRelease w) s = .next t ∧ { t with strands := s.strands, worlds := s.worlds } = s ∧
    (∀ x, getStrand t x = (getStrand s x).map fun y => if y.world = w then { y with halted := false } else y) ∧
    (s.worlds.any (·.no == w) = true → getWorld t w = { getWorld s w with fb := { (getWorld s w).fb with halted := false } }) ∧
    ∀ x, x ≠ w → getWorld t x = getWorld s x

/-- R330: a strand to be restarted that has nothing outstanding stands at the start of its current run: its PCs,
predicates, meeting state as they stood then, its run temporaries lapsed, its other registers as they are. -/
def Claims.StrandRestarts : Prop :=
  ∀ (home : Nat) (s : State) (st : Strand) (e : RunEntry), getStrand s home = some st → st.status = .restarting →
    (∀ o ∈ st.outs, o.left = 0) → st.matrix = 0 → (∀ r ∈ s.nreqs, r.strand ≠ home) → st.queries = [] → st.runEntry = some e →
    e.threads.length = st.threads.length →
    ∃ t st', exec (.strandRestart home) s = .next t ∧ getStrand t home = some st' ∧ st'.status = .ready ∧
      st'.interrupted = false ∧ st'.step = 0 ∧ (∀ n, valueAt st' (.q n) = none) ∧
      (∀ n, valueAt st' (.v n) = valueAt st (.v n)) ∧ (∀ n, valueAt st' (.s n) = valueAt st (.s n)) ∧ st'.sap = st.sap ∧
      (∀ k, k < st.threads.length →
        (getThread st' k).pc = (e.threads.getD k default).pc ∧ (getThread st' k).preds = (e.threads.getD k default).preds ∧
        (getThread st' k).meet = (e.threads.getD k default).meet ∧
        (getThread st' k).mstack = (e.threads.getD k default).mstack ∧
        (getThread st' k).exited = (getThread st k).exited ∧ (getThread st' k).height = (getThread st k).height) ∧
      (∀ x, x ≠ home → getStrand t x = getStrand s x) ∧ { t with strands := s.strands } = s

/-- R330, R336: an uncorrectable error in the control store kills the strand: every thread has exited, its launch will
complete as killed, and a record of cause CONTROL is owed. -/
def Claims.ControlErrorKills : Prop :=
  ∀ (home : Nat) (s : State) (st : Strand) (l : Launch), getStrand s home = some st → getLaunch s st.launch = some l →
    (∀ y ∈ s.strands, y.stepm = 0 ∧ ∀ b, y.status ≠ .waitBar b) → st.world < 64 → st.owner < 256 → st.step < 64 →
    ∃ t st', exec (.controlEccKill home) s = .next t ∧ getStrand t home = some st' ∧ st'.killed = true ∧
      (∀ th ∈ st'.threads, th.exited = true) ∧ (∃ l', getLaunch t st.launch = some l' ∧ l'.killed = true) ∧
      ∃ r, t.due = s.due ++ [(st.world, r)] ∧ (r.getD 3 0).toNat / 2 ^ 40 % 2 ^ 16 = 0x0f09

/-- R51, R319: when the fill epoch wraps every slice writes its dirty bytes back and drops all of its lines; what it holds then
are pinned lines, fetched again: that these survive the wrap so is the model's reading (log 38). R56: of the 32 bank groups of the
weight store one refreshes at a time, each for 2,000 ticks in 64,000. -/
def Claims.EpochAndRefresh : Prop :=
  (∀ s : State, s.time % 2 ^ 44 = 0 → ∃ t, exec .epochWrap s = .next t ∧
    (∀ l ∈ s.slices, (∀ l' ∈ s.slices, l'.line = l.line → l' = l) → served s l.world (128 * l.line) = true →
      encrypted s (128 * l.line) = false → ∀ j, j < 128 → l.dirty.getLsbD j = true →
      memGet t.mem (128 * l.line + j) = l.data.getD j 0) ∧
    (∀ a, encrypted s a = false → (∀ l ∈ s.slices, l.line = a / 128 → l.dirty.getLsbD (a % 128) = false) →
      memGet t.mem a = memGet s.mem a) ∧
    (∀ l ∈ t.slices, ∃ q ∈ s.queues, l.line ∈ q.pinLines) ∧ t.dcache = s.dcache ∧
    t.strands = s.strands ∧ t.time = s.time) ∧
  (∀ (s : State) (g : Nat), exec (.wsRefreshWindow g) s = .next s) ∧
  (∀ (s : State) (off : Nat), refreshing s off = true ↔ s.time % 64000 / 2000 = off / 0x1800000)

/-- R52, R61, R101, R192, R303: a strand whose threads have all exited and that has nothing outstanding ends: it leaves the
device. With the last strand of its grove, whose chains have completed, the grove exits, and each segment that it holds is
detached: a count of attaches falls, and with the last attach the storage of a freed, damaged or kernel segment goes. -/
def Claims.StrandEnds : Prop :=
  ∀ (home : Nat) (s : State) (st : Strand), getStrand s home = some st → (∀ th ∈ st.threads, th.exited = true) →
    (∀ o ∈ st.outs, o.left = 0) → st.matrix = 0 → (∀ r ∈ s.nreqs, r.strand ≠ home) → st.queries = [] →
    (∀ y ∈ s.strands, (∀ b, y.status ≠ .waitBar b) ∧ y.stepm = 0) →
    ((∃ y ∈ s.strands, y.grove = st.grove ∧ y.home ≠ home) →
      ∃ t, exec (.strandEnd home) s = .next t ∧ getStrand t home = none ∧
        (∀ x, x ≠ home → getStrand t x = getStrand s x) ∧ t.groves = s.groves) ∧
    (∀ g, (∀ y ∈ s.strands, y.grove = st.grove → y.home = home) → (∀ c ∈ s.chains, c.grove ≠ st.grove) →
      getGrove s st.grove = some g → s.strands.Nodup → (g.attached.map (·.uid)).Nodup →
      ∃ t, exec (.strandEnd home) s = .next t ∧ getStrand t home = none ∧ getGrove t st.grove = none ∧
        (∀ a ∈ g.attached, ∀ x, getSegment s a.uid = some x →
          (1 < x.attaches → getSegment t a.uid = some { x with attaches := x.attaches - 1 }) ∧
          (x.attaches = 1 → x.freed = true → getSegment t a.uid = none) ∧
          (x.attaches = 1 → x.freed = false → ∃ y, getSegment t a.uid = some y ∧ y.attaches = 0 ∧
            y.dtime = s.time % 2 ^ 64 ∧ (x.state = .damaged ∨ x.life = .kernel → y.stored = false) ∧
            (x.state ≠ .damaged → x.life ≠ .kernel → y.stored = x.stored ∧ y.state = x.state))) ∧
        (∀ u, (∀ a ∈ g.attached, a.uid ≠ u) → getSegment t u = getSegment s u) ∧
        ((∃ x ∈ s.groves, x.launch = g.launch ∧ x.id ≠ g.id) → t.launches = s.launches ∧ t.packets = s.packets) ∧
        (∀ l q n, getLaunch s g.launch = some l → l.src = .packet q n → l.total ≤ l.next →
          (∀ x ∈ s.groves, x.launch = g.launch → x.id = g.id) →
          getLaunch t g.launch = none ∧
          ∀ p ∈ s.packets, p.hd.queue = q → p.hd.index = n → p.status = none →
            { p with status := some (if l.killed then 7 else if l.overrun then 8 else 0) } ∈ t.packets))

/-! ### Context switches -/

/-- R332, R333: the layout of a strand's state: the uniform registers, the header, the threads' records, the run
temporaries, the stack slots and the tiles, each at its place, with the poison of each; what has no place reads 0. -/
def Claims.SaveLayout : Prop :=
  ∀ (s : State) (st : Strand),
    (∀ n, n < 24 → windowWord s st (4 * n) = (mapGetD st.sregs n 0, st.poisoned.contains (.s n))) ∧
    windowWord s st 0x60 = (st.sap, st.poisoned.contains .sap) ∧
    windowWord s st 0x64 = (st.fmode, false) ∧ windowWord s st 0x68 = (st.fstat, false) ∧
    (st.step < 64 → st.stepm < 4 → windowWord s st 0x6c =
      (BitVec.ofNat 32 (st.step + (if st.interrupted then 0x100 else 0) + 0x400 * st.stepm), false)) ∧
    windowWord s st 0x70 = (lo32 st.slim, false) ∧ windowWord s st 0x74 = (hi32 st.slim, false) ∧
    windowWord s st 0x78 = (BitVec.ofNat 32 st.depth, false) ∧
    windowWord s st 0x7c = (BitVec.ofNat 32 (st.width + 0x100 * st.ntiles + 0x1000 *
      (if (getLane s (strandLane st)).granted = some st.home then (getLane s (strandLane st)).issues else 0)), false) ∧
    windowWord s st 0x80 = (lo32 st.spill, false) ∧ windowWord s st 0x84 = (hi32 st.spill, false) ∧
    windowWord s st 0x88 = (BitVec.ofNat 32 (handleOf st.home st.gen), false) ∧
    windowWord s st 0x8c = (BitVec.ofNat 32 st.chains, false) ∧
    (∀ k, k < st.width → st.width ≤ 64 →
      let th := getThread st k
      let pw := (windowWord s st (0x100 + 64 * k + 12)).1
      let fb := (windowWord s st (0x100 + 64 * k + 24)).1.toNat
      let tickets := (windowWord s st (0x100 + 64 * k + 28)).1
      pw.setWidth 16 = th.preds ∧ pw.toNat / 2 ^ 16 % 16 = th.mstack.length % 16 ∧ pw.getLsbD 20 = th.exited ∧
      pw.toNat / 2 ^ 21 % 8 = th.ql % 8 ∧ pw.toNat / 2 ^ 24 = th.qe % 256 ∧
      fb % 2 ^ 24 = th.base % 2 ^ 24 ∧ fb / 2 ^ 24 = th.fsize % 256 ∧
      (∀ b, tickets.getLsbD b = (decide (4 ≤ b ∧ b < 8) && th.tickets.any (·.no + 4 == b) ||
        decide (8 ≤ b ∧ b < 12) && th.tickets.any fun x => x.done && x.no + 8 == b)) ∧
      (∀ j, j < th.mstack.length → j < 8 → (windowWord s st (0x100 + 64 * k + 32 + 4 * j)).1 = th.mstack.getD j 0) ∧
      (windowWord s st (0x100 + 64 * k)).1 = lo32 (getThread st k).pc ∧
      (windowWord s st (0x100 + 64 * k + 4)).1 = hi32 (getThread st k).pc ∧
      (windowWord s st (0x100 + 64 * k + 8)).1 = (getThread st k).meet ∧
      (windowWord s st (0x100 + 64 * k + 16)).1 = BitVec.ofNat 32 (getThread st k).height ∧
      (windowWord s st (0x100 + 64 * k + 20)).1 = BitVec.ofNat 32 (getThread st k).floor ∧
      ∀ j, j < 6 → ∀ v, mapGet st.qregs (64 * j + k) = some v →
        windowWord s st (0x1100 + 32 * k + 4 * j) = (v, st.poisoned.contains (.q (64 * j + k)))) ∧
    (∀ k j v, k < st.width → st.width ≤ 64 → j < st.depth → st.width * st.depth ≤ 5632 →
      let n := 64 * ((getThread st k).floor + j) + k
      mapGet st.vregs n = some v → windowWord s st (0x2000 + 4 * (st.width * j + k)) = (v, st.poisoned.contains (.v n))) ∧
    (∀ k v, k < 1024 * st.ntiles → st.width ≤ 64 → st.width * st.depth ≤ 5632 → mapGet st.tiles k = some v →
      windowWord s st (0x8000 + 4 * k) = (v, st.tpoison.contains k)) ∧
    (∀ off, st.width ≤ 64 → st.width * st.depth ≤ 5632 →
      (off % 4 ≠ 0 ∨ (0x90 ≤ off ∧ off < 0x100) ∨ (0x100 + 64 * st.width ≤ off ∧ off < 0x1100) ∨
        (0x1100 ≤ off ∧ off < 0x1100 + 32 * st.width ∧ 24 ≤ (off - 0x1100) % 32) ∨
        (0x1100 + 32 * st.width ≤ off ∧ off < 0x2000) ∨ (0x2000 + 4 * (st.width * st.depth) ≤ off ∧ off < 0x8000) ∨
        0x8000 + 4096 * st.ntiles ≤ off) → windowWord s st off = (0, false))

/-- R321, R331: a strand that is to be saved, has stopped and has nothing outstanding is switched out: under mode 01 to the
entry of its current run, else with every word of its layout written to its save area under its world. -/
def Claims.ContextSaves : Prop :=
  ∀ (home : Nat) (s : State) (st : Strand), getStrand s home = some st → st.toSave = true → st.resident = true →
    st.halted = false → st.status = .ready → (getLane s (strandLane st)).granted ≠ some home →
    (∀ o ∈ st.outs, o.left = 0) → st.matrix = 0 → (∀ r ∈ s.nreqs, r.strand ≠ home) → st.queries = [] →
    worldRuns s st.world = true →
    let out (t : State) (area : Bool) : Prop := ∃ st', getStrand t home = some st' ∧ st'.resident = false ∧
      st'.toSave = false ∧ st'.inArea = area ∧ st'.status = .ready ∧ st'.home = home ∧ st'.gen = st.gen ∧
      ∀ x, x ≠ home → getStrand t x = getStrand s x
    ((strandRecord s st).preempt ≠ 1 → ∀ s1, saveWords st (savedOffsets st) s = .ok s1 →
      ∃ t, exec (.contextSave home) s = .next t ∧ out t true ∧ { t with strands := s1.strands, used := s1.used } = s1) ∧
    ((strandRecord s st).preempt = 1 → (getWorld s st.world).quiescing = false → ∀ e, st.runEntry = some e →
      ∃ t, exec (.contextSave home) s = .next t ∧ out t false ∧ { t with strands := s.strands, used := s.used } = s ∧
        ∃ st', getStrand t home = some st' ∧ st'.fmode = e.fmode ∧ st'.fstat = e.fstat ∧ st'.slim = e.slim ∧
          st'.threads.map (·.pc) = e.threads.map (·.pc) ∧
          st'.vregs = e.vregs ∧ st'.sregs = e.sregs ∧ st'.sap = e.sap ∧ st'.poisoned = e.poisoned)

/-- R17, R331: a strand that is switched out returns to a lane of its core with room, on a limb of its world: as it stood
under mode 01, else with its state read back from its save area; none of a world whose traffic is being stopped does (R394). -/
def Claims.ContextRestores : Prop :=
  ∀ (home limb lane slot : Nat) (s : State) (st : Strand), getStrand s home = some st → st.resident = false →
    limb < 4 → lane < 32 → mapGet s.limbWorld (4 * st.core + limb) = some st.world → worldRuns s st.world = true →
    (getWorld s st.world).quiescing = false → roomFor s st limb lane slot = true →
    let here (t : State) (b : Strand) : Prop :=
      getStrand t home = some { b with
        limb := limb, lane := lane, slot := slot, resident := true, inArea := false
        blank := if b.inArea then 0 else b.blank, blankTiles := b.blankTiles && !b.inArea } ∧
      ∀ x, x ≠ home → getStrand t x = getStrand s x
    (st.inArea = false → ∃ t, exec (.contextRestore home limb lane slot) s = .next t ∧ here t st ∧
      { t with strands := s.strands } = s) ∧
    (st.inArea = true → ∀ s1 st1, restoreWords (savedOffsets st) s st = .ok (s1, st1) → s1.strands = s.strands →
      st1.home = home → ∃ t, exec (.contextRestore home limb lane slot) s = .next t ∧ here t st1)

/-- R333: system software writes the state of a stopped strand through its window: a register, a thread's PC without its low
bits, `fmode`, the step index and the stepping control; a write of what is read-only changes nothing, and so does a
write of a strand that has not stopped. That a written `fmode` is cut to its fields, with a reserved rounding mode made
nearest, is the model's reading (log 27). -/
def Claims.WindowWrites : Prop :=
  ∀ (home off : Nat) (v : Word) (s : State) (st : Strand), getStrand s home = some st →
    let writes (f : Strand → Prop) : Prop := ∃ t st', exec (.strandWindowWrite home off v) s = .next t ∧
      getStrand t home = some st' ∧ f st' ∧ (∀ x, x ≠ home → getStrand t x = getStrand s x) ∧
      { t with strands := s.strands, lanes := s.lanes } = s
    ((∀ f, st.status ≠ .faulted f) → st.halted = false → exec (.strandWindowWrite home off v) s = .next s) ∧
    (((∃ f, st.status = .faulted f) ∨ st.halted = true) →
      (∀ n, n < 24 → off = 4 * n → writes fun st' => valueAt st' (.s n) = some v ∧
        ∀ key, key ≠ .s n → valueAt st' key = valueAt st key) ∧
      (off = 0x60 → writes fun st' => st'.sap = v) ∧
      (off = 0x64 → writes fun st' => st' =
        { st with fmode := if 6 ≤ v.toNat % 8 then v &&& 0xff0 else v &&& 0xff7 }) ∧
      (off = 0x6c → writes fun st' => st' =
        { st with step := v.toNat % 64, interrupted := v.toNat / 256 % 2 == 1, stepm := v.toNat / 1024 % 4 }) ∧
      (off = 0x78 ∨ off = 0x80 ∨ off = 0x84 ∨ off = 0x88 → writes (· = st)) ∧
      (∀ k, k < st.width → st.width ≤ 64 → k < st.threads.length → off = 0x100 + 64 * k → writes fun st' =>
        (getThread st' k).pc = mk64 (v &&& 0xfffffff8) (hi32 (getThread st k).pc) ∧
        ∀ j, j ≠ k → getThread st' j = getThread st j))

/-! ### The copy engine -/

/-- R58, R60, R75: the engine admits the next card of a channel's first chain that has one or waits for the
decision of an IF, in round-robin order of the channels, while
fewer than 32 instances are in flight on the core and fewer than 16 on the channel; at 32 or 16 it takes none of them. The
order of a channel's chains, and that an undecided IF keeps the later ones back, is the model's reading (log 18). -/
def Claims.CardAdmitted : Prop :=
  ∀ (core ch : Nat) (s : State) (c : Chain) (f : Frame) (rest : List Frame) (g : Grove) (k : Card) (o : Nat),
    ch < 4 → ch = mapGetD s.rr core 0 % 4 → mapGetD s.rr core 0 < 4 →
    (s.chains.find? fun x => x.core == core && x.ch == ch && (x.rejected || x.frames != [] || !(undecided s x).isEmpty)) = some c →
    c.rejected = false → c.frames = f :: rest → f.at_ = some o → cardAt c o = some k → chainInsts s c = [] →
    cardKind k ≠ 5 → getGrove s c.grove = some g → readCard s c.core c.world g k.off = some k → cardKind k ≠ 2 →
    let onCore := (s.insts.filter fun i => i.segment.isNone && i.core == core).length
    let onChannel := (s.insts.filter fun i => i.segment.isNone && i.core == core && i.ch == ch).length
    (onCore < 32 → onChannel < 16 → ∃ t, exec (.cardAdmit core) s = .next t ∧
      t.insts = s.insts ++ [{ id := s.nextId, core := c.core, ch := c.ch, world := c.world, seq := c.seq, grove := c.grove
                              card := k, srcAdv := f.srcAdv, dstAdv := f.dstAdv, bounds := f.bounds }] ∧
      t.nextId = s.nextId + 1 ∧ mapGetD t.rr core 0 = (ch + 1) % 4 ∧ t.strands = s.strands ∧ t.mem = s.mem) ∧
    (32 ≤ onCore ∨ 16 ≤ onChannel →
      (∀ x ∈ s.chains, x.core = core → x.ch ≠ ch → x.rejected = false ∧ x.frames = [] ∧ undecided s x = []) →
      exec (.cardAdmit core) s = .next s)

/-- R70: a LOOP whose turn it is takes no place in the window: its body is next, or what follows it where its count is 0.
At the end of an iteration the next one begins, its source and destination addresses advanced by the steps once more; after
the last the chain goes on behind the LOOP. -/
def Claims.LoopsRun : Prop :=
  ∀ (core ch : Nat) (s : State) (c : Chain) (f : Frame) (rest : List Frame) (g : Grove),
    ch < 4 → ch = mapGetD s.rr core 0 % 4 → mapGetD s.rr core 0 < 4 →
    (s.chains.find? fun x => x.core == core && x.ch == ch && (x.rejected || x.frames != [] || !(undecided s x).isEmpty)) = some c →
    getChain s core ch c.world c.seq = some c → c.rejected = false → c.frames = f :: rest → getGrove s c.grove = some g →
    let framed (fs : List Frame) : Prop := ∃ t c', exec (.cardAdmit core) s = .next t ∧
      getChain t core ch c.world c.seq = some c' ∧ c'.frames = fs ∧ t.insts = s.insts ∧ t.strands = s.strands ∧ t.mem = s.mem
    (∀ k o, f.at_ = some o → cardAt c o = some k → chainInsts s c = [] → cardKind k = 5 →
      readCard s c.core c.world g k.off = some k → (∀ r ∈ cardRegions k, r.2.1 ≠ 1) →
      let after : Frame := { f with at_ := if cardLast k then none else some (cardNext k) }
      (0 < cardField k 12 4 → framed ({ at_ := some (cardField k 8 4), loop := some k.off, head := cardField k 8 4, iter := 0
                                        count := cardField k 12 4, srcStep := (BitVec.ofNat 64 (cardField k 16 8)).toInt
                                        dstStep := (BitVec.ofNat 64 (cardField k 24 8)).toInt, srcAdv := f.srcAdv
                                        dstAdv := f.dstAdv
                                        bounds := advRegions f.srcAdv f.dstAdv (cardRegions k) :: f.bounds } :: after :: rest)) ∧
      (cardField k 12 4 = 0 → cardLast k = false → framed (after :: rest))) ∧
    (f.at_ = none → f.loop.isSome = true → f.iter + 1 < f.count →
      framed ({ f with at_ := some f.head, iter := f.iter + 1, srcAdv := f.srcAdv + f.srcStep
                       dstAdv := f.dstAdv + f.dstStep } :: rest)) ∧
    (f.at_ = none → f.count ≤ f.iter + 1 → (∃ x ∈ rest, x.at_.isSome = true) → framed rest)

/-- R65, R67, R68, R69, R75: an admitted instance that nothing holds back starts and moves its bytes within scratch. COPY
writes byte j from source byte j, FILL from byte j mod 8 of its pattern, GATHER element j from the place that index j names,
ND-COPY the elements of its index tuples; every address is advanced by the steps of the LOOPs around the card, and no other
byte changes. -/
def Claims.CardStarts : Prop :=
  ∀ (core id : Nat) (s : State) (i : Inst) (g : Grove) (base len : Nat), StartsNow s core id i g base len →
    let regions := advRegions i.srcAdv i.dstAdv (cardRegions i.card)
    let field (o n : Nat) : Nat := cardField i.card o n
    let before (x : Nat) : Byte := memGet (scratchMem s core) (base + x)
    let begins (t : State) : Prop := exec (.cardStart core id) s = .next t ∧
      (∀ x, x < base ∨ base + len ≤ x → memGet (scratchMem t core) x = memGet (scratchMem s core) x) ∧
      (∀ c, c ≠ core → scratchMem t c = scratchMem s c) ∧
      t.insts = s.insts.map (fun x => if x.id = id then { x with started := true, since := s.time } else x) ∧
      t.strands = s.strands ∧ t.mem = s.mem ∧ t.chains = s.chains
    let becomes (dst n : Nat) (byte : Nat → Byte) : Prop := ∃ t, begins t ∧ ∀ x, x < len →
      memGet (scratchMem t core) (base + x) = if dst ≤ x ∧ x < dst + n then byte (x - dst) else before x
    (∀ b ∈ i.bounds, ∀ r ∈ regions, inFoot b r.1 r.2.1 r.2.2.1 r.2.2.2 = true) →
    (cardKind i.card = 1 → field 28 4 = 0xa →
      let src := advance (field 8 8) i.srcAdv
      let dst := advance (field 16 8) i.dstAdv
      let n := field 24 4
      regions = [(false, 2, src, n), (true, 2, dst, n)] → src + n ≤ len → dst + n ≤ len → (src + n ≤ dst ∨ dst + n ≤ src) →
      becomes dst n fun j => before (src + j)) ∧
    (cardKind i.card = 4 → field 28 4 = 0x8 →
      let dst := advance (field 8 8) i.dstAdv
      let n := field 24 4
      regions = [(true, 2, dst, n)] → dst + n ≤ len →
      becomes dst n fun j => (BitVec.ofNat 64 (field 16 8)).extractLsb' (8 * (j % 8)) 8) ∧
    (cardKind i.card = 3 → field 36 4 = 0xa →
      let n := field 32 4
      let count := field 28 4
      let dst := advance (field 16 8) i.dstAdv
      let index (j : Nat) : Nat := leVal ((List.range 4).map fun b => before (field 24 4 + 4 * j + b))
      let src (j : Nat) : Nat := advance (field 8 8 + index j * n) i.srcAdv
      ∀ lo ln ilo iln, regions = [(false, 2, lo, ln), (false, 2, ilo, iln), (true, 2, dst, count * n)] → 0 < n →
        lo + ln ≤ len → ilo + iln ≤ len → dst + count * n ≤ len → ilo ≤ field 24 4 → field 24 4 + 4 * count ≤ ilo + iln →
        (lo + ln ≤ dst ∨ dst + count * n ≤ lo) → (ilo + iln ≤ dst ∨ dst + count * n ≤ ilo) →
        (∀ j, j < count → lo ≤ src j ∧ src j + n ≤ lo + ln) →
        (∀ j, j < count → dst + j * n = advance (field 16 8 + j * n) i.dstAdv) →
        becomes dst (count * n) fun x => before (src (x / n) + x % n)) ∧
    (cardKind i.card = 2 → field 28 4 = 0xa →
      let shape (o n : Nat) : Nat := leVal ((List.range n).map fun b => before (field 24 4 + o + b))
      let signed (o : Nat) : Int := (BitVec.ofNat 64 (shape o 8)).toInt
      let src (a b : Nat) : Nat := advance (field 8 8) (i.srcAdv + (a * signed 16 + b * signed 40))
      let dst (a b : Nat) : Nat := advance (field 16 8) (i.dstAdv + (a * signed 24 + b * signed 48))
      ∀ e lo ln rlo rn dlo dn, e < 4 → shape 0 8 = 2 + 16 * e → shape 12 4 = 0 →
        regions = [(false, 2, lo, ln), (false, 2, rlo, rn), (true, 2, dlo, dn)] → lo + ln ≤ len → rlo + rn ≤ len →
        dlo + dn ≤ len → rlo ≤ field 24 4 → field 24 4 + 128 ≤ rlo + rn → (lo + ln ≤ dlo ∨ dlo + dn ≤ lo) →
        (rlo + rn ≤ dlo ∨ dlo + dn ≤ rlo) →
        (∀ a b, a < shape 8 4 → b < shape 32 4 → lo ≤ src a b ∧ src a b + 2 ^ e ≤ lo + ln ∧ dlo ≤ dst a b ∧
          dst a b + 2 ^ e ≤ dlo + dn) →
        ∃ t, begins t ∧
          (∀ a b j, a < shape 8 4 → b < shape 32 4 → j < 2 ^ e →
            (∀ a' b', a' < shape 8 4 → b' < shape 32 4 → b < b' ∨ b = b' ∧ a < a' →
              dst a b + j < dst a' b' ∨ dst a' b' + 2 ^ e ≤ dst a b + j) →
            memGet (scratchMem t core) (base + dst a b + j) = before (src a b + j)) ∧
          (∀ x, x < len → (∀ a b, a < shape 8 4 → b < shape 32 4 → x < dst a b ∨ dst a b + 2 ^ e ≤ x) →
            memGet (scratchMem t core) (base + x) = before x))

/-- R71, R73, R74: an IF that starts reads its condition word, and the body that it chooses is next, if that is present; a NOTE
adds its addend to its notify register; a PEER COPY gives its bytes to its port, in flits of at most 232 bytes. How bytes
fill flits is the model's choice (log 45). -/
def Claims.CardActs : Prop :=
  ∀ (core id : Nat) (s : State) (i : Inst) (g : Grove) (c : Chain) (base len : Nat), StartsNow s core id i g base len →
    i.core = core → i.bounds = [] → getChain s core i.ch i.world i.seq = some c →
    let field (o n : Nat) : Nat := cardField i.card o n
    let before (x : Nat) : Byte := memGet (scratchMem s core) (base + x)
    let begun (t : State) : Prop := exec (.cardStart core id) s = .next t ∧ t.scratch = s.scratch ∧
      t.insts = s.insts.map fun x => if x.id = id then { x with started := true, since := s.time } else x
    (cardKind i.card = 6 → cardRegions i.card = [(false, 2, field 8 4, 8)] → i.srcAdv = 0 → field 8 4 + 8 ≤ len →
      field 12 4 < 4 → c.rejected = false →
      let x := leVal ((List.range 8).map fun b => before (field 8 4 + b))
      let v := field 16 8
      let holds : Bool := match field 12 4 with
        | 0 => x == v
        | 1 => x != v
        | 2 => decide (x < v)
        | _ => decide (v ≤ x)
      let body (o : Nat) : Frame := { at_ := some o, srcAdv := i.srcAdv, dstAdv := i.dstAdv, bounds := i.bounds }
      ∃ t c', begun t ∧ getChain t core i.ch i.world i.seq = some c' ∧ t.strands = s.strands ∧ t.mem = s.mem ∧
        (holds = true → field 32 4 % 2 = 1 → c'.frames = body (field 24 4) :: c.frames) ∧
        (holds = true → field 32 4 % 2 = 0 → c'.frames = c.frames) ∧
        (holds = false → field 32 4 / 2 % 2 = 1 → c'.frames = body (field 28 4) :: c.frames) ∧
        (holds = false → field 32 4 / 2 % 2 = 0 → c'.frames = c.frames)) ∧
    (cardKind i.card = 8 → ∀ e, mapGet s.ntable (field 8 4) = some e → e.world = i.world → field 8 4 ≤ 4095 → e.arm = false →
      (∀ x ∈ s.strands, ∀ q, x.status ≠ .waitNotify q) → ∃ t, begun t ∧
        mapGetD t.notify (field 8 4) 0 = mapGetD s.notify (field 8 4) 0 + BitVec.ofNat 32 (field 12 4) ∧
        (∀ k, k ≠ field 8 4 → mapGet t.notify k = mapGet s.notify k)) ∧
    (cardKind i.card = 9 → field 28 4 % 4 = 2 → i.srcAdv = 0 →
      let port := field 28 4 / 4 % 8
      let n := field 24 4
      cardRegions i.card = [(false, 2, field 8 8, n), (true, 3, field 16 8, n)] → field 8 8 + n ≤ len →
      ∀ p, s.ports[port]? = some p → portUp s port = true → p.window = [] → p.backlog = [] → n ≤ 232 * 64 → p.sent + 64 ≤ 2 ^ 48 →
      ∃ t q, begun t ∧ t.ports[port]? = some q ∧ q.backlog = [] ∧
        q.window.flatMap (·.payload) = (List.range n).map (fun j => before (field 8 8 + j)) ∧
        (∀ f ∈ q.window, f.payload.length ≤ 232 ∧ f.inst = some id ∧ f.poison = false) ∧ t.strands = s.strands ∧ t.mem = s.mem)

/-- R59, R61, R62, R72, R74, R77, R402: an instance that has started completes: it is out of the engine, and with the last of a
chain that has admitted every card the chain completes: its channel's count rises where it is the next in order, its
strand counts one chain fewer. A SEQ waits for its channel's count, a PEER COPY for its acknowledgement, which comes once the link
has accepted its flits (R402). -/
def Claims.CardCompletes : Prop :=
  ∀ (core id : Nat) (s : State) (i : Inst) (c : Chain) (st : Strand) (g : Grove),
    (s.insts.find? fun x => x.id == id && x.core == core && x.segment.isNone) = some i → i.started = true →
    getChain s core i.ch i.world i.seq = some c → i.core = core → c.core = core → c.frames = [] → c.rejected = false → c.fault = none →
    chainInsts s c = [i] → c.pending = [] → (s.insts.map (·.id)).Nodup →
    getGrove s c.grove = some g → getStrand s c.strand = some st → st.gen = c.gen →
    (∀ y ∈ s.strands, ∀ q, y.status ≠ .waitSeq q) →
    let ch := getChannel s core i.ch i.world
    let completes (ins : Instr) : Prop := ∃ t st', exec ins s = .next t ∧ t.insts = s.insts.filter (·.id != id) ∧
      t.chains = s.chains.filter (fun x => !sameChain c x) ∧ getStrand t c.strand = some st' ∧ st'.chains = st.chains - 1 ∧
      (ch.ahead = [] → c.seq = ch.completed + 1 →
        (getChannel t core i.ch i.world).completed = ch.completed + 1) ∧
      (ch.ahead = [] → c.seq ≠ ch.completed + 1 →
        (getChannel t core i.ch i.world).completed = ch.completed) ∧
      (getChannel t core i.ch i.world).err = ch.err ∧ t.mem = s.mem ∧ t.scratch = s.scratch ∧ t.due = s.due
    (cardKind i.card ≠ 7 → cardKind i.card ≠ 9 → completes (.cardComplete core id)) ∧
    (cardKind i.card = 7 → cardField i.card 16 8 ≤ (getChannel s core (cardField i.card 8 4) i.world).completed →
      completes (.seqCardComplete core id)) ∧
    (cardKind i.card = 7 → (getChannel s core (cardField i.card 8 4) i.world).completed < cardField i.card 16 8 →
      exec (.seqCardComplete core id) s = .next s) ∧
    (cardKind i.card = 9 → (∀ x ∈ s.ports, ∀ f ∈ x.window ++ x.backlog, f.inst ≠ some id) → completes (.peerCopyAck core id)) ∧
    (cardKind i.card = 9 → (∃ x ∈ s.ports, ∃ f ∈ x.window ++ x.backlog, f.inst = some id) →
      exec (.peerCopyAck core id) s = .next s)

/-- R65, R73, R74, R79 to R81: a chain that faults completes with an error and owes its world's fault ring a record: one
that its walk rejected in its turn, and one that a running card stops, with its instances that had not started. A NOTE of a
register that its world does not hold faults with cause 13, a PEER COPY over a port that is not up with 12, a COPY or FILL
that leaves its write regions with 10; no strand stops. -/
def Claims.ChainFaults : Prop :=
  ∀ (core ch : Nat) (s : State) (c : Chain) (g : Grove), c.core = core → c.ch = ch → ch < 4 → getGrove s c.grove = some g →
    getChain s core ch c.world c.seq = some c → (∀ y ∈ s.strands, ∀ q, y.status ≠ .waitSeq q) →
    let stopped (ins : Instr) (f : ChainFault) : Prop := ∃ t l, exec ins s = .next t ∧
      t.due = s.due ++ l ++ [(c.world, chainRecord c f)] ∧ (getChannel t core ch c.world).err = true ∧
      t.chains = s.chains.filter (fun x => !sameChain c x) ∧ chainInsts t c = [] ∧ t.mem = s.mem ∧
      ∀ n, (getStrand t n).map (·.status) = (getStrand s n).map (·.status)
    (∀ f, c.rejected = true → c.fault = some f → c.frames = [] → c.pending = [] → chainInsts s c = [] →
      ch = mapGetD s.rr core 0 % 4 → mapGetD s.rr core 0 < 4 →
      (s.chains.find? fun x => x.core == core && x.ch == ch && (x.rejected || x.frames != [] || !(undecided s x).isEmpty)) = some c →
      stopped (.cardAdmit core) f) ∧
    (∀ id i base len, StartsNow s core id i g base len → i.core = core → i.ch = ch → i.world = c.world → i.seq = c.seq →
      i.grove = c.grove → i.bounds = [] → i.srcAdv = 0 → i.dstAdv = 0 → c.rejected = false → c.fault = none → c.cards = [i.card] →
      c.pending = [] → (s.insts.map (·.id)).Nodup → (∀ x ∈ chainInsts s c, x.started = false) →
      (∀ r ∈ cardRegions i.card, r.2.1 ≠ 1) →
      let fault (n : Nat) (a : Nat) : ChainFault := { cause := n, off := i.card.off, note := cardNote i.card, addr := a }
      let field (o n : Nat) : Nat := cardField i.card o n
      (cardKind i.card = 8 → cardRegions i.card = [] →
        (4095 < field 8 4 ∨ mapGet s.ntable (field 8 4) = none ∨
          ∃ e, mapGet s.ntable (field 8 4) = some e ∧ e.world ≠ i.world) → stopped (.cardStart core id) (fault 13 0)) ∧
      (cardKind i.card = 9 → portUp s (field 28 4 / 4 % 8) = false → (∀ r ∈ cardRegions i.card, r.1 = true → r.2.1 = 3) →
        stopped (.cardStart core id) (fault 12 0)) ∧
      (cardKind i.card = 1 → field 28 4 = 0xa → cardRegions i.card = [(false, 2, field 8 8, field 24 4)] → 0 < field 24 4 →
        field 8 8 + field 24 4 ≤ len → stopped (.cardStart core id) (fault 10 (field 16 8))) ∧
      (cardKind i.card = 4 → field 28 4 = 0x8 → cardRegions i.card = [] → 0 < field 24 4 →
        stopped (.cardStart core id) (fault 10 (field 8 8))))

/-- R80, R81, R327: what the record of a chain's fault holds: the chain's number, core and channel, the card's offset and note,
the cause with its detail, and the address. -/
def Claims.ChainRecords : Prop :=
  ∀ (c : Chain) (f : ChainFault), c.seq < 2 ^ 64 → c.core < 96 → c.ch < 4 → c.world < 64 → f.off < 2 ^ 20 → f.addr < 2 ^ 64 →
    f.cause < 14 → f.code < 256 → f.note < 256 →
    let r := chainRecord c f
    r.length = 4 ∧ (r.getD 0 0).toNat = c.seq ∧ (r.getD 1 0).toNat / 2 ^ 57 = c.core ∧ (r.getD 1 0).toNat / 2 ^ 55 % 4 = c.ch ∧
    (r.getD 1 0).toNat / 2 ^ 35 % 2 ^ 20 = f.off ∧ (r.getD 2 0).toNat = f.addr ∧ (r.getD 3 0).toNat / 2 ^ 56 = 1 ∧
    (r.getD 3 0).toNat / 2 ^ 48 % 256 = 0x10 ∧ (r.getD 3 0).toNat / 2 ^ 40 % 256 = f.cause ∧
    (r.getD 3 0).toNat / 2 ^ 24 % 2 ^ 16 = f.code * 256 + f.note ∧ (r.getD 3 0).toNat / 2 ^ 18 % 64 = c.world

/-- R86, R103: a line of a segment being loaded lands: its bytes, read from the backing, stand in its storage under the
swizzle and the presence bit of the line they lie in counts one writer fewer; with the last line the segment is resident. -/
def Claims.SegmentLineLands : Prop :=
  ∀ (world : Nat) (name : DWord) (line pa cache : Nat) (s : State) (x : Segment) (i : Inst),
    (s.segments.find? fun y => y.world == world && y.name == name && y.state == .loading && y.pending.contains line) = some x →
    findSegmentInst s x.uid = some i → mayStart s i s.insts = true → s.poison = [] → getSegment s x.uid = some x →
    mayDma s world = true →
    translateEngine s x.core world (x.backing.toNat + 128 * line) needRead = (.ok pa cache, s) → pa % 128 = 0 →
    getLine s.slices (x.core / 8) (pa / 128) = none → tagOk s world pa = true → (∀ j, j < 128 → encrypted s (pa + j) = false) →
    (∀ j, j < 128 → scratchOwned s x.core world (x.pbase + swz (128 * line + j) x.swizzle) = true) → x.swizzle ≤ 6 →
    ∃ t x', exec (.segmentLineLand world name line) s = .next t ∧ getSegment t x.uid = some x' ∧
      x'.pending = x.pending.filter (· != line) ∧
      (x.pending.filter (· != line) = [] → x'.state = .resident) ∧ (x.pending.filter (· != line) ≠ [] → x'.state = .loading) ∧
      (∀ j, j < 128 → memGet (scratchMem t x.core) (x.pbase + swz (128 * line + j) x.swizzle) = memGet s.mem (pa + j)) ∧
      (∀ a, (∀ j, j < 128 → a ≠ x.pbase + swz (128 * line + j) x.swizzle) →
        memGet (scratchMem t x.core) a = memGet (scratchMem s x.core) a) ∧
      (let l := x.core * 8192 + x.pbase / 128 + swz (128 * line) x.swizzle / 128
       mapGetD t.writers l 0 = mapGetD s.writers l 0 - 1 ∧ ∀ k, k ≠ l → mapGetD t.writers k 0 = mapGetD s.writers k 0) ∧
      t.mem = s.mem ∧ t.strands = s.strands

/-- R86, R103, R104: an eviction that no earlier instance holds back writes the contents to the backing and frees the
storage: a segment freed meanwhile is gone, any other is evicted. -/
def Claims.SegmentEvictionCompletes : Prop :=
  ∀ (world : Nat) (name : DWord) (s s1 : State) (x : Segment) (i : Inst),
    (s.segments.find? fun y => y.world == world && y.name == name && y.state == .evicting) = some x →
    findSegmentInst s x.uid = some i → mayStart s i s.insts = true → getSegment s x.uid = some x → x.pending = [] → mayDma s world = true →
    evictLines x (x.size * 8) 0 s = .ok s1 → s1.segments = s.segments → s1.insts = s.insts →
    ∃ t, exec (.segmentEvictionComplete world name) s = .next t ∧ t.mem = s1.mem ∧
      (x.freed = true → getSegment t x.uid = none) ∧
      (x.freed = false → ∃ y, getSegment t x.uid = some y ∧ y.state = .evicted ∧ y.stored = false ∧ y.name = x.name) ∧
      ∀ z ∈ t.insts, z.id ≠ i.id

/-! ### Queues and packets -/

/-- R305 to R308, R310: with the ring and both indices within reach, an examination of a queue takes the packet at the read
index where it is reserved and its tag is fresh: the read index moves on, and what the packet does comes next; a header or
a body that is refused completes with its status, and so does a notify index that the world does not hold. A stalled queue
stays as it is but for what its reads have left (R40), a packet with bar waits for those before it, one whose source lies on a
host page without a translation has the host asked for it (R387), and a doorbell of the queue's own world does what an
examination does, in S0 (R406 names no state that stops the front end). -/
def Claims.PacketTaken : Prop :=
  ∀ (no : Nat) (s s1 s2 s3 s4 s5 : State) (q : Queue) (wr h : Nat) (bs : List Byte),
    getQueue s no = some q → s.host.committed = true → (getWorld s q.world).live = true →
    (q.world = 0 ∨ (getWorld s q.world).tstate = .run) →
    (getWorld s q.world).quiescing = false → wr < 2 ^ 64 → h < 2 ^ 64 →
    frontRead s q.world q.wraddr.toNat 8 = .ok (leList 8 wr, s1) →
    frontRead s1 q.world q.rdaddr.toNat 8 = .ok (leList 8 h, s2) →
    frontRead s2 q.world (q.ring.toNat + 64 * (h % 2 ^ q.lsize)) 64 = .ok (bs, s3) →
    frontWrite s3 q.world q.rdaddr.toNat (leList 8 h) = .ok s4 →
    frontWrite s3 q.world q.rdaddr.toNat (leList 8 (h + 1)) = .ok s5 →
    let p := headerOf no h bs
    let r := decodePacket q.cls p bs
    let refused := p.ne && !holdsNotify s5 q.world p.nidx
    ∀ ins, ins = .packetTake no ∨ ins = .queueExamination no ∨ ins = .doorbellWrite ⟨no, q.world⟩ ∧ s.power.state = .s0 ∧
        s.power.entering = none ∧ s.host.held = [] ∧ s.host.bootStep = 0 →
      (wr ≤ h → exec ins s = .next s2) ∧
      (h < wr → leVal (bs.take 2) ≠ h % 2 ^ 16 → exec ins s = .next s3) ∧
      (h < wr → leVal (bs.take 2) = h % 2 ^ 16 →
        (p.bar = true → (∃ y ∈ s3.packets, y.hd.queue = no) → exec ins s = .next s3) ∧
        (p.bar = false ∨ (∀ y ∈ s3.packets, y.hd.queue ≠ no) →
          (∀ st, r = .error st → ∃ t x, exec ins s = .next t ∧ t.packets = s5.packets ++ [x] ∧ x.hd = p ∧
            x.world = q.world ∧ x.begun = true ∧ x.status = some st ∧ t.turns = s5.turns ∧ t.mem = s5.mem) ∧
          (∀ i, r = .ok i → waitsAtHead s3 q i = true → exec ins s = .next s3) ∧
          (∀ i w page s', r = .ok i → waitsAtHead s3 q i = false → sourceWanting s3 q.world i = some (w, page, s') →
            exec ins s = .next (requestAts s' w page)) ∧
          (∀ i, r = .ok i → waitsAtHead s3 q i = false → sourceWanting s3 q.world i = none →
            ∃ t x, exec ins s = .next t ∧ t.packets = s5.packets ++ [x] ∧ x.hd = p ∧ x.act = i ∧ x.world = q.world ∧
              x.owner = q.owner ∧ t.mem = s5.mem ∧
              (refused = false → x.begun = false ∧ x.status = none ∧ t.turns = .event i :: s5.turns) ∧
              (refused = true → x.begun = true ∧ x.status = some 5 ∧ t.turns = s5.turns))))

/-- R307, R327: a queue whose write index cannot be read stays as it is, and one record of kind 0x05 is owed until it next
takes a packet; what the translations of the read have left stands (R35, R40). -/
def Claims.QueueStalls : Prop :=
  ∀ (no : Nat) (s : State) (q : Queue) (c : Cause), getQueue s no = some q → s.host.committed = true →
    (getWorld s q.world).live = true →
    (q.world = 0 ∨ (getWorld s q.world).tstate = .run) → (getWorld s q.world).quiescing = false → c.1 ≠ 0xff →
    frontRead s q.world q.wraddr.toNat 8 = .error c →
    let r := readEffects s q.world q.wraddr.toNat 8
    (q.faulted = true → exec (.queueExamination no) s = .next r) ∧
    (q.faulted = false → exec (.queueExamination no) s = .next
      { r with queues := r.queues.map (fun x => if x.no = q.no then { q with faulted := true } else x)
               due := r.due ++ [(q.world, [q.wraddr, BitVec.ofNat 64 (q.no * 2 ^ 56), 0,
                 recordWord3 5 c.1 c.2 0 q.world 0 0 0])] })

/-- R404, R405, R408: no queue is examined before the feature vector is committed; a doorbell of a device asleep waits in
the latch and wakes it, one that finds the latch full is held at the port, and so is one behind another that is held; before
the boot order is complete a doorbell waits in the latch too. A doorbell from a function of another world is dropped, and
the system world is told: this clause is the model's reading (log 44). -/
def Claims.FrontEndAsleep : Prop :=
  ∀ (no r : Nat) (s : State),
    (s.host.committed = false → exec (.packetTake no) s = .next s ∧ exec (.queueExamination no) s = .next s) ∧
    (s.power.state ≠ .s0 → s.host.held = [] →
      (s.host.latch.length < 256 → ∃ t, exec (.doorbellWrite ⟨no, r⟩) s = .next t ∧
        t.host.latch = s.host.latch ++ [(4096 + no, 0, r)] ∧ t.power.pendingExit = true ∧ t.packets = s.packets) ∧
      (256 ≤ s.host.latch.length → ∃ t, exec (.doorbellWrite ⟨no, r⟩) s = .next t ∧
        t.host.held = [.doorbellWrite ⟨no, r⟩] ∧ t.host.latch = s.host.latch ∧ t.power.pendingExit = true ∧
        t.packets = s.packets)) ∧
    (s.host.held ≠ [] → ∃ t, exec (.doorbellWrite ⟨no, r⟩) s = .next t ∧
      t.host.held = s.host.held ++ [.doorbellWrite ⟨no, r⟩] ∧ t.host.latch = s.host.latch ∧ t.packets = s.packets) ∧
    (s.host.bootStep ≠ 0 → s.host.held = [] → s.host.latch.length < 256 → ∃ t, exec (.doorbellWrite ⟨no, r⟩) s = .next t ∧
      t.host.latch = s.host.latch ++ [(4096 + no, 0, r)] ∧ t.packets = s.packets) ∧
    (∀ q, s.power.state = .s0 → s.power.entering = none → s.host.bootStep = 0 → s.host.held = [] → getQueue s no = some q →
      q.world ≠ r → exec (.doorbellWrite ⟨no, r⟩) s = .next { s with due := s.due ++
        [(0, [BitVec.ofNat 64 (0x4000 + 8 * no), 0, 0, recordWord3 2 2 9 0 r 0 0 0])] })

/-- R307 to R310: what a packet's 64 bytes are refused for: a reserved bit of the header or an undefined kind, a
privileged kind on another queue, and a reserved bit of the body. That a reserved bit of the header comes before the class
of a privileged kind, and that a kind of 0x17 and above is BAD_PACKET on every queue, is the model's reading (log 36). -/
def Claims.PacketForm : Prop :=
  ∀ (cls : Nat) (p : PktHd) (bs : List Byte), bs.length = 64 →
    let hd := leVal (bs.take 8)
    let kind := hd / 2 ^ 16 % 256
    let defined := kind ∈ [1, 2, 3, 4, 5, 6, 7, 0x10, 0x11, 0x12, 0x13, 0x14, 0x15, 0x16]
    (hd / 2 ^ 38 ≠ 0 → decodePacket cls p bs = .error 1) ∧ (¬ defined → decodePacket cls p bs = .error 1) ∧
    (hd / 2 ^ 38 = 0 → defined → 0x10 ≤ kind → cls ≠ 2 → decodePacket cls p bs = .error 5) ∧
    (kind = 1 → leVal (bs.drop 32) ≠ 0 → decodePacket cls p bs = .error 1) ∧
    (hd / 2 ^ 38 = 0 → kind = 1 → leVal (bs.drop 32) = 0 →
      decodePacket cls p bs = .ok (.launch p (BitVec.ofNat 64 (leVal ((bs.drop 24).take 8))))) ∧
    (hd / 2 ^ 38 = 0 → kind = 4 → leVal (bs.drop 32) = 0 →
      decodePacket cls p bs = .ok (.notify p (leVal ((bs.drop 24).take 4)) (BitVec.ofNat 32 (leVal ((bs.drop 28).take 4)))))

/-- R303, R308, R309: a packet whose work is done writes its completion word, adds 1 to its notify register where its
world holds it, and is gone, which releases a packet that bar holds. A signal address that fails translation owes a
record, and completion goes on without it; what the refused translation has left stands (R35, R40). -/
def Claims.PacketCompletes : Prop :=
  ∀ (no index st : Nat) (s : State) (x : Packet),
    (s.packets.find? fun y => y.hd.queue == no && y.hd.index == index) = some x → x.status = some st →
    ((getWorld s x.world).live = true ∧ (x.world = 0 ∨ (getWorld s x.world).tstate = .run) ∨
      (getWorld s x.world).dying = true) →
    let gone (s1 : State) : State :=
      { s1 with packets := s1.packets.filter fun y => !(y.hd.queue == no && y.hd.index == index) }
    let told (s1 : State) : State := if x.hd.ne && holdsNotify s1 x.world x.hd.nidx then notifyAdd s1 x.hd.nidx 1 else s1
    (x.hd.signal = 0 → exec (.packetCompletion no index) s = .next (told (gone s))) ∧
    (x.hd.signal ≠ 0 → ∀ s1, frontWriteAll s x.world x.hd.signal (leList 8 (index % 2 ^ 48 * 2 ^ 16 + st)) = .ok s1 →
      exec (.packetCompletion no index) s = .next (told (gone s1))) ∧
    (x.hd.signal ≠ 0 → ∀ c : Cause, frontWriteAll s x.world x.hd.signal (leList 8 (index % 2 ^ 48 * 2 ^ 16 + st)) = .error c →
      c.1 ≠ 0xff → let r := refusedWrite s x.world ((List.range 8).map (x.hd.signal + ·))
      exec (.packetCompletion no index) s = .next (told (gone { r with
        due := r.due ++ [(x.world, [BitVec.ofNat 64 x.hd.signal, 0, 0, recordWord3 4 c.1 c.2 0 x.world 0 0 0])] })))

/-! ### Launches -/

/-- R22 to R26: a record that passes the checks meets every limit of the front end, and its fields are those of its words. -/
def Claims.LaunchRecords : Prop :=
  ∀ (s s1 : State) (w : Nat) (a : DWord) (r : LaunchRec), readRecord s w a = .ok (.ok r, s1) →
    a.toNat % 64 = 0 ∧ ∃ bs, frontRead s w a.toNat 256 = .ok (bs, s1) ∧
      let ws := dwords bs
      let word (n : Nat) : DWord := ws.getD n 0
      r.code = word 0 ∧ r.code.toNat % 8 = 0 ∧ r.spill = word 4 ∧ r.spill.toNat % 64 = 0 ∧
      r.width = 16 * 2 ^ wordBits (word 1) 1 0 ∧ r.width ≤ 64 ∧
      r.frame = wordBits (word 1) 8 2 ∧ 1 ≤ r.frame ∧ r.frame ≤ 96 ∧
      r.depth = 8 * wordBits (word 1) 14 9 ∧ r.frame ≤ r.depth ∧ r.width * r.depth * 4 ≤ 22528 ∧
      r.diverge = wordBits (word 1) 18 15 ∧ r.diverge ≤ 8 ∧ r.acc = wordBits (word 1) 22 19 ∧ r.acc ≤ 8 ∧
      r.tdepth = wordBits (word 1) 25 23 ∧ r.tdepth ≤ 4 ∧ r.preempt = wordBits (word 1) 27 26 ∧
      (r.preempt = 3 → r.width = 16 ∧ r.depth ≤ 32 ∧ r.acc = 0) ∧
      r.scratch = wordBits (word 1) 51 40 ∧ r.scratch * 256 ≤ worldScratch s1 w ∧
      r.copse = wordBits (word 1) 54 52 + 1 ∧ r.place = wordBits (word 1) 56 55 ∧ r.place ≤ 1 ∧ r.stand = wordBits (word 1) 58 57 ∧
      r.gX = wordBits (word 2) 31 0 ∧ r.gY = wordBits (word 2) 47 32 ∧ r.gZ = wordBits (word 2) 63 48 ∧
      0 < r.gX * r.gY * r.gZ ∧ r.gX * r.gY * r.gZ % r.copse = 0 ∧
      r.x = wordBits (word 3) 10 0 ∧ r.y = wordBits (word 3) 21 11 ∧ r.z = wordBits (word 3) 31 22 ∧
      0 < r.x * r.y * r.z ∧ r.x * r.y * r.z ≤ 1024 ∧ r.x * r.y * r.z % r.width = 0 ∧
      r.args.length = 8 ∧ r.slots.length = 8 ∧ r.segs.length ≤ 4

/-- R25, R97, R310, R315: a LAUNCH whose record and whose segments pass makes ready work of its queue, in the heap at once
where the queue is real-time or privileged and its door is open; any other completes with the status that its checks
give. What the translations of a record that cannot be read have left stands (R35, R40). -/
def Claims.LaunchPackets : Prop :=
  ∀ (p : PktHd) (a : DWord) (s : State) (x : Packet) (q : Queue), Due s p (.launch p a) x →
    getQueue s p.queue = some q →
    (a.toNat % 64 ≠ 0 → Rejected (.launch p a) p s 2) ∧
    (a.toNat % 64 = 0 → ∀ c : Cause, frontRead (begun s p) x.world a.toNat 256 = .error c → c.1 ≠ 0xff →
      Completes (.launch p a) p s (if c = (2, 4) then 5 else 2) (readEffects (begun s p) x.world a.toNat 256)) ∧
    (∀ s1 st, readRecord (begun s p) x.world a = .ok (.error st, s1) → Completes (.launch p a) p s st s1) ∧
    (∀ s1 r, readRecord (begun s p) x.world a = .ok (.ok r, s1) → segmentStatus s1 x.world x.owner r ≠ 0 →
      Completes (.launch p a) p s (segmentStatus s1 x.world x.owner r) s1) ∧
    (∀ s1 r, readRecord (begun s p) x.world a = .ok (.ok r, s1) → segmentStatus s1 x.world x.owner r = 0 →
      q.paced = false → ∃ l : Launch,
        exec (.launch p a) s = .next { s1 with launches := s1.launches ++ [l], nextLaunch := s1.nextLaunch + 1 } ∧
        l.id = s1.nextLaunch ∧ l.src = .packet p.queue p.index ∧ l.queue = q.no ∧ l.world = x.world ∧ l.owner = x.owner ∧
        l.record = r ∧ l.key = (if p.deadline = 0 then 2 ^ 64 - 1 else p.deadline) ∧ l.next = 0 ∧
        l.total = r.gX * r.gY * r.gZ ∧ l.cls = q.cls ∧ l.killed = false ∧
        (l.inHeap = true ↔ q.cls ≠ 0 ∧
          (s1.launches.filter (·.inHeap)).length + (if q.cls = 1 then 0 else 32) < 256))

/-- R97: what a launch's named segments fail it for: SEG_MISS for a name that the world does not know or
the owner may not use, then SEG_CONFLICT for a view that overlaps the private allocation and for two that have storage on
different cores. -/
def Claims.LaunchSegments : Prop :=
  ∀ (s : State) (w owner : Nat) (r : LaunchRec),
    (r.segs = [] → segmentStatus s w owner r = 0) ∧
    ((∃ m n, (m, n) ∈ r.segs ∧ findSegment s w n = none) → segmentStatus s w owner r = 3) ∧
    (∀ m n g, (m, n) ∈ r.segs → findSegment s w n = some g → g.owner ≠ 255 → g.owner ≠ owner →
      segmentStatus s w owner r = 3) ∧
    (∀ m n g, r.segs = [(m, n)] → findSegment s w n = some g → (g.owner = 255 ∨ g.owner = owner) →
      g.life ≠ .pinned → g.state = .resident → g.size ≠ 0 → g.vbase * 1024 < r.scratch * 256 →
      segmentStatus s w owner r = 4) ∧
    (∀ m n g m' n' g', r.segs = [(m, n), (m', n')] → findSegment s w n = some g → findSegment s w n' = some g' →
      (g.owner = 255 ∨ g.owner = owner) → (g'.owner = 255 ∨ g'.owner = owner) → g.life ≠ .pinned → g'.life ≠ .pinned →
      g.state = .resident → g'.state = .resident → g.stored = true → g'.stored = true → g.core ≠ g'.core →
      segmentStatus s w owner r = 4)

/-! ### Launch graphs and notify registers -/

/-- R312: a GRAPH whose range is out of bounds, holds an armed node, or has a node of no queue or of another world's arms
nothing and completes with the status that this gives; any other arms every node of its range with its count, in the world of its queue and in the frame that the owner
of the node's queue is in now: R277 speaks of launch packets, and this is the model's reading for nodes (log 36). -/
def Claims.GraphPackets : Prop :=
  ∀ (p : PktHd) (first count : Nat) (s : State) (x : Packet), Due s p (.graph p first count) x →
    let range (n : Nat) : Prop := first ≤ n ∧ n < first + count
    let owner (n : Nat) : Option Nat := (getQueue s (getNode s n).queue).map (·.world)
    (count = 0 ∨ 4096 < first + count → Rejected (.graph p first count) p s 1) ∧
    (0 < count → first + count ≤ 4096 →
      ((∃ n, range n ∧ (getNode s n).armed = true) → Rejected (.graph p first count) p s 6) ∧
      ((∀ n, range n → (getNode s n).armed = false) →
        ((∀ n, range n → owner n = none ∨ owner n = some x.world) → (∃ n, range n ∧ owner n = none) →
          Rejected (.graph p first count) p s 1) ∧
        ((∀ n, range n → ∃ w, owner n = some w) → (∃ n, range n ∧ owner n ≠ some x.world) →
          Rejected (.graph p first count) p s 5) ∧
        ((∀ n, range n → owner n = some x.world) → (∀ n, range n → (getNode s n).init ≠ 0) →
          ∃ t, exec (.graph p first count) s = .next t ∧ { t with nodes := s.nodes, graphs := s.graphs } = begun s p ∧
            t.graphs = s.graphs ++ [{ queue := p.queue, index := p.index, first := first, count := count }] ∧
            ∀ n, (range n → getNode t n = { getNode s n with
                run := (p.queue, p.index), world := x.world
                frame := currentFrame s (((getQueue s (getNode s n).queue).map (·.owner)).getD 255)
                armed := true, count := (getNode s n).init, ready := false, done := none }) ∧
              (¬ range n → getNode t n = getNode s n))))

/-- R311, R312, R315, R318: a node of count 0 that its GRAPH arms becomes ready at once: a relay node is done; the work of
any other is ready work of the node's queue, its deadline `rdl` after now; one whose record fails is done with that
status. That its work runs in the frame of its GRAPH is the model's reading (log 36). -/
def Claims.NodeReadiness : Prop :=
  ∀ (p : PktHd) (n : Nat) (s : State) (x : Packet) (q : Queue), Due s p (.graph p n 1) x → n < 4096 →
    (getNode s n).armed = false → (getNode s n).init = 0 → getQueue s (getNode s n).queue = some q → q.world = x.world →
    let g : GraphRun := { queue := p.queue, index := p.index, first := n, count := 1 }
    let nd : Node := { getNode s n with
      run := (p.queue, p.index), world := x.world, frame := currentFrame s q.owner, armed := true, count := 0, ready := false, done := none }
    let s0 : State := { begun s p with graphs := s.graphs ++ [g], nodes := mapSet s.nodes n nd }
    (nd.record = 0 → ∃ t, exec (.graph p n 1) s = .next t ∧ getNode t n = { nd with ready := true, done := some 0 } ∧
      t.launches = s.launches) ∧
    (nd.record ≠ 0 → ∀ s1 st, readRecord s0 x.world nd.record = .ok (.error st, s1) →
      ∃ t, exec (.graph p n 1) s = .next t ∧ getNode t n = { nd with ready := true, done := some st } ∧
        t.launches = s1.launches) ∧
    (nd.record ≠ 0 → ∀ s1 r, readRecord s0 x.world nd.record = .ok (.ok r, s1) →
      segmentStatus s1 x.world q.owner r = 0 → q.paced = false →
      ∃ (t : State) (l : Launch), exec (.graph p n 1) s = .next t ∧ getNode t n = { nd with ready := true } ∧
        t.launches = s1.launches ++ [l] ∧ l.src = .node n ∧ l.frame = nd.frame ∧ l.queue = q.no ∧ l.world = q.world ∧ l.owner = q.owner ∧
        l.record = r ∧ l.key = (if nd.rdl = 0 then 2 ^ 64 - 1 else s1.time + nd.rdl) ∧ l.total = r.gX * r.gY * r.gZ)

/-- R312: a node completes in one action: its status stands in `last` and it is disarmed; with OK or OVERRUN its used
successors count one predecessor fewer, else the nodes of the range that are not yet ready are disarmed; and the GRAPH
completes when none of its nodes is armed any longer, with the first failing status. -/
def Claims.NodeCompletes : Prop :=
  ∀ (n st : Nat) (s : State) (nd : Node) (g : GraphRun), mapGet s.nodes n = some nd → nd.armed = true →
    nd.done = some st → (s.graphs.find? fun y => inGraph y n nd) = some g →
    (∀ y ∈ s.graphs, y.queue = g.queue → y.index = g.index → y = g) →
    let left : Node := { nd with armed := false, done := none, last := st }
    let open_ (m : Nat) : Prop := m ≠ n ∧ g.first ≤ m ∧ m < g.first + g.count ∧ (getNode s m).armed = true ∧
      (getNode s m).run = (g.queue, g.index)
    let ends (t : State) (status : Nat) : Prop := (∀ y ∈ t.graphs, ¬ (y.queue = g.queue ∧ y.index = g.index)) ∧
      t.packets = workDone s.packets g.queue g.index status
    (st = 0 ∨ st = 8 → nd.succ = [] → ∃ t, exec (.nodeComplete n) s = .next t ∧ getNode t n = left ∧
      (∀ m, m ≠ n → getNode t m = getNode s m) ∧
      ((∃ m, open_ m) → t.graphs = s.graphs ∧ t.packets = s.packets) ∧
      ((∀ m, ¬ open_ m) → ends t (g.failed.getD 0))) ∧
    (st = 0 ∨ st = 8 → nd.succ.Nodup → n ∉ nd.succ → ∃ t, exec (.nodeComplete n) s = .next t ∧ getNode t n = left ∧
      (∀ k, k ≠ n → k ∉ nd.succ → getNode t k = getNode s k) ∧ ∀ k ∈ nd.succ,
      ((getNode s k).armed = true → 1 < (getNode s k).count →
        getNode t k = { getNode s k with count := (getNode s k).count - 1 }) ∧
      ((getNode s k).armed = false ∨ (getNode s k).count = 0 → getNode t k = getNode s k) ∧
      ((getNode s k).armed = true → (getNode s k).count = 1 → (getNode s k).ready = false → (getNode s k).record = 0 →
        (∃ q, getQueue s (getNode s k).queue = some q ∧ q.world = (getNode s k).world) →
        getNode t k = { getNode s k with count := 0, ready := true, done := some 0 })) ∧
    (st ≠ 0 → st ≠ 8 → ∃ t, exec (.nodeComplete n) s = .next t ∧ getNode t n = left ∧
      (∀ m, m ≠ n → (open_ m → (getNode s m).ready = false → getNode t m = { getNode s m with armed := false }) ∧
        (¬ (open_ m ∧ (getNode s m).ready = false) → getNode t m = getNode s m)) ∧
      ((∃ m, open_ m ∧ (getNode s m).ready = true) → t.packets = s.packets ∧
        { g with failed := some (g.failed.getD st) } ∈ t.graphs) ∧
      ((∀ m, open_ m → (getNode s m).ready = false) → ends t (g.failed.getD st)))

/-- R310, R311: a NODEDEF of a range that is out of bounds, or whose source cannot be read, is BAD_PACKET, one of an armed
node is REFUSED, and one with an entry that names a queue of another world DENIED (the model's reading, log 36); any other writes the software fields of each node from its four words, and those alone. -/
def Claims.NodeDefinitions : Prop :=
  ∀ (p : PktHd) (first count : Nat) (src : DWord) (s : State) (x : Packet),
    Due s p (.nodedef p first count src) x →
    let ins : Instr := .nodedef p first count src
    (4096 < first + count → Rejected ins p s 1) ∧
    (first + count ≤ 4096 → (∃ n, first ≤ n ∧ n < first + count ∧ (getNode s n).armed = true) → Rejected ins p s 6) ∧
    (first + count ≤ 4096 → (∀ n, first ≤ n → n < first + count → (getNode s n).armed = false) →
      (∀ c, frontRead (begun s p) 0 src.toNat (32 * count) = .error c →
        Completes ins p s 1 (readEffects (begun s p) 0 src.toNat (32 * count))) ∧
      (∀ bs s1, frontRead (begun s p) 0 src.toNat (32 * count) = .ok (bs, s1) →
        let foreign : Prop := ∃ j q, j < count ∧
          getQueue s1 (wordBits ((dwords bs).getD (4 * j + 2) 0) 55 48) = some q ∧ q.world ≠ x.world
        (foreign → Completes ins p s 5 s1) ∧ (¬ foreign → ∃ t : State,
        Completes ins p s 0 { s1 with nodes := t.nodes } ∧
        (∀ n, n < first ∨ first + count ≤ n → getNode t n = getNode s1 n) ∧
        ∀ j, j < count →
          let w (k : Nat) : DWord := (dwords bs).getD (4 * j + k) 0
          let nd := getNode t (first + j)
          nd = { getNode s1 (first + j) with record := nd.record, succ := nd.succ, queue := nd.queue, init := nd.init, rdl := nd.rdl } ∧
          nd.record = w 0 ∧ nd.queue = wordBits (w 2) 55 48 ∧ nd.init = wordBits (w 2) 47 32 ∧ nd.rdl = (w 3).toNat ∧
          (∀ k, k ∈ nd.succ ↔ ∃ i < 4, wordBits (w 1) (12 + i) (12 + i) = 1 ∧ k = wordBits (w 1) (27 + 12 * i) (16 + 12 * i)) ∧
          nd.succ.length = wordBits (w 1) 12 12 + wordBits (w 1) 13 13 + wordBits (w 1) 14 14 + wordBits (w 1) 15 15)))

/-- R310, R313: NMAP writes the entries of its range from their words, and zeroes the registers. -/
def Claims.NotifyTable : Prop :=
  ∀ (p : PktHd) (first count : Nat) (src : DWord) (s : State) (x : Packet), Due s p (.nmap p first count src) x →
    let ins : Instr := .nmap p first count src
    (4096 < first + count → Rejected ins p s 1) ∧
    (first + count ≤ 4096 →
      (∀ c, frontRead (begun s p) 0 src.toNat (8 * count) = .error c →
        Completes ins p s 1 (readEffects (begun s p) 0 src.toNat (8 * count))) ∧
      (∀ bs s1, frontRead (begun s p) 0 src.toNat (8 * count) = .ok (bs, s1) → ∃ t : State,
        Completes ins p s 0 { s1 with notify := t.notify, ntable := t.ntable } ∧
        (∀ n, n < first ∨ first + count ≤ n →
          mapGet t.ntable n = mapGet s1.ntable n ∧ mapGet t.notify n = mapGet s1.notify n) ∧
        ∀ j, j < count →
          let w := (dwords bs).getD j 0
          mapGetD t.notify (first + j) 0 = 0 ∧
          mapGet t.ntable (first + j) = if wordBits w 57 57 = 0 then none else some
            { world := wordBits w 63 58, arm := wordBits w 56 56 == 1, node := wordBits w 55 44, thresh := wordBits w 31 0 }))

/-- R310, R314: a NOTIFY of a register that the packet's world does not hold is DENIED; any other makes its add. -/
def Claims.NotifyPackets : Prop :=
  ∀ (p : PktHd) (k : Nat) (a : Word) (s : State) (x : Packet), Due s p (.notify p k a) x →
    ((∀ e, mapGet s.ntable k = some e → e.world ≠ x.world) → Rejected (.notify p k a) p s 5) ∧
    (∀ e, mapGet s.ntable k = some e → e.world = x.world → e.arm = false →
      (∀ y ∈ s.strands, ∀ n, y.status = .waitNotify n → n.index ≠ k) →
      Completes (.notify p k a) p s 0 { begun s p with notify := mapSet s.notify k (mapGetD s.notify k 0 + a) })

/-- R313, R314, R394, R408: a notify write of a register of the requester's world is added, modulo 2^32; where the register
is armed and reaches its threshold (0 counts as 1), the threshold is taken from it once and the node's count falls; then
a waiter whose condition holds is served. A write of another's register is dropped and the system world is told; one
to a quiesced world, or to a device asleep, waits in the latch; the latch holds no more than 256, and a write that finds
it full, or finds another held, is held at the port in order. -/
def Claims.NotifyWrites : Prop :=
  ∀ (k : Nat) (a : Word) (w : Nat) (s : State),
    let x := mapGetD s.notify k 0 + a
    let runs : Prop := (getWorld s w).live = true ∧ (getWorld s w).tstate ≠ .quiesced ∧
      (w = 0 ∨ (getWorld s w).tstate = .run)
    let awake : Prop := s.power.state = .s0 ∧ s.power.entering = none ∧ s.host.bootStep = 0 ∧ s.host.held = []
    let waits (y : Strand) : Prop := ∃ n, y.status = .waitNotify n ∧ n.index = k
    (∀ e, awake → runs → mapGet s.ntable k = some e → e.world = w → (∀ y ∈ s.strands, ¬ waits y) →
      (e.arm = false ∨ x.toNat < max 1 e.thresh →
        exec (.notifyWrite k a w) s = .next { s with notify := mapSet s.notify k x }) ∧
      (e.arm = true → max 1 e.thresh ≤ x.toNat → e.thresh < 2 ^ 32 →
        exec (.notifyWrite k a w) s = .next (decrementNode
          { s with notify := mapSet s.notify k (x - BitVec.ofNat 32 (max 1 e.thresh)) } e.node))) ∧
    (∀ e y n, awake → runs → mapGet s.ntable k = some e → e.world = w → e.arm = false → y ∈ s.strands →
      getStrand s y.home = some y → y.status = .waitNotify n → n.index = k → (∀ z ∈ s.strands, waits z → z = y) → s.strands.Nodup →
      n.threshold ≤ x.toNat → y.stepm = 0 → y.rbWait = false →
      ∃ t y', exec (.notifyWrite k a w) s = .next t ∧ getStrand t y.home = some y' ∧ y'.status = .ready ∧
        mapGetD t.notify k 0 = (if n.take then x - BitVec.ofNat 32 n.threshold else x) ∧
        (∀ key, regKey y n.lead n.rd = some key → valueAt y' key = some x)) ∧
    (awake → (∀ e, mapGet s.ntable k = some e → e.world ≠ w) →
      exec (.notifyWrite k a w) s = .next { s with due := s.due ++
        [(0, [BitVec.ofNat 64 (4 * k), 0, 0, recordWord3 2 2 9 0 w 0 0 0])] }) ∧
    (∀ e, awake → mapGet s.ntable k = some e → e.world = w → (getWorld s w).tstate = .quiesced →
      s.host.latch.length < 256 → exec (.notifyWrite k a w) s = .next { s with host := { s.host with latch := s.host.latch ++ [(k, a, w)] } }) ∧
    (s.power.state ≠ .s0 → s.host.held = [] → s.host.latch.length < 256 → ∃ t, exec (.notifyWrite k a w) s = .next t ∧
      t.host.latch = s.host.latch ++ [(k, a, w)] ∧ t.power.pendingExit = true ∧ t.notify = s.notify) ∧
    (s.power.state ≠ .s0 → s.host.held = [] → 256 ≤ s.host.latch.length → ∃ t, exec (.notifyWrite k a w) s = .next t ∧
      t.host.held = [.notifyWrite k a w] ∧ t.host.latch = s.host.latch ∧ t.power.pendingExit = true ∧ t.notify = s.notify) ∧
    (s.host.held ≠ [] → ∃ t, exec (.notifyWrite k a w) s = .next t ∧
      t.host.held = s.host.held ++ [.notifyWrite k a w] ∧ t.host.latch = s.host.latch ∧ t.notify = s.notify)

/-! ### Draws, segments, the weight store and definitions -/

/-- R347, R366, R367: the outputs that a DRAW may name: output 0 gives the target extent, a surface has to be of the DRAW's
world, a plane image may be of any, a backdrop is never one, and outputs 1 to 3 are unused or cover the target. Where one
output alone breaks a rule, the DRAW is BAD_PACKET, or DENIED for a surface of another world. -/
def Claims.DrawOutputs : Prop :=
  ∀ (s : State) (w : Nat) (outs : DWord),
    let out (k : Nat) : Nat := wordBits outs (16 * k + 15) (16 * k)
    let mayName (e : Desc) : Prop := e.kind = 1 ∨ (e.kind = 0 ∧ e.world = w)
    let passes (k : Nat) : Prop := out k = 0xffff ∨ ∃ e, mapGet s.descs (out k) = some e ∧ mayName e
    (out 0 = 0xffff → drawOutputs s w outs = .error 1) ∧
    (out 0 ≠ 0xffff → mapGet s.descs (out 0) = none → drawOutputs s w outs = .error 1) ∧
    (∀ d, out 0 ≠ 0xffff → mapGet s.descs (out 0) = some d →
      (2 ≤ d.kind → drawOutputs s w outs = .error 1) ∧
      (d.kind = 0 → d.world ≠ w → drawOutputs s w outs = .error 5) ∧
      (mayName d → ∀ k, 1 ≤ k → k < 4 → out k ≠ 0xffff → (∀ j, 1 ≤ j → j < 4 → j ≠ k → passes j) →
        (mapGet s.descs (out k) = none → drawOutputs s w outs = .error 1) ∧
        (∀ e, mapGet s.descs (out k) = some e →
          (2 ≤ e.kind → drawOutputs s w outs = .error 1) ∧
          (e.kind = 0 → e.world ≠ w → drawOutputs s w outs = .error 5) ∧
          (mayName e → e.width < d.width ∨ e.height < d.height → drawOutputs s w outs = .error 1))) ∧
      (mayName d →
        (∀ k, 1 ≤ k → k < 4 → out k = 0xffff ∨ ∃ e, mapGet s.descs (out k) = some e ∧ mayName e ∧ d.width ≤ e.width ∧ d.height ≤ e.height) →
        ∃ os, drawOutputs s w outs = .ok os ∧ os.length = 4 ∧ os[0]? = some (some (out 0, d)) ∧
          ∀ k, 1 ≤ k → k < 4 → os[k]? = some (if out k = 0xffff then none else (mapGet s.descs (out k)).map fun e => (out k, e))))

/-- R310, R347: a DRAW whose outputs, records and entry count pass becomes a draw whose mesh kernel is ready work, its
outputs read once; any other completes with the status of what failed. A pixel record has the grove shape 1,024 by 1
by 1. -/
def Claims.DrawPackets : Prop :=
  ∀ (p : PktHd) (mesh pixel outs : DWord) (n : Nat) (s : State) (x : Packet) (q : Queue),
    let ins : Instr := .draw p mesh pixel outs n
    Due s p ins x →
    let m := drawRecord (begun s p) x mesh false
    let r := drawRecord m.2 x pixel true
    getQueue r.2 p.queue = some q →
    (∀ st, drawOutputs r.2 x.world outs = .error st → Completes ins p s st r.2) ∧
    (∀ os, drawOutputs r.2 x.world outs = .ok os →
      (∀ st, m.1 = .error st → Completes ins p s st r.2 ∧ st ≠ 2) ∧
      (∀ k st, m.1 = .ok k → r.1 = .error st → Completes ins p s st r.2 ∧ st ≠ 2) ∧
      (∀ k l, m.1 = .ok k → r.1 = .ok l →
        l.x = 1024 ∧ l.y = 1 ∧ l.z = 1 ∧
        (n = 0 ∨ 65536 < n → Completes ins p s 1 r.2) ∧
        (0 < n → n ≤ 65536 → q.paced = false → ∃ (d : Draw) (w : Launch) (t : State), exec ins s = .next t ∧
          t.draws = r.2.draws ++ [d] ∧ d.queue = p.queue ∧ d.index = p.index ∧ d.world = x.world ∧ d.owner = x.owner ∧
          d.mesh = k ∧ d.pixel = l ∧ d.outs = os ∧ d.entries = n ∧ d.used = 0 ∧ d.prims = [] ∧ d.binned = false ∧
          d.tiles = [] ∧ t.launches = r.2.launches ++ [w] ∧ w.src = .mesh d.id ∧ w.record = k ∧ w.world = x.world ∧
          w.key = (if p.deadline = 0 then 2 ^ 64 - 1 else p.deadline) ∧ t.packets = r.2.packets)))

/-- R90, R93: SEGDEF is refused for a name that the world knows, a size or a window out of range, a reserved lifetime or
swizzle, and a kept segment with a misaligned backing; else the directory has the entry, defined and without storage. A
packet that names another world than its queue's is DENIED, and one whose reserved world bits name its own is BAD_PACKET
(R310; that the two meet so is the model's reading, log 36). -/
def Claims.SegmentDefinitions : Prop :=
  ∀ (p : PktHd) (name backing w2 : DWord) (s : State) (x : Packet), Due s p (.segdef p name backing w2) x →
    let ins : Instr := .segdef p name backing w2
    let size := wordBits w2 31 21
    let vbase := wordBits w2 20 11
    let life := wordBits w2 49 48
    let refused : Prop := (findSegment s x.world name).isSome = true ∨ size = 0 ∨ 1024 < size ∨ 1024 < vbase + size ∨ life = 3 ∨
      wordBits w2 37 35 = 7 ∨ (life = 1 ∧ backing.toNat % 128 ≠ 0) ∨ 16384 ≤ s.segments.length
    (wordBits w2 63 58 ≠ 0 → wordBits w2 63 58 ≠ x.world → Rejected ins p s 5) ∧
    (wordBits w2 63 58 ≠ 0 → wordBits w2 63 58 = x.world → Rejected ins p s 1) ∧
    (wordBits w2 63 58 = 0 → refused → Rejected ins p s 6) ∧
    (wordBits w2 63 58 = 0 → ¬ refused → ∃ g : Segment,
      Completes ins p s 0 { begun s p with segments := s.segments ++ [g], nextId := s.nextId + 1 } ∧
      g.uid = s.nextId ∧ g.world = x.world ∧ g.name = name ∧ g.backing = backing ∧ g.owner = wordBits w2 57 50 ∧
      g.life = (if life = 0 then .kernel else if life = 1 then .kept else .pinned) ∧ g.state = .defined ∧
      g.swizzle = wordBits w2 37 35 ∧ g.size = size ∧ g.vbase = vbase ∧ g.stored = false ∧ g.attaches = 0 ∧ g.freed = false)

/-- R54, R55: a WSLOAD out of bounds is BAD_PACKET, one of a region of another world is DENIED; any other waits, and while it
waits no grove of its world is placed on the dies it names. That a region is another world's where its entry is, where its
range overlaps, or where a WSLOAD of that world still waits for either, is the model's reading (log 38). -/
def Claims.WeightLoads : Prop :=
  ∀ (p : PktHd) (src : DWord) (region dies off len : Nat) (s : State) (x : Packet),
    Due s p (.wsload p src region dies off len) x →
    let ins : Instr := .wsload p src region dies off len
    let bad : Prop := off % 0x10000 ≠ 0 ∨ len % 0x10000 ≠ 0 ∨ 0x30000000 < off + len
    let foreign : Prop := ∃ r ∈ s.wregions, dies / 2 ^ r.die % 2 = 1 ∧ r.world ≠ x.world ∧
      (r.entry = region ∨ (r.base < off + len ∧ off < r.base + r.len))
    let awaited : Prop := ∃ r ∈ s.wsloads, (dies &&& r.dies) % 4 ≠ 0 ∧ r.world ≠ x.world ∧
      (r.region = region ∨ (r.offset < off + len ∧ off < r.offset + r.len))
    (bad → Rejected ins p s 1) ∧ (¬ bad → foreign ∨ awaited → Rejected ins p s 5) ∧
    (¬ bad → ¬ foreign → ¬ awaited → ∃ t, exec ins s = .next t ∧ { t with wsloads := s.wsloads } = begun s p ∧
      t.wsloads = s.wsloads ++ [{ queue := p.queue, index := p.index, world := x.world, source := src, region := region
                                  dies := dies, offset := off, len := len }] ∧
      ∀ l core, l.world = x.world → dies / 2 ^ (core / 48) % 2 = 1 → core ∉ usableCores t l)

/-- R55, R393: the region is written, by a world that makes its accesses, once every grove of the world on the named dies has ended: the bytes of its source, on
each named die, and its table entry; the packet is done. -/
def Claims.WeightRegionWritten : Prop :=
  ∀ (no index : Nat) (s : State) (x : WsLoad),
    (s.wsloads.find? fun y => y.queue == no && y.index == index) = some x →
    let ins : Instr := .wsloadRegionWrite no index
    (mayDma s x.world = false ∨ (∃ g ∈ s.groves, g.world = x.world ∧ x.dies / 2 ^ (g.core / 48) % 2 = 1) →
      exec ins s = .next s) ∧
    (mayDma s x.world = true → (∀ g ∈ s.groves, g.world = x.world → x.dies / 2 ^ (g.core / 48) % 2 = 0) →
      (∀ bs s1, frontRead s x.world x.source.toNat x.len = .ok (bs, s1) → s1.weight.length = 2 → ∃ t, exec ins s = .next t ∧
        t.packets = workDone s1.packets no index 0 ∧
        t.wsloads = s1.wsloads.filter (fun y => !(y.queue == no && y.index == index)) ∧
        (∀ d, d < 2 → ∀ a, memGet (t.weight.getD d []) a =
          if x.dies / 2 ^ d % 2 = 1 ∧ x.offset ≤ a ∧ a < x.offset + x.len then bs.getD (a - x.offset) 0
          else memGet (s1.weight.getD d []) a) ∧
        (∀ d, d < 2 → x.dies / 2 ^ d % 2 = 1 →
          { die := d, entry := x.region, base := x.offset, len := x.len, world := x.world } ∈ t.wregions ∧
          ∀ r ∈ t.wregions, r.die = d → r.entry = x.region → r.base = x.offset ∧ r.len = x.len ∧ r.world = x.world)) ∧
      (∀ c, frontRead s x.world x.source.toNat x.len = .error c → c.1 ≠ 0xff → ∃ t, exec ins s = .next t ∧
        t.packets = workDone s.packets no index 1 ∧ t.weight = s.weight ∧ t.wregions = s.wregions))

/-- R305, R310, R319, R405: a QDEF that breaks a limit of the descriptor is BAD_PACKET; a real-time one without the feature,
of period 0, of a cost above its reserve, or whose term would pass the limit is REFUSED; any other defines the queue from
its descriptor, and its indices begin anew. Here no line is to be pinned. -/
def Claims.QueueDefinitions : Prop :=
  ∀ (p : PktHd) (no : Nat) (a : DWord) (s s1 : State) (x : Packet) (bs : List Byte), Due s p (.qdef p no a) x →
    let ins : Instr := .qdef p no a
    (∀ c, frontRead (begun s p) 0 a.toNat 64 = .error c → Completes ins p s 1 (readEffects (begun s p) 0 a.toNat 64)) ∧
    (frontRead (begun s p) 0 a.toNat 64 = .ok (bs, s1) →
      let w (k : Nat) : DWord := (dwords bs).getD k 0
      let cls := wordBits (w 3) 49 48
      let world := wordBits (w 3) 63 58
      let weight := wordBits (w 3) 43 36
      let period := (w 4).toNat
      let cost := wordBits (w 5) 63 32
      let bad : Prop := cls = 3 ∨ (cls = 2 ∧ world ≠ 0) ∨ (getWorld s1 world).live = false ∨ wordBits (w 3) 47 44 < 4 ∨
        (cls = 0 ∧ weight = 0) ∨ (cls ≠ 0 ∧ weight ≠ 0) ∨ (w 0).toNat % 64 ≠ 0 ∨ (w 1).toNat % 8 ≠ 0 ∨ (w 2).toNat % 8 ≠ 0 ∨
        wordBits (w 3) 34 0 ≠ 0 ∨ wordBits (w 7) 63 8 ≠ 0
      let other : Prop := wordBits (w 3) 57 50 = 255 ∨
        (cls ≠ 1 ∧ ¬ (period = 0 ∧ cost = 0 ∧ w 6 = 0 ∧ wordBits (w 7) 7 0 = 0))
      let term (c d : Nat) : Nat := (c * 65536 + d - 1) / d
      let rest := ((s1.queues.filter fun y => y.cls == 1 && y.no != no).map fun y => term y.cost y.period).sum
      let refused : Prop := cls = 1 ∧ (wordBits (s1.host.accepted.getD 0 0) 5 5 = 0 ∨ period = 0 ∨ s1.ures * period < cost * 256 ∨
        (w 6).toNat % 4096 ≠ 0 ∨ 128 < wordBits (w 7) 7 0 ∨ ¬ (rest + term cost period) * 5 ≤ 4 * s1.ures * 256)
      (bad → Completes ins p s 1 s1) ∧ (¬ bad → ¬ other → refused → Completes ins p s 6 s1) ∧
      (¬ bad → ¬ other → ¬ refused → w 6 = 0 → (∀ y ∈ s1.queues, y.pinLines = []) → ∃ q : Queue,
        exec ins s = .next (retireQueue { s1 with queues := s1.queues.filter (·.no != no) ++ [q]
                                                  packets := workDone s1.packets p.queue p.index 0 } no) ∧ q.no = no ∧ q.ring = w 0 ∧
        q.rdaddr = w 1 ∧ q.wraddr = w 2 ∧ q.world = world ∧ q.owner = wordBits (w 3) 57 50 ∧ q.cls = cls ∧
        q.lsize = wordBits (w 3) 47 44 ∧ q.weight = weight ∧ (q.paced = true ↔ wordBits (w 3) 35 35 = 1) ∧ q.period = period ∧
        q.cost = cost ∧ q.lead = wordBits (w 5) 31 0 ∧ q.deficit = 0 ∧ q.faulted = false ∧ q.pinLines = []))

/-- R307, R310: QRESET writes the new index to both index addresses of the queue, which may owe a record again, and the
indices begin anew; a queue without a descriptor is BAD_PACKET. -/
def Claims.QueueResets : Prop :=
  ∀ (p : PktHd) (no : Nat) (index : DWord) (s : State) (x : Packet), Due s p (.qreset p no index) x →
    (getQueue s no = none → Rejected (.qreset p no index) p s 1) ∧
    (∀ q s1 s2, getQueue s no = some q →
      frontWrite (begun s p) q.world q.rdaddr.toNat (leList 8 index.toNat) = .ok s1 →
      frontWrite s1 q.world q.wraddr.toNat (leList 8 index.toNat) = .ok s2 →
      exec (.qreset p no index) s = .next (retireQueue
        { s2 with queues := s2.queues.map fun y => if y.no = q.no then { q with faulted := false } else y
                  packets := workDone s2.packets p.queue p.index 0 } no))

/-- R307, R309: where a queue's indices begin anew, a packet that is under way is never taken for a later one of its index:
it goes by an index 2^64 above from then on, and so does the work that is its own. Its completion word stays as it is. -/
def Claims.IndicesRestart : Prop :=
  ∀ (s : State) (queue : Nat),
    let t := retireQueue s queue
    let old (q i : Nat) : Nat := if q = queue then i + 2 ^ 64 else i
    (∀ i st, completionWord (i + 2 ^ 64) st = completionWord i st) ∧
    t.packets = s.packets.map (fun x =>
      if x.begun = true ∧ x.hd.queue = queue then { x with hd := { x.hd with index := x.hd.index + 2 ^ 64 } } else x) ∧
    t.launches.map (·.src) = s.launches.map (fun l => match l.src with
      | .packet q i => .packet q (old q i)
      | src => src) ∧
    t.wsloads.map (fun x => (x.queue, x.index)) = s.wsloads.map (fun x => (x.queue, old x.queue x.index)) ∧
    t.tlbinvs.map (fun x => (x.queue, x.index)) = s.tlbinvs.map (fun x => (x.queue, old x.queue x.index)) ∧
    t.graphs.map (fun x => (x.queue, x.index)) = s.graphs.map (fun x => (x.queue, old x.queue x.index)) ∧
    t.draws.map (fun x => (x.queue, x.index)) = s.draws.map (fun x => (x.queue, old x.queue x.index)) ∧
    { t with packets := s.packets, launches := s.launches, wsloads := s.wsloads, tlbinvs := s.tlbinvs, graphs := s.graphs
             nodes := s.nodes, draws := s.draws, presents := s.presents } = s

/-- R310, R319, R320: the caps of a BUDGET apply from the next period; a reserve stands in the budget of world 0 alone, and
one that falls below what the admitted queues need is REFUSED. -/
def Claims.BudgetPackets : Prop :=
  ∀ (p : PktHd) (world owner reserve : Nat) (cycles bytes : DWord) (s : State) (x : Packet),
    let ins : Instr := .budget p world owner cycles bytes reserve
    Due s p ins x →
    let whole : Prop := world = 0 ∧ owner = 255
    let need := ((s.queues.filter fun y => y.cls == 1 && y.no != 256).map fun y => (y.cost * 65536 + y.period - 1) / y.period).sum
    (reserve ≠ 0 → ¬ whole → Rejected ins p s 1) ∧
    (whole → ¬ need ≤ 4 * reserve * 256 / 5 → Rejected ins p s 6) ∧
    (reserve = 0 ∨ whole → (whole → need ≤ 4 * reserve * 256 / 5) → ∃ t : State,
      Completes ins p s 0 { begun s p with budgets := t.budgets, ures := if world = 0 ∧ owner = 255 then reserve else s.ures } ∧
      (∃ b ∈ t.budgets, b.world = world ∧ b.owner = owner) ∧
      (∀ b ∈ t.budgets, b.world = world → b.owner = owner → b.nextCycles = cycles.toNat ∧ b.nextBytes = bytes.toNat ∧
        ((∃ c ∈ s.budgets, c.world = world ∧ c.owner = owner ∧ b.cycles = c.cycles ∧ b.bytes = c.bytes ∧
            b.usedCycles = c.usedCycles ∧ b.usedBytes = c.usedBytes) ∨
          (b.cycles = 0 ∧ b.bytes = 0 ∧ b.usedCycles = 0 ∧ b.usedBytes = 0))) ∧
      (∀ b, ¬ (b.world = world ∧ b.owner = owner) → (b ∈ t.budgets ↔ b ∈ s.budgets)))

/-- R274, R320: a budget period begins at a multiple of 1,000,000 ticks: every count starts again, under the caps that stand
for it, and the first discard of an owner has its record again. -/
def Claims.BudgetPeriods : Prop :=
  ∀ s : State,
    (s.time / 1000000 = s.period → exec .budgetPeriod s = .next s) ∧
    (s.time / 1000000 ≠ s.period → ∃ t, exec .budgetPeriod s = .next t ∧
      { t with period := s.period, budgets := s.budgets, discardSeen := s.discardSeen } = s ∧ t.period = s.time / 1000000 ∧
      t.discardSeen = [] ∧ t.budgets.length = s.budgets.length ∧
      ∀ (i : Nat) (b : Budget), s.budgets[i]? = some b → t.budgets[i]? = some
        ({ b with cycles := b.nextCycles, bytes := b.nextBytes, usedCycles := 0, usedBytes := 0 } : Budget))

/-- R45: a TLBINV takes every translation of the range of its world out of the TLBs and the walk caches at once, and
completes when every access and every card that was made through them has been performed. That a world above 63 is
BAD_PACKET, and that it waits for all of the world's accesses and started cards, is the model's reading (log 38). -/
def Claims.Invalidations : Prop :=
  ∀ (p : PktHd) (world : Nat) (base len : DWord) (s : State) (x : Packet), Due s p (.tlbinv p world base len) x →
    let ins : Instr := .tlbinv p world base len
    let hit (a n : Nat) : Prop := a < base.toNat + len.toNat ∧ base.toNat < a + n
    (63 < world → Rejected ins p s 1) ∧
    (world ≤ 63 → ∃ (t : State) (v : TlbInv), exec ins s = .next t ∧ t.tlbinvs = s.tlbinvs ++ [v] ∧
      v.queue = p.queue ∧ v.index = p.index ∧
      (∀ id, id ∈ v.accesses ↔ ∃ a ∈ s.pend, a.id = id ∧ a.world = world ∧ ∃ pa c, a.place = .global pa c) ∧
      (∀ id, id ∈ v.insts ↔ ∃ i ∈ s.insts, i.id = id ∧ i.world = world ∧ i.started = true) ∧
      (∀ e, (e ∈ t.tlb ↔ e ∈ s.tlb ∧ ¬ (e.world = world ∧ hit e.va e.size)) ∧
        (e ∈ t.utlb ↔ e ∈ s.utlb ∧ ¬ (e.world = world ∧ hit e.va e.size))) ∧
      (∀ c, c ∈ t.walkCache ↔ c ∈ s.walkCache ∧ ¬ (c.world = world ∧ hit (c.region * 0x200000) 0x200000)) ∧
      t.packets = (begun s p).packets ∧ t.pend = s.pend ∧ t.mem = s.mem)

/-- R45, R319: the completion waits for them; then a queue that pins code of the range holds the lines that its code
translates to now, and no others. What an access counts as performed by, and the pins, are the model's reading (log 38). -/
def Claims.InvalidationCompletes : Prop :=
  ∀ (no index : Nat) (s : State) (v : TlbInv),
    (s.tlbinvs.find? fun y => y.queue == no && y.index == index) = some v →
    let busy : Prop := (∃ a ∈ s.pend, a.id ∈ v.accesses) ∨ (∃ i ∈ s.insts, i.id ∈ v.insts)
    (busy → exec (.tlbInvalidationComplete no index) s = .next s) ∧
    let repinned := repinQueues s (pinsRange v.world v.base v.len)
    (¬ busy → exec (.tlbInvalidationComplete no index) s = .next
      { repinned with tlbinvs := s.tlbinvs.filter (fun y => !(y.queue == no && y.index == index))
                      packets := workDone s.packets no index 0 }) ∧
    ((∀ q ∈ s.queues, q.pinLines = [] ∧ (q.world = v.world → q.pin.toNat + 128 * q.pinlen ≤ v.base ∨
      v.base + v.len ≤ q.pin.toNat)) → repinned = s) ∧
    (∀ q, s.queues = [q] → q.world = v.world → q.cls = 1 → q.pin ≠ 0 → q.pinlen = 1 → q.pin.toNat < v.base + v.len →
      v.base < q.pin.toNat + 128 →
      (∀ pa c s1, translateFront s q.world q.pin.toNat needFetch = (.ok pa c, s1) →
        repinned.queues = [{ q with pinLines := [pa / 128] }]) ∧
      (∀ c s1, translateFront s q.world q.pin.toNat needFetch = (.bad c, s1) →
        repinned.queues = [{ q with pinLines := [] }]))

/-! ### Arbitration and placement -/

/-- R315, R316: the round-robin pointer passes over the next best-effort queue. A queue with no ready work has its deficit
brought down to 0 at most; one with ready work gains its weight in core-cycles, and while its deficit is above 0 its work
enters the heap, which keeps its last 32 entries for others. -/
def Claims.DeficitRoundRobin : Prop :=
  ∀ (s : State) (q : Queue), s.qrr < 256 → q.no < 256 → getQueue s q.no = some q → q.cls = 0 →
    (∀ d, d < (q.no + 256 - s.qrr) % 256 → ∀ y, getQueue s ((s.qrr + d) % 256) = some y → y.cls ≠ 0) →
    let ready := s.launches.filter fun l => l.queue == q.no && !l.inHeap && l.next == 0 && decide (0 < l.total) && !isPass l
    let used := (s.launches.filter (·.inHeap)).length
    let credit : Int := q.deficit + q.weight * 4096 * 128
    let after (d : Int) (ls : List Launch) : State := { s with
      qrr := (q.no + 1) % 256, launches := ls, queues := s.queues.map fun y => if y.no = q.no then { q with deficit := d } else y }
    (ready = [] → exec .deficitRoundRobin s = .next (after (min q.deficit 0) s.launches)) ∧
    (ready ≠ [] → credit ≤ 0 ∨ 256 ≤ used + 32 → exec .deficitRoundRobin s = .next (after credit s.launches)) ∧
    (ready ≠ [] → 0 < credit → used + ready.length + 32 ≤ 256 → (s.launches.map (·.id)).Nodup →
      exec .deficitRoundRobin s = .next (after credit
        ((s.launches.filter fun l => !ready.contains l) ++ ready.map fun l => { l with inHeap := true })))

/-- R9, R10, R17, R20, R27, R85, R317: the placer places the next grove of a heap entry that can be placed: on a core with limbs
of its world, of its stand where it is pinned, with its private allocation; its strands have identities of their own on
limbs of the world, their threads stand at the code base, and the first uniform registers hold the arguments. The launch
leaves the heap with its last grove, and knows the cores that have had one (R294). Here it is the only launch, and names no segment. -/
def Claims.GrovePlaced : Prop :=
  ∀ (s : State) (l : Launch) (c : Nat), s.launches = [l] → l.inHeap = true → (∀ d t b, l.src ≠ .tilePass d t b) →
    l.record.copse = 1 → l.record.segs = [] → l.waitCore = none → l.next < l.total → l.paused = false →
    (getWorld s l.world).live = true → (l.world = 0 ∨ (getWorld s l.world).tstate = .run) → (getWorld s l.world).quiescing = false →
    cyclesExhausted s l.world l.owner = false → s.wsloads = [] → c ∈ usableCores s l →
    (placeGrove s l l.next c).isSome = true →
    ∃ (t : State) (g : Grove) (news : List Strand), exec .grovePlacement s = .next t ∧
      t.groves = s.groves ++ [g] ∧ t.strands = s.strands ++ news ∧ g.launch = l.id ∧ g.lin = l.next ∧ g.world = l.world ∧
      g.core < 96 ∧ (l.record.place = 1 → g.core / 24 = l.record.stand) ∧ g.size = l.record.scratch * 256 ∧
      g.base + g.size ≤ 0x100000 ∧ (∀ y ∈ s.groves, y.core = g.core → 0 < g.size → 0 < y.size → y.base + y.size ≤ g.base ∨ g.base + g.size ≤ y.base) ∧
      g.gx = l.next % l.record.gX ∧ g.gy = l.next / l.record.gX % l.record.gY ∧ g.gz = l.next / (l.record.gX * l.record.gY) ∧
      news.length = l.record.x * l.record.y * l.record.z / l.record.width ∧ g.count = news.length ∧
      (news.map (·.home)).Nodup ∧ (∀ y ∈ s.strands, ∀ z ∈ news, y.home ≠ z.home) ∧
      (∀ (n : Nat) (y : Strand), news[n]? = some y → y.sidx = n ∧ y.grove = g.id ∧ y.core = g.core ∧ y.world = l.world ∧ y.owner = l.owner ∧
        mapGet s.limbWorld (4 * g.core + y.limb) = some l.world ∧ y.limb < 4 ∧ y.lane < 32 ∧ y.status = .ready ∧
        y.width = l.record.width ∧ y.depth = l.record.depth ∧ y.threads.length = l.record.width ∧
        (∀ th ∈ y.threads, th.pc = l.record.code ∧ th.exited = false ∧ th.mstack = [] ∧ th.fsize = l.record.frame) ∧
        (∀ k v, k < 8 → l.record.args[k]? = some v → mapGet y.sregs k = some v) ∧
        y.spill = l.record.spill + BitVec.ofNat 64 (l.record.stride * y.home) ∧
        y.slim = y.spill + BitVec.ofNat 64 l.record.stride ∧ y.vregs = [] ∧ y.outs = [] ∧ y.chains = 0) ∧
      t.launches = [{ l with next := l.next + 1, since := s.time, inHeap := decide (l.next + 1 < l.total), awaited := []
                             evictCore := none
                             cores := if g.core ∈ l.cores then l.cores else l.cores ++ [g.core] }]

/-- R19, R20: the groves of a copse go on distinct cores of one cluster, in ascending linear index. -/
def Claims.CopsePlaced : Prop :=
  ∀ (s t : State) (l : Launch) (c : Nat), c ∈ usableCores s l → placeAt s l c = some t → l.record.segs = [] → 1 ≤ l.record.copse →
    ∃ gs : List Grove, t.groves = s.groves ++ gs ∧ gs.length = l.record.copse ∧
      (∀ (n : Nat) (g : Grove), gs[n]? = some g → g.lin = l.next + n ∧ g.launch = l.id ∧ g.core / 8 = c / 8 ∧ g.core ∈ usableCores s l) ∧
      (gs.map (·.core)).Nodup ∧ (gs.map (·.id)).Nodup

/-- R317, R320, R353, R394: what holds the placements of a launch or of a tile's pass back: a world that does not run or is
being quiesced, and a budget whose core-cycles are exhausted; with no other launch nothing is placed then. -/
def Claims.PlacementHeld : Prop :=
  ∀ (s : State) (l : Launch), s.launches = [l] → (l.inHeap = true ∨ ∃ d t b, l.src = .tilePass d t b) →
    ((getWorld s l.world).live = false ∨ (l.world ≠ 0 ∧ (getWorld s l.world).tstate ≠ .run) ∨ (getWorld s l.world).quiescing = true ∨
      cyclesExhausted s l.world l.owner = true ∨ l.total ≤ l.next) → exec .grovePlacement s = .next s

/-- R95, R321: a victim of pre-emption is a launch other than the entry's, not of real-time mode, with strands on cores that
the entry could use, and none of those has a later key. An entry with a listed segment that has storage could use that core
alone. -/
def Claims.PreemptionVictim : Prop :=
  ∀ (s : State) (e l : Launch) (cs : List Nat), victim s e = some (l, cs) →
    l ∈ s.launches ∧ l.id ≠ e.id ∧ l.record.preempt ≠ 3 ∧ cs ≠ [] ∧
    (∀ c ∈ cs, c ∈ usableCores s e ∧ c ∈ candidates s e ∧ ((∀ d t b, e.src ≠ .tilePass d t b) →
      ∀ m n g, e.record.segs = [(m, n)] → findSegment s e.world n = some g → g.stored = true → c = g.core) ∧ ∃ st ∈ s.strands, st.launch = l.id ∧ st.core = c ∧ st.resident = true) ∧
    ∀ y ∈ s.launches, y.id ≠ e.id → y.record.preempt < 2 →
      (∃ st ∈ s.strands, st.launch = y.id ∧ st.resident = true ∧ st.toSave = false ∧ st.core ∈ candidates s e) → y.key ≤ l.key

/-- R321: without an entry that is urgent nothing is pre-empted. Else the victim is stopped on one core, by its mode: at run
boundaries its strands there are to be saved at the ends of their grants, in idempotent regions their grants end now, and
at task boundaries only its placements stop. -/
def Claims.Preempted : Prop :=
  ∀ (s : State) (e l : Launch) (cs : List Nat),
    ((∀ y ∈ s.launches, y.inHeap = true → s.time + 2000 ≤ y.key ∨ s.time < y.since + 2000) →
      exec .preemption s = .next s) ∧
    ((heapOrder s).find? (urgent s) = some e → victim s e = some (l, cs) →
      (l.record.preempt = 2 → exec .preemption s = .next
        { s with launches := s.launches.map fun y => if y.id = l.id then { l with paused := true } else y }) ∧
      (l.record.preempt ≠ 2 → (s.strands.map (·.home)).Nodup → ∃ c ∈ cs, ∃ t, exec .preemption s = .next t ∧
        { t with strands := s.strands, lanes := s.lanes } = s ∧
        t.strands = s.strands.map (fun st =>
          if st.launch = l.id ∧ st.core = c ∧ st.resident = true then { st with toSave := true } else st) ∧
        (l.record.preempt = 0 → t.lanes = s.lanes) ∧
        (l.record.preempt = 1 → ∀ st ∈ s.strands, st.launch = l.id → st.core = c → st.resident = true →
          (getLane t (strandLane st)).granted ≠ some st.home)))

/-! ### Tiles -/

/-- R351: two primitives that share an edge, which each goes along in its own direction, never both cover a sample that
lies on it. -/
def Claims.SharedEdges : Prop :=
  ∀ (p p' : Prim) (px py : Nat) (x0 y0 x1 y1 x2 y2 u0 v0 u1 v1 u2 v2 : Int) (c c' : Cover) (ax ay bx by_ : Int),
    p.xs = [x0, x1, x2] → p.ys = [y0, y1, y2] → p'.xs = [u0, u1, u2] → p'.ys = [v0, v1, v2] →
    (ax, ay, bx, by_) ∈ [(x0, y0, x1, y1), (x1, y1, x2, y2), (x2, y2, x0, y0)] →
    (bx, by_, ax, ay) ∈ [(u0, v0, u1, v1), (u1, v1, u2, v2), (u2, v2, u0, v0)] →
    (bx - ax) * (256 * (py : Int) + 128 - ay) - (by_ - ay) * (256 * (px : Int) + 128 - ax) = 0 →
    ¬ (coverPixel p px py = some c ∧ coverPixel p' px py = some c')

/-- R351: a primitive covers a pixel exactly when the sample at its centre passes each of the three edges, and the depth
there, rounded once to the nearest FP32, ties to even, lies in [0, 1]; the barycentrics are the quotients of the edge
functions by the area. Coordinates are in 1/256 of a pixel (R349). -/
def Claims.PixelCoverage : Prop :=
  ∀ (p : Prim) (px py : Nat) (x0 y0 x1 y1 x2 y2 z0 z1 z2 : Int) (w0 w1 w2 : Word),
    p.xs = [x0, x1, x2] → p.ys = [y0, y1, y2] → p.zs = [w0, w1, w2] →
    fixed32 w0.toNat = some z0 → fixed32 w1.toNat = some z1 → fixed32 w2.toNat = some z2 →
    let cx : Int := 256 * px + 128
    let cy : Int := 256 * py + 128
    let e (ax ay bx by_ : Int) : Int := (bx - ax) * (cy - ay) - (by_ - ay) * (cx - ax)
    let area : Int := (x1 - x0) * (y2 - y0) - (x2 - x0) * (y1 - y0)
    let inside (ax ay bx by_ : Int) : Prop := 0 < e ax ay bx by_ ∨
      (e ax ay bx by_ = 0 ∧ (by_ - ay < 0 ∨ (by_ - ay = 0 ∧ 0 < bx - ax)))
    let z := ratioCode f32 (e x1 y1 x2 y2 * z0 + e x2 y2 x0 y0 * z1 + e x0 y0 x1 y1 * z2) (area * 2 ^ 149)
    (∀ c, coverPixel p px py = some c ↔
      inside x0 y0 x1 y1 ∧ inside x1 y1 x2 y2 ∧ inside x2 y2 x0 y0 ∧
      numLt (val32 z) FVal.zero = false ∧ numLt (.fin false 1 1) (val32 z) = false ∧
      c = { z := z, l1 := ratioCode f16 (e x2 y2 x0 y0) area, l2 := ratioCode f16 (e x0 y0 x1 y1) area }) ∧
    (inside x0 y0 x1 y1 → inside x1 y1 x2 y2 → inside x2 y2 x0 y0 →
      0 < area ∧ e x0 y0 x1 y1 + e x1 y1 x2 y2 + e x2 y2 x0 y0 = area)

/-- R352: the front of a pixel is a covering primitive without may-discard of least depth, ties to the lower number. A
may-discard primitive has a coverage thread exactly where it covers a pixel of the tile and lies in front; the front of the
second resolution is the least, ties to the lower number, of that front and of those that did not discard there; and a pixel
has a shading thread exactly where it has such a front. -/
def Claims.Visibility : Prop :=
  ∀ (d : Draw) (tile x y : Nat),
    let inTile (x y : Nat) : Prop := x < (targetExtent d).1 ∧ y < (targetExtent d).2 ∧
      x / 32 = tile % tilesAlong (targetExtent d).1 ∧ y / 32 = tile / tilesAlong (targetExtent d).1
    let covers (q : Prim) (x y : Nat) (c : Cover) : Prop := q ∈ d.prims ∧ q.mayDiscard = true ∧ tile ∈ q.tiles ∧
      coverPixel q x y = some c ∧ ∀ i z, firstFront d tile x y = some (i, z) → numLt (val32 c.z) (val32 z) = true
    (∀ i z, firstFront d tile x y = some (i, z) →
      ∃ p ∈ d.prims, p.mayDiscard = false ∧ tile ∈ p.tiles ∧ p.id = i ∧ ∃ c, coverPixel p x y = some c ∧ c.z = z) ∧
    (∀ p ∈ d.prims, p.mayDiscard = false → tile ∈ p.tiles → ∀ c, coverPixel p x y = some c →
      ∃ i z, firstFront d tile x y = some (i, z) ∧ numLt (val32 c.z) (val32 z) = false ∧
        (numLt (val32 z) (val32 c.z) = false → i ≤ p.id)) ∧
    (∀ th : Pixel, th ∈ coverageThreads d tile ↔
      inTile th.x th.y ∧ ∃ q c, covers q th.x th.y c ∧ q.id = th.prim) ∧
    (∀ t : Tile, t.index = tile →
      let front (i z : Nat) : Prop := firstFront d tile x y = some (i, z) ∨
        ∃ q c, covers q x y c ∧ (q.id, tilePixel x y) ∉ t.discards ∧ q.id = i ∧ c.z = z
      (∀ i z, secondFront d t x y = some (i, z) → front i z) ∧
      (∀ i z, front i z → ∃ j w, secondFront d t x y = some (j, w) ∧ numLt (val32 z) (val32 w) = false ∧
        (numLt (val32 w) (val32 z) = false → j ≤ i)) ∧
      ∀ th : Pixel, th ∈ shadingThreads d t ↔ inTile th.x th.y ∧ ∃ z, secondFront d t th.x th.y = some (th.prim, z))

/-- R353: the threads of a pass go by primitive, then row-major; a strand takes consecutive threads of one primitive, at most
its width, and is full but for the last of its primitive. -/
def Claims.PassThreads : Prop :=
  ∀ (d : Draw) (t : Tile) (ps : List Pixel), d.prims.Pairwise (fun a b => a.id < b.id) → 0 < d.pixel.width →
    ps = coverageThreads d t.index ∨ ps = shadingThreads d t →
    ps.Pairwise (fun a b => a.prim < b.prim ∨ a.prim = b.prim ∧ (a.y < b.y ∨ a.y = b.y ∧ a.x < b.x)) ∧
    (passStrands d ps).flatten = ps ∧
    (∀ l ∈ passStrands d ps, l ≠ [] ∧ l.length ≤ d.pixel.width ∧ ∀ a ∈ l, ∀ b ∈ l, a.prim = b.prim) ∧
    ∀ (n : Nat) (l m : List Pixel), (passStrands d ps)[n]? = some l → (passStrands d ps)[n + 1]? = some m →
      (∃ a ∈ l, ∃ b ∈ m, a.prim = b.prim) → l.length = d.pixel.width

/-- R20, R352, R353: a free resolver on a core with limbs of the draw's world takes the next tile, in ascending index, that lists
a primitive, once binning has ended; its coverage pass becomes groves of at most 1,024 threads on that core, which a pixel
record that pins its groves to a stand holds to that stand (R20). That the pixel record's copse is ignored, as its grid is
(R347), is the model's choice (log 37). -/
def Claims.TileResolution : Prop :=
  ∀ (draw core i : Nat) (s : State) (d : Draw), getDraw s draw = some d →
    let left (j : Nat) : Prop := d.nextTile ≤ j ∧ j < tilesAlong (targetExtent d).1 * tilesAlong (targetExtent d).2 ∧
      ∃ p ∈ d.prims, j ∈ p.tiles
    let taken : Draw := { d with nextTile := i + 1, tiles := d.tiles ++ [{ index := i, core := core }] }
    let n := (strandsOfPass taken i false).length
    (d.binned = false → exec (.tileResolve draw core) s = .next s) ∧
    ((∃ y ∈ s.draws, ∃ t ∈ y.tiles, t.core = core) → exec (.tileResolve draw core) s = .next s) ∧
    (d.pixel.place = 1 ∧ core / 24 ≠ d.pixel.stand ∨ (∀ m, m < 4 → mapGet s.limbWorld (4 * core + m) ≠ some d.world) →
      exec (.tileResolve draw core) s = .next s) ∧
    (d.binned = true → (∀ y ∈ s.draws, ∀ t ∈ y.tiles, t.core ≠ core) → (d.pixel.place = 1 → core / 24 = d.pixel.stand) →
      (∃ m, m < 4 ∧ mapGet s.limbWorld (4 * core + m) = some d.world) → left i → (∀ j, j < i → ¬ left j) →
      ∃ t, exec (.tileResolve draw core) s = .next t ∧ { t with draws := s.draws, launches := s.launches, nextLaunch := s.nextLaunch } = s ∧
        t.draws = s.draws.map (fun y => if y.id = d.id then taken else y) ∧
        (n = 0 → t.launches = s.launches) ∧
        (n ≠ 0 → ∃ l, t.launches = s.launches ++ [l] ∧ l.src = .tilePass d.id i false ∧ l.waitCore = some core ∧
          (∀ c ∈ candidates t l, c = core) ∧ l.record = { d.pixel with gX := 1, gY := 1, gZ := 1, copse := 1 } ∧
          l.total = (n + 1024 / d.pixel.width - 1) / (1024 / d.pixel.width) ∧ l.world = d.world ∧ l.owner = d.owner ∧
          l.key = d.key ∧ l.next = 0))

/-- R352: once every coverage-pass grove of a tile has exited, its shading pass is resolved, on the same core. -/
def Claims.TileSecondResolution : Prop :=
  ∀ (draw tile : Nat) (s : State) (d : Draw) (t : Tile), getDraw s draw = some d → getTile d tile = some t →
    ((∃ l ∈ s.launches, l.src = .tilePass draw tile false) → exec (.tileSecondResolution draw tile) s = .next s) ∧
    (t.shading = false → (∀ l ∈ s.launches, l.src ≠ .tilePass draw tile false) →
      let d' : Draw := { d with tiles := d.tiles.map fun y => if y.index = tile then { y with shading := true } else y }
      let n := (strandsOfPass d' tile true).length
      ∃ u, exec (.tileSecondResolution draw tile) s = .next u ∧
        u.draws = s.draws.map (fun y => if y.id = d.id then d' else y) ∧
        (n = 0 → u.launches = s.launches) ∧
        (n ≠ 0 → ∃ l, u.launches = s.launches ++ [l] ∧ l.src = .tilePass d.id tile true ∧ l.waitCore = some t.core ∧
          l.total = (n + 1024 / d.pixel.width - 1) / (1024 / d.pixel.width)))

/-- R355, R356, R393: when the last shading-pass grove of a tile has exited, the pixels whose written bit is set are written to
their outputs, and no other; with the last tile of a draw whose binning has ended the DRAW completes. Nothing
is written for a world whose interface does not run, unless it is being torn down. -/
def Claims.TileOutputs : Prop :=
  ∀ (draw tile : Nat) (s : State) (d : Draw) (t : Tile), getDraw s draw = some d → getTile d tile = some t → t.shading = true →
    let left := d.tiles.filter (·.index != tile)
    let runs : Prop := (getWorld s d.world).live = true ∧ (d.world = 0 ∨ (getWorld s d.world).tstate = .run)
    let may : Prop := runs ∨ (getWorld s d.world).dying = true
    let ends (s1 u : State) : Prop :=
      ((left ≠ [] ∨ tilesLeft d ≠ [] ∨ d.binned = false) → u.packets = s1.packets ∧ getDraw u draw = some { d with tiles := left }) ∧
      (left = [] → tilesLeft d = [] → d.binned = true → getDraw u draw = none ∧
        u.packets = workDone s1.packets d.queue d.index (if d.killed then 7 else 0))
    ((∃ l ∈ s.launches, l.src = .tilePass draw tile true) ∨ ¬ may → exec (.tileOutputWrite draw tile) s = .next s) ∧
    ((∀ l ∈ s.launches, l.src ≠ .tilePass draw tile true) → may →
      (t.out = [] → ∃ u, exec (.tileOutputWrite draw tile) s = .next u ∧ u.mem = s.mem ∧ ends s u) ∧
      (let w := tilesAlong (targetExtent d).1
       let pixel (r : Except Cause State) (kv : Nat × DWord) : Except Cause State := match r, d.outs.getD (kv.1 / 1024) none with
         | .ok s, some (_, out) =>
           let px := 32 * (tile % w) + kv.1 % 32
           let py := 32 * (tile / w) + kv.1 / 32 % 32
           frontWrite s (if out.kind = 0 then out.world else 0)
             ((out.base.toNat + (py * 64 * out.pitch + px * (if out.fmt = 1 then 8 else 4))) % 2 ^ 64)
             (leList (if out.fmt = 1 then 8 else 4) kv.2.toNat)
         | r, _ => r
       ∀ s1, t.out.foldl pixel (.ok s) = .ok s1 → ∃ u, exec (.tileOutputWrite draw tile) s = .next u ∧ u.mem = s1.mem ∧ ends s1 u))


/-- R274, R327, R370: the first pout of a writing owner that ownership discards in a budget period writes nothing and owes
its world the record of kind 0x03, with the count of those suppressed since the last; a later one of the period only
counts, saturating. -/
def Claims.DiscardRecords : Prop :=
  ∀ (s : State) (st : Strand) (t index : Nat) (d : Desc) (x y owner : Nat),
    x < 2 ^ 16 → y < 2 ^ 16 → index < 2 ^ 16 → owner < 256 → st.owner < 256 → st.world < 64 → t < 64 →
    let n := mapGetD s.suppressed st.owner 0
    let s1 := discardPout s st t index d x y owner
    n < 2 ^ 32 →
    (st.owner ∈ s.discardSeen →
      { s1 with suppressed := s.suppressed } = s ∧ mapGetD s1.suppressed st.owner 0 = min (n + 1) (2 ^ 32 - 1) ∧
      ∀ o, o ≠ st.owner → mapGet s1.suppressed o = mapGet s.suppressed o) ∧
    (st.owner ∉ s.discardSeen → ∃ w0 w1 w2 w3 : DWord,
      { s1 with suppressed := s.suppressed, discardSeen := s.discardSeen, due := s.due } = s ∧
      s1.due = s.due ++ [(st.world, [w0, w1, w2, w3])] ∧ s1.discardSeen = s.discardSeen ++ [st.owner] ∧
      mapGetD s1.suppressed st.owner 0 = 0 ∧ (∀ o, o ≠ st.owner → mapGet s1.suppressed o = mapGet s.suppressed o) ∧
      w0 = BitVec.ofNat 64 (y * 64 * d.pitch + x * if d.fmt = 1 then 8 else 4) ∧
      wordBits w1 63 48 = y ∧ wordBits w1 47 32 = x ∧ wordBits w1 31 0 = 0 ∧
      wordBits w2 63 48 = index ∧ wordBits w2 47 40 = owner ∧ wordBits w2 39 32 = st.owner ∧ wordBits w2 31 0 = n ∧
      wordBits w3 63 56 = 3 ∧ wordBits w3 55 48 = 2 ∧ wordBits w3 47 40 = 2 ∧ wordBits w3 39 24 = 0 ∧
      wordBits w3 23 18 = st.world ∧ wordBits w3 17 10 = 0 ∧ wordBits w3 9 4 = t ∧ wordBits w3 3 3 = 0)

/-! ### Owner maps, descriptors, planes and heads -/

/-- R35, R362, R368: MAPRECT sets the owner bytes of a rectangle, row by row, which has to lie in the head; where one of them
cannot be written it writes none and is REFUSED, and only what the translation has left stands. -/
def Claims.MapRectangles : Prop :=
  ∀ (p : PktHd) (head plane owner x0 y0 w h : Nat) (s : State) (x : Packet),
    let ins : Instr := .maprect p head plane owner x0 y0 w h
    Due s p ins x →
    let hd := mapGetD s.heads head {}
    let out : Prop := 100 ≤ head ∨ 4 ≤ plane ∨ hd.width < x0 + w ∨ hd.height < y0 + h
    (out → Rejected ins p s 6) ∧
    (¬ out → ∀ f : Nat → State, f 0 = begun s p →
      (∀ j, j < h → frontWriteAll (f j) 0 ((mapGetD s.planes (4 * head + plane) {}).omap.toNat + (y0 + j) * hd.width + x0)
        (List.replicate w (BitVec.ofNat 8 owner)) = .ok (f (j + 1))) →
      Completes ins p s 0 (f h)) ∧
    (¬ out → ∀ (f : Nat → State) (n : Nat) (c : Cause), f 0 = begun s p → n < h →
      let row (j : Nat) : Nat := (mapGetD s.planes (4 * head + plane) {}).omap.toNat + (y0 + j) * hd.width + x0
      (∀ j, j < n → frontWriteAll (f j) 0 (row j) (List.replicate w (BitVec.ofNat 8 owner)) = .ok (f (j + 1))) →
      frontWriteAll (f n) 0 (row n) (List.replicate w (BitVec.ofNat 8 owner)) = .error c →
      Completes ins p s 6 (refusedWrite (begun s p) 0 ((List.range h).flatMap fun j => (List.range w).map fun i =>
        (mapGetD s.planes (4 * head + plane) {}).omap.toNat + (y0 + j) * hd.width + x0 + i)))

/-- R366, R368, R369: DESC writes one descriptor of the table from its words; one that breaks a limit is REFUSED; a clear v
takes the entry away. A valid one is from then on the output in use of each head that names it, and a cleared one stays in
use where it was: that is the model's reading (log 39). -/
def Claims.DescriptorWrites : Prop :=
  ∀ (p : PktHd) (index : Nat) (src : DWord) (s s1 : State) (x : Packet) (bs : List Byte),
    let ins : Instr := .desc p index src
    Due s p ins x →
    (∀ c, frontRead (begun s p) 0 src.toNat 32 = .error c → Completes ins p s 1 (readEffects (begun s p) 0 src.toNat 32)) ∧
    (frontRead (begun s p) 0 src.toNat 32 = .ok (bs, s1) →
      let w (k : Nat) : DWord := (dwords bs).getD k 0
      let kind := wordBits (w 2) 49 48
      let fmt := wordBits (w 2) 46 45
      let width := wordBits (w 1) 63 50 + 1
      let height := wordBits (w 1) 49 36 + 1
      let pitch := wordBits (w 1) 35 20
      let owner := wordBits (w 2) 57 50
      let reader := wordBits (w 2) 35 28
      let head := wordBits (w 2) 44 38
      let hd := mapGetD s1.heads head {}
      let reserved : Prop := wordBits (w 1) 19 0 ≠ 0 ∨ wordBits (w 2) 27 0 ≠ 0 ∨ w 3 ≠ 0
      let bad : Prop := kind = 3 ∨ 2 ≤ fmt ∨ (w 0).toNat % 128 ≠ 0 ∨ pitch * 64 < width * (if fmt = 1 then 8 else 4) ∨
        (kind = 0 ∧ ¬ (1 ≤ owner ∧ owner ≤ 254)) ∨
        (kind ≠ 0 ∧ (wordBits (w 2) 63 58 ≠ 0 ∨ owner ≠ 0 ∨ fmt ≠ 0 ∨ 100 ≤ head ∨ width ≠ hd.width ∨ height ≠ hd.height)) ∨
        (kind = 2 ∧ ¬ (1 ≤ reader ∧ reader ≤ 254))
      (0xfffe < index ∨ reserved → Completes ins p s 6 s1) ∧
      (index ≤ 0xfffe → ¬ reserved → wordBits (w 2) 47 47 = 0 → Completes ins p s 0 { s1 with descs := mapErase s1.descs index }) ∧
      (index ≤ 0xfffe → ¬ reserved → wordBits (w 2) 47 47 = 1 →
        (bad → Completes ins p s 6 s1) ∧
        let d : Desc := { base := w 0, width := width, height := height, pitch := pitch, world := wordBits (w 2) 63 58
                          owner := owner, kind := kind, fmt := fmt, head := head, plane := wordBits (w 2) 37 36, reader := reader }
        (¬ bad → Completes ins p s 0 { s1 with
          descs := mapSet s1.descs index d
          heads := s1.heads.map fun (y : Nat × Head) =>
            if y.2.odesc = index then (y.1, { y.2 with out := some d }) else y })))

/-- R363, R368: PLANE writes one plane record from its words. -/
def Claims.PlaneWrites : Prop :=
  ∀ (p : PktHd) (head plane : Nat) (src : DWord) (s s1 : State) (x : Packet) (bs : List Byte),
    let ins : Instr := .plane p head plane src
    Due s p ins x →
    (∀ c, frontRead (begun s p) 0 src.toNat 32 = .error c → Completes ins p s 1 (readEffects (begun s p) 0 src.toNat 32)) ∧
    (frontRead (begun s p) 0 src.toNat 32 = .ok (bs, s1) →
      let w (k : Nat) : DWord := (dwords bs).getD k 0
      let bad : Prop := 100 ≤ head ∨ 4 ≤ plane ∨ (w 0).toNat % 64 ≠ 0 ∨ wordBits (w 1) 54 0 ≠ 0 ∨ w 2 ≠ 0 ∨ w 3 ≠ 0
      (bad → Completes ins p s 6 s1) ∧
      let r : Plane := { omap := w 0, opac := wordBits (w 1) 63 56, en := wordBits (w 1) 55 55 == 1 }
      (¬ bad → Completes ins p s 0 { s1 with planes := mapSet s1.planes (4 * head + plane) r }))

/-- R363, R365, R368, R405: HEAD writes one head record; a record that breaks a limit is REFUSED. The timing of a physical head
is firmware's: its record carries 0 there and leaves it; a change of timing of a virtual head that latches waits for its
next latch. That a physical head may have no timing yet, that a capture head which names itself is judged by its new record,
and that the first latch of a head is at or after now, is the model's reading (log 39). -/
def Claims.HeadWrites : Prop :=
  ∀ (p : PktHd) (head : Nat) (src : DWord) (s s1 : State) (x : Packet) (bs : List Byte),
    let ins : Instr := .head p head src
    Due s p ins x →
    (∀ c, frontRead (begun s p) 0 src.toNat 64 = .error c → Completes ins p s 1 (readEffects (begun s p) 0 src.toNat 64)) ∧
    (frontRead (begun s p) 0 src.toNat 64 = .ok (bs, s1) →
      let w (k : Nat) : DWord := (dwords bs).getD k 0
      let old := mapGetD s1.heads head {}
      let en := wordBits (w 0) 35 35
      let cap := wordBits (w 0) 34 34
      let shead := mapGetD s1.heads (wordBits (w 0) 33 27) {}
      let capr := wordBits (w 0) 26 19
      let t0 := (w 1).toNat
      let guard := wordBits (w 2) 63 32
      let period := wordBits (w 2) 31 0
      let width := wordBits (w 0) 63 50 + 1
      let height := wordBits (w 0) 49 36 + 1
      let odesc := wordBits (w 4) 63 48
      let reserved : Prop := wordBits (w 0) 18 0 ≠ 0 ∨ wordBits (w 4) 34 0 ≠ 0 ∨ w 5 ≠ 0 ∨ w 6 ≠ 0 ∨ w 7 ≠ 0
      let output : Prop := ∃ d, mapGet s1.descs odesc = some d ∧ d.kind = 0 ∧ d.fmt = 0 ∧ d.width = width ∧ d.height = height
      let bad : Prop := 100 ≤ head ∨ reserved ∨ (head < 4 ∧ (t0 ≠ 0 ∨ period ≠ 0)) ∨
        (4 ≤ head ∧ (period < 2000000 ∨ period < guard)) ∨ (head < 4 ∧ old.period < guard) ∨
        (head < 4 ∧ old.period ≠ 0 ∧ old.period < 2000000) ∨
        (cap = 1 ∧ (head < 4 ∨ 100 ≤ wordBits (w 0) 33 27 ∨ wordBits (w 0) 33 27 = head ∨ shead.cap = true ∨ shead.width ≠ width ∨ shead.height ≠ height ∨
          ¬ (1 ≤ capr ∧ capr ≤ 254))) ∨
        (en = 1 ∧ 4 ≤ head ∧ (¬ output ∨ wordBits (s1.host.accepted.getD 0 0) 3 3 = 0))
      (bad → Completes ins p s 6 s1) ∧
      (¬ bad → ∃ r : Head, Completes ins p s 0 { s1 with heads := mapSet s1.heads head r } ∧
        r.width = width ∧ r.height = height ∧ r.guard = guard ∧ (r.en = true ↔ en = 1) ∧ (r.cap = true ↔ cap = 1) ∧
        r.shead = wordBits (w 0) 33 27 ∧ r.capr = capr ∧ r.fill = hi32 (w 3) ∧ r.bg = lo32 (w 3) ∧ r.odesc = odesc ∧ (∀ d, mapGet s1.descs odesc = some d → r.out = some d) ∧
        r.nidx = wordBits (w 4) 47 36 ∧ (r.ne = true ↔ wordBits (w 4) 35 35 = 1) ∧
        (head < 4 → r.t0 = old.t0 ∧ r.period = old.period ∧ r.newTiming = old.newTiming) ∧
        (4 ≤ head → old.en = true → en = 1 → r.nextLatch = old.nextLatch ∧
          (t0 ≠ old.t0 ∨ period ≠ old.period → r.t0 = old.t0 ∧ r.period = old.period ∧ r.newTiming = some (t0, period))) ∧
        (4 ≤ head → old.en = false → r.t0 = t0 ∧ r.period = period ∧ r.newTiming = none ∧
          s1.time ≤ r.t0 + r.nextLatch * r.period ∧
          (0 < r.nextLatch → r.t0 + (r.nextLatch - 1) * r.period < s1.time))))

/-- R363, R365: the system world reads a head record back: its words hold the fields as a HEAD gives them, and for a physical
head the timing that firmware has written. A timing that waits for the head's next latch is the one that is read: that is the
model's choice (log 39). -/
def Claims.HeadReads : Prop :=
  ∀ (s : State) (head k : Nat) (rest : List Turn), s.turns = .headRead head k :: rest → s.power.tripped = false →
    s.host.bootStep = 0 →
    let s0 : State := { s with turns := rest, free := s.free + 1 }
    step s = settled (.next { s0 with host := { s0.host with readout := some (readHead s0 head k) } }) ∧
    (head < 100 → let h := mapGetD s0.heads head {}
      let w (n : Nat) : DWord := readHead s0 head n
      let timing := h.newTiming.getD (h.t0, h.period)
      1 ≤ h.width → h.width ≤ 2 ^ 14 → 1 ≤ h.height → h.height ≤ 2 ^ 14 → h.shead < 2 ^ 7 → h.capr < 2 ^ 8 → h.guard < 2 ^ 32 →
      timing.1 < 2 ^ 64 → timing.2 < 2 ^ 32 → h.odesc < 2 ^ 16 → h.nidx < 2 ^ 12 →
      wordBits (w 0) 63 50 = h.width - 1 ∧ wordBits (w 0) 49 36 = h.height - 1 ∧ (wordBits (w 0) 35 35 = 1 ↔ h.en = true) ∧
      (wordBits (w 0) 34 34 = 1 ↔ h.cap = true) ∧ wordBits (w 0) 33 27 = h.shead ∧ wordBits (w 0) 26 19 = h.capr ∧
      (w 1).toNat = timing.1 ∧ wordBits (w 2) 63 32 = h.guard ∧ wordBits (w 2) 31 0 = timing.2 ∧ hi32 (w 3) = h.fill ∧
      lo32 (w 3) = h.bg ∧ wordBits (w 4) 63 48 = h.odesc ∧ wordBits (w 4) 47 36 = h.nidx ∧
      (wordBits (w 4) 35 35 = 1 ↔ h.ne = true))

/-- R365: firmware writes the timing of a physical head from the mode that its link trains; it takes effect at the next
latch of a head that latches. -/
def Claims.LinkTraining : Prop :=
  ∀ (head : Nat) (t0 period : DWord) (s : State),
    let old := mapGetD s.heads head {}
    (4 ≤ head → exec (.dpLinkTraining head t0 period) s = .next s) ∧
    (head < 4 → 2000000 ≤ period.toNat → period.toNat < 2 ^ 32 →
      (old.en = true → old.period ≠ 0 → exec (.dpLinkTraining head t0 period) s = .next
        { s with heads := mapSet s.heads head { old with newTiming := some (t0.toNat, period.toNat) } }) ∧
      (old.en = false → ∃ r : Head, exec (.dpLinkTraining head t0 period) s = .next { s with heads := mapSet s.heads head r } ∧
        r.t0 = t0.toNat ∧ r.period = period.toNat ∧ r.newTiming = none ∧ { r with
          t0 := old.t0, period := old.period, newTiming := old.newTiming, nextLatch := old.nextLatch } = old))

/-! ### Frames and grants -/

/-- R369, R371, R376, R378: a PRESENT with the owner's current frame number ends that frame, one with the last presented number adds
a plane to it, and any other is BAD_PACKET, as is one whose descriptor is no plane image of the plane. Its image, as
its descriptor stands now, takes the place of the owner-plane's last, whose packet is done if it still waited; the head is the owner's pacing head.
-/
def Claims.Presents : Prop :=
  ∀ (p : PktHd) (head plane desc frame : Nat) (s : State) (x : Packet),
    let ins : Instr := .present p head plane desc frame
    Due s p ins x →
    let lf := mapGetD s.lf x.owner 0xffffffff
    let current := (lf + 1) % 2 ^ 32
    let image : Prop := ∃ d, mapGet s.descs desc = some d ∧ d.kind = 1 ∧ d.head = head ∧ d.plane = plane
    (¬ image ∨ 100 ≤ head ∨ 4 ≤ plane ∨ (frame ≠ current ∧ frame ≠ lf) → Rejected ins p s 1) ∧
    (∀ d, mapGet s.descs desc = some d → d.kind = 1 → d.head = head → d.plane = plane → head < 100 → plane < 4 →
      frame = current ∨ frame = lf →
      let same (y : Present) : Bool := y.owner == x.owner && y.head == head && y.plane == plane
      ∃ t, exec ins s = .next t ∧
        t.presents = s.presents.filter (fun y => !same y) ++
          [{ owner := x.owner, head := head, plane := plane, desc := desc, image := d, waiting := some (p.queue, p.index) }] ∧
        mapGetD t.lf x.owner 0xffffffff = frame ∧ mapGet t.pacing x.owner = some head ∧
        (∀ o, o ≠ x.owner → mapGet t.lf o = mapGet s.lf o ∧ mapGet t.pacing o = mapGet s.pacing o) ∧
        ((∀ y ∈ s.presents, same y = true → y.waiting = none) → t.packets = (begun s p).packets) ∧
        (∀ y no i, s.presents.find? same = some y → y.waiting = some (no, i) →
          t.packets = workDone (begun s p).packets no i 0))

/-- R372: GRANT takes a free entry, with one right, between two owners, for a descriptor that is valid or that an enabled
capture head writes; the entry is active, and applies from the frame after the grantee's current one at the earliest, or,
for capture, from the latch after the head's latest. -/
def Claims.Grants : Prop :=
  ∀ (p : PktHd) (entry : Nat) (src : DWord) (s s1 : State) (x : Packet) (bs : List Byte),
    let ins : Instr := .grant p entry src
    Due s p ins x →
    (∀ c, frontRead (begun s p) 0 src.toNat 32 = .error c → Completes ins p s 1 (readEffects (begun s p) 0 src.toNat 32)) ∧
    (frontRead (begun s p) 0 src.toNat 32 = .ok (bs, s1) →
      let w (k : Nat) : DWord := (dwords bs).getD k 0
      let capture := wordBits (w 2) 1 1
      let sample := wordBits (w 2) 0 0
      let surface := wordBits (w 1) 31 16
      let grantee := wordBits (w 1) 15 8
      let grantor := wordBits (w 1) 7 0
      let old := mapGetD s1.grants entry {}
      let cf := (mapGetD s1.lf grantee 0xffffffff + 1) % 2 ^ 32
      let bad : Prop := wordBits (w 2) 61 2 ≠ 0 ∨ w 3 ≠ 0 ∨ 4096 ≤ entry ∨ old.state ≠ .free ∨ capture = sample ∨
        ¬ (1 ≤ grantee ∧ grantee ≤ 254) ∨ ¬ (1 ≤ grantor ∧ grantor ≤ 254) ∨ grantor = grantee ∨
        (sample = 1 ∧ mapGet s1.descs surface = none) ∨
        (capture = 1 ∧ ∀ h ∈ s1.heads, ¬ (h.2.en = true ∧ h.2.cap = true ∧ h.2.odesc = surface))
      (bad → Completes ins p s 6 s1) ∧
      (¬ bad → ∃ g : Grant, Completes ins p s 0 { s1 with grants := mapSet s1.grants entry g } ∧ g.state = .active ∧
        g.wframe = 0xffffffff ∧ g.expiry = wordBits (w 0) 31 0 ∧ g.surface = surface ∧ g.grantee = grantee ∧
        g.grantor = grantor ∧ (g.capture = true ↔ capture = 1) ∧ (g.sample = true ↔ sample = 1) ∧
        (sample = 1 → g.first = max (wordBits (w 0) 63 32) ((cf + 1) % 2 ^ 32)) ∧
        (∀ h, capture = 1 → (s1.heads.find? fun y => y.2.en && y.2.cap && y.2.odesc == surface) = some h →
          g.first = max (wordBits (w 0) 63 32) h.2.nextLatch)))

/-- R277, R373: WITHDRAW of an active entry withdraws it from the frame after the grantee's current one, or from the latch
after the latest of its capture head, enabled or not; a withdrawn grant becomes free when nothing can any longer ask about
it: no launch, draw or armed node of an earlier frame, no composition of an earlier latch. -/
def Claims.Withdrawals : Prop :=
  (∀ (p : PktHd) (entry : Nat) (s : State) (x : Packet), Due s p (.withdraw p entry) x →
    let g := mapGetD s.grants entry {}
    (4096 ≤ entry ∨ g.state ≠ .active → Rejected (.withdraw p entry) p s 6) ∧
    (entry < 4096 → g.state = .active → g.capture = false →
      let gone : Grant :=
        { g with state := .withdrawn, wframe := ((mapGetD s.lf g.grantee 0xffffffff + 1) % 2 ^ 32 + 1) % 2 ^ 32 }
      Completes (.withdraw p entry) p s 0 { begun s p with grants := mapSet s.grants entry gone }) ∧
    (entry < 4096 → g.state = .active → g.capture = true → ∀ h,
      (s.heads.find? fun y => y.2.en && y.2.cap && y.2.odesc == g.surface) = some h ∨
        ((s.heads.find? fun y => y.2.en && y.2.cap && y.2.odesc == g.surface) = none ∧
          (s.heads.find? fun y => y.2.cap && y.2.odesc == g.surface) = some h) →
      Completes (.withdraw p entry) p s 0 { begun s p with
        grants := mapSet s.grants entry { g with state := .withdrawn, wframe := h.2.nextLatch } })) ∧
  (∀ (entry : Nat) (s : State),
    let g := mapGetD s.grants entry {}
    let cf := (mapGetD s.lf g.grantee 0xffffffff + 1) % 2 ^ 32
    let asked : Prop := (∃ l ∈ s.launches, l.owner = g.grantee ∧ l.frame < g.wframe) ∨
      (∃ d ∈ s.draws, d.owner = g.grantee ∧ d.frame < g.wframe) ∨
      (∃ n ∈ s.nodes, n.2.armed = true ∧ n.2.ready = false ∧ n.2.frame < g.wframe ∧
        (getQueue s n.2.queue).map (·.owner) = some g.grantee)
    let composes : Prop := ∃ c ∈ s.composing, c.record.cap = true ∧ c.record.odesc = g.surface ∧ c.latch < g.wframe
    let clock := s.heads.find? fun y => y.2.cap && y.2.odesc == g.surface && y.2.en
    (g.state ≠ .withdrawn → exec (.grantFree entry) s = .next s) ∧
    (g.state = .withdrawn → g.sample = true → cf < g.wframe ∨ asked → exec (.grantFree entry) s = .next s) ∧
    (g.state = .withdrawn → g.sample = true → g.wframe ≤ cf → ¬ asked →
      exec (.grantFree entry) s = .next { s with grants := mapErase s.grants entry }) ∧
    (g.state = .withdrawn → g.sample = false →
      (composes ∨ (∃ n h, clock = some (n, h) ∧ h.nextLatch < g.wframe) → exec (.grantFree entry) s = .next s) ∧
      (¬ composes → clock = none ∨ (∃ n h, clock = some (n, h) ∧ g.wframe ≤ h.nextLatch) →
        exec (.grantFree entry) s = .next { s with grants := mapErase s.grants entry })))

/-! ### Latches and composition -/

/-- R318, R364, R368, R378: the latch that paces work is the first of its owner's head strictly after now, and the deadline lies
`lead` ticks before it, at 1 at the least; a timing that waits
is in force after the next latch (the model's reading, log 39); a nonzero deadline, or one of an owner that has not presented, is left as it
is. -/
def Claims.Pacing : Prop :=
  ∀ (s : State) (q : Queue) (d : Nat),
    (d ≠ 0 ∨ q.paced = false ∨ mapGet s.pacing q.owner = none → pacedDeadline s q d = d) ∧
    (∀ h, q.paced = true → mapGet s.pacing q.owner = some h →
      let hd := mapGetD s.heads h {}
      (∀ t0 period, hd.newTiming = some (t0, period) → s.time < hd.t0 + hd.nextLatch * hd.period →
        pacedDeadline s q 0 = max 1 (hd.t0 + hd.nextLatch * hd.period - q.lead)) ∧
      (∀ t0 period, hd.newTiming = some (t0, period) → hd.t0 + hd.nextLatch * hd.period ≤ s.time → 0 < period →
        ∃ k, s.time < t0 + k * period ∧ (0 < k → t0 + (k - 1) * period ≤ s.time) ∧
          pacedDeadline s q 0 = max 1 (t0 + k * period - q.lead)) ∧
      (hd.newTiming = none → 0 < hd.period → ∃ k, s.time < hd.t0 + k * hd.period ∧ (0 < k → hd.t0 + (k - 1) * hd.period ≤ s.time) ∧
        pacedDeadline s q 0 = max 1 (hd.t0 + k * hd.period - q.lead)))

/-- R364, R368, R369, R376: a latch that is due counts, under a timing that waited for it, and begins the composition that ends
`guard` ticks after its time, with the record of the head as it stands; every PRESENT that waited for it is done. One that is not due does nothing, nor
one for which its tick has not come to its end (log 39). -/
def Claims.Latches : Prop :=
  ∀ (head : Nat) (s : State),
    let h := mapGetD s.heads head {}
    let at_ := h.t0 + h.nextLatch * h.period
    (s.closing = false ∨ h.en = false ∨ h.period = 0 ∨ s.time < at_ → exec (.latch head) s = .next s) ∧
    (s.closing = true → h.en = true → h.period ≠ 0 → at_ ≤ s.time → ∃ (t : State) (c : Composition), exec (.latch head) s = .next t ∧
      t.composing = s.composing ++ [c] ∧ c.head = head ∧ c.latch = h.nextLatch ∧ c.end_ = at_ + h.guard ∧ c.record = h ∧
      c.pixels.length = h.width * h.height ∧
      (h.newTiming = none → mapGetD t.heads head {} = { h with nextLatch := h.nextLatch + 1 }) ∧
      (∀ t0 period, h.newTiming = some (t0, period) → (mapGetD t.heads head {}).t0 = t0 ∧
        (mapGetD t.heads head {}).period = period ∧ (mapGetD t.heads head {}).newTiming = none) ∧
      t.presents = s.presents.map (fun p => if p.head = head then { p with waiting := none } else p) ∧
      (∀ p ∈ s.presents, ∀ no i, p.head = head → p.waiting = some (no, i) → ∀ y ∈ t.packets,
        y.hd.queue = no → y.hd.index = i → y.status ≠ none) ∧
      t.strands = s.strands ∧ t.groves = s.groves)

/-- R375, R377: what a latch composes at a pixel: plane by plane from the background up. A plane that is not enabled, a
pixel that no one owns, and an owner without an image on the plane leave what is below; else the source goes over it under the
plane's opacity. A capture head has its own background, and its fill in place of a source that it may not capture. A pixel
that meets poison is the background, and the first that is met is kept. -/
def Claims.ComposedPixels : Prop :=
  ∀ (s0 s : State) (h src : Head) (no k n x y : Nat) (v : Word),
    composePixel h src no k 0 s0 x y = (h.bg, none, s0) ∧
    (∀ p, composePixel h src no k n s0 x y = (v, some p, s) → composePixel h src no k (n + 1) s0 x y = (h.bg, some p, s)) ∧
    (composePixel h src no k n s0 x y = (v, none, s) →
      let above (w : Word) (p : Option (Nat × Nat)) (t : State) : Prop := composePixel h src no k (n + 1) s0 x y = (w, p, t)
      let pl := mapGetD s.planes (4 * no + n) {}
      (pl.en = false → above v none s) ∧
      (pl.en = true → ∀ bs pm s1, composerRead s (pl.omap.toNat + y * src.width + x) 1 = (some (bs, true, pm), s1) →
        above h.bg (some (pm, n)) s1) ∧
      (pl.en = true → ∀ (b : Byte) pm s1, composerRead s (pl.omap.toNat + y * src.width + x) 1 = (some ([b], false, pm), s1) →
        let img := s1.presents.find? fun p => p.owner == b.toNat && p.head == no && p.plane == n
        (b.toNat = 255 ∨ img = none → above v none s1) ∧
        (∀ p d, b.toNat ≠ 255 → img = some p → p.image = d →
          let at_ := (d.base.toNat + (y * 64 * d.pitch + x * (if d.fmt = 1 then 8 else 4))) % 2 ^ 64
          (h.cap = true → captured s1 h b.toNat k = false → above (blendPixel v h.fill pl.opac) none s1) ∧
          (h.cap = false ∨ captured s1 h b.toNat k = true → ∀ bs pa s2,
            (composerRead s1 at_ 4 = (some (bs, false, pa), s2) →
              above (blendPixel v (BitVec.ofNat 32 (leVal bs)) pl.opac) none s2) ∧
            (composerRead s1 at_ 4 = (some (bs, true, pa), s2) → above h.bg (some (pa, n)) s2)))))

/-- R374, R377: what a latch takes: the picture of the four planes of its head, or of the head that a capture head captures,
and for a backdrop of the head the blurred picture of the planes below its own. Here its reads set no bit (R40). -/
def Claims.LatchPictures : Prop :=
  ∀ (head : Nat) (s : State),
    let h := mapGetD s.heads head {}
    let no := if h.cap = true then h.shead else head
    let src := mapGetD s.heads no {}
    let pixel (from_ : Head) (no n i : Nat) : PixelState := composePixel h from_ no h.nextLatch n s (i % h.width) (i / h.width)
    s.closing = true → h.en = true → h.period ≠ 0 → h.t0 + h.nextLatch * h.period ≤ s.time →
    (∀ i, i < h.width * h.height → (pixel src no 4 i).2.2 = s) →
    (s.descs = [] → ∃ (t : State) (c : Composition), exec (.latch head) s = .next t ∧ t.composing = s.composing ++ [c] ∧
      c.pixels = (List.range (h.width * h.height)).map (fun i => (pixel src no 4 i).1) ∧ c.backdrops = []) ∧
    (∀ index d, s.descs = [(index, d)] → d.kind = 2 → d.head = head →
      (∀ i, i < h.width * h.height → (pixel h head d.plane i).2.2 = s) →
      ∃ (t : State) (c : Composition), exec (.latch head) s = .next t ∧ t.composing = s.composing ++ [c] ∧
        c.pixels = (List.range (h.width * h.height)).map (fun i => (pixel src no 4 i).1) ∧
        c.backdrops = [(d, blurPicture h.width h.height
          ((List.range (h.width * h.height)).map fun i => (pixel h head d.plane i).1))])

/-- R372, R375: what a capture head may take: pixels of the composer, of the capturing owner, and of an owner whose grant
applies to the latch; an expiry of 0xffffffff never comes. -/
def Claims.Capture : Prop :=
  ∀ (s : State) (h : Head) (o k : Nat), captured s h o k = true ↔
    o = 0 ∨ o = h.capr ∨ ∃ e g, (e, g) ∈ s.grants ∧ g.capture = true ∧ g.grantor = o ∧ g.grantee = h.capr ∧
      g.surface = h.odesc ∧ g.first ≤ k ∧ (g.expiry = 0xffffffff ∨ k ≤ g.expiry) ∧ (g.state = .active ∨ (g.state = .withdrawn ∧ k < g.wframe))

/-- R377: the blend divides by 255 with rounding, channel by channel: an opacity of 0 leaves what is below, and an opaque
source under opacity 255 replaces it. -/
def Claims.Blend : Prop :=
  (∀ x, x ≤ 255 * 255 → div255 x = (2 * x + 255) / 510) ∧
  (∀ dst src : Word, blendPixel dst src 0 = dst) ∧
  (∀ dst src : Word, src.toNat / 2 ^ 24 = 255 → blendPixel dst src 255 = src) ∧
  ∀ (dst src : Word) (opac c : Nat), c < 4 → opac ≤ 255 →
    let ch (v : Word) (j : Nat) : Nat := v.toNat / 2 ^ (8 * j) % 256
    let a (j : Nat) : Nat := div255 (ch src j * opac)
    ch (blendPixel dst src opac) c = min 255 (a c + div255 (ch dst c * (255 - a 3)))

/-- R374: the blur of a backdrop is separable: five taps along the row, then five along the column, each sum divided by 16
with rounding, and indices clamped to the edge; a picture of one colour stays as it is. -/
def Claims.Blur : Prop :=
  (∀ (w h : Nat) (px : List Word) (x y c : Nat), px.length = w * h → x < w → y < h → c < 4 →
    let clamp (i : Int) (n : Nat) : Nat := (min (max i 0) (n - 1 : Nat)).toNat
    let ch (v : Word) : Nat := v.toNat / 2 ^ (8 * c) % 256
    let taps (f : Int → Nat) (i : Int) : Nat := (f (i - 2) + 4 * f (i - 1) + 6 * f i + 4 * f (i + 1) + f (i + 2) + 8) / 16
    let row (j : Nat) : Nat := taps (fun i => ch (px.getD (j * w + clamp i w) 0)) x
    ch ((blurPicture w h px).getD (y * w + x) 0) = taps (fun j => row (clamp j h)) y) ∧
  (∀ (w h : Nat) (v : Word), blurPicture w h (List.replicate (w * h) v) = List.replicate (w * h) v) ∧
  ∀ (w : Nat) (px : List Word) (i : Nat), i < w → px.length = w →
    let at_ (d : Int) : Word := px.getD (min (max (i + d) 0) (w - 1 : Nat)).toNat 0
    let ch (v : Word) (c : Nat) : Nat := v.toNat / 2 ^ (8 * c) % 256
    ∀ c < 4, ch ((blurPicture w 1 px).getD i 0) c =
      (ch (at_ (-2)) c + 4 * ch (at_ (-1)) c + 6 * ch (at_ 0) c + 4 * ch (at_ 1) c + ch (at_ 2) c + 8) / 16

/-- R364, R369, R374: a composition is complete at its end and not before: a physical head's frame is scanned out, a virtual head's
picture is in its output's memory, and then its notify register has one more; by the record that the head
had at the latch. A backdrop is written to its descriptor's memory, as world 0. -/
def Claims.CompositionCompletes : Prop :=
  ∀ (head : Nat) (s : State) (c : Composition), (s.composing.find? (·.head == head)) = some c →
    let h := c.record
    let s0 : State := { s with composing := s.composing.filter (fun x => !(x.head == head && x.latch == c.latch))
                               frames := mapSet s.frames head c.pixels }
    (s.time < c.end_ → exec (.compositionComplete head) s = .next s) ∧
    (c.end_ ≤ s.time → head < 4 → c.backdrops = [] → exec (.compositionComplete head) s = .next s0) ∧
    (c.end_ ≤ s.time → head < 4 → ∀ (d : Desc) (px : List Word) (f : Nat → State), c.backdrops = [(d, px)] → d.kind = 2 →
      d.fmt = 0 → f 0 = s0 →
      (∀ j, j < px.length → frontWrite (f j) 0 ((d.base.toNat + (j / h.width * 64 * d.pitch + j % h.width * 4)) % 2 ^ 64)
        (leList 4 (px.getD j 0).toNat) = .ok (f (j + 1))) →
      exec (.compositionComplete head) s = .next (f px.length)) ∧
    (c.end_ ≤ s.time → 4 ≤ head → c.backdrops = [] → ∀ (d : Desc) (f : Nat → State), h.out = some d → d.kind = 0 → d.fmt = 0 →
      f 0 = s0 →
      (∀ j, j < c.pixels.length → frontWrite (f j) d.world ((d.base.toNat + (j / h.width * 64 * d.pitch + j % h.width * 4)) % 2 ^ 64)
        (leList 4 (c.pixels.getD j 0).toNat) = .ok (f (j + 1))) →
      exec (.compositionComplete head) s = .next
        (if h.ne = true then notifyAdd (f c.pixels.length) h.nidx 1 else f c.pixels.length))

/-! ### The mailbox and worlds -/

/-- R391, R405: writes of the mailbox's words, and a write of offset 0x40, which starts the command unless one runs, and waits behind a
posted write that the port holds (R408); before the feature vector is committed every command answers BUSY, and one of an undefined code BAD_ARG. -/
def Claims.Mailbox : Prop :=
  ∀ s : State,
    (∀ (n : Nat) (high : Bool) (v : Word), n < 7 → s.host.held = [] → s.power.state = .s0 → s.power.entering = none →
      exec (.registerWrite (8 * n + (if high then 4 else 0)) v) s = .next { s with host := { s.host with
        mailbox := s.host.mailbox.set n (if high then mk64 (lo32 (s.host.mailbox.getD n 0)) v
          else mk64 v (hi32 (s.host.mailbox.getD n 0))) } }) ∧
    (∀ v, operand s 7 = 0xff → s.host.held = [] → s.host.latch.length < 256 → exec (.registerWrite 0x40 v) s = .next s) ∧
    (∀ v, s.host.held ≠ [] → ∃ t, exec (.registerWrite 0x40 v) s = .next t ∧ t.turns = s.turns ∧
      t.host = { s.host with held := s.host.held ++ [.registerWrite 0x40 v] }) ∧
    (∀ v, operand s 7 ≠ 0xff → s.host.held = [] → s.host.mailbox.length = 8 → s.power.state = .s0 → s.power.entering = none →
      ∃ t e, exec (.registerWrite 0x40 v) s = .next t ∧ operand t 7 = 0xff ∧ t.turns = .event e :: s.turns ∧
        (e = match operand s 0 % 256 with
          | 1 => .worldCreate
          | 2 => .worldBind
          | 3 => .worldUnbind
          | 4 => .worldDestroy
          | 5 => .fwStage
          | 6 => .fwActivate
          | _ => .mailboxUndefinedCommand)) ∧
    (operand s 7 = 0xff → s.host.committed = false →
      ∀ c ∈ [(1, Instr.worldCreate), (2, .worldBind), (3, .worldUnbind), (4, .worldDestroy), (5, .fwStage), (6, .fwActivate),
        (0, .mailboxUndefinedCommand)], operand s 0 % 256 = c.1 → Answers c.2 s 1 s) ∧
    (∀ code, Commanded s code → code = 0 ∨ 7 ≤ code → Answers .mailboxUndefinedCommand s 2 s)

/-- R83, R84, R390, R391: WORLD_BIND and WORLD_UNBIND: an operand out of range is BAD_ARG, a named limb with a strand or a
named bank group with an allocation BUSY; else the named units are the world's, or nobody's, the stores of every
named limb are zeroed, for whatever uses them first, and the bytes of every named bank group are 0. -/
def Claims.WorldBinding : Prop :=
  ∀ (s : State) (bind : Bool),
    let ins : Instr := if bind then .worldBind else .worldUnbind
    let base := if bind then 2 else 1
    let core := operand s base
    let limbs := operand s (base + 1)
    let groups := operand s (base + 2)
    let bit (n k : Nat) : Prop := n / 2 ^ k % 2 = 1
    let busy : Prop := ∃ k, k < 4 ∧ ((bit limbs k ∧ ∃ st ∈ s.strands, st.resident = true ∧ st.core = core ∧ st.limb = k) ∨
      (bit groups k ∧ ∃ r ∈ usedRanges s core, r.1 < k * 0x40000 + 0x40000 ∧ k * 0x40000 < r.1 + r.2))
    let wrong : Prop := 96 ≤ core ∨ 16 ≤ limbs ∨ 16 ≤ groups ∨ (bind = true ∧ (getWorld s (operand s 1)).live = false)
    Commanded s (if bind then 2 else 3) →
    (wrong → Answers ins s 2 s) ∧ (¬ wrong → busy → Answers ins s 1 s) ∧
    (¬ wrong → ¬ busy → ∃ t, Answers ins s 0 t ∧ t.host = s.host ∧ t.worlds = s.worlds ∧ t.strands = s.strands ∧
      (∀ u, u ∈ t.cleared ↔ u ∈ s.cleared ∨ (u / 4 = core ∧ bit limbs (u % 4))) ∧
      (∀ x, x ∈ t.used ↔ x ∈ s.used ∧ ¬ (storeLimb x / 4 = core ∧ bit limbs (storeLimb x % 4))) ∧
      (∀ u, mapGet t.limbWorld u = if u / 4 = core ∧ bit limbs (u % 4) then (if bind then some (operand s 1) else none)
        else mapGet s.limbWorld u) ∧
      (∀ u, mapGet t.groupWorld u = if u / 4 = core ∧ bit groups (u % 4) then (if bind then some (operand s 1) else none)
        else mapGet s.groupWorld u) ∧
      (∀ c a, a < 0x100000 → memGet (scratchMem t c) a = if c = core ∧ bit groups (a / 0x40000) then 0
        else memGet (scratchMem s c) a))

/-- R389, R391, R397, R398, R405: WORLD_CREATE: an operand that it cannot take is BAD_ARG; a confidential world needs a seeded
DRBG, and waits while a reseed is under way; else the world exists, unlocked, with its root, quota, fault block and a
key of its own. The order of the operands in words 1 to 6, and that the tdi is the world's number, are the model's choice
(log 41); that a root which is misaligned, outside HBM4 or in another world's page, and a fault block that cannot be read, are
BAD_ARG is its reading (log 42). -/
def Claims.WorldCreation : Prop :=
  ∀ s : State, Commanded s 1 →
    let w := operand s 1
    let root := operand s 4
    let wrong : Prop := w = 0 ∨ 64 ≤ w ∨ (getWorld s w).live = true ∨ 2 ≤ operand s 2 ∨
      (operand s 2 = 1 ∧ wordBits (s.host.accepted.getD 0 0) 4 4 = 0) ∨ operand s 3 ≠ w ∨ root % 0x10000 ≠ 0 ∨
      tierOf s root ≠ .hbm ∨ (tagOk s w root = false ∧ tagOk s 0 root = false) ∨ 2 ^ 32 ≤ operand s 5
    (wrong → Answers .worldCreate s 2 s) ∧
    (¬ wrong → ∀ c : Cause, frontRead s 0 (operand s 6) 112 = .error c →
      (c.1 ≠ 0xff → Answers .worldCreate s 2 (readEffects s 0 (operand s 6) 112)) ∧
      (c.1 = 0xff → exec .worldCreate s = .next (requestAts (readEffects s 0 (operand s 6) 112) 0 c.2))) ∧
    (¬ wrong → ∀ bs s1, frontRead s 0 (operand s 6) 112 = .ok (bs, s1) → s1.host = s.host →
      (operand s 2 = 1 → s.host.reseeding ≠ none → exec .worldCreate s = .next s1) ∧
      (operand s 2 = 1 → s.host.reseeding = none → s.host.seeded = false → Answers .worldCreate s 3 s1) ∧
      (operand s 2 = 0 ∨ (s.host.reseeding = none ∧ s.host.seeded = true) → ∃ (t : State) (x : World),
        Answers .worldCreate s 0 t ∧ t.worlds = s1.worlds.filter (·.no != w) ++ [x] ∧
        t.host = { s.host with creations := s.host.creations + 1 } ∧
        { t with worlds := s1.worlds, host := s1.host } = s1 ∧ x.no = w ∧ x.root = BitVec.ofNat 64 root ∧
        (x.conf = true ↔ operand s 2 = 1) ∧ x.live = true ∧ x.tdi = w ∧ x.tstate = .unlocked ∧ x.quota = operand s 5 ∧
        x.key = some (s.host.creations + 1) ∧
        let f (k : Nat) : DWord := (dwords bs).getD k 0
        x.fb.ring = f 0 ∧ x.fb.nidx = wordBits (f 1) 63 52 ∧ (x.fb.ne = true ↔ wordBits (f 1) 51 51 = 1) ∧
        (x.fb.allstop = true ↔ wordBits (f 1) 50 50 = 1) ∧ x.fb.halted = false ∧ x.fb.lsize = wordBits (f 1) 47 44 ∧
        x.fb.lost = 0 ∧ x.fb.wridx = 0 ∧ x.fb.rdidx = f 3 ∧ x.fb.save = f 4 ∧ x.fb.wpen = wordBits (f 5) 5 4 ∧
        x.fb.bpen = wordBits (f 5) 3 0 ∧ x.fb.bp = [f 6, f 7, f 8, f 9] ∧ x.fb.wa = [f 10, f 12] ∧ x.fb.wc = [f 11, f 13]))

/-- R59, R62, R72, R391, R392, R393, R403: WORLD_DESTROY, STOP_INTERFACE and the reset of a virtual function tear a world down: first no
further packet is taken, its strands are killed and its waiting work is gone; a SEQ that waits is given up; once nothing of it is in
flight, its segments, translations, keys, units and HBM4 pages are gone, their bytes zero and their tags clear, and the world no
longer exists. That WORLD_DESTROY names its world in word 1 of the mailbox is the model's choice (log 41); that a waiting SEQ is
given up, and its chain dropped, is its reading (log 43). -/
def Claims.Teardown : Prop :=
  ∀ (s : State) (w : Nat) (ins : Instr),
    ins = .stopInterface w ∨ ins = .vfFlr w ∨ (ins = .worldDestroy ∧ Commanded s 4 ∧ operand s 1 = w) →
    (ins = .worldDestroy → w = 0 ∨ (getWorld s w).live = false → Answers ins s 2 s) ∧
    (ins ≠ .worldDestroy → w = 0 ∨ (getWorld s w).live = false → exec ins s = .next s) ∧
    (w ≠ 0 → (∃ x ∈ s.worlds, x.no = w) → (getWorld s w).live = true →
      ((getWorld s w).dying = false → ∃ t, exec ins s = .next t ∧
        (getWorld t w).quiescing = true ∧ (getWorld t w).dying = true ∧ (getWorld t w).live = true ∧
        (∀ y ∈ t.strands, y.world = w → y.killed = true) ∧ (∀ x ∈ t.wsloads, x.world ≠ w) ∧
        (∀ l ∈ t.launches, l.world = w → l.killed = true ∧ l.total ≤ l.next ∧ l.inHeap = false) ∧
        (∀ v, v ≠ w → (getWorld t v).live = (getWorld s v).live ∧ (getWorld t v).tstate = (getWorld s v).tstate) ∧
        ((s.strands.map (·.home)).Nodup →
          (∀ y ∈ s.strands, y.world ≠ w → (∀ b, y.status ≠ .waitBar b) ∧ ∀ g, y.status ≠ .waitGraft g) →
          ∀ y ∈ s.strands, y.world ≠ w → getStrand t y.home = some y)) ∧
      ((getWorld s w).dying = true → worldDrained s w = false →
        (∀ i ∈ s.insts, i.world = w → i.started = false ∨ i.segment.isSome = true ∨ cardKind i.card ≠ kSeq) →
        exec ins s = .next s) ∧
      ((getWorld s w).dying = true → ∃ t, exec ins s = .next t ∧
        ∀ i ∈ t.insts, i.world = w → i.started = false ∨ i.segment.isSome = true ∨ cardKind i.card ≠ kSeq) ∧
      ((getWorld s w).dying = true → worldDrained s w = true → ∃ t, exec ins s = .next t ∧
        (getWorld t w).live = false ∧ (getWorld t w).tstate = .unlocked ∧ (getWorld t w).dying = false ∧
        (getWorld t w).key = none ∧ (∀ c ∈ t.channels, c.world ≠ w) ∧
        (∀ g ∈ t.segments, g.world ≠ w) ∧ (∀ e, (e ∈ t.tlb ∨ e ∈ t.utlb) → e.world ≠ w) ∧
        (∀ u, mapGet t.limbWorld u ≠ some w ∧ mapGet t.groupWorld u ≠ some w) ∧
        (∀ n, mapGet s.tags n = some (BitVec.ofNat 8 (0x80 + w)) → w < 64 → (s.tags.map (·.1)).Nodup → mapGetD t.tags n 0 = 0 ∧
          ∀ a, a / 0x200000 = n → a < 0x2000000000 → memGet t.mem a = 0) ∧
        (∀ a, a < 0x2000000000 → (mapGetD s.tags (a / 0x200000) 0).toNat ≠ 0x80 + w → memGet t.mem a = memGet s.mem a) ∧
        (∀ v, v ≠ w → getWorld t v = getWorld s v) ∧
        (ins = .worldDestroy → operand t 7 = 0)))

/-- R389, R393 to R395, R405: the states of an interface and the requests that move between them; in ERROR no
strand is saved; a request that the table
does not allow changes nothing. -/
def Claims.InterfaceStates : Prop :=
  ∀ (s : State) (w : Nat) (x : World), getWorld s w = x → x.no = w → (∃ y ∈ s.worlds, y.no = w) → w ≠ 0 → x.live = true → x.dying = false →
    let moves (ins : Instr) (y1 : World) : Prop := exec ins s = .next { s with
      worlds := s.worlds.map fun y => if y.no = w then y1 else y }
    (x.tstate = .unlocked → x.ideKeyed = true → wordBits (s.host.accepted.getD 0 0) 1 1 = 1 →
      moves (.lockInterface w) { x with tstate := .locked }) ∧
    (x.tstate ≠ .unlocked ∨ x.ideKeyed = false ∨ wordBits (s.host.accepted.getD 0 0) 1 1 = 0 →
      exec (.lockInterface w) s = .next s) ∧
    (x.tstate = .locked → moves (.startInterface w) { x with tstate := .run }) ∧
    (x.tstate ≠ .locked → exec (.startInterface w) s = .next s) ∧
    (wordBits (s.host.accepted.getD 0 0) 1 1 = 1 → moves (.ideStreamKeying w) { x with ideKeyed := true }) ∧
    (x.tstate = .locked ∨ x.tstate = .run ∨ x.tstate = .quiesced → ∃ t, exec (.tdiError w) s = .next t ∧
      getWorld t w = { x with tstate := .error, quiescing := false } ∧ t.strands = s.strands.map (fun y => if y.world = w then { y with toSave := false } else y) ∧
      (∀ y ∈ s.strands, y.world = w → (getLane t (strandLane y)).granted ≠ some y.home) ∧
      { t with worlds := s.worlds, lanes := s.lanes, strands := s.strands } = s) ∧
    (x.tstate = .unlocked ∨ x.tstate = .error → exec (.tdiError w) s = .next s)

/-- R314, R331, R394: QUIESCE stops the taking of a world's packets and has every strand of it saved; it is answered when
nothing of the world is in flight, and RESUME lets it go on: the writes that waited in the latch are
made next, in their order, and then those that the port has held; in S1 to S3 the latch stays as it is until S0 (R408). -/
def Claims.Quiescing : Prop :=
  ∀ (s : State) (w : Nat) (x : World), getWorld s w = x → x.no = w → (∃ y ∈ s.worlds, y.no = w) → w ≠ 0 → x.live = true →
    x.dying = false →
    let setTo (y1 : World) (s1 : State) : State := { s1 with worlds := s1.worlds.map fun y => if y.no = w then y1 else y }
    let flight : Prop := (∃ y ∈ s.strands, y.world = w ∧ y.resident = true) ∨ (∃ c ∈ s.chains, c.world = w) ∨
      (∃ i ∈ s.insts, i.world = w) ∨ (∃ x ∈ s.wsloads, x.world = w) ∨
      (∃ p ∈ s.packets, p.world = w ∧ p.status ≠ none) ∨
      (∃ d ∈ s.draws, d.world = w ∧ ∃ y ∈ d.tiles, y.shading = true ∧ ∀ l ∈ s.launches, l.src ≠ .tilePass d.id y.index true) ∨ (∃ a ∈ s.pend, a.world = w) ∨ (∃ o ∈ s.mx, o.world = w) ∨ (∃ r ∈ s.nreqs, r.world = w)
    (x.tstate ≠ .run → exec (.quiesce w) s = .next s) ∧
    (x.tstate = .run → x.quiescing = false → exec (.quiesce w) s = .next
      { setTo { x with quiescing := true, forFirmware := false } s with
        strands := s.strands.map fun y => if y.world = w ∧ y.resident = true then { y with toSave := true } else y }) ∧
    (x.tstate = .run → x.quiescing = true → flight → exec (.quiesce w) s = .next s) ∧
    (x.tstate = .run → x.quiescing = true → ¬ flight → ∃ t, exec (.quiesce w) s = .next t ∧
      getWorld t w = { x with quiescing := false, tstate := .quiesced } ∧
      ((∀ l, l ∈ s.dcache ∨ l ∈ s.slices → l.world = w → tierOf s (l.line * 128) ≠ .host) →
        t = setTo { x with quiescing := false, tstate := .quiesced } s)) ∧
    (x.tstate ≠ .quiesced → exec (.resume w) s = .next s) ∧
    let write (e : Nat × Word × Nat) : Instr :=
      if 4096 ≤ e.1 then .doorbellWrite ⟨e.1 - 4096, e.2.2⟩ else .notifyWrite e.1 e.2.1 e.2.2
    let awake : Prop := s.power.state = .s0 ∧ s.power.entering = none ∧ s.host.bootStep = 0
    (x.tstate = .quiesced → awake →
      exec (.resume w) s = .next { setTo { x with tstate := .run, forFirmware := false } s with
        host := { s.host with latch := [], held := [] }
        turns := (s.host.latch.map write ++ s.host.held).map Turn.event ++ s.turns }) ∧
    (x.tstate = .quiesced → ¬ awake → exec (.resume w) s = .next (setTo { x with tstate := .run, forFirmware := false } s))

/-! ### Firmware, translations from the host, entropy and links -/

/-- R391, R400, R401: FW_STAGE answers BAD_ARG for an image that cannot be read, SIG_FAIL for a signature and VERSION for a
version that does not pass, else the image is staged in the standby. FW_ACTIVATE quiesces every interface that runs; then
the standby takes over with what was staged, or, refusing the state table, stays standby and the command answers
VERSION; the interfaces that it quiesced resume. That the image's address and length stand in words 1 and 2 of the mailbox is
the model's choice (log 41). -/
def Claims.FirmwareUpdate : Prop :=
  (∀ s : State, Commanded s 5 →
    (∀ c : Cause, frontRead s 0 (operand s 1) (operand s 2) = .error c →
      (c.1 ≠ 0xff → Answers .fwStage s 2 (readEffects s 0 (operand s 1) (operand s 2))) ∧
      (c.1 = 0xff → exec .fwStage s = .next (requestAts (readEffects s 0 (operand s 1) (operand s 2)) 0 c.2))) ∧
    (∀ bs s1, frontRead s 0 (operand s 1) (operand s 2) = .ok (bs, s1) →
      let ok (n : Nat) : Bool := Config.cryptoCheck n (bs.map (·.toNat))
      (ok 0 = false → Answers .fwStage s 4 s1) ∧ (ok 0 = true → ok 1 = false → Answers .fwStage s 5 s1) ∧
      (ok 0 = true → ok 1 = true → ∃ v, v < 256 ∧
        Answers .fwStage s 0 { s1 with host := { s1.host with staged := some v } }))) ∧
  (∀ s : State, Commanded s 6 →
    let running : Prop := ∃ x ∈ s.worlds, x.no ≠ 0 ∧ x.live = true ∧ x.tstate = .run ∧ x.dying = false
    (running → (s.worlds.map (·.no)).Nodup → ∃ t, exec .fwActivate s = .next t ∧ operand t 7 = 0xff ∧
      t.host = s.host ∧ (∀ x ∈ s.worlds, x.no ≠ 0 → x.live = true → x.tstate = .run → x.dying = false → x.quiescing = false →
        (getWorld t x.no).quiescing = true ∧ (getWorld t x.no).forFirmware = true)) ∧
    (¬ running → s.host.latch = [] → s.host.held = [] → ∃ (t : State) (st : Nat),
        Answers .fwActivate s st t ∧ (st = 0 ∨ st = 5) ∧
        t.worlds = s.worlds.map (fun x =>
          if x.forFirmware = true ∧ x.tstate = .quiesced then { x with tstate := .run, forFirmware := false } else x) ∧
        (st = 0 → t.host.activeB = !s.host.activeB ∧ t.host.svn = s.host.staged.getD s.host.svn ∧ t.host.staged = none) ∧
        (st = 5 → t.host = s.host)))

/-- R387, R396: a completed translation is at hand for its page; a refused one is forgotten, and asked for again, which is the
model's reading (log 44). An invalidation of a running
or quiesced world notes what has been issued through the range's translations, and nothing else, is completed when all of that has ended,
and then the translations are gone; a drain that passes 1 ms ends in ERROR, and is completed. Here no queue pins a line. -/
def Claims.HostTranslations : Prop :=
  (∀ (id h : Nat) (s : State) (a : Ats), (s.ats.find? fun a => a.id == id && a.host.isNone) = some a →
    (∀ x ∈ s.nodes, ¬ (x.2.armed = true ∧ x.2.ready = false ∧ x.2.count = 0)) →
    exec (.atsTranslationCompletion id (some h)) s = .next { s with
      ats := s.ats.map fun x => if x.id = id then { x with host := some (h % 2 ^ 35) } else x } ∧
    exec (.atsTranslationCompletion id none) s = .next { s with ats := s.ats.filter (·.id != id) }) ∧
  (∀ (w : Nat) (base len : DWord) (s : State),
    let x := getWorld s w
    (w = 0 ∨ x.live = false ∨ (x.tstate ≠ .run ∧ x.tstate ≠ .quiesced) → exec (.atsInvalidateRequest w base len) s = .next s) ∧
    (∀ k, k ∈ rangeHosts s w base.toNat len.toNat ↔ ∃ a ∈ s.ats, a.world = w ∧ a.host = some k ∧
      a.page * 4096 < base.toNat + len.toNat ∧ base.toNat < a.page * 4096 + 4096) ∧
    (w ≠ 0 → x.live = true → x.tstate = .run ∨ x.tstate = .quiesced → ∃ v : AtsInv,
      exec (.atsInvalidateRequest w base len) s = .next { s with nextId := s.nextId + 1, atsinvs := s.atsinvs ++ [v] } ∧
      v.id = s.nextId ∧ v.world = w ∧ v.base = base.toNat ∧ v.len = len.toNat ∧ v.arrived = s.time ∧
      (∀ k, k ∈ v.accesses ↔ ∃ a ∈ s.pend, a.id = k ∧ a.world = w ∧ ∃ pa c, a.place = .global pa c ∧ tierOf s pa = .host ∧
        (pa - 0x800000000000) / 4096 ∈ rangeHosts s w base.toNat len.toNat) ∧
      (∀ k, k ∈ v.insts ↔ ∃ i ∈ s.insts, i.id = k ∧ i.world = w ∧ i.started = true ∧
        instThrough s (rangeHosts s w base.toNat len.toNat) i = true))) ∧
  (∀ (id : Nat) (s : State) (v : AtsInv), s.atsinvs.find? (·.id == id) = some v → (∀ q ∈ s.queues, q.pinLines = []) →
    let busy : Prop := (∃ a ∈ s.pend, a.id ∈ v.accesses) ∨ (∃ i ∈ s.insts, i.id ∈ v.insts)
    let dropped : State := { s with
      atsinvs := s.atsinvs.filter (·.id != v.id)
      ats := s.ats.filter fun a => !(a.world == v.world && decide (a.page * 4096 < v.base + v.len) && decide (v.base < a.page * 4096 + 4096)) }
    (busy → exec (.atsInvalidateCompletion id) s = .next s) ∧
    (¬ busy → exec (.atsInvalidateCompletion id) s = .next dropped ∧ exec (.atsDrainTimeout id) s = .next s) ∧
    (s.time < v.arrived + 1000000 → exec (.atsDrainTimeout id) s = .next s) ∧
    (v.arrived + 1000000 ≤ s.time → busy → (∃ y ∈ s.worlds, y.no = v.world) → ∃ t, exec (.atsDrainTimeout id) s = .next t ∧
      { t with worlds := s.worlds, lanes := s.lanes, strands := s.strands } = dropped ∧ (getWorld t v.world).tstate = .error))

/-- R388: through CXL.mem the host reads and writes HBM4 pages of world 0; an access to another's is refused, and the system
world has the record. -/
def Claims.CxlAccesses : Prop :=
  ∀ (pa : Nat) (b : Byte) (s : State), wordBits (s.host.accepted.getD 0 0) 0 0 = 1 → tierOf s pa = .hbm →
    (tagOk s 0 pa = true → exec (.cxlMemHostAccess pa none) s = .next s ∧
      ∃ t, exec (.cxlMemHostAccess pa (some b)) s = .next t ∧ SameButMemory t s ∧ t.dcache = s.dcache ∧ t.slices = s.slices ∧
        (encrypted s pa = false → memGet t.mem pa = b) ∧ ∀ a, a ≠ pa → encrypted s pa = false → memGet t.mem a = memGet s.mem a) ∧
    (tagOk s 0 pa = false → ∀ wr, ∃ t r, exec (.cxlMemHostAccess pa wr) s = .next t ∧ t.due = s.due ++ [(0, r)] ∧
      { t with due := s.due } = s)

/-- R397, R398: a failed health test leaves the DRBG unseeded; firmware tries up to three reseeds within 1 ms; when none
passes a confidential create that waits answers ENTROPY_FAIL, the start-up tests are run again every 100 ms, and no reseed
is tried until they pass; at each rerun the sessions that could not be made are tried again. -/
def Claims.Entropy : Prop :=
  ∀ s : State,
    (s.host.sourceOk = true → exec .entropyHealthFail s = .next
      { s with host := { s.host with seeded := false, reseeding := some (s.time, 0) } }) ∧
    (s.host.sourceOk = false → exec .entropyHealthFail s = .next { s with host := { s.host with seeded := false } }) ∧
    (s.host.reseeding = none → exec .entropyReseed s = .next s) ∧
    (∀ t n, s.host.reseeding = some (t, n) →
      let waits : Prop := operand s 7 = 0xff ∧ operand s 0 % 256 = 1 ∧ operand s 2 = 1
      let failed (u : State) : Prop := u.host.seeded = s.host.seeded ∧ u.host.reseeding = none ∧ u.host.sourceOk = false ∧
        u.host.lastRerun = s.time ∧ (waits → u.host.mailbox = s.host.mailbox.set 7 3) ∧
        (¬ waits → u.host.mailbox = s.host.mailbox) ∧ { u with host := s.host } = s
      let passed (u : State) : Prop := u = { s with host := { s.host with seeded := true, reseeding := none } }
      ∃ u, exec .entropyReseed s = .next u ∧
        (t + 1000000 < s.time → failed u) ∧
        (s.time ≤ t + 1000000 → n < 2 →
          passed u ∨ u = { s with host := { s.host with reseeding := some (t, n + 1) } }) ∧
        (s.time ≤ t + 1000000 → 2 ≤ n → passed u ∨ failed u)) ∧
    (s.host.sourceOk = true ∨ s.time < s.host.lastRerun + 100000000 → exec .entropyStartupRerun s = .next s) ∧
    (s.host.sourceOk = false → s.host.lastRerun + 100000000 ≤ s.time → ∃ (ok : Bool) (ts : List Turn),
      exec .entropyStartupRerun s = .next
        { s with turns := ts ++ s.turns
                 host := { s.host with lastRerun := s.time, sourceOk := ok, seeded := s.host.seeded || ok } } ∧
      ∀ e, e ∈ ts ↔ ∃ n x, s.ports[n]? = some x ∧ x.retry = true ∧ e = .event (.spdmSession n))

/-- R74, R398, R399, R405, R408: a session is established on a trained port where random values can be drawn, and tried again
later where they cannot; with it and its keys the port is up. KEY_UPDATE renews the keys, and the counters begin again with
the flits of the window, in their order, sealed again under counters from 0: R399 has a replayed flit keep its counter, and that
new keys number the window anew is the model's reading (log 45). A flit says in its header its counter, its channel and its
length. A flit that fails its tag is dropped, and eight in a row take the port down; one
in sequence is accepted; any flit of an Oxzer port wakes the device. -/
def Claims.Links : Prop :=
  ∀ (port : Nat) (s : State) (x : Port), s.ports[port]? = some x →
    let has (t : State) (f : Port → Prop) : Prop := { t with ports := s.ports } = s ∧
      (∃ y, t.ports[port]? = some y ∧ f y) ∧ ∀ n, n ≠ port → t.ports[n]? = s.ports[n]?
    let flits (y : Port) : List (List Byte × Nat × Bool × Option Nat) :=
      (y.window ++ y.backlog).map fun f => (f.payload, f.channel, f.poison, f.inst)
    let fresh (y : Port) : Prop := y.received = 0 ∧ y.sent = y.window.length ∧ flits y = flits x ∧
      (∀ (n : Nat) (f : Flit), y.window[n]? = some f → f.counter = n) ∧ (x.window.length ≤ 64 → y.window.length ≤ 64)
    let up : Prop := x.trained = true ∧ x.session = true ∧ x.keys = true
    let offered : Prop := port = 8 ∨ wordBits (s.host.accepted.getD 0 0) 2 2 = 1
    (∀ f : Flit, f.payload.length ≤ 232 → wordBits (flitHeader f) 31 0 = f.counter % 2 ^ 32 ∧
      wordBits (flitHeader f) 35 32 = f.channel % 16 ∧ wordBits (flitHeader f) 43 36 = f.payload.length) ∧
    (x.trained = true → s.host.seeded = true → offered →
      ∃ t, exec (.spdmSession port) s = .next t ∧ portUp t port = true ∧
        has t fun y => y.session = true ∧ y.keys = true ∧ y.failures = 0 ∧ y.retry = false ∧ fresh y) ∧
    (x.trained = true → s.host.seeded = false → offered → ∃ t, exec (.spdmSession port) s = .next t ∧
      has t fun y => y = { x with retry := true }) ∧
    (x.trained = false ∨ ¬ offered → exec (.spdmSession port) s = .next s) ∧
    (up → ∃ t, exec (.keyUpdate port) s = .next t ∧ has t fun y => fresh y ∧ { y with
      sent := x.sent, received := x.received, salt := x.salt, window := x.window, backlog := x.backlog } = x) ∧
    (¬ up → exec (.keyUpdate port) s = .next s ∧ ∀ seq ch n bs tag, exec (.flitReceive port ⟨seq, ch, n⟩ bs tag) s = .next s) ∧
    (up → s.power.state = .s0 → s.power.entering = none → ∀ seq ch n bs tag,
      let ok := Config.cryptoCheck 5 (x.salt :: x.received :: seq :: ch :: n :: tag :: bs.map (·.toNat))
      ∃ t, exec (.flitReceive port ⟨seq, ch, n⟩ bs tag) s = .next t ∧
        (ok = false → x.failures < 7 → has t fun y => y = { x with failures := x.failures + 1 }) ∧
        (ok = false → 7 ≤ x.failures → portUp t port = false ∧
          (x.window = [] → x.backlog = [] → has t fun y => y.trained = false ∧ y.session = false ∧ y.keys = false)) ∧
        (ok = true → seq = x.received % 2 ^ 32 → has t fun y => y = { x with failures := 0, received := x.received + 1 }) ∧
        (ok = true → seq ≠ x.received % 2 ^ 32 → has t fun y => y = { x with failures := 0 })) ∧
    (up → port < 8 → s.power.state ≠ .s0 → ∀ seq ch n bs tag, ∃ t, exec (.flitReceive port ⟨seq, ch, n⟩ bs tag) s = .next t ∧
      t.power.pendingExit = true)

/-! ### Resets, features, power and heat -/

/-- R403, R404, R405: a fundamental reset leaves the device before step 1 of the boot order, and the reset of the physical function
before step 3, by the firmware that runs; everything is as after reset but for the turns still to come: no world, mailbox
status 0xff, nothing committed, words 1 to 3 of the accepted vector copies of the offered ones. The reset of the function
keeps the bytes of memory, and does nothing to a device held in reset; that it does nothing before step 3 of the boot order
is the model's reading (R403 is silent; log 7). A device that has tripped stays so through a reset, and is as after power-on
once its power is cycled (R410). -/
def Claims.Resets : Prop :=
  ∀ s : State,
    let before (t : State) (step : Nat) (mem : Mem) (power : Power) : Prop := t.mem = mem ∧ t.turns = s.turns ∧ t.worlds = [] ∧
      t.limbWorld = [] ∧ t.groupWorld = [] ∧ t.tags = [] ∧ t.time = 0 ∧ t.power = power ∧ t.strands = [] ∧ t.groves = [] ∧
      t.launches = [] ∧ t.queues = [] ∧ t.packets = [] ∧ t.segments = [] ∧ t.scratch = [] ∧ t.weight = [[], []] ∧
      t.dcache = [] ∧ t.slices = [] ∧ t.tlb = [] ∧ t.notify = [] ∧ t.ntable = [] ∧ t.heads = [] ∧ t.planes = [] ∧
      t.descs = [] ∧ t.grants = [] ∧ t.host.bootStep = step ∧ t.host.committed = false ∧
      t.host.offered = s.host.offered ∧ t.host.accepted.getD 0 0 = 0 ∧
      (∀ n, 1 ≤ n → n < 4 → t.host.accepted.getD n 0 = s.host.offered.getD n 0) ∧
      t.host.mailbox = [0, 0, 0, 0, 0, 0, 0, 0xff] ∧ t.host.latch = [] ∧ t.host.held = [] ∧
      t = { State.reset with turns := t.turns, turnNo := t.turnNo, free := t.free, mem := t.mem, poison := t.poison
                             worlds := [], host := t.host, power := t.power }
    let early : Prop := s.power.tripped = true ∨ s.host.bootStep = 1 ∨ s.host.bootStep = 2
    (∃ t, exec .fundamentalReset s = .next t ∧ before t 1 [] { tripped := s.power.tripped } ∧ t.poison = []) ∧
    (∀ rest, s.turns = .powerCycle :: rest → ∃ t, step s = settled (.next t) ∧ t.turns = rest ∧ t.power = {} ∧ t.mem = [] ∧
      t.host.bootStep = 1 ∧ t.host.noImage = false ∧ t.worlds = [] ∧ t.strands = []) ∧
    (¬ early → ∃ t, exec .pfFlr s = .next t ∧ before t 3 s.mem {} ∧ t.host.activeB = s.host.activeB ∧
      t.host.svn = s.host.svn ∧ t.host.staged = s.host.staged ∧ t.host.hdm = s.host.hdm ∧
      ∀ k, Poison.memory k ∈ t.poison ↔ Poison.memory k ∈ s.poison) ∧
    (early → exec .pfFlr s = .next s)

/-- R32, R398, R404, R405, R408: the steps of the boot order, each a turn of its own. Step 1 finds an image, in Damiz A or else in
Damiz B, or ends there until the device is reset; step 2 fills the population words (12,288 HBM4 pages a stack, 122,070 LPDDR
pages and the feature bits 0x1f are the model's choice, log 7); step 3 clears device time; step 4 runs the entropy tests,
and a failure leaves the DRBG unseeded; step 5 makes world 0 and trains the ports; step 6 writes the security version;
step 7 sets mailbox status 0, and the writes that waited are made next, in their order. A booted device takes no such step. -/
def Claims.BootOrder : Prop :=
  ∀ s : State,
    (∀ rest, s.turns = .bootStep :: rest → s.power.tripped = false →
      step s = settled (.next (bootAct { s with turns := rest, free := s.free + 1 }))) ∧
    let t := bootAct s
    let b := s.host.bootStep
    (b = 1 → s.host.noImage = false → (t.host = { s.host with noImage := true } ∨ (t.host.bootStep = 2 ∧ t.host.svn < 256)) ∧
      { t with host := s.host } = s) ∧
    (b = 1 → s.host.noImage = true → t = s) ∧
    (b = 2 → t.host.bootStep = 3 ∧ { t with host := s.host } = s ∧
      t.host.offered.getD 1 0 = 0x3000300030003000 ∧ wordBits (t.host.offered.getD 2 0) 31 0 = 122070 ∧
      wordBits (t.host.offered.getD 0 0) 63 1 = 0x1f) ∧
    (b = 3 → t.host.bootStep = 4 ∧ { t with host := s.host, time := s.time } = s ∧ t.time = 0) ∧
    (b = 4 → t.host.bootStep = 5 ∧ { t with host := s.host } = s ∧ t.host.seeded = t.host.sourceOk) ∧
    (b = 5 → t.host.bootStep = 6 ∧ { t with host := s.host, worlds := s.worlds, ports := s.ports } = s ∧
      t.worlds = [{ no := 0 }] ∧ t.ports.length = s.ports.length ∧ ∀ x ∈ t.ports, x.trained = true) ∧
    (b = 6 → t.host.bootStep = 7 ∧ { t with host := s.host } = s ∧
      (s.host.offered.length = 4 → t.host.offered.getD 3 0 = BitVec.ofNat 64 (s.host.svn % 256) ∧
        (∀ n, n < 3 → t.host.offered.getD n 0 = s.host.offered.getD n 0) ∧
        ∀ n, 1 ≤ n → n < 4 → t.host.accepted.getD n 0 = t.host.offered.getD n 0)) ∧
    (b = 7 → s.power.state = .s0 → s.power.entering = none → t.host.bootStep = 0 ∧ t.host.mailbox = s.host.mailbox.set 7 0 ∧
      t.host.latch = [] ∧ t.host.held = [] ∧
      t.turns = (s.host.latch.map (fun e => if 4096 ≤ e.1 then Instr.doorbellWrite ⟨e.1 - 4096, e.2.2⟩
        else .notifyWrite e.1 e.2.1 e.2.2) ++ s.host.held).map Turn.event ++ s.turns ∧ { t with host := s.host, turns := s.turns } = s) ∧
    (b = 0 → t = s)

/-- R7, R405: commit fixes the accepted vector, without what was not offered; a second commit, and later writes of accepted, are
ignored. Before it, a write reaches word 0 below its reserved bits; words 1 to 3 are copies of the offered ones. The
words that are only written read as 0. -/
def Claims.FeatureVector : Prop :=
  ∀ s : State, s.host.held = [] → s.host.latch.length < 256 →
    (s.host.committed = true → exec .featureCommit s = .next s ∧
      ∀ off v, 0x120 ≤ off → off < 0x140 → exec (.registerWrite off v) s = .next s) ∧
    (s.host.committed = false →
      (∃ t, exec .featureCommit s = .next t ∧ { t with host := s.host } = s ∧ t.host.committed = true ∧
        t.host.accepted.length = 4 ∧
        (∀ b, b < 64 → ((t.host.accepted.getD 0 0).getLsbD b = true ↔
          (s.host.accepted.getD 0 0).getLsbD b = true ∧ (s.host.offered.getD 0 0).getLsbD b = true)) ∧
        (∀ n, 1 ≤ n → n < 4 → t.host.accepted.getD n 0 = s.host.offered.getD n 0) ∧
        { t.host with committed := false, accepted := s.host.accepted } = s.host) ∧
      (∀ v : Word, s.host.accepted.length = 4 → ∃ t, exec (.registerWrite 0x120 v) s = .next t ∧
        (∀ b, b < 64 → ((t.host.accepted.getD 0 0).getLsbD b = true ↔
          if b < 6 then v.getLsbD b = true else if b < 32 then False else (s.host.accepted.getD 0 0).getLsbD b = true)) ∧
        (∀ m, m ≠ 0 → t.host.accepted.getD m 0 = s.host.accepted.getD m 0) ∧ { t with host := s.host } = s) ∧
      (∀ off v, 0x120 < off → off < 0x140 → exec (.registerWrite off v) s = .next s)) ∧
    (∀ v, exec (.registerWrite 0x140 v) s = .next { s with turns := .event .featureCommit :: s.turns }) ∧
    (∀ v, exec (.registerWrite 0x200 v) s = .next { s with turns := .event (.latencyToleranceWrite v) :: s.turns }) ∧
    (∀ n, n < 4 → registerValue s (0x100 + 8 * n) = lo32 (s.host.offered.getD n 0) ∧
      registerValue s (0x120 + 8 * n) = lo32 (s.host.accepted.getD n 0)) ∧
    registerValue s 0x40 = 0 ∧ registerValue s 0x140 = 0

/-- R406, R407: an idle device begins its entry into the deepest state whose exit latency its tolerance allows and whose own
condition holds, where that is deeper than the state it is in, unless a latch is near or it is on its way already; else it
stays. That a device in S1 or S2 begins an entry into a deeper state, and that none begins while a latch is near, is the
model's choice (log 46). -/
def Claims.PowerEntry : Prop :=
  ∀ s : State, s.power.tripped = false →
    let idle1 : Prop := ∀ st ∈ s.strands, eligible s st = false
    let idle2 : Prop := idle1 ∧ (∀ st ∈ s.strands, st.resident = false) ∧ s.chains = [] ∧ s.mx = [] ∧ s.insts = [] ∧
      ∀ l ∈ s.launches, l.inHeap = false
    let idle3 : Prop := idle2 ∧ ∀ h ∈ s.heads, h.2.en = false
    let near (exit : Nat) : Prop := ∃ h ∈ s.heads, h.2.en = true ∧ h.2.period ≠ 0 ∧
      h.2.t0 + h.2.nextLatch * h.2.period - 4000 - exit ≤ s.time
    let stays : Prop := exec .powerStateEntry s = .next s
    let enters (p : PState) : Prop := exec .powerStateEntry s = .next { s with power := { s.power with entering := some p } }
    (s.power.entering ≠ none ∨ s.power.exiting ≠ none ∨ s.power.pendingExit = true ∨ s.host.bootStep ≠ 0 ∨
      s.power.state = .s3 ∨ s.power.tolerance < 2000 ∨ ¬ idle1 → stays) ∧
    (s.power.entering = none → s.power.exiting = none → s.power.pendingExit = false → s.host.bootStep = 0 →
      (400000 ≤ s.power.tolerance → idle3 → s.power.state ≠ .s3 → enters .s3) ∧
      (40000 ≤ s.power.tolerance → s.power.tolerance < 400000 ∨ ¬ idle3 → idle2 →
        (s.power.state = .s0 ∨ s.power.state = .s1 → ¬ near 40000 → enters .s2) ∧
        (s.power.state = .s2 ∨ near 40000 → stays)) ∧
      (2000 ≤ s.power.tolerance → s.power.tolerance < 40000 ∨ ¬ idle2 → idle1 →
        (s.power.state = .s0 → ¬ near 2000 → enters .s1) ∧ (s.power.state ≠ .s0 ∨ near 2000 → stays)))

/-- R406 to R409: an entry completes in its state, the caches written back and empty in S2 and S3, and an exit that is wanted
begins then; a wake event, a latch that is near, a timed waitn that has run out, or an eligible strand begins an exit; at
its end the device is in S0, its pinned lines are held again (R319), the latched writes are made next, and then those that the
port has held; what woke it meanwhile has had its exit. A change of tolerance during an entry wakes the device, and so does
one that forbids the state. That an exit begins at once where a latch is near at the end of an entry is the model's choice
(log 46). -/
def Claims.PowerTransitions : Prop :=
  ∀ s : State,
    let latency (p : PState) : Nat := match p with
      | .s0 => 0
      | .s1 => 2000
      | .s2 => 40000
      | .s3 => 400000
    let due (p : PState) : Prop := s.power.pendingExit = true ∨ (∃ h ∈ s.heads, h.2.en = true ∧ h.2.period ≠ 0 ∧
        h.2.t0 + h.2.nextLatch * h.2.period - 4000 - latency p ≤ s.time) ∨
      (∃ st ∈ s.strands, ∃ n t, st.status = .waitNotify n ∧ n.until_ = some t ∧ t ≤ s.time)
    (s.power.entering = none → exec .powerEntryComplete s = .next s) ∧
    (∀ p, s.power.entering = some p → ∃ t, exec .powerEntryComplete s = .next t ∧ t.power.state = p ∧
      t.power.entering = none ∧ t.power.tolerance = s.power.tolerance ∧ t.strands = s.strands ∧
      (p = .s1 → { t with power := s.power } = s) ∧ (p = .s2 ∨ p = .s3 → t.dcache = [] ∧ t.slices = []) ∧
      (due p → t.power.exiting = some (s.time + latency p) ∧ t.power.pendingExit = false) ∧
      (¬ due p → s.strands = [] → s.chains = [] → s.mx = [] → s.insts = [] → (∀ l ∈ s.launches, l.inHeap = false) →
        (∀ h ∈ s.heads, h.2.en = false) → t.power.exiting = s.power.exiting)) ∧
    (s.power.state = .s0 ∨ s.power.exiting ≠ none ∨ s.power.entering ≠ none → exec .powerStateExit s = .next s) ∧
    (s.power.state ≠ .s0 → s.power.exiting = none → s.power.entering = none →
      (due s.power.state ∨ (∃ st ∈ s.strands, eligible s st = true) → exec .powerStateExit s = .next { s with power :=
        { s.power with pendingExit := false, exiting := some (s.time + latency s.power.state) } }) ∧
      (¬ due s.power.state → s.power.state = .s1 → (∀ st ∈ s.strands, eligible s st = false) →
        exec .powerStateExit s = .next s)) ∧
    (s.power.exiting = none → exec .s0Reached s = .next s) ∧
    (∀ u, s.power.exiting = some u → s.time < u → exec .s0Reached s = .next s) ∧
    (∀ u, s.power.exiting = some u → u ≤ s.time →
      let awake : State := refillPins { s with power := { s.power with state := .s0, exiting := none, pendingExit := false } }
      (s.host.bootStep = 0 → s.power.entering = none → exec .s0Reached s = .next { awake with
        host := { s.host with latch := [], held := [] }
        turns := (s.host.latch.map (fun e => if 4096 ≤ e.1 then Instr.doorbellWrite ⟨e.1 - 4096, e.2.2⟩
          else .notifyWrite e.1 e.2.1 e.2.2) ++ s.host.held).map Turn.event ++ s.turns }) ∧
      ((∀ q ∈ s.queues, q.pinLines = []) →
        awake = { s with power := { s.power with state := .s0, exiting := none, pendingExit := false } })) ∧
    (∀ v : Word, exec (.latencyToleranceWrite v) s = .next { s with power := { s.power with
      tolerance := v.toNat
      pendingExit := s.power.pendingExit || (s.power.entering.isSome && v.toNat != s.power.tolerance)
        || decide (v.toNat < latency s.power.state) } })

/-- R410: the sensors' limits. Past Tj on a die, or with the average power of the last 10 ms above the cap, the clock steps
down by 100 MHz each ms to 1.6 GHz, where nothing is slowed and no bit is set, and up again when it is cool; past Tc it falls
to 800 MHz at once, and 100 ms later the device is held in reset. The cap is at most 450 W. That a clock step judges the last
sensor readings, and the power by the readings of the last 10 ms, is the model's choice (log 46). -/
def Claims.ThermalLimits : Prop :=
  ∀ (s : State) (d0 d1 base w : Nat),
    let p := s.power
    let recent (l : List (Nat × Nat)) : List (Nat × Nat) := l.filter fun x => decide (s.time < x.1 + 10000000)
    let read : Prop := p.lastSensor + 100000 ≤ s.time
    let ins : Instr := .sensorRead (d0, d1) base w
    let seen : Power := { p with sensors := [d0, d1, base], lastSensor := s.time, watts := (s.time, w) :: recent p.watts }
    (¬ read → exec ins s = .next s) ∧
    (read → d0 ≤ tc → d1 ≤ tc → base ≤ tc → exec ins s = .next { s with power := { seen with critSince := none } }) ∧
    (read → tc < d0 ∨ tc < d1 ∨ tc < base → exec ins s = .next { s with power :=
      { seen with crit := true, mhz := 800, critSince := some (p.critSince.getD s.time) } }) ∧
    (s.time < p.lastStep + 1000000 → exec .clockStep s = .next s) ∧
    (p.lastStep + 1000000 ≤ s.time →
      let watts := (recent p.watts).map (·.2)
      let hot : Prop := ∃ t ∈ p.sensors, tj < t
      let much : Prop := powerCap * watts.length < watts.sum
      let cool : Prop := (∀ t ∈ p.sensors, t + 3 ≤ tj) ∧ 100 * watts.sum < 95 * powerCap * watts.length
      ∃ t, exec .clockStep s = .next t ∧ t.power.lastStep = s.time ∧
        { t with power := { t.power with lastStep := p.lastStep, mhz := p.mhz, therm := p.therm, pwr := p.pwr } } = s ∧
        (hot ∨ much → 1600 < p.mhz → (t.power.mhz = max 1600 (p.mhz - 100)) ∧
          (t.power.therm = true ↔ p.therm = true ∨ hot) ∧ (t.power.pwr = true ↔ p.pwr = true ∨ much)) ∧
        ((¬ hot ∧ ¬ much) ∨ p.mhz ≤ 1600 → t.power.therm = p.therm ∧ t.power.pwr = p.pwr) ∧
        (hot ∨ much → p.mhz ≤ 1600 → t.power.mhz = p.mhz) ∧
        (¬ hot → ¬ much → cool → t.power.mhz = min 3200 (p.mhz + 100)) ∧
        (¬ hot → ¬ much → ¬ cool → t.power.mhz = p.mhz)) ∧
    (p.critSince = none → exec .thermalTrip s = .next s) ∧
    (∀ u, p.critSince = some u → (s.time < u + 100000000 → exec .thermalTrip s = .next s) ∧
      (u + 100000000 ≤ s.time → ∃ t, exec .thermalTrip s = .next t ∧ t.power = { tripped := true } ∧ t.host.bootStep = 1 ∧
        t.worlds = [] ∧ t.strands = [] ∧ t.mem = [] ∧ t.time = 0 ∧ t.turns = s.turns)) ∧
    powerCap ≤ 450 ∧ tj < tc ∧
    (∀ v : Word, s.host.held = [] → s.host.latch.length < 256 → exec (.registerWrite 0x210 v) s = .next { s with power :=
      { p with crit := p.crit && !v.getLsbD 3, pwr := p.pwr && !v.getLsbD 2, therm := p.therm && !v.getLsbD 1 } })

/-! ### Encodings of some rules (R174 to R179) -/

/-- A register that a type takes as a pair (R107). -/
def PairAt (ty : ITy) (r : Reg) : Prop := ty = .b64 → r.isPair = true

/-- A second source that a type takes as a pair. -/
def PairAtB (ty : ITy) (b : RegImm) : Prop := ∀ r, b = .reg r → PairAt ty r

/-- R174: the words of the arithmetic instructions: their opcodes, fn = type << 6 | i << 5 | sat << 4, their types, their
forms; and the immediate of mulw.u32. -/
def Claims.ArithmeticWords : Prop :=
  WordsOf 0x00 (fun i => ∃ h ty sat rd ra b, i = .add h ty sat rd ra b) ∧
  WordsOf 0x01 (fun i => ∃ h ty sat rd ra b, i = .sub h ty sat rd ra b) ∧
  WordsOf 0x02 (fun i => ∃ h ty sat rd ra b, i = .mul h ty sat rd ra b) ∧
  WordsOf 0x03 (fun i => ∃ h ty rd ra b, i = .mulhi h ty rd ra b) ∧
  WordsOf 0x04 (fun i => ∃ h ty sat rd ra rb rc, i = .mad h ty sat rd ra rb rc) ∧
  WordsOf 0x05 (fun i => ∃ h ty sat rd ra b, i = .div h ty sat rd ra b) ∧
  WordsOf 0x06 (fun i => ∃ h ty rd ra b, i = .rem h ty rd ra b) ∧
  WordsOf 0x07 (fun i => ∃ h ty rd ra b, i = .min h ty rd ra b) ∧
  WordsOf 0x08 (fun i => ∃ h ty rd ra b, i = .max h ty rd ra b) ∧
  WordsOf 0x09 (fun i => ∃ h sat rd ra, i = .abs h sat rd ra) ∧
  WordsOf 0x0a (fun i => ∃ h ty sat rd ra, i = .neg h ty sat rd ra) ∧
  WordsOf 0x1e (fun i => ∃ h ty rd ra b, i = .mulw h ty rd ra b) ∧
  (∀ (h : Hd) (ty : ITy) (sat : Bool) (rd ra rb rc : Reg) (b : RegImm),
    let code (imm sat : Bool) : Nat := (match ty with
        | .u32 => 1
        | .i32 => 2
        | .b64 => 3) * 64 + (if imm then 32 else 0) + (if sat then 16 else 0)
    let imm : Bool := match b with
      | .imm _ => true
      | .reg _ => false
    let fnIs (i : Instr) (fn : Nat) : Prop := i.WellFormed → encode i / 2 ^ 48 % 256 = fn
    fnIs (.add h ty sat rd ra b) (code imm sat) ∧ fnIs (.sub h ty sat rd ra b) (code imm sat) ∧
    fnIs (.mul h ty sat rd ra b) (code imm sat) ∧ fnIs (.mulhi h ty rd ra b) (code imm false) ∧
    fnIs (.mad h ty sat rd ra rb rc) (code false sat) ∧ fnIs (.div h ty sat rd ra b) (code imm sat) ∧
    fnIs (.rem h ty rd ra b) (code imm false) ∧ fnIs (.min h ty rd ra b) (code imm false) ∧
    fnIs (.max h ty rd ra b) (code imm false) ∧ (ty = .i32 → fnIs (.abs h sat rd ra) (code false sat)) ∧
    fnIs (.neg h ty sat rd ra) (code false sat) ∧ fnIs (.mulw h ty rd ra b) (code imm false)) ∧
  (∀ (h : Hd) (ty : ITy) (sat : Bool) (rd ra rb rc : Reg) (b : RegImm),
    ((Instr.add h ty sat rd ra b).WellFormed ↔ (sat = true → ty ≠ .b64) ∧ PairAt ty rd ∧ PairAt ty ra ∧ PairAtB ty b) ∧
    ((Instr.sub h ty sat rd ra b).WellFormed ↔ (sat = true → ty ≠ .b64) ∧ PairAt ty rd ∧ PairAt ty ra ∧ PairAtB ty b) ∧
    ((Instr.mul h ty sat rd ra b).WellFormed ↔ (sat = true → ty ≠ .b64) ∧ PairAt ty rd ∧ PairAt ty ra ∧ PairAtB ty b) ∧
    ((Instr.mad h ty sat rd ra rb rc).WellFormed ↔
      (sat = true → ty ≠ .b64) ∧ PairAt ty rd ∧ PairAt ty ra ∧ PairAt ty rb ∧ PairAt ty rc) ∧
    ((Instr.mulhi h ty rd ra b).WellFormed ↔ ty ≠ .b64) ∧ ((Instr.div h ty sat rd ra b).WellFormed ↔
      ty ≠ .b64 ∧ (sat = true → ty = .i32)) ∧ ((Instr.rem h ty rd ra b).WellFormed ↔ ty ≠ .b64) ∧
    ((Instr.min h ty rd ra b).WellFormed ↔ ty ≠ .b64) ∧ ((Instr.max h ty rd ra b).WellFormed ↔ ty ≠ .b64) ∧
    (Instr.abs h sat rd ra).WellFormed ∧ ((Instr.neg h ty sat rd ra).WellFormed ↔
      ty ≠ .u32 ∧ (sat = true → ty = .i32) ∧ PairAt ty rd ∧ PairAt ty ra) ∧
    ((Instr.mulw h ty rd ra b).WellFormed ↔ ty ≠ .b64 ∧ rd.isPair = true)) ∧
  ∀ (free : Nat) (st : Strand) (k : Nat) (v : BitVec 27),
    readTypedB free st k .u32 (.imm v) = ((v.signExtend 32).toNat : Int)

/-- R176: the words of the logic and shift instructions: their opcodes, their types, their forms. -/
def Claims.LogicAndShiftWords : Prop :=
  WordsOf 0x0b (fun i => ∃ h ty rd ra b, i = .and h ty rd ra b) ∧ WordsOf 0x0c (fun i => ∃ h ty rd ra b, i = .or h ty rd ra b) ∧
  WordsOf 0x0d (fun i => ∃ h ty rd ra b, i = .xor h ty rd ra b) ∧ WordsOf 0x0e (fun i => ∃ h ty rd ra, i = .not h ty rd ra) ∧
  WordsOf 0x0f (fun i => ∃ h ty rd ra b, i = .andn h ty rd ra b) ∧
  WordsOf 0x10 (fun i => ∃ h ty sat rd ra b, i = .shl h ty sat rd ra b) ∧
  WordsOf 0x11 (fun i => ∃ h ty rd ra b, i = .shr h ty rd ra b) ∧ WordsOf 0x12 (fun i => ∃ h ty rd ra b, i = .sar h ty rd ra b) ∧
  WordsOf 0x13 (fun i => ∃ h ty rd ra b, i = .rotl h ty rd ra b) ∧
  ∀ (h : Hd) (ty : ITy) (sat : Bool) (rd ra : Reg) (b : RegImm),
    ((Instr.and h ty rd ra b).WellFormed ↔ PairAt ty rd ∧ PairAt ty ra ∧ PairAtB ty b) ∧
    ((Instr.or h ty rd ra b).WellFormed ↔ PairAt ty rd ∧ PairAt ty ra ∧ PairAtB ty b) ∧
    ((Instr.xor h ty rd ra b).WellFormed ↔ PairAt ty rd ∧ PairAt ty ra ∧ PairAtB ty b) ∧
    ((Instr.andn h ty rd ra b).WellFormed ↔ PairAt ty rd ∧ PairAt ty ra ∧ PairAtB ty b) ∧
    ((Instr.not h ty rd ra).WellFormed ↔ PairAt ty rd ∧ PairAt ty ra) ∧
    ((Instr.shl h ty sat rd ra b).WellFormed ↔ (sat = true → ty ≠ .b64) ∧ PairAt ty rd ∧ PairAt ty ra) ∧
    ((Instr.shr h ty rd ra b).WellFormed ↔ ty ≠ .i32 ∧ PairAt ty rd ∧ PairAt ty ra) ∧
    ((Instr.sar h ty rd ra b).WellFormed ↔ ty ≠ .u32 ∧ PairAt ty rd ∧ PairAt ty ra) ∧
    ((Instr.rotl h ty rd ra b).WellFormed ↔ ty ≠ .i32 ∧ PairAt ty rd ∧ PairAt ty ra)

/-- R177: the words of bfx and bfi: their opcodes, their types, their forms. -/
def Claims.FieldWords : Prop :=
  WordsOf 0x14 (fun i => ∃ h ty rd ra b, i = .bfx h ty rd ra b) ∧
  WordsOf 0x15 (fun i => ∃ h ty rd ra rb rc, i = .bfi h ty rd ra rb rc) ∧
  ∀ (h : Hd) (ty : ITy) (rd ra rb rc : Reg) (b : RegImm),
    ((Instr.bfx h ty rd ra b).WellFormed ↔ PairAt ty rd ∧ PairAt ty ra) ∧
    ((Instr.bfi h ty rd ra rb rc).WellFormed ↔ ty ≠ .i32 ∧ PairAt ty rd ∧ PairAt ty ra ∧ PairAt ty rb)

/-- R178: the words of clz, popc and brev: their opcodes, their types, their pairs; the R form with rb, rc and ext unused. -/
def Claims.BitCountWords : Prop :=
  WordsOf 0x16 (fun i => ∃ h ty rd ra, i = .clz h ty rd ra) ∧ WordsOf 0x17 (fun i => ∃ h ty rd ra, i = .popc h ty rd ra) ∧
  WordsOf 0x18 (fun i => ∃ h ty rd ra, i = .brev h ty rd ra) ∧
  (∀ (w : Nat) (i : Instr), w < 2 ^ 64 → decode w = .ok i → 0x16 ≤ w / 2 ^ 56 → w / 2 ^ 56 ≤ 0x18 → w % 2 ^ 27 = 0) ∧
  ∀ (h : Hd) (ty : ITy) (rd ra : Reg),
    ((Instr.clz h ty rd ra).WellFormed ↔ ty = .u32 ∨ (ty = .b64 ∧ ra.isPair = true)) ∧
    ((Instr.popc h ty rd ra).WellFormed ↔ ty = .u32 ∨ (ty = .b64 ∧ ra.isPair = true)) ∧
    ((Instr.brev h ty rd ra).WellFormed ↔ ty = .u32 ∨ (ty = .b64 ∧ rd.isPair = true ∧ ra.isPair = true))

/-- R179: the words of ilv and dilv: their opcodes, their types, their pairs; of the two, dilv alone has the I form. -/
def Claims.InterleaveWords : Prop :=
  WordsOf 0x19 (fun i => ∃ h ty rd ra rb rc, i = .ilv h ty rd ra rb rc) ∧
  WordsOf 0x1a (fun i => ∃ h ty rd ra b, i = .dilv h ty rd ra b) ∧
  (∀ (w : Nat) (i : Instr), w < 2 ^ 64 → decode w = .ok i → w / 2 ^ 56 = 0x19 → w / 2 ^ 53 % 2 = 0 ∧ w % 2 ^ 13 = 0) ∧
  ∀ (h : Hd) (ty : ITy) (rd ra rb rc : Reg) (b : RegImm),
    ((Instr.ilv h ty rd ra rb rc).WellFormed ↔ ty = .u32 ∨ (ty = .b64 ∧ rd.isPair = true)) ∧
    ((Instr.dilv h ty rd ra b).WellFormed ↔ ty = .u32 ∨ (ty = .b64 ∧ ra.isPair = true))

/-- R179: dilv with the selectors 2, 1 and 0 gives the low M bits of what ilv put together, 10 of them under u32 and 21
under b64. -/
def Claims.InterleaveRecovers : Prop :=
  ∀ (ty : ITy) (a b c : Nat), ty = .u32 ∨ ty = .b64 →
    let m := if ty = .b64 then 21 else 10
    dilvVal ty (ilvVal ty a b c) 2 = a % 2 ^ m ∧ dilvVal ty (ilvVal ty a b c) 1 = b % 2 ^ m ∧
    dilvVal ty (ilvVal ty a b c) 0 = c % 2 ^ m

/-! ### A step (R120, R124, R154, log 2) -/

/-- R124, R133, R154, R320: the issue turn of a lane runs the instruction of the word at its strand's PC: where the word, fetched
whole, decodes, the step is exec of that instruction, the strand being the issuer. A cvt to a slot with a scale array is
the scale-computing one (R205). Where the device acts
between two thread-steps, the issue is cut short there, which its strand says (R133); the lane's next turn goes on with it, and
fetches nothing. A word that decodes to nothing stops the strand with ILLEGAL_OP (R169); and a strand whose owner or world has
moved all the bytes of its period fetches nothing (R320). -/
def Claims.IssueRunsDecoded : Prop :=
  ∀ (s s1 s2 : State) (core limb lane h pa cache w : Nat) (rest : List Turn) (st : Strand) (pc : DWord),
    (s.turns = .issue core limb lane :: rest ∨ ∃ n, s.turns = .issuePart core limb lane n :: rest) → s.power.state = .s0 → s.power.tripped = false →
    s.host.bootStep = 0 →
    (getLane s (laneIndex core limb lane)).granted = some h → getStrand s h = some st →
    st.status = .ready → st.halted = false → st.resident = true →
    let s0 : State := { s with turns := rest, free := s.free + 1 }
    let runs (i : Instr) (t : State) : Prop :=
      (s.turns = .issue core limb lane :: rest → step s = settled (exec i { t with issuer := h })) ∧
      (∀ n, s.turns = .issuePart core limb lane n :: rest →
        step s = settled (uncut h (exec i (cutIssue { t with issuer := h } n i))))
    (∀ b, pausedIssue s st = some b → runs b.instr s0) ∧
    (pausedIssue s st = none → issuePc (strandRecord s st).code st = some pc →
      (bytesExhausted s st.world st.owner = true → step s = settled (.next s0)) ∧
      (bytesExhausted s st.world st.owner = false →
        translate s0 st.core st.limb st.world pc.toNat needFetch = (.ok pa cache, s1) →
        sliceRead s1 st.core st.world pa 8 = (leList 8 w, false, s2) → w < 2 ^ 64 →
        let s3 := chargeBytes s2 st.world st.owner
        (∀ i, decode w = .ok i → runs (resolveCvt (strandRecord s3 st) i) s3) ∧
        (∀ d, decode w = .error d → step s = settled (.next (preFault s3 st pc (3, 0, wordDetail st w d))))))

/-- R205: only a cvt with a format slot as its destination depends on the slot. -/
def Claims.OnlyCvtDependsOnSlots : Prop :=
  ∀ (lr : LaunchRec) (i : Instr),
    (∀ h n src rm rd ra rb rc, i = .cvt h (.slot n) src rm rd ra rb rc → ∀ sl, slotOf lr n = some sl → sl.ssrc = 1 →
      resolveCvt lr i = .cvtScaleComputing h n src rm rd ra rb rc) ∧
    ((∀ h n src rm rd ra rb rc, i ≠ .cvt h (.slot n) src rm rd ra rb rc) → resolveCvt lr i = i)

/-- R404, R406, R410: an event of the table happens in one step where the state of the device lets it: in S0 every one, in S1
all but the work of the cores and the L2 slices, in S2 not that of the copy engines either, and in S3 nothing of the display
either; before the boot order is complete the resets and the writes that wait; where no image has verified a fundamental
reset alone; on a device that has tripped none. Which events each unit's work takes in, that the front end and firmware run in
every state, and that with no turn left the next is a free choice, are the model's choices (log 2, log 46). -/
def Claims.EventSteps : Prop :=
  ∀ (s : State) (i : Instr) (rest : List Turn), i.isWord = false →
    let allowed : Prop := match s.power.state with
      | .s0 => True
      | .s1 => coreWork i = false
      | .s2 => coreWork i = false ∧ engineWork i = false
      | .s3 => coreWork i = false ∧ engineWork i = false ∧ displayWork i = false
    (∀ s0, (s.turns = .event i :: rest ∧ s0 = { s with turns := rest, free := s.free + 1 }) ∨
        (s.turns = [] ∧ Config.freeTurn s.turnNo = .event i ∧ s0 = { s with turnNo := s.turnNo + 1, free := s.free + 1 }) →
      let happens : Prop := step s = settled (exec i s0)
      let nothing : Prop := step s = settled (.next s0)
      (s.power.tripped = false → s.host.noImage = false → s.host.bootStep = 0 → (allowed → happens) ∧ (¬ allowed → nothing)) ∧
      (s.power.tripped = false → s.host.noImage = false → s.host.bootStep ≠ 0 →
        (i = .fundamentalReset ∨ i = .pfFlr ∨ (∃ k a w, i = .notifyWrite k a w) ∨ (∃ d, i = .doorbellWrite d) → happens) ∧
        (runsInBoot i = false → nothing)) ∧
      (s.power.tripped = false → s.host.noImage = true → (i = .fundamentalReset → happens) ∧ (i ≠ .fundamentalReset → nothing)) ∧
      (s.power.tripped = true → nothing))

/-- R320, R325: what a step leaves: the records that it owes are written, with none owed it adds nothing, and no bytes wait to be
charged. -/
def Claims.StepsSettle : Prop :=
  (∀ t : State, settled (.next t) = .next { settleRecords t with moved := 0 }) ∧
  (∀ t : State, t.due = [] → settleRecords t = t) ∧
  (∀ s t : State, step s = .next t → t.due = [] ∧ t.moved = 0)

/-! ### Decoding and encoding (R154 to R169) -/

/-- R155 to R169: words written out from the tables of the encoding, and what they decode to; reserved ones are refused
with their detail. -/
def Claims.DecodedWords : Prop :=
  -- add.u32 v1, v2, v3: op 0x00, type u32 in fn[7:6]
  decode (0x00 * 2 ^ 56 + 1 * 2 ^ 54 + 1 * 2 ^ 34 + 2 * 2 ^ 27 + 3 * 2 ^ 20)
    = .ok (.add ⟨false, .always⟩ .u32 false (.v 1) (.v 2) (.reg (.v 3))) ∧
  -- (!p5) add.i32.sat s0, zero, -1, run boundary: the immediate and sat bits of fn, ge, gn and gp
  decode (0x00 * 2 ^ 56 + (2 * 64 + 32 + 16) * 2 ^ 48 + 2 ^ 47 + 2 ^ 46 + 2 ^ 45 + 5 * 2 ^ 41 + 96 * 2 ^ 34 + 127 * 2 ^ 27
      + (2 ^ 27 - 1))
    = .ok (.add ⟨true, .onFalse 5⟩ .i32 true (.s 0) .zero (.imm 0x7ffffff)) ∧
  -- cmp.lt.b64 p3, v4, v6: the condition in fn[3:0], the predicate in rd
  decode (0x20 * 2 ^ 56 + (3 * 64 + 2) * 2 ^ 48 + 3 * 2 ^ 34 + 4 * 2 ^ 27 + 6 * 2 ^ 20)
    = .ok (.cmp ⟨false, .always⟩ .b64 .lt 3 (.v 4) (.reg (.v 6))) ∧
  -- fma.f32.rz v0, v1, v2, v3: the rounding mode in ext[2:0]
  decode (0x43 * 2 ^ 56 + 1 * 2 ^ 27 + 2 * 2 ^ 20 + 3 * 2 ^ 13 + 1)
    = .ok (.fma ⟨false, .always⟩ .f32 .rz (.v 0) (.v 1) (.v 2) (.v 3)) ∧
  -- ld of 32 bits from global memory, v8, v2:v3 plus zero at offset 16: relaxed, size 4 in [18:16]
  decode (0x70 * 2 ^ 56 + 8 * 2 ^ 34 + 2 * 2 ^ 27 + 127 * 2 ^ 20 + 4 * 2 ^ 16 + 16)
    = .ok (.ld ⟨false, .always⟩ false .relaxed .u32 (.v 8) (.v 2) .zero 16) ∧
  -- bra back by eight words: the signed word offset of the B form
  decode (0x30 * 2 ^ 56 + (2 ^ 32 - 8)) = .ok (.bra ⟨false, .always⟩ 0xfffffff8) ∧
  -- mfs s2, strand register 0x14
  decode (0xe0 * 2 ^ 56 + 98 * 2 ^ 34 + 0x14) = .ok (.mfs ⟨false, .always⟩ (.s 2) 0x14) ∧
  -- unassigned opcode; reserved type; a nonzero unused field; an odd register in a pair field
  decode (0xff * 2 ^ 56) = .error 1 ∧
  decode (0x00 * 2 ^ 56) = .error 2 ∧
  decode (0x38 * 2 ^ 56 + 1) = .error 3 ∧
  decode (0x00 * 2 ^ 56 + 3 * 2 ^ 54 + 1 * 2 ^ 34) = .error 5

/-- R154 to R169: DECODE AND ENCODE AGREE. Every well-formed instruction has one word, which decodes to it, with every
operand; and every word that decodes is the word of the well-formed instruction it decodes to. -/
def Claims.WordsRoundTrip : Prop :=
  (∀ i : Instr, i.isWord = true → i.WellFormed → encode i < 2 ^ 64 ∧ decode (encode i) = .ok i) ∧
  (∀ (w : Nat) (i : Instr), w < 2 ^ 64 → decode w = .ok i → i.isWord = true ∧ i.WellFormed ∧ encode i = w)

/-- R308, R310, R368: a packet's 64 bytes say its header and its body again, on a queue of the privileged class. -/
def Claims.PacketsRoundTrip : Prop :=
  ∀ (i : Instr) (p : PktHd) (kind : Nat) (fs : List (Nat × Nat × Nat)), actBody i = some (p, kind, fs) → PacketFits i →
    p.nidx < 2 ^ 12 → p.deadline < 2 ^ 64 → p.signal < 2 ^ 64 →
    ∃ bs, encodePacket i = some bs ∧ bs.length = 64 ∧ headerOf p.queue p.index bs = p ∧ decodePacket 2 p bs = .ok i

/-! ### Nothing stops the machine -/

/-- Every instruction and every event ends in a next state, whatever the state; only an instruction of a strand needs a
strand that issues it. -/
def Claims.EveryInstructionRuns : Prop :=
  ∀ (i : Instr) (s : State), (∃ t, exec i s = .next t) ∨
    (getStrand s s.issuer = none ∧
      (i.isWord = true ∨ ∃ h n src rm rd ra rb rc, i = .cvtScaleComputing h n src rm rd ra rb rc) ∧
      exec i s = .fault .noStrand)

/-- No state stops the device: every step answers a next state. -/
def Claims.EveryStepGoesOn : Prop := ∀ s, StepsOn s

/-! ### Whole-machine invariants -/

/-- Every step keeps the form. -/
def Claims.MemoryStaysCanonical : Prop :=
  ∀ s s', MemoryCanonical s → step s = .next s' → MemoryCanonical s'

/-- R389, R404, R405: what the boot order leaves: device time 0, mailbox status 0, S0 with tolerance 0, world 0 and no other, every
limb and bank group bound to none, every memory, tag table and weight store zero; and no strand, queue or transfer. -/
def Claims.ResetState : Prop :=
  State.reset.time = 0 ∧ State.reset.host.mailbox.getD 7 0 = 0 ∧ State.reset.power.state = .s0 ∧
  State.reset.power.tolerance = 0 ∧ State.reset.worlds.map (·.no) = [0] ∧ (getWorld State.reset 0).tstate = .unlocked ∧
  (∀ k, mapGet State.reset.limbWorld k = none ∧ mapGet State.reset.groupWorld k = none) ∧
  (∀ a, memGet State.reset.mem a = 0) ∧ (∀ p, mapGetD State.reset.tags p 0 = 0) ∧
  (∀ m ∈ State.reset.weight, ∀ a, memGet m a = 0) ∧ (∀ c a, memGet (scratchMem State.reset c) a = 0) ∧
  State.reset.strands = [] ∧ State.reset.queues = [] ∧ State.reset.pend = [] ∧ State.reset.chains = [] ∧
  State.reset.host.accepted.getD 0 0 = 0 ∧
  (∀ n, 1 ≤ n → n < 4 → State.reset.host.accepted.getD n 0 = State.reset.host.offered.getD n 0) ∧
  (∀ x ∈ State.reset.ports, x.trained = true) ∧ MemoryCanonical State.reset

/-- R107: zero reads as 0 and discards what is written, alone and as a pair; a register that is written reads as what was
written; and s0 to s23 and sap give every thread the same value. -/
def Claims.RegisterReads : Prop :=
  (∀ (free : Nat) (st : Strand) (t : Nat), readReg free st t .zero = 0) ∧
  (∀ (st : Strand) (t : Nat) (v : Word), writeReg st t .zero v = st) ∧
  (∀ (st : Strand) (t : Nat) (v : DWord), writePair st t .zero v = st) ∧
  (∀ (free : Nat) (st : Strand) (t : Nat) (r : Reg) (key : RKey) (v : Word), regKey st t r = some key →
    shadowed st key = false → readReg free (writeReg st t r v) t r = v) ∧
  (∀ (free : Nat) (st : Strand) (t k : Nat) (r : Reg), r.isUniform = true → readReg free st t r = readReg free st k r)

/-! ### The obligations -/

/-- The arithmetic instructions: encodings, types and results, exact, clamped or modulo 2^N. -/
def Obligations.IntegerArithmetic : Prop :=
  Claims.ArithmeticResults ∧ Claims.ProductAndOrderResults ∧ Claims.ArithmeticWords

/-- div truncates toward zero, rem has the sign of a, and neither stops on any operands. -/
def Obligations.Division : Prop :=
  Claims.DivisionResults

/-- The logic and shift instructions: encodings, types and results. -/
def Obligations.LogicAndShifts : Prop :=
  Claims.LogicResults ∧ Claims.ShiftResults ∧ Claims.LogicAndShiftWords

/-- Bit fields, bit counts and interleaved coordinates: encodings, types and results. -/
def Obligations.BitOperations : Prop :=
  Claims.FieldResults ∧ Claims.FieldWords ∧ Claims.BitCountResults ∧ Claims.BitCountWords ∧ Claims.InterleaveResults ∧
  Claims.InterleaveWords ∧ Claims.InterleaveRecovers

/-- Register reads and writes; moves, selection and addresses; comparisons and predicates. -/
def Obligations.RegistersMovesAndPredicates : Prop :=
  Claims.RegisterReads ∧ Claims.MoveResults ∧ Claims.PredicateResults

/-- Votes, exchange between threads and scans. -/
def Obligations.ThreadExchange : Prop :=
  Claims.VoteResults ∧ Claims.ExchangeResults ∧ Claims.ScanResults

/-- Branches, calls and returns. -/
def Obligations.ControlFlow : Prop :=
  Claims.BranchResults ∧ Claims.CallResults ∧ Claims.ReturnResults

/-- Meeting points, exits, waits on counters, and grafts. -/
def Obligations.MeetsExitsAndGrafts : Prop :=
  Claims.MeetResults ∧ Claims.ExitResults ∧ Claims.WaitResults ∧ Claims.GraftBegins ∧ Claims.GraftMatches ∧
  Claims.GraftDeadlocks

/-- Floating-point arithmetic and comparison, element by element, with their flags. -/
def Obligations.FloatArithmetic : Prop :=
  Claims.FloatResults ∧ Claims.FloatCompareResults

/-- Conversions between formats, scale-computing conversions, packing. What an exited thread of a quad gives is a free
value (log 4). -/
def Obligations.Conversions : Prop :=
  Claims.ConversionResults ∧ Claims.ScaleComputingResults ∧ Claims.PackResults

/-- sinr, cosr, exp2, log2, rcp, rsqrt and sqrt complete on all operands, with their result in rd and their flags.
Where the spec bounds the value and does not fix it, it is a free value within the bound (log 5). -/
def Obligations.SpecialFunctions : Prop :=
  Claims.SpecialFunctionResults

/-- The special functions at zeros, infinities, NaN and negative operands, their exact cases, overflows and bounds. -/
def Obligations.SpecialFunctionTable : Prop :=
  Claims.SpecialFunctionTable ∧ Claims.SpecialBounds

/-- Loads, stores, atomics and prefetches send their requests. -/
def Obligations.MemoryRequests : Prop :=
  Claims.LoadStoreRequests ∧ Claims.AtomicRequests ∧ Claims.PrefetchResults

/-- A memory request is performed at its place; write-back; what atomics write. -/
def Obligations.MemoryAccesses : Prop :=
  Claims.AccessPerformed ∧ Claims.WriteBackCache ∧ Claims.AtomicTable

/-- Fences, and barriers with their reductions. -/
def Obligations.FencesAndBarriers : Prop :=
  Claims.FenceResults ∧ Claims.BarrierBegins ∧ Claims.BarrierArrives

/-- The notify table, NOTIFY, notify writes, and waits on notify registers. -/
def Obligations.Notifications : Prop :=
  Claims.WaitnResults ∧ Claims.WaitnTimeoutResults ∧ Claims.NotifyResults ∧ Claims.NotifyTable ∧ Claims.NotifyPackets ∧
  Claims.NotifyWrites

/-- Attaching, detaching and freeing segments; enqueuing chains and waiting for them. -/
def Obligations.SegmentsAndChains : Prop :=
  Claims.AttachResults ∧ Claims.DetachResults ∧ Claims.SegfreeResults ∧ Claims.EnqueueResults ∧
  Claims.SequenceWaitResults

/-- mz, mma, mma.sp, mconv, mld and mst complete their issue: the operation is queued and counted. -/
def Obligations.MatrixIssues : Prop :=
  Claims.MatrixQueued ∧ Claims.MatrixChecksPass ∧ Claims.MatrixDefaultQueued

/-- Matrix operations start and complete. -/
def Obligations.MatrixOperations : Prop :=
  Claims.MatrixStarts ∧ Claims.MatrixCompletes ∧ Claims.MatrixValues

/-- Binning, pixel output and discarding. -/
def Obligations.BinningAndPixels : Prop :=
  Claims.BinningUnit ∧ Claims.BinResults ∧ Claims.PoutResults ∧ Claims.PixelConversion ∧ Claims.DiscardResults

/-- Sampling with consent. -/
def Obligations.Sampling : Prop :=
  Claims.SampleResults ∧ Claims.Consent ∧ Claims.TexelsRead

/-- Ray queries begin, traverse, report and close. -/
def Obligations.RayQueries : Prop :=
  Claims.QueryBegins ∧ Claims.QueryCloses ∧ Claims.TraversalReturns ∧ Claims.QueryResults

/-- nreq queues requests and gives tickets; nget takes them back. -/
def Obligations.NeuralRequests : Prop :=
  Claims.NeuralRequests ∧ Claims.NeuralGets

/-- Batches of neural requests start, and their requests complete. -/
def Obligations.NeuralBatches : Prop :=
  Claims.NeuralBatches

/-- Special registers, breakpoints, traps, and the return from a fault. -/
def Obligations.SystemInstructions : Prop :=
  Claims.SpecialRegisters ∧ Claims.Breakpoints ∧ Claims.FaultReturn

/-- What stops an instruction before its effect, and stopping after one. -/
def Obligations.ExceptionsTaken : Prop :=
  Claims.StopsWithoutEffect ∧ Claims.BreakpointsAndStepping

/-- Page walks, their ends, and parked strands. -/
def Obligations.Translation : Prop :=
  Claims.PageEntries ∧ Claims.PageWalk ∧ Claims.WalkCompletes ∧ Claims.ParkWakes

/-- Lane grants, fairness, epochs and the end of strands. -/
def Obligations.LanesAndStrandEnds : Prop :=
  Claims.LaneGrants ∧ Claims.ForcedIssues ∧ Claims.EpochAndRefresh ∧ Claims.StrandEnds

/-- Fault records, halts, restarts, control-store errors and the debug window. -/
def Obligations.FaultRecordsAndHalts : Prop :=
  Claims.FaultRecords ∧ Claims.HaltReleases ∧ Claims.StrandRestarts ∧ Claims.ControlErrorKills ∧ Claims.WindowWrites

/-- The save layout, saving and restoring a strand. -/
def Obligations.ContextSwitches : Prop :=
  Claims.SaveLayout ∧ Claims.ContextSaves ∧ Claims.ContextRestores

/-- Cards are admitted, start and complete, and chains with them. -/
def Obligations.CopyCards : Prop :=
  Claims.CardAdmitted ∧ Claims.LoopsRun ∧ Claims.CardCompletes ∧ Claims.ChainFaults ∧ Claims.ChainRecords

/-- Lines of segments land, and evictions complete. -/
def Obligations.SegmentTransfers : Prop :=
  Claims.SegmentLineLands ∧ Claims.SegmentEvictionCompletes

/-- Packets are taken from rings, and completed. -/
def Obligations.PacketLife : Prop :=
  Claims.PacketTaken ∧ Claims.QueueStalls ∧ Claims.FrontEndAsleep ∧ Claims.PacketForm ∧ Claims.PacketCompletes

/-- LAUNCH: the launch record, its checks and its segments. -/
def Obligations.Launches : Prop :=
  Claims.LaunchRecords ∧ Claims.LaunchPackets ∧ Claims.LaunchSegments

/-- GRAPH, node readiness, node completion and node definitions. -/
def Obligations.LaunchGraphs : Prop :=
  Claims.GraphPackets ∧ Claims.NodeReadiness ∧ Claims.NodeCompletes ∧ Claims.NodeDefinitions

/-- DRAW and its outputs. -/
def Obligations.Draws : Prop :=
  Claims.DrawOutputs ∧ Claims.DrawPackets

/-- SEGDEF, WSLOAD and the writing of weight regions. -/
def Obligations.SegmentAndWeightDefinitions : Prop :=
  Claims.SegmentDefinitions ∧ Claims.WeightLoads ∧ Claims.WeightRegionWritten

/-- QDEF, QRESET, BUDGET, budget periods, and TLBINV with its completion. -/
def Obligations.QueuesBudgetsAndInvalidation : Prop :=
  Claims.QueueDefinitions ∧ Claims.QueueResets ∧ Claims.IndicesRestart ∧ Claims.BudgetPackets ∧ Claims.BudgetPeriods ∧
  Claims.Invalidations ∧ Claims.InvalidationCompletes

/-- The deficit round-robin, pre-emption, and the placing of groves and copses. -/
def Obligations.Scheduling : Prop :=
  Claims.DeficitRoundRobin ∧ Claims.PreemptionVictim ∧ Claims.Preempted ∧ Claims.GrovePlaced ∧ Claims.CopsePlaced ∧
  Claims.PlacementHeld

/-- Which pixels a primitive covers, with its depth; shared edges. -/
def Obligations.PixelCoverage : Prop :=
  Claims.PixelCoverage ∧ Claims.SharedEdges

/-- Visibility, the two resolutions of a tile, its outputs, and the records of what ownership discards. -/
def Obligations.TileWork : Prop :=
  Claims.Visibility ∧ Claims.PassThreads ∧ Claims.TileResolution ∧ Claims.TileSecondResolution ∧ Claims.TileOutputs ∧
  Claims.DiscardRecords

/-- MAPRECT, DESC, PLANE and HEAD, link training and pacing. -/
def Obligations.OwnershipAndHeads : Prop :=
  Claims.MapRectangles ∧ Claims.DescriptorWrites ∧ Claims.PlaneWrites ∧ Claims.HeadWrites ∧ Claims.HeadReads ∧
  Claims.LinkTraining ∧ Claims.Pacing

/-- PRESENT, GRANT, WITHDRAW and the freeing of grants. -/
def Obligations.PresentsAndGrants : Prop :=
  Claims.Presents ∧ Claims.Grants ∧ Claims.Withdrawals

/-- Latches and what they compose. -/
def Obligations.Composition : Prop :=
  Claims.Latches ∧ Claims.ComposedPixels ∧ Claims.LatchPictures ∧ Claims.Capture ∧ Claims.Blend ∧ Claims.Blur ∧
  Claims.CompositionCompletes

/-- The mailbox, binding and creating worlds. That the operands stand in words 1 to 6 in the order of the table, and
that tdi is the world number, are the model's choice (log 41). -/
def Obligations.MailboxAndWorlds : Prop :=
  Claims.Mailbox ∧ Claims.WorldBinding ∧ Claims.WorldCreation

/-- Teardown, the states of an interface, quiescing. -/
def Obligations.WorldLife : Prop :=
  Claims.Teardown ∧ Claims.InterfaceStates ∧ Claims.Quiescing

/-- Firmware update, entropy and links. -/
def Obligations.FirmwareEntropyAndLinks : Prop :=
  Claims.FirmwareUpdate ∧ Claims.Entropy ∧ Claims.Links

/-- Host translations and CXL accesses. -/
def Obligations.HostAccess : Prop :=
  Claims.HostTranslations ∧ Claims.CxlAccesses

/-- Resets, and the steps of the boot order. -/
def Obligations.ResetsAndBoot : Prop :=
  Claims.Resets ∧ Claims.BootOrder

/-- Entering and leaving the power states. -/
def Obligations.PowerStates : Prop :=
  Claims.PowerEntry ∧ Claims.PowerTransitions

/-- The feature vector; thermal and power limits. -/
def Obligations.FeaturesAndLimits : Prop :=
  Claims.FeatureVector ∧ Claims.ThermalLimits

/-- A step runs the decoded instruction, or the event, and settles what it owes. -/
def Obligations.StepRunsDecoded : Prop :=
  Claims.IssueRunsDecoded ∧ Claims.OnlyCvtDependsOnSlots ∧ Claims.EventSteps ∧ Claims.StepsSettle

/-- Words written out from the encoding tables decode to their instructions. -/
def Obligations.DecodedWords : Prop :=
  Claims.DecodedWords

/-- Decode and encode agree on every instruction word. -/
def Obligations.WordsRoundTrip : Prop :=
  Claims.WordsRoundTrip

/-- Decode and encode agree on every packet. -/
def Obligations.PacketsRoundTrip : Prop :=
  Claims.PacketsRoundTrip

/-- No instruction and no state stops the device. -/
def Obligations.EveryInstructionRuns : Prop :=
  Claims.EveryInstructionRuns ∧ Claims.EveryStepGoesOn

/-- Every step keeps every memory in its one canonical form. -/
def Obligations.MemoryStaysCanonical : Prop :=
  Claims.MemoryStaysCanonical

/-- What the boot order leaves, and that memory is canonical then. That unlisted memory reads as 0 is the model's
choice (log 6). -/
def Obligations.Reset : Prop :=
  Claims.ResetState

/-- What COPY, ND-COPY, GATHER, FILL, IF, NOTE and PEER COPY cards do when they start. -/
def Obligations.CopyCardKinds : Prop :=
  Claims.CardStarts ∧ Claims.CardActs

/-- The values that floating-point arithmetic, comparisons, conversions and atom.fadd give, with rounding, overflow,
underflow, flushes and flags. -/
def Obligations.RoundedArithmetic : Prop :=
  Claims.SourceValues ∧ Claims.Rounding ∧ Claims.FloatValues ∧ Claims.CompareValues ∧ Claims.ConversionValues ∧
  Claims.AtomicFloatAdd
end

