-- ==== Sys2Proof/Laws/Mem.lean ====
section
/-! SUPPORT. Maps, memories and byte lists: what a read finds after a write, and that every operation on a memory
keeps its canonical form. -/

namespace Sys2Proof.Machine

/-! ### Maps -/

@[simp] theorem mapGet_nil {α : Type} (k : Nat) : mapGet ([] : Map α) k = none := rfl

theorem mapGet_mapSet {α : Type} (m : Map α) (k j : Nat) (v : α) :
    mapGet (mapSet m k v) j = if k = j then some v else mapGet m j := by
  induction m with
  | nil => simp [mapSet, mapGet]
  | cons e r ih =>
    obtain ⟨k', v'⟩ := e
    by_cases h1 : k' = k
    · subst h1
      by_cases h2 : k' = j <;> simp [mapSet, mapGet, h2]
    · by_cases h3 : k < k'
      · simp only [mapSet, h1, h3, if_true, if_false, mapGet]
      · by_cases h2 : k' = j
        · subst h2
          simp [mapSet, mapGet, h1, h3, Ne.symm h1]
        · simp [mapSet, mapGet, h1, h3, h2, ih]

@[simp] theorem mapGet_mapSet_self {α : Type} (m : Map α) (k : Nat) (v : α) : mapGet (mapSet m k v) k = some v := by
  simp [mapGet_mapSet]

theorem mapGet_mapSet_ne {α : Type} (m : Map α) {k j : Nat} (v : α) (h : k ≠ j) :
    mapGet (mapSet m k v) j = mapGet m j := by
  simp [mapGet_mapSet, h]

@[simp] theorem mapGetD_mapSet_self {α : Type} (m : Map α) (k : Nat) (v d : α) : mapGetD (mapSet m k v) k d = v := by
  simp [mapGetD]

theorem mapGetD_mapSet_ne {α : Type} (m : Map α) {k j : Nat} (v d : α) (h : k ≠ j) :
    mapGetD (mapSet m k v) j d = mapGetD m j d := by
  simp [mapGetD, mapGet_mapSet_ne m v h]

theorem mapGet_mapErase {α : Type} (m : Map α) (k j : Nat) :
    mapGet (mapErase m k) j = if k = j then none else mapGet m j := by
  unfold mapErase
  induction m with
  | nil => simp
  | cons e r ih =>
    obtain ⟨k', v'⟩ := e
    by_cases h1 : k' = k
    · subst h1
      by_cases h2 : k' = j <;> simp_all [mapGet]
    · by_cases h2 : k' = j
      · subst h2
        simp [h1, mapGet, Ne.symm h1]
      · simp [h1, mapGet, h2, ih]

/-! ### Memories: reads after writes -/

theorem memGet_memErase (m : Mem) (k j : Nat) : memGet (memErase m k) j = if k = j then 0 else memGet m j := by
  unfold memErase
  induction m with
  | nil => simp [memGet]
  | cons e r ih =>
    obtain ⟨k', v'⟩ := e
    by_cases h1 : k' = k
    · subst h1
      by_cases h2 : k' = j <;> simp_all [memGet]
    · by_cases h2 : k' = j
      · subst h2
        simp [h1, memGet, Ne.symm h1]
      · simp [h1, memGet, h2, ih]

theorem memGet_memInsert (m : Mem) (k j : Nat) (v : Byte) :
    memGet (memInsert m k v) j = if k = j then v else memGet m j := by
  induction m with
  | nil => simp [memInsert, memGet]
  | cons e r ih =>
    obtain ⟨k', v'⟩ := e
    by_cases h1 : k' = k
    · subst h1
      by_cases h2 : k' = j <;> simp [memInsert, memGet, h2]
    · by_cases h3 : k < k'
      · simp only [memInsert, h1, h3, if_true, if_false, memGet]
      · by_cases h2 : k' = j
        · subst h2
          simp [memInsert, memGet, h1, h3, Ne.symm h1]
        · simp [memInsert, memGet, h1, h3, h2, ih]

/-- A read of a byte after a write of a byte. -/
theorem memGet_memSet (m : Mem) (k j : Nat) (v : Byte) : memGet (memSet m k v) j = if k = j then v else memGet m j := by
  unfold memSet
  by_cases hv : v = 0
  · subst hv
    rw [if_pos rfl, memGet_memErase]
  · rw [if_neg hv, memGet_memInsert]

/-- A read of a byte after a write of bytes from a on. -/
theorem memGet_memWrite (m : Mem) (a j : Nat) (bs : List Byte) :
    memGet (memWrite m a bs) j = if a ≤ j ∧ j < a + bs.length then bs.getD (j - a) 0 else memGet m j := by
  induction bs generalizing m a with
  | nil =>
    have : ¬(a ≤ j ∧ j < a) := by omega
    simp [memWrite, this]
  | cons b r ih =>
    rw [memWrite, ih, memGet_memSet, List.length_cons]
    by_cases h : a + 1 ≤ j ∧ j < a + 1 + r.length
    · have h' : a ≤ j ∧ j < a + (r.length + 1) := by omega
      obtain ⟨d, hd⟩ : ∃ d, j - a = d + 1 := ⟨j - a - 1, by omega⟩
      have hd' : j - (a + 1) = d := by omega
      rw [if_pos h, if_pos h', hd, hd', List.getD_cons_succ]
    · rw [if_neg h]
      by_cases h2 : a = j
      · subst h2
        simp
      · have h' : ¬(a ≤ j ∧ j < a + (r.length + 1)) := by omega
        rw [if_neg h2, if_neg h']

theorem memGet_memWrite_outside (m : Mem) {a j : Nat} (bs : List Byte) (h : j < a ∨ a + bs.length ≤ j) :
    memGet (memWrite m a bs) j = memGet m j := by
  rw [memGet_memWrite, if_neg (by omega)]

@[simp] theorem memRead_length (m : Mem) (a n : Nat) : (memRead m a n).length = n := by
  induction n generalizing a with
  | zero => rfl
  | succ n ih => simp [memRead, ih]

theorem memRead_getD (m : Mem) (a n i : Nat) (h : i < n) : (memRead m a n).getD i 0 = memGet m (a + i) := by
  induction n generalizing a i with
  | zero => omega
  | succ n ih =>
    cases i with
    | zero => simp [memRead]
    | succ i =>
      rw [memRead, List.getD_cons_succ, ih _ _ (by omega)]
      congr 1
      omega

/-- The bytes written are read back. -/
theorem memRead_memWrite (m : Mem) (a : Nat) (bs : List Byte) : memRead (memWrite m a bs) a bs.length = bs := by
  apply List.ext_getElem
  · simp
  · intro i h1 h2
    have h := memRead_getD (memWrite m a bs) a bs.length i h2
    rw [memGet_memWrite, if_pos (by omega)] at h
    have e : a + i - a = i := by omega
    rw [e] at h
    simpa [List.getD, h1, h2] using h

/-! ### Memories: the canonical form -/

/-- The form holds from any lower bound on. -/
theorem memWfFrom_weaken {lo : Option Nat} {m : Mem} (h : memWfFrom lo m = true) : memWfFrom none m = true := by
  cases m with
  | nil => rfl
  | cons e r =>
    obtain ⟨k, v⟩ := e
    simp only [memWfFrom, Bool.and_eq_true] at h ⊢
    exact ⟨⟨trivial, h.1.2⟩, h.2⟩

theorem memWfFrom_some {l : Nat} {m : Mem} (hm : memWfFrom none m = true) (hl : ∀ e ∈ m.head?, l < e.1) :
    memWfFrom (some l) m = true := by
  cases m with
  | nil => rfl
  | cons e r =>
    obtain ⟨k, v⟩ := e
    simp only [memWfFrom, Bool.and_eq_true] at hm ⊢
    exact ⟨⟨by simpa using hl (k, v) (by simp), hm.1.2⟩, hm.2⟩

theorem memWfFrom_trans {l k : Nat} {m : Mem} (h : memWfFrom (some k) m = true) (hl : l ≤ k) :
    memWfFrom (some l) m = true := by
  cases m with
  | nil => rfl
  | cons e r =>
    obtain ⟨k', v⟩ := e
    simp only [memWfFrom, Bool.and_eq_true, decide_eq_true_eq] at h ⊢
    exact ⟨⟨by omega, h.1.2⟩, h.2⟩

theorem memInsert_wfFrom (lo : Option Nat) (m : Mem) (k : Nat) (v : Byte) (hv : v ≠ 0) (hm : memWfFrom lo m = true)
    (hk : ∀ l ∈ lo, l < k) : memWfFrom lo (memInsert m k v) = true := by
  induction m generalizing lo with
  | nil => cases lo <;> simp_all [memInsert, memWfFrom]
  | cons e r ih =>
    obtain ⟨k', v'⟩ := e
    simp only [memWfFrom, Bool.and_eq_true] at hm
    unfold memInsert
    split
    · rename_i h1
      subst h1
      simp only [memWfFrom, Bool.and_eq_true]
      exact ⟨⟨hm.1.1, by simpa using hv⟩, hm.2⟩
    · split
      · rename_i h1 h2
        simp only [memWfFrom, Bool.and_eq_true, decide_eq_true_eq]
        refine ⟨⟨?_, by simpa using hv⟩, ⟨h2, hm.1.2⟩, hm.2⟩
        cases lo with
        | none => rfl
        | some l => simpa using hk l rfl
      · rename_i h1 h2
        simp only [memWfFrom, Bool.and_eq_true]
        refine ⟨hm.1, ih _ hm.2 ?_⟩
        intro l hl
        simp only [Option.mem_def, Option.some.injEq] at hl
        omega

theorem memErase_wfFrom (lo : Option Nat) (m : Mem) (k : Nat) (hm : memWfFrom lo m = true) :
    memWfFrom lo (memErase m k) = true := by
  unfold memErase
  induction m generalizing lo with
  | nil => rfl
  | cons e r ih =>
    obtain ⟨k', v'⟩ := e
    simp only [memWfFrom, Bool.and_eq_true] at hm
    by_cases h1 : k' = k
    · have : ((k', v').1 != k) = false := by simp [h1]
      rw [List.filter_cons, if_neg (by simp [h1])]
      apply ih
      cases lo with
      | none => exact memWfFrom_weaken hm.2
      | some l =>
        have h2 := hm.1.1
        simp only [decide_eq_true_eq] at h2
        exact memWfFrom_trans hm.2 (by omega)
    · rw [List.filter_cons, if_pos (by simp [h1])]
      simp only [memWfFrom, Bool.and_eq_true]
      exact ⟨hm.1, ih _ hm.2⟩

/-- A write of a byte keeps the canonical form. -/
theorem memSet_wf (m : Mem) (k : Nat) (v : Byte) (hm : Memory.wf m = true) : Memory.wf (memSet m k v) = true := by
  unfold memSet Memory.wf
  by_cases hv : v = 0
  · rw [if_pos hv]
    exact memErase_wfFrom none m k hm
  · rw [if_neg hv]
    exact memInsert_wfFrom none m k v hv hm (by simp)

/-- A write of bytes keeps the canonical form. -/
theorem memWrite_wf (m : Mem) (a : Nat) (bs : List Byte) (hm : Memory.wf m = true) :
    Memory.wf (memWrite m a bs) = true := by
  induction bs generalizing m a with
  | nil => exact hm
  | cons b r ih => exact ih _ _ (memSet_wf m a b hm)

/-! ### Byte lists -/

@[simp] theorem leList_length (n v : Nat) : (leList n v).length = n := by
  induction n generalizing v with
  | zero => rfl
  | succ n ih => simp [leList, ih]

/-- The value of the n low bytes of v is v modulo 2^(8n). -/
theorem leVal_leList (n v : Nat) : leVal (leList n v) = v % 2 ^ (8 * n) := by
  induction n generalizing v with
  | zero => simp [leList, leVal, Nat.mod_one]
  | succ n ih =>
    rw [leList, leVal, ih, BitVec.toNat_ofNat]
    have e : 2 ^ (8 * (n + 1)) = 256 * 2 ^ (8 * n) := by rw [Nat.mul_succ, Nat.pow_add]; omega
    rw [e, Nat.mod_mul]

theorem leVal_lt (bs : List Byte) : leVal bs < 2 ^ (8 * bs.length) := by
  induction bs with
  | nil => simp [leVal]
  | cons b r ih =>
    rw [leVal, List.length_cons]
    have e : 2 ^ (8 * (r.length + 1)) = 256 * 2 ^ (8 * r.length) := by rw [Nat.mul_succ, Nat.pow_add]; omega
    have hb := b.isLt
    omega

/-- Bytes are the little-endian form of their value. -/
theorem leList_leVal (bs : List Byte) : leList bs.length (leVal bs) = bs := by
  induction bs with
  | nil => rfl
  | cons b r ih =>
    rw [List.length_cons, leList, leVal]
    have hb := b.isLt
    have h1 : (b.toNat + 256 * leVal r) / 256 = leVal r := by omega
    rw [h1, ih]
    congr 1
    apply BitVec.eq_of_toNat_eq
    rw [BitVec.toNat_ofNat]
    omega

end Sys2Proof.Machine
end

