-- ==== Sys2Proof/Laws/Strand.lean ====
section
/-! SUPPORT. Threads and registers of a strand: what a read finds after a write, and that a thread's own reads do not see
what other threads write. -/

namespace Sys2Proof.Machine

open Sys2Proof

/-! ### Threads -/

theorem getThread_setThread (st : Strand) (t k : Nat) (th : Thread) :
    getThread (setThread st t th) k = if t = k ∧ t < st.threads.length then th else getThread st k := by
  unfold getThread setThread
  simp only [List.getD_eq_getElem?_getD, List.getElem?_set]
  by_cases h1 : t = k
  · subst h1
    by_cases h2 : t < st.threads.length
    · simp [h2]
    · simp [h2]
  · simp [h1]

@[simp] theorem setThread_length (st : Strand) (t : Nat) (th : Thread) :
    (setThread st t th).threads.length = st.threads.length := by
  simp [setThread]

@[simp] theorem valueAt_setThread (st : Strand) (t : Nat) (th : Thread) (k : RKey) :
    valueAt (setThread st t th) k = valueAt st k := by
  cases k <;> rfl

@[simp] theorem apart_setThread (st : Strand) (t : Nat) (th : Thread) :
    apartFromWork (setThread st t th) = apartFromWork st := rfl

/-! ### Values -/

theorem valueAt_writeKey (st : Strand) (k j : RKey) (v : Word) :
    valueAt (writeKey st k v) j = if k = j then some v else valueAt st j := by
  unfold writeKey
  have hp : ∀ (a : Strand) (b : List RKey), valueAt { a with poisoned := b } j = valueAt a j := by
    intro a b
    cases j <;> rfl
  split
  · cases k <;> cases j <;> simp [valueAt, mapGet_mapSet]
  · cases k <;> cases j <;> simp [valueAt, mapGet_mapSet]

/-- A register's place belongs to a thread, or to the strand. -/
def ownKey (t : Nat) : RKey → Prop
  | .v n => n % 64 = t
  | .q n => n % 64 = t
  | _ => True

/-- Thread t, its own registers and what the strand shares stand alike in two strands. -/
structure Agrees (t : Nat) (a b : Strand) : Prop where
  thread : getThread a t = getThread b t
  vals : ∀ k, ownKey t k → valueAt a k = valueAt b k
  rest : apartFromWork a = apartFromWork b

theorem Agrees.refl (t : Nat) (a : Strand) : Agrees t a a := ⟨rfl, fun _ _ => rfl, rfl⟩

theorem Agrees.trans {t : Nat} {a b c : Strand} (h1 : Agrees t a b) (h2 : Agrees t b c) : Agrees t a c :=
  ⟨h1.thread.trans h2.thread, fun k hk => (h1.vals k hk).trans (h2.vals k hk), h1.rest.trans h2.rest⟩

theorem Agrees.shadow {t : Nat} {a b : Strand} (h : Agrees t a b) : a.shadow = b.shadow := by
  have e : (apartFromWork a).shadow = (apartFromWork b).shadow := by rw [h.rest]
  exact e

theorem Agrees.fmode {t : Nat} {a b : Strand} (h : Agrees t a b) : a.fmode = b.fmode := by
  have e : (apartFromWork a).fmode = (apartFromWork b).fmode := by rw [h.rest]
  exact e

theorem Agrees.width {t : Nat} {a b : Strand} (h : Agrees t a b) : a.width = b.width := by
  have e : (apartFromWork a).width = (apartFromWork b).width := by rw [h.rest]
  exact e

theorem Agrees.blank {t : Nat} {a b : Strand} (h : Agrees t a b) : a.blank = b.blank := by
  have e : (apartFromWork a).blank = (apartFromWork b).blank := by rw [h.rest]
  exact e

theorem Agrees.linkWord {t : Nat} {a b : Strand} (h : Agrees t a b) (ht : t < 64) (th : Thread) :
    linkWord a th t = linkWord b th t := by
  unfold Machine.linkWord
  split
  · rfl
  · exact h.vals (.v (64 * (th.base - 1) + t)) (by simp [ownKey]; omega)

theorem Agrees.windowSlot {t : Nat} {a b : Strand} (h : Agrees t a b) (ht : t < 64) (n : Nat) :
    windowSlot a t n = windowSlot b t n := by
  unfold Machine.windowSlot
  simp only [h.thread, h.linkWord ht]

theorem Agrees.regKey {t : Nat} {a b : Strand} (h : Agrees t a b) (ht : t < 64) (r : Reg) :
    regKey a t r = regKey b t r := by
  cases r <;> simp [Machine.regKey, h.windowSlot ht]

theorem regKey_own {st : Strand} {t : Nat} {r : Reg} {k : RKey} (ht : t < 64) (h : regKey st t r = some k) :
    ownKey t k := by
  cases r with
  | v n =>
    simp only [regKey, Option.map_eq_some_iff] at h
    obtain ⟨j, _, rfl⟩ := h
    simp [ownKey]
    omega
  | q n =>
    simp only [regKey, Option.some.injEq] at h
    subst h
    simp [ownKey]
    omega
  | s n =>
    simp only [regKey, Option.some.injEq] at h
    subst h
    trivial
  | sap =>
    simp only [regKey, Option.some.injEq] at h
    subst h
    trivial
  | zero => simp [regKey] at h

theorem Agrees.readKey {t : Nat} {a b : Strand} (h : Agrees t a b) (free : Nat) (k : RKey) (hk : ownKey t k) :
    readKey free a k = readKey free b k := by
  have hv := h.vals k hk
  have hb := h.blank
  unfold Machine.readKey shadowed
  rw [h.shadow]
  cases k <;> simp only [valueAt] at hv <;> simp_all [mapGetD, slotInit]

/-- A thread reads its registers alike. -/
theorem Agrees.readReg {t : Nat} {a b : Strand} (h : Agrees t a b) (ht : t < 64) (free : Nat) (r : Reg) :
    readReg free a t r = readReg free b t r := by
  cases r with
  | zero => rfl
  | _ =>
    simp only [Machine.readReg]
    rw [h.regKey ht]
    split
    · rename_i k hk
      exact h.readKey free k (regKey_own ht (by rw [h.regKey ht]; exact hk))
    · rfl

theorem Agrees.readPair {t : Nat} {a b : Strand} (h : Agrees t a b) (ht : t < 64) (free : Nat) (r : Reg) :
    readPair free a t r = readPair free b t r := by
  unfold Machine.readPair
  cases r <;> simp [h.readReg ht]

theorem Agrees.readTyped {t : Nat} {a b : Strand} (h : Agrees t a b) (ht : t < 64) (free : Nat) (ty : ITy) (r : Reg) :
    readTyped free a t ty r = readTyped free b t ty r := by
  cases ty <;> simp [Machine.readTyped, h.readReg ht, h.readPair ht]

theorem Agrees.readTypedB {t : Nat} {a b : Strand} (h : Agrees t a b) (ht : t < 64) (free : Nat) (ty : ITy)
    (x : RegImm) : readTypedB free a t ty x = readTypedB free b t ty x := by
  cases x <;> simp [Machine.readTypedB, h.readTyped ht]

theorem Agrees.readSingleB {t : Nat} {a b : Strand} (h : Agrees t a b) (ht : t < 64) (free : Nat) (x : RegImm) :
    readSingleB free a t x = readSingleB free b t x := by
  cases x <;> simp [Machine.readSingleB, h.readReg ht]

theorem Agrees.readGroup {t : Nat} {a b : Strand} (h : Agrees t a b) (ht : t < 64) (free : Nat) (r : Reg) (n : Nat) :
    readGroup free a t r n = readGroup free b t r n := by
  simp [Machine.readGroup, h.readReg ht]

theorem Agrees.getPred {t : Nat} {a b : Strand} (h : Agrees t a b) (p : Fin 16) : getPred a t p = getPred b t p := by
  simp [Machine.getPred, h.thread]

/-! ### Destinations -/

/-- Writes a destination of a thread: a pair where `wide` holds. -/
def writeDest (st : Strand) (t : Nat) (rd : Reg) (wide : Bool) (v : DWord) : Strand :=
  if wide then writePair st t rd v else writeReg st t rd (lo32 v)

/-- A write changes registers alone. -/
structure OnlyRegs (a b : Strand) : Prop where
  rest : apartFromWork a = apartFromWork b
  threads : a.threads = b.threads
  fstat : a.fstat = b.fstat
  poisoned : a.poisoned = b.poisoned
  inside : a.step = b.step ∧ a.interrupted = b.interrupted ∧ a.outs = b.outs ∧ a.skipBp = b.skipBp
    ∧ a.partTag = b.partTag ∧ a.rbWait = b.rbWait ∧ a.runEntry = b.runEntry ∧ a.cut = b.cut ∧ a.runHead = b.runHead

theorem OnlyRegs.refl (a : Strand) : OnlyRegs a a := ⟨rfl, rfl, rfl, rfl, rfl, rfl, rfl, rfl, rfl, rfl, rfl, rfl, rfl⟩

theorem OnlyRegs.trans {a b c : Strand} (h1 : OnlyRegs a b) (h2 : OnlyRegs b c) : OnlyRegs a c where
  rest := h1.rest.trans h2.rest
  threads := h1.threads.trans h2.threads
  fstat := h1.fstat.trans h2.fstat
  poisoned := h1.poisoned.trans h2.poisoned
  inside := by
    obtain ⟨a1, a2, a3, a4, a5, a6, a7, a8, a9⟩ := h1.inside
    obtain ⟨b1, b2, b3, b4, b5, b6, b7, b8, b9⟩ := h2.inside
    exact ⟨a1.trans b1, a2.trans b2, a3.trans b3, a4.trans b4, a5.trans b5, a6.trans b6, a7.trans b7, a8.trans b8, a9.trans b9⟩

theorem onlyRegs_writeKey {st : Strand} (h : st.poisoned = []) (k : RKey) (v : Word) : OnlyRegs (writeKey st k v) st := by
  have e : st.poisoned.isEmpty = true := by simp [h]
  unfold writeKey
  simp only [e, if_true]
  cases k <;> exact ⟨rfl, rfl, rfl, rfl, rfl, rfl, rfl, rfl, rfl, rfl, rfl, rfl, rfl⟩

theorem onlyRegs_writeReg {st : Strand} (h : st.poisoned = []) (t : Nat) (r : Reg) (v : Word) :
    OnlyRegs (writeReg st t r v) st := by
  unfold writeReg
  split
  · exact onlyRegs_writeKey h _ _
  · exact OnlyRegs.refl st

theorem onlyRegs_writePair {st : Strand} (h : st.poisoned = []) (t : Nat) (r : Reg) (v : DWord) :
    OnlyRegs (writePair st t r v) st := by
  unfold writePair
  split
  · exact OnlyRegs.refl st
  · have h1 := onlyRegs_writeReg h t r (lo32 v)
    have h2 := onlyRegs_writeReg (h1.poisoned.trans h) t (nextReg r) (hi32 v)
    exact h2.trans h1

theorem onlyRegs_writeDest {st : Strand} (h : st.poisoned = []) (t : Nat) (rd : Reg) (wide : Bool) (v : DWord) :
    OnlyRegs (writeDest st t rd wide v) st := by
  unfold writeDest
  split
  · exact onlyRegs_writePair h t rd v
  · exact onlyRegs_writeReg h t rd _

theorem valueAt_writeReg (st : Strand) (t : Nat) (r : Reg) (v : Word) (k : RKey) :
    valueAt (writeReg st t r v) k = if regKey st t r = some k then some v else valueAt st k := by
  unfold writeReg
  split
  · rename_i j hj
    rw [valueAt_writeKey, hj]
    simp
  · rename_i hj
    simp [hj]

/-- The link below a thread's frame stands in no register of its window, so that a write moves no name. -/
theorem linkWord_writeKey (st : Strand) (th : Thread) (t : Nat) (k : RKey) (v : Word)
    (h : k ≠ .v (64 * (th.base - 1) + t)) : linkWord (writeKey st k v) th t = linkWord st th t := by
  unfold linkWord
  split
  · rfl
  · have := valueAt_writeKey st k (.v (64 * (th.base - 1) + t)) v
    rw [if_neg h] at this
    exact this

theorem windowSlot_ne_link {st : Strand} {t n j : Nat} (h : windowSlot st t n = some j)
    (hb : (getThread st t).base ≠ 0) : j ≠ (getThread st t).base - 1 := by
  unfold windowSlot at h
  simp only at h
  split at h
  · simp only [Option.some.injEq] at h
    omega
  · split at h
    · simp at h
    · split at h
      · simp only [Option.some.injEq] at h
        rename_i hc
        omega
      · simp at h

theorem getThread_writeKey (st : Strand) (k : RKey) (v : Word) (t : Nat) :
    getThread (writeKey st k v) t = getThread st t := by
  unfold getThread writeKey
  cases k <;> split <;> rfl

/-- A write to a register moves no name of the window. -/
theorem regKey_writeReg (st : Strand) (t : Nat) (r r' : Reg) (v : Word) :
    regKey (writeReg st t r v) t r' = regKey st t r' := by
  unfold writeReg
  split
  · rename_i k hk
    cases r' with
    | v n =>
      simp only [regKey]
      congr 1
      unfold windowSlot
      rw [getThread_writeKey]
      by_cases hb : (getThread st t).base = 0
      · simp [linkWord, hb]
      · have hl : linkWord (writeKey st k v) (getThread st t) t = linkWord st (getThread st t) t := ?_
        · simp only [hl]
        apply linkWord_writeKey
        intro he
        subst he
        cases r with
        | v m =>
          simp only [regKey, Option.map_eq_some_iff] at hk
          obtain ⟨j, hj, he⟩ := hk
          simp only [RKey.v.injEq] at he
          have := windowSlot_ne_link hj hb
          omega
        | _ => simp [regKey] at hk
    | _ => rfl
  · rfl

end Sys2Proof.Machine
end

