-- ==== Sys2Proof/Laws/Issue.lean ====
section
/-! SUPPORT. The issue of an instruction: what an issue holds, what its thread-steps do to registers, predicates and
flags, and how one that completes leaves the device. -/

namespace Sys2Proof.Machine

open Sys2Proof

/-! ### What an issue holds -/

/-- The facts of an issue. -/
structure IssueFacts (s : State) (g : Guard) (i : Issue) : Prop where
  strand : getStrand s s.issuer = some i.st
  home : i.st.home = s.issuer
  present : ∀ k ∈ i.present, k < 64 ∧ k < i.st.threads.length ∧ i.start ≤ k
  active : i.active = i.present.filter fun t => guardTrue i.st t g
  nodup : i.present.Nodup
  rising : i.present.Pairwise (· < ·)

theorem getStrand_home {s : State} {h : Nat} {st : Strand} (e : getStrand s h = some st) : st.home = h := by
  have := List.find?_some e
  simpa using this

theorem issueOf_facts {s : State} {g : Guard} {i : Issue} (h : issueOf s g = some i) : IssueFacts s g i := by
  unfold issueOf at h
  split at h
  · simp at h
  · rename_i st hst
    simp only at h
    split at h
    · simp at h
    · split at h <;>
      · simp only [Option.some.injEq] at h
        subst h
        refine ⟨hst, getStrand_home hst, ?_, rfl, ?_, ?_⟩
        · intro k hk
          simp only [List.mem_filter, List.mem_range, Bool.and_eq_true, decide_eq_true_eq] at hk
          dsimp only
          omega
        · exact List.Pairwise.filter _ List.nodup_range
        · exact List.Pairwise.filter _ List.pairwise_lt_range

/-- An issue that begins: nothing of it has been performed. -/
theorem issueOf_fresh {s : State} {g : Guard} {i : Issue} (h : issueOf s g = some i) (f : i.going = false) :
    i.began = i.st ∧ i.earlier = [] ∧ i.from_ = 0 ∧ i.spent = 0 := by
  unfold issueOf at h
  split at h
  · simp at h
  · simp only at h
    split at h
    · simp at h
    · split at h <;> simp only [Option.some.injEq] at h <;> subst h
      · exact ⟨rfl, rfl, rfl, rfl⟩
      · simp at f

theorem IssueFacts.active_sub {s : State} {g : Guard} {i : Issue} (f : IssueFacts s g i) :
    ∀ k ∈ i.active, k ∈ i.present := by
  intro k hk
  rw [f.active] at hk
  exact (List.mem_filter.mp hk).1

theorem IssueFacts.active_nodup {s : State} {g : Guard} {i : Issue} (f : IssueFacts s g i) : i.active.Nodup := by
  rw [f.active]
  exact List.Pairwise.filter _ f.nodup

theorem IssueFacts.active_lt {s : State} {g : Guard} {i : Issue} (f : IssueFacts s g i) :
    ∀ k ∈ i.active, k < 64 ∧ k < i.st.threads.length := by
  intro k hk
  have := f.present k (f.active_sub k hk)
  exact ⟨this.1, this.2.1⟩

/-! ### One write of a destination -/

theorem windowSlot_inj {st : Strand} {t n m j : Nat} (h1 : windowSlot st t n = some j) (h2 : windowSlot st t m = some j) :
    n = m := by
  unfold windowSlot at h1 h2
  simp only at h1 h2
  by_cases a : n < (getThread st t).fsize <;> by_cases b : m < (getThread st t).fsize
  · simp [a, b] at h1 h2
    omega
  · rw [if_pos a] at h1
    rw [if_neg b] at h2
    split at h2
    · simp at h2
    · split at h2
      · simp only [Option.some.injEq] at h1 h2
        omega
      · simp at h2
  · rw [if_neg a] at h1
    rw [if_pos b] at h2
    split at h1
    · simp at h1
    · split at h1
      · simp only [Option.some.injEq] at h1 h2
        omega
      · simp at h1
  · rw [if_neg a] at h1
    rw [if_neg b] at h2
    split at h1
    · simp at h1
    · rename_i l hl
      rw [hl] at h2
      simp only at h2
      split at h1
      · split at h2
        · simp only [Option.some.injEq] at h1 h2
          omega
        · simp at h2
      · simp at h1

theorem regKey_inj {st : Strand} {t : Nat} {r r' : Reg} {k : RKey} (h1 : regKey st t r = some k)
    (h2 : regKey st t r' = some k) : r = r' := by
  cases r with
  | v n =>
    simp only [regKey, Option.map_eq_some_iff] at h1
    obtain ⟨j, hj, rfl⟩ := h1
    cases r' with
    | v m =>
      simp only [regKey, Option.map_eq_some_iff, RKey.v.injEq] at h2
      obtain ⟨j', hj', e⟩ := h2
      have : j' = j := by omega
      subst this
      rw [Fin.ext (windowSlot_inj hj hj')]
    | _ => simp [regKey] at h2
  | q n =>
    simp only [regKey, Option.some.injEq] at h1
    subst h1
    cases r' with
    | q m =>
      simp only [regKey, Option.some.injEq, RKey.q.injEq] at h2
      have : n = m := Fin.ext (by omega)
      rw [this]
    | v m =>
      simp only [regKey, Option.map_eq_some_iff] at h2
      obtain ⟨_, _, e⟩ := h2
      cases e
    | _ => simp [regKey] at h2
  | s n =>
    simp only [regKey, Option.some.injEq] at h1
    subst h1
    cases r' with
    | s m =>
      simp only [regKey, Option.some.injEq, RKey.s.injEq] at h2
      have : n = m := Fin.ext h2.symm
      rw [this]
    | v m =>
      simp only [regKey, Option.map_eq_some_iff] at h2
      obtain ⟨_, _, e⟩ := h2
      cases e
    | _ => simp [regKey] at h2
  | sap =>
    simp only [regKey, Option.some.injEq] at h1
    subst h1
    cases r' with
    | sap => rfl
    | v m =>
      simp only [regKey, Option.map_eq_some_iff] at h2
      obtain ⟨_, _, e⟩ := h2
      cases e
    | _ => simp [regKey] at h2
  | zero => simp [regKey] at h1

theorem nextReg_ne (r : Reg) (h : r ≠ .zero) : nextReg r ≠ r := by
  revert h
  cases r with
  | v n => revert n; decide
  | s n => revert n; decide
  | q n => revert n; decide
  | sap => decide
  | zero => decide

theorem valueAt_writePair (st : Strand) (t : Nat) (rd : Reg) (v : DWord) (k : RKey) (hz : rd ≠ .zero) :
    valueAt (writePair st t rd v) k =
      if regKey st t (nextReg rd) = some k then some (hi32 v)
      else if regKey st t rd = some k then some (lo32 v) else valueAt st k := by
  have e : writePair st t rd v = writeReg (writeReg st t rd (lo32 v)) t (nextReg rd) (hi32 v) := by
    cases rd <;> first | rfl | exact absurd rfl hz
  rw [e, valueAt_writeReg, regKey_writeReg, valueAt_writeReg]

/-- What a write of a destination leaves at a place. -/
theorem valueAt_writeDest (st : Strand) (t : Nat) (rd : Reg) (wide : Bool) (v : DWord) (k : RKey) :
    valueAt (writeDest st t rd wide v) k =
      if wide = true ∧ rd ≠ .zero ∧ regKey st t (nextReg rd) = some k then some (hi32 v)
      else if regKey st t rd = some k then some (lo32 v) else valueAt st k := by
  unfold writeDest
  by_cases hw : wide = true
  · subst hw
    by_cases hz : rd = .zero
    · subst hz
      simp [writePair, regKey]
    · rw [if_pos rfl, valueAt_writePair st t rd v k hz]
      simp [hz]
  · rw [if_neg hw, valueAt_writeReg]
    simp [hw]

/-! ### Steps that write a register -/

/-- A thread-step that writes a destination and raises flags. -/
def regStep (rd : Reg) (wide : Bool) (val : Strand → Nat → DWord) (fl : Strand → Nat → Flags) (st : Strand) (t : Nat) :
    Strand := raiseFlags (writeDest st t rd wide (val st t)) (fl st t)

/-- A destination suits its width: the high half of a thread's pair is a thread register, of a uniform pair a uniform
one. -/
def destOk (rd : Reg) (wide : Bool) : Prop := wide = true → rd ≠ .zero → isUniform (nextReg rd) = isUniform rd

theorem destOk_narrow (rd : Reg) : destOk rd false := by
  intro h
  simp at h

theorem destOk_pair {rd : Reg} (h : rd.isPair = true) : destOk rd true := by
  intro _ _
  revert h
  cases rd with
  | v n => revert n; decide
  | s n => revert n; decide
  | q n => revert n; decide
  | sap => decide
  | zero => decide

theorem thread_key {st : Strand} {t : Nat} {r : Reg} {k : RKey} (hu : isUniform r = false) (h : regKey st t r = some k) :
    (∃ j, k = .v (64 * j + t)) ∨ (∃ j, k = .q (64 * j + t)) := by
  cases r with
  | v n =>
    simp only [regKey, Option.map_eq_some_iff] at h
    obtain ⟨j, _, rfl⟩ := h
    exact .inl ⟨j, rfl⟩
  | q n =>
    simp only [regKey, Option.some.injEq] at h
    exact .inr ⟨n, h.symm⟩
  | s n => simp [isUniform] at hu
  | sap => simp [isUniform] at hu
  | zero => simp [regKey] at h

/-- Places of thread registers of different threads differ. -/
theorem thread_key_ne {st st' : Strand} {t t' : Nat} {r r' : Reg} {k : RKey} (ht : t < 64) (ht' : t' < 64) (hne : t ≠ t')
    (hu : isUniform r = false) (hu' : isUniform r' = false) (h : regKey st t r = some k)
    (h' : regKey st' t' r' = some k) : False := by
  rcases thread_key hu h with ⟨j, e⟩ | ⟨j, e⟩ <;> rcases thread_key hu' h' with ⟨j', e'⟩ | ⟨j', e'⟩ <;>
    (subst e; simp at e'; try omega)

/-- What does not change in a thread-step that writes registers and flags. -/
structure Still (a b : Strand) : Prop where
  rest : apartFromWork a = apartFromWork b
  poisoned : a.poisoned = b.poisoned
  length : a.threads.length = b.threads.length
  inside : a.step = b.step ∧ a.interrupted = b.interrupted ∧ a.outs = b.outs ∧ a.skipBp = b.skipBp
    ∧ a.partTag = b.partTag ∧ a.rbWait = b.rbWait ∧ a.runEntry = b.runEntry ∧ a.cut = b.cut ∧ a.runHead = b.runHead

theorem Still.refl (a : Strand) : Still a a := ⟨rfl, rfl, rfl, rfl, rfl, rfl, rfl, rfl, rfl, rfl, rfl, rfl⟩

theorem Still.trans {a b c : Strand} (h1 : Still a b) (h2 : Still b c) : Still a c where
  rest := h1.rest.trans h2.rest
  poisoned := h1.poisoned.trans h2.poisoned
  length := h1.length.trans h2.length
  inside := by
    obtain ⟨a1, a2, a3, a4, a5, a6, a7, a8, a9⟩ := h1.inside
    obtain ⟨b1, b2, b3, b4, b5, b6, b7, b8, b9⟩ := h2.inside
    exact ⟨a1.trans b1, a2.trans b2, a3.trans b3, a4.trans b4, a5.trans b5, a6.trans b6, a7.trans b7, a8.trans b8, a9.trans b9⟩

theorem Still.cut {a b : Strand} (h : Still a b) : a.cut = b.cut := h.inside.2.2.2.2.2.2.2.1

theorem still_onlyRegs {a b : Strand} (h : OnlyRegs a b) : Still a b :=
  ⟨h.rest, h.poisoned, by rw [h.threads], h.inside⟩

theorem still_setThread (st : Strand) (t : Nat) (th : Thread) : Still (setThread st t th) st :=
  ⟨rfl, rfl, by simp, rfl, rfl, rfl, rfl, rfl, rfl, rfl, rfl, rfl⟩

theorem still_moveThread (st : Strand) (t : Nat) (pc : DWord) : Still (moveThread st t pc) st := still_setThread _ _ _

theorem still_raiseFlags (st : Strand) (f : Flags) : Still (raiseFlags st f) st :=
  ⟨rfl, rfl, rfl, rfl, rfl, rfl, rfl, rfl, rfl, rfl, rfl, rfl⟩

@[simp] theorem valueAt_raiseFlags (st : Strand) (f : Flags) (k : RKey) : valueAt (raiseFlags st f) k = valueAt st k := by
  cases k <;> rfl

@[simp] theorem valueAt_moveThread (st : Strand) (t : Nat) (pc : DWord) (k : RKey) :
    valueAt (moveThread st t pc) k = valueAt st k := by
  simp [moveThread]

theorem getThread_moveThread (st : Strand) (t k : Nat) (pc : DWord) (ht : t < st.threads.length) :
    getThread (moveThread st t pc) k = if t = k then { getThread st k with pc := pc } else getThread st k := by
  unfold moveThread
  rw [getThread_setThread]
  by_cases h : t = k
  · subst h
    simp [ht]
  · simp [h]

theorem still_regStep {st : Strand} (h : st.poisoned = []) (rd : Reg) (wide : Bool) (val : Strand → Nat → DWord)
    (fl : Strand → Nat → Flags) (t : Nat) : Still (regStep rd wide val fl st t) st :=
  (still_raiseFlags _ _).trans (still_onlyRegs (onlyRegs_writeDest h t rd wide _))

theorem getThread_regStep {st : Strand} (h : st.poisoned = []) (rd : Reg) (wide : Bool) (val : Strand → Nat → DWord)
    (fl : Strand → Nat → Flags) (t k : Nat) : getThread (regStep rd wide val fl st t) k = getThread st k := by
  have e := (onlyRegs_writeDest h t rd wide (val st t)).threads
  unfold regStep getThread raiseFlags
  rw [e]

theorem fstat_regStep {st : Strand} (h : st.poisoned = []) (rd : Reg) (wide : Bool) (val : Strand → Nat → DWord)
    (fl : Strand → Nat → Flags) (t : Nat) : (regStep rd wide val fl st t).fstat = st.fstat ||| fl st t := by
  have e := (onlyRegs_writeDest h t rd wide (val st t)).fstat
  unfold regStep raiseFlags
  rw [e]

theorem valueAt_regStep (st : Strand) (rd : Reg) (wide : Bool) (val : Strand → Nat → DWord)
    (fl : Strand → Nat → Flags) (t : Nat) (k : RKey) :
    valueAt (regStep rd wide val fl st t) k =
      if wide = true ∧ rd ≠ .zero ∧ regKey st t (nextReg rd) = some k then some (hi32 (val st t))
      else if regKey st t rd = some k then some (lo32 (val st t)) else valueAt st k := by
  unfold regStep
  rw [valueAt_raiseFlags, valueAt_writeDest]

/-- What a computed value or flag may depend on: the thread and its registers. -/
def LocalTo {α : Type} (f : Strand → Nat → α) : Prop := ∀ a b k, k < 64 → Agrees k a b → f a k = f b k

/-- Another thread does not see a thread's step. -/
theorem agrees_regStep {st : Strand} (hp : st.poisoned = []) {rd : Reg} {wide : Bool} (hd : destOk rd wide)
    (hu : isUniform rd = false) (val : Strand → Nat → DWord) (fl : Strand → Nat → Flags) {t k : Nat} (pc : DWord)
    (ht : t < 64) (hk : k < 64) (hlt : t < st.threads.length) (hne : t ≠ k) :
    Agrees k (moveThread (regStep rd wide val fl st t) t pc) st where
  thread := by
    have hl : t < (regStep rd wide val fl st t).threads.length := by
      rw [(still_regStep hp rd wide val fl t).length]
      exact hlt
    rw [getThread_moveThread _ _ _ _ hl, if_neg hne, getThread_regStep hp]
  vals := by
    intro key ho
    rw [valueAt_moveThread, valueAt_regStep]
    have hno : ∀ r, isUniform r = false → regKey st t r ≠ some key := by
      intro r hr he
      rcases thread_key hr he with ⟨j, e⟩ | ⟨j, e⟩ <;>
        (subst e; simp only [ownKey] at ho; omega)
    rw [if_neg, if_neg (hno rd hu)]
    rintro ⟨h1, h2, h3⟩
    exact hno (nextReg rd) ((hd h1 h2).trans hu) h3
  rest := ((still_moveThread _ _ _).trans (still_regStep hp rd wide val fl t)).rest

/-- What a run of thread-steps that write a thread register leaves. -/
structure RegSteps (rd : Reg) (wide : Bool) (val : Strand → Nat → DWord) (fl : Strand → Nat → Flags) (pc : DWord)
    (b : Strand) (ts : List Nat) (st st' : Strand) : Prop where
  still : Still st' st
  threads : ∀ k, getThread st' k = if k ∈ ts then { getThread st k with pc := pc } else getThread st k
  fstat : st'.fstat = ts.foldl (fun f k => f ||| fl b k) st.fstat
  low : ∀ k ∈ ts, ∀ key, regKey b k rd = some key → valueAt st' key = some (lo32 (val b k))
  high : wide = true → rd ≠ .zero → ∀ k ∈ ts, ∀ key, regKey b k (nextReg rd) = some key →
    valueAt st' key = some (hi32 (val b k))
  same : ∀ key, (∀ k ∈ ts, ∀ r ∈ destRegs wide rd, regKey b k r ≠ some key) → valueAt st' key = valueAt st key

theorem mem_destRegs {wide : Bool} {rd r : Reg} (hz : rd ≠ .zero) : r ∈ destRegs wide rd ↔ r = rd ∨ (wide = true ∧ r = nextReg rd) := by
  cases rd <;> first | exact absurd rfl hz | (unfold destRegs; cases wide <;> simp)

theorem regSteps_fold {rd : Reg} {wide : Bool} (hd : destOk rd wide) (hu : isUniform rd = false)
    {val : Strand → Nat → DWord} {fl : Strand → Nat → Flags} (hv : LocalTo val) (hf : LocalTo fl) (pc : DWord) (b : Strand) :
    ∀ (ts : List Nat) (st : Strand), ts.Nodup → (∀ k ∈ ts, k < 64 ∧ k < st.threads.length) → st.poisoned = [] →
      (∀ k ∈ ts, Agrees k st b) →
      RegSteps rd wide val fl pc b ts st
        (ts.foldl (fun st t => moveThread (regStep rd wide val fl st t) t pc) st) := by
  intro ts
  induction ts with
  | nil =>
    intro st _ _ _ _
    exact ⟨Still.refl st, by simp, rfl, by simp, by simp, fun _ _ => rfl⟩
  | cons t r ih =>
    intro st hnd hlt hp hag
    have ht := hlt t (by simp)
    have hat := hag t (by simp)
    have hnr : t ∉ r := (List.nodup_cons.mp hnd).1
    let s1 := moveThread (regStep rd wide val fl st t) t pc
    have hs1 : Still s1 st := (still_moveThread _ _ _).trans (still_regStep hp rd wide val fl t)
    have hvt : val st t = val b t := hv st b t ht.1 hat
    have hft : fl st t = fl b t := hf st b t ht.1 hat
    have hag1 : ∀ k ∈ r, Agrees k s1 st := fun k hk =>
      agrees_regStep hp hd hu val fl pc ht.1 (hlt k (by simp [hk])).1 ht.2 (fun e => hnr (e ▸ hk))
    have hv1 : ∀ key, valueAt s1 key =
        if wide = true ∧ rd ≠ .zero ∧ regKey b t (nextReg rd) = some key then some (hi32 (val b t))
        else if regKey b t rd = some key then some (lo32 (val b t)) else valueAt st key := by
      intro key
      show valueAt (moveThread _ t pc) key = _
      rw [valueAt_moveThread, valueAt_regStep, hvt, hat.regKey ht.1, hat.regKey ht.1]
    have h := ih s1 (List.nodup_cons.mp hnd).2
      (fun k hk => by rw [hs1.length]; exact hlt k (by simp [hk])) (hs1.poisoned.trans hp)
      (fun k hk => (hag1 k hk).trans (hag k (by simp [hk])))
    have hhu : wide = true → rd ≠ .zero → isUniform (nextReg rd) = false := fun a c => (hd a c).trans hu
    -- a place of thread t's destination is none of a later thread's
    have hother : ∀ rr, isUniform rr = false → ∀ key, regKey b t rr = some key →
        ∀ k ∈ r, ∀ r' ∈ destRegs wide rd, regKey b k r' ≠ some key := by
      intro rr hrr key hkey k hk r' hr' he
      have hr'u : isUniform r' = false := by
        by_cases hz : rd = .zero
        · subst hz
          simp [destRegs] at hr'
        · rcases (mem_destRegs hz).mp hr' with rfl | ⟨hw, rfl⟩
          · exact hu
          · exact hhu hw hz
      exact thread_key_ne ht.1 (hlt k (by simp [hk])).1 (fun e => hnr (e ▸ hk)) hrr hr'u hkey he
    refine ⟨h.still.trans hs1, ?_, ?_, ?_, ?_, ?_⟩
    · intro k
      have hl : t < (regStep rd wide val fl st t).threads.length := by
        rw [(still_regStep hp rd wide val fl t).length]
        exact ht.2
      have e1 : getThread s1 k = if t = k then { getThread st k with pc := pc } else getThread st k := by
        show getThread (moveThread _ t pc) k = _
        rw [getThread_moveThread _ _ _ _ hl, getThread_regStep hp]
      show getThread (r.foldl _ s1) k = _
      rw [h.threads k, e1]
      by_cases hk : t = k
      · subst hk
        simp [hnr]
      · by_cases hkr : k ∈ r <;> simp [hk, hkr, Ne.symm hk]
    · show (r.foldl _ s1).fstat = _
      rw [h.fstat]
      have : s1.fstat = st.fstat ||| fl b t := by
        rw [← hft]
        exact fstat_regStep hp rd wide val fl t
      rw [this]
      rfl
    · intro k hk key hkey
      rcases List.mem_cons.mp hk with rfl | hkr
      · show valueAt (r.foldl _ s1) key = _
        rw [h.same key (hother rd hu key hkey), hv1, if_neg, if_pos hkey]
        rintro ⟨hw, hz, he⟩
        exact nextReg_ne rd hz (regKey_inj he hkey)
      · exact h.low k hkr key hkey
    · intro hw hz k hk key hkey
      rcases List.mem_cons.mp hk with rfl | hkr
      · show valueAt (r.foldl _ s1) key = _
        rw [h.same key (hother (nextReg rd) (hhu hw hz) key hkey), hv1, if_pos ⟨hw, hz, hkey⟩]
      · exact h.high hw hz k hkr key hkey
    · intro key hkey
      show valueAt (r.foldl _ s1) key = _
      rw [h.same key (fun k hk => hkey k (by simp [hk])), hv1]
      by_cases hz : rd = .zero
      · subst hz
        simp [regKey]
      · rw [if_neg, if_neg (hkey t (by simp) rd ((mem_destRegs hz).mpr (.inl rfl)))]
        rintro ⟨hw, _, he⟩
        exact hkey t (by simp) (nextReg rd) ((mem_destRegs hz).mpr (.inr ⟨hw, rfl⟩)) he

end Sys2Proof.Machine
end

