-- ==== Sys2Proof/Laws/Complete.lean ====
section
/-! SUPPORT. How an issue that completes leaves the device: what `endIssue` does, and the meanings of instructions that
only write registers, flags or predicates. -/

namespace Sys2Proof.Machine

open Sys2Proof

/-! ### setStrand, getStrand -/

theorem getStrand_setStrand_self {s : State} {st x : Strand} (h : getStrand s st.home = some x) :
    getStrand (setStrand s st) st.home = some st := by
  unfold getStrand at h
  unfold getStrand setStrand
  dsimp only
  revert h
  generalize s.strands = l
  intro h
  induction l with
  | nil => simp at h
  | cons y r ih =>
    by_cases hy : y.home = st.home
    · rw [List.map_cons, if_pos hy, List.find?_cons_of_pos (by simp)]
    · have hy' : (y.home == st.home) ≠ true := by simp [hy]
      rw [List.find?_cons_of_neg (p := fun x : Strand => x.home == st.home) hy'] at h
      rw [List.map_cons, if_neg hy, List.find?_cons_of_neg (p := fun x : Strand => x.home == st.home) hy']
      exact ih h

theorem getStrand_setStrand_ne {s : State} {st : Strand} {h : Nat} (hn : h ≠ st.home) :
    getStrand (setStrand s st) h = getStrand s h := by
  unfold getStrand setStrand
  dsimp only
  generalize s.strands = l
  induction l with
  | nil => rfl
  | cons y r ih =>
    by_cases hy : y.home = st.home
    · rw [List.map_cons, if_pos hy, List.find?_cons_of_neg (by simp [Ne.symm hn]),
        List.find?_cons_of_neg (by simp [hy, Ne.symm hn])]
      exact ih
    · rw [List.map_cons, if_neg hy]
      by_cases hh : (y.home == h) = true
      · rw [List.find?_cons_of_pos (p := fun x : Strand => x.home == h) hh, List.find?_cons_of_pos (p := fun x : Strand => x.home == h) hh]
      · rw [List.find?_cons_of_neg (p := fun x : Strand => x.home == h) hh, List.find?_cons_of_neg (p := fun x : Strand => x.home == h) hh]
        exact ih

/-- States that differ in the accounts of an issue alone (R124, R316, R320). -/
def SameButAccounts (t s : State) : Prop :=
  { t with strands := s.strands, lanes := s.lanes, launches := s.launches, queues := s.queues, budgets := s.budgets } = s

theorem chargeWork_strands (s : State) (l n : Nat) : (chargeWork s l n).strands = s.strands := by
  unfold chargeWork
  split
  · rfl
  · rfl

theorem chargeWork_lanes (s : State) (l n : Nat) : (chargeWork s l n).lanes = s.lanes := by
  unfold chargeWork
  split
  · rfl
  · rfl

theorem chargeWork_accounts (s : State) (l n : Nat) : SameButAccounts (chargeWork s l n) s := by
  unfold chargeWork
  split
  · rfl
  · rfl

/-! ### The threads after an issue -/

theorem getThread_map (n : Nat) (f : Nat → Thread) (st : Strand) (k : Nat) (hk : k < n) :
    getThread { st with threads := (List.range n).map f } k = f k := by
  unfold getThread
  simp [List.getD_eq_getElem?_getD, hk]

theorem countWaiting_thread (i : Issue) (st : Strand) (c k : Nat) (hk : k < st.threads.length) :
    ∃ w, getThread (countWaiting i st c) k = { getThread st k with waiting := w } := by
  unfold countWaiting
  rw [getThread_map _ _ _ _ hk]
  simp only
  split
  · exact ⟨0, rfl⟩
  · split
    · exact ⟨(getThread st k).waiting, rfl⟩
    · exact ⟨_, rfl⟩

theorem getPred_ge {st : Strand} {k : Nat} (hk : st.threads.length ≤ k) (p : Fin 16) : getPred st k p = false := by
  unfold getPred getThread
  simp [List.getD_eq_getElem?_getD, hk]

theorem countWaiting_pred (i : Issue) (st : Strand) (c k : Nat) (p : Fin 16) :
    getPred (countWaiting i st c) k p = getPred st k p := by
  by_cases hk : k < st.threads.length
  · obtain ⟨w, hw⟩ := countWaiting_thread i st c k hk
    simp [getPred, hw]
  · rw [getPred_ge (by simp [countWaiting]; omega), getPred_ge (by omega)]

theorem clearStep_thread (st : Strand) (k : Nat) : getThread (clearStep st) k = getThread st k := rfl

theorem getThread_newRun (s : State) (st : Strand) (k : Nat) : getThread (newRun s st) k = getThread st k := rfl

/-! ### The end of an issue -/

/-- The strand that an issue leaves, where it has completed: nothing but the accounts has changed since its last step. -/
structure Ended (h : Hd) (st st' : Strand) : Prop where
  rest : apartFromWork st' = apartFromWork st
  fstat : st'.fstat = st.fstat
  count : st'.threads.length = st.threads.length
  threads : ∀ k, k < st.threads.length → ∃ w, getThread st' k = { getThread st k with waiting := w }
  preds : ∀ k p, getPred st' k p = getPred st k p
  vals : ∀ key, outlasts h key = true → valueAt st' key = valueAt st key

theorem keepHalt_eq {s : State} {st x : Strand} (hx : getStrand s st.home = some x) (hh : x.halted = true → st.halted = true) :
    keepHalt s st = st := by
  unfold keepHalt
  rw [hx]
  dsimp only
  split
  · rename_i h
    have := hh h
    rw [← this]
  · rfl

/-- What the end of an issue does to the device: the strand's place, and its lane. -/
theorem afterIssue_form (s : State) (st : Strand) (rb : Bool) :
    ∃ ls, afterIssue s st rb = { setStrand s (keepHalt s (nextRun s st rb)) with lanes := ls } ∧
      (∀ n, n ≠ strandLane (keepHalt s (nextRun s st rb)) → mapGetD ls n {} = mapGetD s.lanes n {}) := by
  unfold afterIssue
  generalize keepHalt s (nextRun s st rb) = st2
  dsimp only
  split
  · split
    · exact ⟨_, rfl, fun n hn => mapGetD_mapSet_ne _ _ _ (Ne.symm hn)⟩
    · exact ⟨_, rfl, fun n hn => mapGetD_mapSet_ne _ _ _ (Ne.symm hn)⟩
  · exact ⟨s.lanes, rfl, fun _ _ => rfl⟩

/-- What `endIssue` does where no stepping is set. -/
theorem endIssue_ends {s : State} {i : Issue} {h : Hd} {st x : Strand} {c : Nat}
    (hx : getStrand s st.home = some x) (hh : x.halted = true → st.halted = true) (hm : st.stepm = 0) :
    ∃ st', getStrand (endIssue s i h st c) st.home = some st' ∧ Ended h st st'
      ∧ (∀ n, n ≠ st.home → getStrand (endIssue s i h st c) n = getStrand s n)
      ∧ SameButAccounts (endIssue s i h st c) s
      ∧ (∀ n, n ≠ strandLane st → getLane (endIssue s i h st c) n = getLane s n) := by
  -- the strand put in place by `afterIssue`
  let s1 := chargeWork s st.launch (max 1 c)
  let st1 := countWaiting i (clearStep st) (max 1 c)
  let st2 := nextRun s1 st1 h.rb
  have hst2 : st2.home = st.home := by
    show (nextRun s1 st1 h.rb).home = st.home
    unfold nextRun
    split <;> rfl
  have hlane : strandLane st2 = strandLane st := by
    show strandLane (nextRun s1 st1 h.rb) = strandLane st
    unfold nextRun
    split <;> rfl
  have hm2 : st2.stepm = 0 := by
    show (nextRun s1 st1 h.rb).stepm = 0
    unfold nextRun
    split <;> exact hm
  have hend : Ended h st st2 := by
    have hth : ∀ k, k < st.threads.length → ∃ w, getThread st2 k = { getThread st k with waiting := w } := by
      intro k hk
      obtain ⟨w, hw⟩ := countWaiting_thread i (clearStep st) (max 1 c) k hk
      refine ⟨w, ?_⟩
      show getThread (nextRun s1 st1 h.rb) k = _
      unfold nextRun
      split <;> exact hw
    have hpr : ∀ k p, getPred st2 k p = getPred st k p := by
      intro k p
      have := countWaiting_pred i (clearStep st) (max 1 c) k p
      show getPred (nextRun s1 st1 h.rb) k p = _
      unfold nextRun
      split <;> exact this
    refine ⟨?_, ?_, ?_, hth, hpr, ?_⟩
    · show apartFromWork (nextRun s1 st1 h.rb) = apartFromWork st
      unfold nextRun
      split <;> rfl
    · show (nextRun s1 st1 h.rb).fstat = st.fstat
      unfold nextRun
      split <;> rfl
    · show (nextRun s1 st1 h.rb).threads.length = st.threads.length
      unfold nextRun
      split <;> simp [newRun, st1, countWaiting, clearStep]
    · intro key hk
      show valueAt (nextRun s1 st1 h.rb) key = valueAt st key
      unfold nextRun
      by_cases hr : h.rb = true
      · rw [if_pos hr]
        cases key with
        | q n => simp [outlasts, hr] at hk
        | _ => rfl
      · rw [if_neg hr]
        cases key <;> rfl
  have hget1 : getStrand s1 st2.home = some x := by
    rw [hst2]
    show List.find? _ s1.strands = _
    rw [chargeWork_strands]
    exact hx
  -- the state that completeIssue answers
  have hcomp : ∃ ls, completeIssue s i h st c = { setStrand s1 st2 with lanes := ls } ∧
      (∀ n, n ≠ strandLane st2 → mapGetD ls n {} = mapGetD s1.lanes n {}) := by
    have hk : keepHalt s1 st2 = st2 := by
      refine keepHalt_eq hget1 ?_
      intro hxh
      show (nextRun s1 st1 h.rb).halted = true
      unfold nextRun
      split <;> exact hh hxh
    have := afterIssue_form s1 st1 h.rb
    rw [show keepHalt s1 (nextRun s1 st1 h.rb) = st2 from hk] at this
    exact this
  obtain ⟨ls, hls, hlo⟩ := hcomp
  have hgs : getStrand (completeIssue s i h st c) st.home = some st2 := by
    rw [hls]
    have := getStrand_setStrand_self hget1
    rw [hst2] at this
    exact this
  have hE : endIssue s i h st c = { setStrand s1 st2 with lanes := ls } := by
    unfold endIssue stepped
    rw [hgs]
    simp only
    rw [if_neg (by rw [hm2]; simp), hls]
  refine ⟨st2, ?_, hend, ?_, ?_, ?_⟩
  · rw [hE, ← hls]
    exact hgs
  · intro n hn
    rw [hE]
    have := getStrand_setStrand_ne (s := s1) (st := st2) (h := n) (by rw [hst2]; exact hn)
    have e2 : getStrand s1 n = getStrand s n := by
      unfold getStrand
      rw [chargeWork_strands]
    rw [← e2]
    exact this
  · rw [hE]
    have := chargeWork_accounts s st.launch (max 1 c)
    exact this
  · intro n hn
    rw [hE]
    show mapGetD ls n {} = getLane s n
    rw [hlo n (by rw [hlane]; exact hn)]
    show mapGetD s1.lanes n {} = mapGetD s.lanes n {}
    rw [chargeWork_lanes]

/-! ### Steps that only write the strand -/

theorem moveThreads_fold (ts : List Nat) (pc : DWord) : ∀ (st : Strand), (∀ k ∈ ts, k < st.threads.length) →
    Still (moveThreads st ts pc) st ∧ (moveThreads st ts pc).fstat = st.fstat
      ∧ (∀ key, valueAt (moveThreads st ts pc) key = valueAt st key)
      ∧ ∀ k, getThread (moveThreads st ts pc) k = if k ∈ ts then { getThread st k with pc := pc } else getThread st k := by
  induction ts with
  | nil => intro st _; exact ⟨Still.refl st, rfl, fun _ => rfl, fun k => by simp [moveThreads]⟩
  | cons t r ih =>
    intro st hl
    have ht := hl t (by simp)
    have h := ih (moveThread st t pc) (fun k hk => by
      rw [(still_moveThread st t pc).length]
      exact hl k (by simp [hk]))
    have e : moveThreads st (t :: r) pc = moveThreads (moveThread st t pc) r pc := rfl
    rw [e]
    refine ⟨h.1.trans (still_moveThread _ _ _), h.2.1, fun key => by rw [h.2.2.1, valueAt_moveThread], ?_⟩
    intro k
    rw [h.2.2.2 k, getThread_moveThread _ _ _ _ ht]
    by_cases hk : t = k
    · subst hk
      by_cases hr : t ∈ r <;> simp [hr]
    · by_cases hr : k ∈ r <;> simp [hr, hk, Ne.symm hk]

/-- A step that, with no register poisoned, only writes its strand, by f, and sends the thread to `next`. -/
def OnlyWrites (g : Issue → State → Strand → Nat → StepOut) (f : Issue → Nat → Strand → Nat → Strand)
    (next : Issue → Nat → Strand → Nat → Option DWord) : Prop :=
  ∀ (i : Issue) (s : State) (st : Strand) (t : Nat), i.st.poisoned = [] →
    g i s st t = .ok s (f i s.free st t) (next i s.free st t) none

theorem nearerCut_none {c : Option Nat} {st : Strand} (h : c = none) (h1 : st.cut = none) : nearerCut c st = st := by
  unfold nearerCut
  rw [h, Option.map_none, ← h1]

/-- The thread-steps of an instruction that only writes its strand all complete. -/
theorem runSteps_plain (i : Issue) (srcs : List Reg) {g : Issue → State → Strand → Nat → StepOut}
    {f : Issue → Nat → Strand → Nat → Strand} {next : Issue → Nat → Strand → Nat → Option DWord} (hg : OnlyWrites g f next)
    (hi : i.st.poisoned = []) (s : State)
    (hf : ∀ st t, st.poisoned = [] → (f i s.free st t).poisoned = [] ∧ (f i s.free st t).stepm = st.stepm
      ∧ (f i s.free st t).cut = st.cut) :
    ∀ (ts : List Nat) (n c : Nat) (st : Strand), st.poisoned = [] → st.stepm = 0 → st.cut = none →
      ∃ c', runSteps i srcs (g i) ts n c s st =
        .done s (ts.foldl (fun st t => moveThread (f i s.free st t) t ((next i s.free st t).getD (i.pc + 8))) st) c' := by
  intro ts
  induction ts with
  | nil => intro n c st _ _ _; exact ⟨c, rfl⟩
  | cons t r ih =>
    intro n c st hp hm hc
    have h1 := hf st t hp
    have hp1 : (moveThread (f i s.free st t) t ((next i s.free st t).getD (i.pc + 8))).poisoned = [] := h1.1
    have hm1 : (moveThread (f i s.free st t) t ((next i s.free st t).getD (i.pc + 8))).stepm = 0 := h1.2.1.trans hm
    have hc1 : (moveThread (f i s.free st t) t ((next i s.free st t).getD (i.pc + 8))).cut = none := h1.2.2.trans hc
    obtain ⟨c', hc'⟩ := ih (t + 1) (c + max 1 ((t - n + 7) / 8)) _ hp1 hm1 hc1
    refine ⟨c', ?_⟩
    rw [List.foldl_cons, ← hc']
    have hr : readsPoison st t srcs = false := by simp [readsPoison, hp]
    have hm2 : (moveThread (f i s.free st t) t ((next i s.free st t).getD (i.pc + 8))).stepm ≠ 2 := by
      rw [hm1]
      decide
    simp only [runSteps, poisonChecked, hg i s st t hi, hr]
    rw [if_neg (by simp [hc]), if_neg (by simp)]
    simp only [h1.2.2, nearerCut_none hc hc1]
    rw [if_neg (fun e => hm2 e.1)]

/-- The issue as `perThread` and `onceUniform` find it. -/
theorem preChecks_clear {s : State} {g : Guard} {i : Issue} (h : Issuing s g i) : preChecks s i [] = none := by
  simpa [preChecks, h.fresh] using h.breakpoint

/-- An instruction whose thread-steps only write the strand completes. -/
theorem perThread_plain {s : State} {h : Hd} {i : Issue} (hi : Issuing s h.guard i)
    {pre : Issue → List (Option PreFault)} (hpre : (pre i).filterMap id = []) (srcs : List Reg)
    {g : Issue → State → Strand → Nat → StepOut}
    {f : Issue → Nat → Strand → Nat → Strand} {next : Issue → Nat → Strand → Nat → Option DWord} (hg : OnlyWrites g f next)
    (hf : ∀ st t, st.poisoned = [] → (f i s.free st t).poisoned = [] ∧ (f i s.free st t).stepm = st.stepm
      ∧ (f i s.free st t).cut = st.cut) :
    ∃ c, perThread s h pre srcs g = .next (endIssue s i h (moveGuardFalse i
      (i.active.foldl (fun st t => moveThread (f i s.free st t) t ((next i s.free st t).getD (i.pc + 8))) i.st)) c) := by
  have fa := issueOf_facts hi.issue
  obtain ⟨c, hc⟩ := runSteps_plain i srcs hg hi.poison s hf i.active 0 0 i.st hi.poison hi.stepping hi.whole
  have hp : preChecks s i (pre i) = none := by
    unfold preChecks
    rw [hpre, hi.fresh]
    exact hi.breakpoint
  refine ⟨c, ?_⟩
  unfold perThread
  rw [fa.strand]
  simp only
  rw [hi.issue]
  simp only
  rw [hp, (issueOf_fresh hi.issue hi.fresh).2.2.1, (issueOf_fresh hi.issue hi.fresh).2.2.2]
  simp only
  rw [hc]
  rfl

/-- An instruction that executes once and only writes the strand completes, for its lead thread. -/
theorem onceUniform_plain {s : State} {h : Hd} {i : Issue} (hi : Issuing s h.guard i)
    {pre : Issue → List (Option PreFault)} (hpre : (pre i).filterMap id = []) (srcs : List Reg) (cy : Issue → Nat)
    {g : Issue → State → Strand → Nat → StepOut}
    {f : Issue → Nat → Strand → Nat → Strand} {next : Issue → Nat → Strand → Nat → Option DWord} (hg : OnlyWrites g f next) :
    onceUniform s h pre srcs cy g = .next (match i.active with
      | [] => endIssue s i h (moveGuardFalse i i.st) 1
      | t :: _ => endIssue s i h
          (moveThreads (f i s.free i.st t) i.present ((next i s.free i.st t).getD (i.pc + 8))) (cy i)) := by
  have fa := issueOf_facts hi.issue
  have hp : preChecks s i (pre i) = none := by
    unfold preChecks
    rw [hpre, hi.fresh]
    exact hi.breakpoint
  unfold onceUniform
  rw [fa.strand]
  simp only
  rw [hi.issue]
  simp only
  rw [hp]
  simp only
  cases hA : i.active with
  | nil => rfl
  | cons t r =>
    have hr : readsPoison i.st t srcs = false := by simp [readsPoison, hi.poison]
    simp [poisonChecked, hr, hg i s i.st t hi.poison]

end Sys2Proof.Machine
end

