-- ==== Sys2Proof/Laws/Results.lean ====
section
/-! SUPPORT. Instructions whose thread-steps write one destination and raise flags, and those that write predicates:
that they complete, and what they leave. -/

namespace Sys2Proof.Machine

open Sys2Proof

/-- From the strand after the last thread-step to the device after the issue. -/
theorem moved_of_end {s : State} {i : Issue} {h : Hd} {st b x : Strand} {c : Nat} {th : Nat → Thread}
    (hx : getStrand s s.issuer = some x) (hh' : x.halted = true → b.halted = true) (hb : b.home = s.issuer)
    (hm : b.stepm = 0)
    (hs : apartFromWork st = apartFromWork b) (hl : st.threads.length = b.threads.length)
    (ht : ∀ k, k < b.threads.length → getThread st k = th k) :
    ∃ st', Moved s (endIssue s i h st c) b st' th ∧ Ended h st st' := by
  have hh : st.home = s.issuer := by
    have : (apartFromWork st).home = (apartFromWork b).home := by rw [hs]
    exact this.trans hb
  have hm' : st.stepm = 0 := by
    have : (apartFromWork st).stepm = (apartFromWork b).stepm := by rw [hs]
    exact this.trans hm
  have hlane : strandLane st = strandLane b := by
    have : strandLane (apartFromWork st) = strandLane (apartFromWork b) := by rw [hs]
    exact this
  have hg : getStrand s st.home = some x := by
    rw [hh]
    exact hx
  have hh2 : x.halted = true → st.halted = true := by
    intro h
    have : (apartFromWork st).halted = (apartFromWork b).halted := by rw [hs]
    exact this.trans (hh' h)
  obtain ⟨st', h1, h2, h3, h4, h5⟩ := endIssue_ends (i := i) (h := h) (c := c) hg hh2 hm'
  refine ⟨st', ⟨?_, ?_, h4, ?_, h2.rest.trans hs, h2.count.trans hl, ?_⟩, h2⟩
  · rw [← hh]
    exact h1
  · intro x hx
    exact h3 x (by rw [hh]; exact hx)
  · intro n hn
    exact h5 n (by rw [hlane]; exact hn)
  · intro k hk
    obtain ⟨w, hw⟩ := h2.threads k (by rw [hl]; exact hk)
    exact ⟨w, by rw [hw, ht k hk]⟩

/-- The threads of an issue after its steps and after its guard-false threads have moved on. -/
theorem guardFalse_threads {s : State} {g : Guard} {i : Issue} (fa : IssueFacts s g i) {st : Strand}
    (hl : st.threads.length = i.st.threads.length)
    (ht : ∀ k, getThread st k = if k ∈ i.active then { getThread i.st k with pc := i.pc + 8 } else getThread i.st k) (k : Nat) :
    getThread (moveGuardFalse i st) k =
      past i k := by
  have hm := (moveThreads_fold (i.present.filter fun t => !i.active.contains t) (i.pc + 8) st (by
    intro k hk
    rw [hl]
    exact (fa.present k (List.mem_filter.mp hk).1).2.1)).2.2.2 k
  unfold moveGuardFalse past
  rw [hm, ht k]
  by_cases hp : k ∈ i.present
  · by_cases ha : k ∈ i.active
    · simp [hp, ha]
    · simp [hp, ha]
  · have ha : k ∉ i.active := fun h => hp (fa.active_sub k h)
    simp [hp, ha]

/-- An instruction whose thread-steps write one destination and raise flags completes so (R107, R120, R171). -/
theorem gives_float {ins : Instr} {h : Hd} {rd : Reg} {wide : Bool} {srcs : List Reg}
    {g : Issue → State → Strand → Nat → StepOut}
    {val : Issue → Nat → Strand → Nat → DWord} {fl : Issue → Nat → Strand → Nat → Flags}
    (he : ∀ s, exec ins s = byDest s h rd (fun _ => []) srcs g)
    (hg : OnlyWrites g (fun i free st t => regStep rd wide (val i free) (fl i free) st t) (fun _ _ _ _ => none))
    (hd : destOk rd wide) (hv : ∀ i free, LocalTo (val i free)) (hl : ∀ i free, LocalTo (fl i free)) :
    GivesFloat ins h rd wide (fun s i k => val i s.free i.st k) (fun s i k => fl i s.free i.st k) := by
  intro s i hi
  have fa := issueOf_facts hi.issue
  rw [he]
  unfold byDest
  by_cases hu : isUniform rd = true
  · -- the uniform unit
    rw [if_pos hu, onceUniform_plain hi rfl srcs _ hg]
    have htk : takers i rd = i.active.take 1 := by simp [takers, hu]
    cases hA : i.active with
    | nil =>
      dsimp only
      have hgf := guardFalse_threads fa (st := i.st) rfl (by intro k; simp [hA])
      have hml := moveThreads_fold (i.present.filter fun t => !i.active.contains t) (i.pc + 8) i.st (by
        intro k hk
        exact (fa.present k (List.mem_filter.mp hk).1).2.1)
      obtain ⟨st', hm, en⟩ := moved_of_end (h := h) (c := 1) (st := moveGuardFalse i i.st) (i := i) fa.strand id fa.home hi.stepping
        hml.1.rest hml.1.length (fun k _ => hgf k)
      refine ⟨_, st', rfl, hm, ⟨?_, ?_, ?_⟩, ?_⟩
      · intro _ k hk
        rw [htk, hA] at hk
        simp at hk
      · intro _ _ k hk
        rw [htk, hA] at hk
        simp at hk
      · intro key _ ho
        rw [en.vals key ho]
        exact hml.2.2.1 key
      · rw [en.fstat, htk, hA]
        exact hml.2.1
    | cons t r =>
      dsimp only
      have ht : t ∈ i.active := by simp [hA]
      have hp1 : t < 64 ∧ t < i.st.threads.length := fa.active_lt t ht
      have hst := still_regStep hi.poison rd wide (val i s.free) (fl i s.free) t
      have hml := moveThreads_fold i.present (i.pc + 8) (regStep rd wide (val i s.free) (fl i s.free) i.st t) (by
        intro k hk
        rw [hst.length]
        exact (fa.present k hk).2.1)
      have hth : ∀ k, getThread (moveThreads (regStep rd wide (val i s.free) (fl i s.free) i.st t) i.present (i.pc + 8)) k =
          past i k := by
        intro k
        rw [hml.2.2.2 k, getThread_regStep hi.poison]
        unfold past
        split <;> rfl
      obtain ⟨st', hm, en⟩ := moved_of_end (h := h) (c := 1) (i := i) fa.strand id fa.home hi.stepping
        (hml.1.trans hst).rest (hml.1.trans hst).length (fun k _ => hth k)
      have htk' : takers i rd = [t] := by rw [htk, hA]; rfl
      have hval : ∀ key, outlasts h key = true → valueAt st' key =
          if wide = true ∧ rd ≠ .zero ∧ regKey i.st t (nextReg rd) = some key then some (hi32 (val i s.free i.st t))
          else if regKey i.st t rd = some key then some (lo32 (val i s.free i.st t)) else valueAt i.st key := by
        intro key ho
        rw [en.vals key ho, hml.2.2.1 key, valueAt_regStep]
      refine ⟨_, st', rfl, hm, ⟨?_, ?_, ?_⟩, ?_⟩
      · intro hz k hk key hkey ho
        rw [htk'] at hk
        obtain rfl : k = t := by simpa using hk
        rw [hval key ho, if_neg, if_pos hkey]
        rintro ⟨_, _, he⟩
        exact nextReg_ne rd hz (regKey_inj he hkey)
      · intro hz hw k hk key hkey ho
        rw [htk'] at hk
        obtain rfl : k = t := by simpa using hk
        rw [hval key ho, if_pos ⟨hw, hz, hkey⟩]
      · intro key hno ho
        rw [hval key ho]
        by_cases hz : rd = .zero
        · subst hz
          simp [isUniform] at hu
        · rw [if_neg, if_neg]
          · exact hno t (by simp [htk']) rd ((mem_destRegs hz).mpr (.inl rfl))
          · rintro ⟨hw, _, he⟩
            exact hno t (by simp [htk']) (nextReg rd) ((mem_destRegs hz).mpr (.inr ⟨hw, rfl⟩)) he
      · rw [en.fstat, hml.2.1, fstat_regStep hi.poison, htk']
        rfl
  · -- one step per active thread
    have hu' : isUniform rd = false := by simpa using hu
    rw [if_neg hu]
    obtain ⟨c, hc⟩ := perThread_plain hi (pre := fun _ => []) rfl srcs hg (by
      intro st t hp
      have hs := still_regStep hp rd wide (val i s.free) (fl i s.free) t
      have : (apartFromWork (regStep rd wide (val i s.free) (fl i s.free) st t)).stepm = (apartFromWork st).stepm := by
        rw [hs.rest]
      exact ⟨hs.poisoned.trans hp, this, hs.cut⟩)
    simp only [Option.getD_none] at hc
    rw [hc]
    have R := regSteps_fold hd hu' (hv i s.free) (hl i s.free) (i.pc + 8) i.st i.active i.st fa.active_nodup fa.active_lt
      hi.poison (fun k _ => Agrees.refl k i.st)
    generalize hst1 : i.active.foldl (fun st t => moveThread (regStep rd wide (val i s.free) (fl i s.free) st t) t (i.pc + 8))
      i.st = st1 at R
    have hgf := guardFalse_threads fa R.still.length R.threads
    have hml := moveThreads_fold (i.present.filter fun t => !i.active.contains t) (i.pc + 8) st1 (by
      intro k hk
      rw [R.still.length]
      exact (fa.present k (List.mem_filter.mp hk).1).2.1)
    obtain ⟨st', hm, en⟩ := moved_of_end (h := h) (c := c) (st := moveGuardFalse i st1) (i := i) fa.strand id fa.home
      hi.stepping (hml.1.trans R.still).rest (hml.1.trans R.still).length (fun k _ => hgf k)
    have hval : ∀ key, outlasts h key = true → valueAt st' key = valueAt st1 key := by
      intro key ho
      rw [en.vals key ho]
      exact hml.2.2.1 key
    have htk : takers i rd = i.active := by simp [takers, hu']
    refine ⟨_, st', rfl, hm, ⟨?_, ?_, ?_⟩, ?_⟩
    · intro _ k hk key hkey ho
      rw [hval key ho]
      exact R.low k (by rw [← htk]; exact hk) key hkey
    · intro hz hw k hk key hkey ho
      rw [hval key ho]
      exact R.high hw hz k (by rw [← htk]; exact hk) key hkey
    · intro key hno ho
      rw [hval key ho]
      exact R.same key (fun k hk => hno k (by rw [htk]; exact hk))
    · rw [en.fstat, htk, ← R.fstat]
      exact hml.2.1

theorem raiseFlags_zero (st : Strand) : raiseFlags st 0 = st := by
  have hz : st.fstat ||| 0 = st.fstat := by simp
  unfold raiseFlags
  rw [hz]

/-- The same of an instruction that raises no flag. -/
theorem gives_result {ins : Instr} {h : Hd} {rd : Reg} {wide : Bool} {srcs : List Reg}
    {g : Issue → State → Strand → Nat → StepOut}
    {val : Issue → Nat → Strand → Nat → DWord}
    (he : ∀ s, exec ins s = byDest s h rd (fun _ => []) srcs g)
    (hg : OnlyWrites g (fun i free st t => writeDest st t rd wide (val i free st t)) (fun _ _ _ _ => none))
    (hd : destOk rd wide) (hv : ∀ i free, LocalTo (val i free)) :
    GivesResult ins h rd wide (fun s i k => val i s.free i.st k) := by
  intro s i hi
  have hz : ∀ (a : Flags), a ||| 0 = a := by
    intro a
    simp
  obtain ⟨t, st, h1, h2, h3, h5⟩ := gives_float (fl := fun _ _ _ _ => 0) he (by
    intro i s st t hp
    rw [hg i s st t hp]
    exact congrArg (fun x => StepOut.ok s x none none) (raiseFlags_zero _).symm) hd hv (fun _ _ _ _ _ _ _ => rfl) s i hi
  refine ⟨t, st, h1, h2, h3, ?_⟩
  rw [h5]
  generalize takers i rd = l
  induction l with
  | nil => rfl
  | cons a r ih => rw [List.foldl_cons, hz]; exact ih

/-! ### Steps that change their thread alone -/

/-- A thread-step that changes its own thread and raises flags, and sends the thread on. -/
def threadStep (nt : Strand → Nat → Thread) (fl : Strand → Nat → Flags) (st : Strand) (t : Nat) : Strand :=
  raiseFlags (setThread st t (nt st t)) (fl st t)

theorem agrees_threadStep {st : Strand} (nt : Strand → Nat → Thread) (fl : Strand → Nat → Flags) (pc : DWord) {t k : Nat}
    (hne : t ≠ k) (hlt : t < st.threads.length) : Agrees k (moveThread (threadStep nt fl st t) t pc) st where
  thread := by
    rw [getThread_moveThread _ _ _ _ (by simpa [threadStep, raiseFlags] using hlt), if_neg hne]
    show getThread (setThread st t _) k = _
    rw [getThread_setThread]
    simp [hne]
  vals := by
    intro key _
    rw [valueAt_moveThread]
    unfold threadStep
    rw [valueAt_raiseFlags, valueAt_setThread]
  rest := rfl

/-- What a run of such steps leaves. -/
structure ThreadSteps (nt : Strand → Nat → Thread) (fl : Strand → Nat → Flags) (next : Strand → Nat → DWord)
    (b : Strand) (ts : List Nat) (st st' : Strand) : Prop where
  still : Still st' st
  threads : ∀ k, getThread st' k = if k ∈ ts then { nt b k with pc := next b k } else getThread st k
  fstat : st'.fstat = ts.foldl (fun f k => f ||| fl b k) st.fstat
  vals : ∀ key, valueAt st' key = valueAt st key

theorem threadSteps_fold {nt : Strand → Nat → Thread} {fl : Strand → Nat → Flags} {next : Strand → Nat → DWord}
    (hn : LocalTo nt) (hf : LocalTo fl) (hx : LocalTo next) (b : Strand) :
    ∀ (ts : List Nat) (st : Strand), ts.Nodup → (∀ k ∈ ts, k < 64 ∧ k < st.threads.length) → (∀ k ∈ ts, Agrees k st b) →
      ThreadSteps nt fl next b ts st (ts.foldl (fun st t => moveThread (threadStep nt fl st t) t (next st t)) st) := by
  intro ts
  induction ts with
  | nil =>
    intro st _ _ _
    exact ⟨Still.refl st, by simp, rfl, fun _ => rfl⟩
  | cons t r ih =>
    intro st hnd hlt hag
    have ht := hlt t (by simp)
    have hnr : t ∉ r := (List.nodup_cons.mp hnd).1
    let s1 := moveThread (threadStep nt fl st t) t (next st t)
    have hs1 : Still s1 st :=
      (still_moveThread _ _ _).trans ((still_raiseFlags _ _).trans (still_setThread _ _ _))
    have e1 := hn st b t ht.1 (hag t (by simp))
    have e2 := hf st b t ht.1 (hag t (by simp))
    have e3 := hx st b t ht.1 (hag t (by simp))
    have h := ih s1 (List.nodup_cons.mp hnd).2 (fun k hk => by
        rw [hs1.length]; exact hlt k (by simp [hk]))
      (fun k hk => (agrees_threadStep nt fl _ (fun e => hnr (by rw [e]; exact hk)) ht.2).trans (hag k (by simp [hk])))
    refine ⟨h.still.trans hs1, ?_, ?_, ?_⟩
    · intro k
      show getThread (r.foldl _ s1) k = _
      rw [h.threads k]
      have : getThread s1 k = if t = k then { nt b t with pc := next b t } else getThread st k := by
        show getThread (moveThread (threadStep nt fl st t) t (next st t)) k = _
        rw [getThread_moveThread _ _ _ _ (by simpa [threadStep, raiseFlags] using ht.2)]
        have e4 : getThread (threadStep nt fl st t) k = if t = k then nt b t else getThread st k := by
          show getThread (setThread st t (nt st t)) k = _
          rw [getThread_setThread, e1]
          simp [ht.2]
        rw [e4, e3]
        by_cases hk : t = k <;> simp [hk]
      rw [this]
      by_cases hk : t = k
      · subst hk
        simp [hnr]
      · by_cases hkr : k ∈ r <;> simp [hk, hkr, Ne.symm hk]
    · show (r.foldl _ s1).fstat = _
      rw [h.fstat]
      have : s1.fstat = st.fstat ||| fl b t := by
        rw [← e2]
        rfl
      rw [this]
      rfl
    · intro key
      show valueAt (r.foldl _ s1) key = _
      rw [h.vals]
      show valueAt (moveThread (threadStep nt fl st t) t (next st t)) key = _
      rw [valueAt_moveThread]
      unfold threadStep
      rw [valueAt_raiseFlags, valueAt_setThread]

/-- An instruction whose thread-steps change their own thread and raise flags completes so (R120, R171). -/
theorem moves_threads {ins : Instr} {h : Hd} {pre : Issue → List (Option PreFault)} {srcs : List Reg}
    {g : Issue → State → Strand → Nat → StepOut} {nt : Issue → Nat → Strand → Nat → Thread}
    {fl : Issue → Nat → Strand → Nat → Flags} {next : Issue → Nat → Strand → Nat → Option DWord}
    (he : ∀ s, exec ins s = perThread s h pre srcs g)
    (hg : OnlyWrites g (fun i free st t => threadStep (nt i free) (fl i free) st t) next)
    (hn : ∀ i free, LocalTo (nt i free)) (hl : ∀ i free, LocalTo (fl i free)) (hx : ∀ i free, LocalTo (next i free))
    {s : State} {i : Issue} (hi : Issuing s h.guard i) (hpre : (pre i).filterMap id = []) :
    ∃ t st, exec ins s = .next t ∧ Moved s t i.st st (fun k => if k ∈ i.active then
        { nt i s.free i.st k with pc := (next i s.free i.st k).getD (i.pc + 8) } else past i k) ∧
      RegsKept h i st ∧ st.fstat = i.active.foldl (fun f k => f ||| fl i s.free i.st k) i.st.fstat := by
  have fa := issueOf_facts hi.issue
  rw [he]
  obtain ⟨c, hc⟩ := perThread_plain hi hpre srcs hg (by
    intro st t hp
    exact ⟨hp, rfl, rfl⟩)
  rw [hc]
  have R := threadSteps_fold (hn i s.free) (hl i s.free)
    (next := fun st t => (next i s.free st t).getD (i.pc + 8)) (by
      intro a b k hk hab
      show Option.getD _ _ = Option.getD _ _
      rw [hx i s.free a b k hk hab]) i.st i.active i.st fa.active_nodup fa.active_lt (fun k _ => Agrees.refl k i.st)
  generalize hst1 : i.active.foldl (fun st t => moveThread (threadStep (nt i s.free) (fl i s.free) st t) t
    ((next i s.free st t).getD (i.pc + 8))) i.st = st1 at R
  have hml := moveThreads_fold (i.present.filter fun t => !i.active.contains t) (i.pc + 8) st1 (by
    intro k hk
    rw [R.still.length]
    exact (fa.present k (List.mem_filter.mp hk).1).2.1)
  have hth : ∀ k, getThread (moveGuardFalse i st1) k = if k ∈ i.active then
      { nt i s.free i.st k with pc := (next i s.free i.st k).getD (i.pc + 8) } else past i k := by
    intro k
    unfold moveGuardFalse past
    rw [hml.2.2.2 k, R.threads k]
    by_cases hp : k ∈ i.present
    · by_cases ha : k ∈ i.active
      · simp [hp, ha]
      · simp [hp, ha]
    · have ha : k ∉ i.active := fun h => hp (fa.active_sub k h)
      simp [hp, ha]
  obtain ⟨st', hm, en⟩ := moved_of_end (h := h) (c := c) (st := moveGuardFalse i st1) (i := i) fa.strand id fa.home
    hi.stepping (hml.1.trans R.still).rest (hml.1.trans R.still).length (fun k _ => hth k)
  refine ⟨_, st', rfl, hm, ?_, ?_⟩
  · intro key ho
    rw [en.vals key ho]
    exact (hml.2.2.1 key).trans (R.vals key)
  · rw [en.fstat, ← R.fstat]
    exact hml.2.1

end Sys2Proof.Machine
end

