-- ==== Sys2Proof/Laws/State.lean ====
section
/-! SUPPORT. What the named updates of the state leave alone, field by field, so that no later proof unfolds a record update;
and what each does to its own field. -/

namespace Sys2Proof.Machine

/-! ### setStrand -/

@[simp] theorem setStrand_turns (s : State) (x : Strand) : (setStrand s x).turns = s.turns := rfl
@[simp] theorem setStrand_turnNo (s : State) (x : Strand) : (setStrand s x).turnNo = s.turnNo := rfl
@[simp] theorem setStrand_free (s : State) (x : Strand) : (setStrand s x).free = s.free := rfl
@[simp] theorem setStrand_issuer (s : State) (x : Strand) : (setStrand s x).issuer = s.issuer := rfl
@[simp] theorem setStrand_due (s : State) (x : Strand) : (setStrand s x).due = s.due := rfl
@[simp] theorem setStrand_moved (s : State) (x : Strand) : (setStrand s x).moved = s.moved := rfl
@[simp] theorem setStrand_time (s : State) (x : Strand) : (setStrand s x).time = s.time := rfl
@[simp] theorem setStrand_closing (s : State) (x : Strand) : (setStrand s x).closing = s.closing := rfl
@[simp] theorem setStrand_mem (s : State) (x : Strand) : (setStrand s x).mem = s.mem := rfl
@[simp] theorem setStrand_tags (s : State) (x : Strand) : (setStrand s x).tags = s.tags := rfl
@[simp] theorem setStrand_lineKeys (s : State) (x : Strand) : (setStrand s x).lineKeys = s.lineKeys := rfl
@[simp] theorem setStrand_poison (s : State) (x : Strand) : (setStrand s x).poison = s.poison := rfl
@[simp] theorem setStrand_dcache (s : State) (x : Strand) : (setStrand s x).dcache = s.dcache := rfl
@[simp] theorem setStrand_slices (s : State) (x : Strand) : (setStrand s x).slices = s.slices := rfl
@[simp] theorem setStrand_acquire (s : State) (x : Strand) : (setStrand s x).acquire = s.acquire := rfl
@[simp] theorem setStrand_tlb (s : State) (x : Strand) : (setStrand s x).tlb = s.tlb := rfl
@[simp] theorem setStrand_utlb (s : State) (x : Strand) : (setStrand s x).utlb = s.utlb := rfl
@[simp] theorem setStrand_walks (s : State) (x : Strand) : (setStrand s x).walks = s.walks := rfl
@[simp] theorem setStrand_walkCache (s : State) (x : Strand) : (setStrand s x).walkCache = s.walkCache := rfl
@[simp] theorem setStrand_pend (s : State) (x : Strand) : (setStrand s x).pend = s.pend := rfl
@[simp] theorem setStrand_nextId (s : State) (x : Strand) : (setStrand s x).nextId = s.nextId := rfl
@[simp] theorem setStrand_weight (s : State) (x : Strand) : (setStrand s x).weight = s.weight := rfl
@[simp] theorem setStrand_wregions (s : State) (x : Strand) : (setStrand s x).wregions = s.wregions := rfl
@[simp] theorem setStrand_scratch (s : State) (x : Strand) : (setStrand s x).scratch = s.scratch := rfl
@[simp] theorem setStrand_writers (s : State) (x : Strand) : (setStrand s x).writers = s.writers := rfl
@[simp] theorem setStrand_segments (s : State) (x : Strand) : (setStrand s x).segments = s.segments := rfl
@[simp] theorem setStrand_limbWorld (s : State) (x : Strand) : (setStrand s x).limbWorld = s.limbWorld := rfl
@[simp] theorem setStrand_groupWorld (s : State) (x : Strand) : (setStrand s x).groupWorld = s.groupWorld := rfl
@[simp] theorem setStrand_cleared (s : State) (x : Strand) : (setStrand s x).cleared = s.cleared := rfl
@[simp] theorem setStrand_used (s : State) (x : Strand) : (setStrand s x).used = s.used := rfl
@[simp] theorem setStrand_worlds (s : State) (x : Strand) : (setStrand s x).worlds = s.worlds := rfl
@[simp] theorem setStrand_lanes (s : State) (x : Strand) : (setStrand s x).lanes = s.lanes := rfl
@[simp] theorem setStrand_gens (s : State) (x : Strand) : (setStrand s x).gens = s.gens := rfl
@[simp] theorem setStrand_groves (s : State) (x : Strand) : (setStrand s x).groves = s.groves := rfl
@[simp] theorem setStrand_launches (s : State) (x : Strand) : (setStrand s x).launches = s.launches := rfl
@[simp] theorem setStrand_nextLaunch (s : State) (x : Strand) : (setStrand s x).nextLaunch = s.nextLaunch := rfl
@[simp] theorem setStrand_channels (s : State) (x : Strand) : (setStrand s x).channels = s.channels := rfl
@[simp] theorem setStrand_chains (s : State) (x : Strand) : (setStrand s x).chains = s.chains := rfl
@[simp] theorem setStrand_insts (s : State) (x : Strand) : (setStrand s x).insts = s.insts := rfl
@[simp] theorem setStrand_rr (s : State) (x : Strand) : (setStrand s x).rr = s.rr := rfl
@[simp] theorem setStrand_mx (s : State) (x : Strand) : (setStrand s x).mx = s.mx := rfl
@[simp] theorem setStrand_nreqs (s : State) (x : Strand) : (setStrand s x).nreqs = s.nreqs := rfl
@[simp] theorem setStrand_queues (s : State) (x : Strand) : (setStrand s x).queues = s.queues := rfl
@[simp] theorem setStrand_packets (s : State) (x : Strand) : (setStrand s x).packets = s.packets := rfl
@[simp] theorem setStrand_nodes (s : State) (x : Strand) : (setStrand s x).nodes = s.nodes := rfl
@[simp] theorem setStrand_graphs (s : State) (x : Strand) : (setStrand s x).graphs = s.graphs := rfl
@[simp] theorem setStrand_notify (s : State) (x : Strand) : (setStrand s x).notify = s.notify := rfl
@[simp] theorem setStrand_ntable (s : State) (x : Strand) : (setStrand s x).ntable = s.ntable := rfl
@[simp] theorem setStrand_qrr (s : State) (x : Strand) : (setStrand s x).qrr = s.qrr := rfl
@[simp] theorem setStrand_budgets (s : State) (x : Strand) : (setStrand s x).budgets = s.budgets := rfl
@[simp] theorem setStrand_period (s : State) (x : Strand) : (setStrand s x).period = s.period := rfl
@[simp] theorem setStrand_ures (s : State) (x : Strand) : (setStrand s x).ures = s.ures := rfl
@[simp] theorem setStrand_wsloads (s : State) (x : Strand) : (setStrand s x).wsloads = s.wsloads := rfl
@[simp] theorem setStrand_tlbinvs (s : State) (x : Strand) : (setStrand s x).tlbinvs = s.tlbinvs := rfl
@[simp] theorem setStrand_draws (s : State) (x : Strand) : (setStrand s x).draws = s.draws := rfl
@[simp] theorem setStrand_heads (s : State) (x : Strand) : (setStrand s x).heads = s.heads := rfl
@[simp] theorem setStrand_planes (s : State) (x : Strand) : (setStrand s x).planes = s.planes := rfl
@[simp] theorem setStrand_descs (s : State) (x : Strand) : (setStrand s x).descs = s.descs := rfl
@[simp] theorem setStrand_grants (s : State) (x : Strand) : (setStrand s x).grants = s.grants := rfl
@[simp] theorem setStrand_lf (s : State) (x : Strand) : (setStrand s x).lf = s.lf := rfl
@[simp] theorem setStrand_presents (s : State) (x : Strand) : (setStrand s x).presents = s.presents := rfl
@[simp] theorem setStrand_pacing (s : State) (x : Strand) : (setStrand s x).pacing = s.pacing := rfl
@[simp] theorem setStrand_suppressed (s : State) (x : Strand) : (setStrand s x).suppressed = s.suppressed := rfl
@[simp] theorem setStrand_discardSeen (s : State) (x : Strand) : (setStrand s x).discardSeen = s.discardSeen := rfl
@[simp] theorem setStrand_composing (s : State) (x : Strand) : (setStrand s x).composing = s.composing := rfl
@[simp] theorem setStrand_frames (s : State) (x : Strand) : (setStrand s x).frames = s.frames := rfl
@[simp] theorem setStrand_ats (s : State) (x : Strand) : (setStrand s x).ats = s.ats := rfl
@[simp] theorem setStrand_atsinvs (s : State) (x : Strand) : (setStrand s x).atsinvs = s.atsinvs := rfl
@[simp] theorem setStrand_ports (s : State) (x : Strand) : (setStrand s x).ports = s.ports := rfl
@[simp] theorem setStrand_host (s : State) (x : Strand) : (setStrand s x).host = s.host := rfl
@[simp] theorem setStrand_power (s : State) (x : Strand) : (setStrand s x).power = s.power := rfl

/-! ### setGrove -/

@[simp] theorem setGrove_turns (s : State) (x : Grove) : (setGrove s x).turns = s.turns := rfl
@[simp] theorem setGrove_turnNo (s : State) (x : Grove) : (setGrove s x).turnNo = s.turnNo := rfl
@[simp] theorem setGrove_free (s : State) (x : Grove) : (setGrove s x).free = s.free := rfl
@[simp] theorem setGrove_issuer (s : State) (x : Grove) : (setGrove s x).issuer = s.issuer := rfl
@[simp] theorem setGrove_due (s : State) (x : Grove) : (setGrove s x).due = s.due := rfl
@[simp] theorem setGrove_moved (s : State) (x : Grove) : (setGrove s x).moved = s.moved := rfl
@[simp] theorem setGrove_time (s : State) (x : Grove) : (setGrove s x).time = s.time := rfl
@[simp] theorem setGrove_closing (s : State) (x : Grove) : (setGrove s x).closing = s.closing := rfl
@[simp] theorem setGrove_mem (s : State) (x : Grove) : (setGrove s x).mem = s.mem := rfl
@[simp] theorem setGrove_tags (s : State) (x : Grove) : (setGrove s x).tags = s.tags := rfl
@[simp] theorem setGrove_lineKeys (s : State) (x : Grove) : (setGrove s x).lineKeys = s.lineKeys := rfl
@[simp] theorem setGrove_poison (s : State) (x : Grove) : (setGrove s x).poison = s.poison := rfl
@[simp] theorem setGrove_dcache (s : State) (x : Grove) : (setGrove s x).dcache = s.dcache := rfl
@[simp] theorem setGrove_slices (s : State) (x : Grove) : (setGrove s x).slices = s.slices := rfl
@[simp] theorem setGrove_acquire (s : State) (x : Grove) : (setGrove s x).acquire = s.acquire := rfl
@[simp] theorem setGrove_tlb (s : State) (x : Grove) : (setGrove s x).tlb = s.tlb := rfl
@[simp] theorem setGrove_utlb (s : State) (x : Grove) : (setGrove s x).utlb = s.utlb := rfl
@[simp] theorem setGrove_walks (s : State) (x : Grove) : (setGrove s x).walks = s.walks := rfl
@[simp] theorem setGrove_walkCache (s : State) (x : Grove) : (setGrove s x).walkCache = s.walkCache := rfl
@[simp] theorem setGrove_pend (s : State) (x : Grove) : (setGrove s x).pend = s.pend := rfl
@[simp] theorem setGrove_nextId (s : State) (x : Grove) : (setGrove s x).nextId = s.nextId := rfl
@[simp] theorem setGrove_weight (s : State) (x : Grove) : (setGrove s x).weight = s.weight := rfl
@[simp] theorem setGrove_wregions (s : State) (x : Grove) : (setGrove s x).wregions = s.wregions := rfl
@[simp] theorem setGrove_scratch (s : State) (x : Grove) : (setGrove s x).scratch = s.scratch := rfl
@[simp] theorem setGrove_writers (s : State) (x : Grove) : (setGrove s x).writers = s.writers := rfl
@[simp] theorem setGrove_segments (s : State) (x : Grove) : (setGrove s x).segments = s.segments := rfl
@[simp] theorem setGrove_limbWorld (s : State) (x : Grove) : (setGrove s x).limbWorld = s.limbWorld := rfl
@[simp] theorem setGrove_groupWorld (s : State) (x : Grove) : (setGrove s x).groupWorld = s.groupWorld := rfl
@[simp] theorem setGrove_cleared (s : State) (x : Grove) : (setGrove s x).cleared = s.cleared := rfl
@[simp] theorem setGrove_used (s : State) (x : Grove) : (setGrove s x).used = s.used := rfl
@[simp] theorem setGrove_worlds (s : State) (x : Grove) : (setGrove s x).worlds = s.worlds := rfl
@[simp] theorem setGrove_lanes (s : State) (x : Grove) : (setGrove s x).lanes = s.lanes := rfl
@[simp] theorem setGrove_strands (s : State) (x : Grove) : (setGrove s x).strands = s.strands := rfl
@[simp] theorem setGrove_gens (s : State) (x : Grove) : (setGrove s x).gens = s.gens := rfl
@[simp] theorem setGrove_launches (s : State) (x : Grove) : (setGrove s x).launches = s.launches := rfl
@[simp] theorem setGrove_nextLaunch (s : State) (x : Grove) : (setGrove s x).nextLaunch = s.nextLaunch := rfl
@[simp] theorem setGrove_channels (s : State) (x : Grove) : (setGrove s x).channels = s.channels := rfl
@[simp] theorem setGrove_chains (s : State) (x : Grove) : (setGrove s x).chains = s.chains := rfl
@[simp] theorem setGrove_insts (s : State) (x : Grove) : (setGrove s x).insts = s.insts := rfl
@[simp] theorem setGrove_rr (s : State) (x : Grove) : (setGrove s x).rr = s.rr := rfl
@[simp] theorem setGrove_mx (s : State) (x : Grove) : (setGrove s x).mx = s.mx := rfl
@[simp] theorem setGrove_nreqs (s : State) (x : Grove) : (setGrove s x).nreqs = s.nreqs := rfl
@[simp] theorem setGrove_queues (s : State) (x : Grove) : (setGrove s x).queues = s.queues := rfl
@[simp] theorem setGrove_packets (s : State) (x : Grove) : (setGrove s x).packets = s.packets := rfl
@[simp] theorem setGrove_nodes (s : State) (x : Grove) : (setGrove s x).nodes = s.nodes := rfl
@[simp] theorem setGrove_graphs (s : State) (x : Grove) : (setGrove s x).graphs = s.graphs := rfl
@[simp] theorem setGrove_notify (s : State) (x : Grove) : (setGrove s x).notify = s.notify := rfl
@[simp] theorem setGrove_ntable (s : State) (x : Grove) : (setGrove s x).ntable = s.ntable := rfl
@[simp] theorem setGrove_qrr (s : State) (x : Grove) : (setGrove s x).qrr = s.qrr := rfl
@[simp] theorem setGrove_budgets (s : State) (x : Grove) : (setGrove s x).budgets = s.budgets := rfl
@[simp] theorem setGrove_period (s : State) (x : Grove) : (setGrove s x).period = s.period := rfl
@[simp] theorem setGrove_ures (s : State) (x : Grove) : (setGrove s x).ures = s.ures := rfl
@[simp] theorem setGrove_wsloads (s : State) (x : Grove) : (setGrove s x).wsloads = s.wsloads := rfl
@[simp] theorem setGrove_tlbinvs (s : State) (x : Grove) : (setGrove s x).tlbinvs = s.tlbinvs := rfl
@[simp] theorem setGrove_draws (s : State) (x : Grove) : (setGrove s x).draws = s.draws := rfl
@[simp] theorem setGrove_heads (s : State) (x : Grove) : (setGrove s x).heads = s.heads := rfl
@[simp] theorem setGrove_planes (s : State) (x : Grove) : (setGrove s x).planes = s.planes := rfl
@[simp] theorem setGrove_descs (s : State) (x : Grove) : (setGrove s x).descs = s.descs := rfl
@[simp] theorem setGrove_grants (s : State) (x : Grove) : (setGrove s x).grants = s.grants := rfl
@[simp] theorem setGrove_lf (s : State) (x : Grove) : (setGrove s x).lf = s.lf := rfl
@[simp] theorem setGrove_presents (s : State) (x : Grove) : (setGrove s x).presents = s.presents := rfl
@[simp] theorem setGrove_pacing (s : State) (x : Grove) : (setGrove s x).pacing = s.pacing := rfl
@[simp] theorem setGrove_suppressed (s : State) (x : Grove) : (setGrove s x).suppressed = s.suppressed := rfl
@[simp] theorem setGrove_discardSeen (s : State) (x : Grove) : (setGrove s x).discardSeen = s.discardSeen := rfl
@[simp] theorem setGrove_composing (s : State) (x : Grove) : (setGrove s x).composing = s.composing := rfl
@[simp] theorem setGrove_frames (s : State) (x : Grove) : (setGrove s x).frames = s.frames := rfl
@[simp] theorem setGrove_ats (s : State) (x : Grove) : (setGrove s x).ats = s.ats := rfl
@[simp] theorem setGrove_atsinvs (s : State) (x : Grove) : (setGrove s x).atsinvs = s.atsinvs := rfl
@[simp] theorem setGrove_ports (s : State) (x : Grove) : (setGrove s x).ports = s.ports := rfl
@[simp] theorem setGrove_host (s : State) (x : Grove) : (setGrove s x).host = s.host := rfl
@[simp] theorem setGrove_power (s : State) (x : Grove) : (setGrove s x).power = s.power := rfl

/-! ### setWorld -/

@[simp] theorem setWorld_turns (s : State) (x : World) : (setWorld s x).turns = s.turns := rfl
@[simp] theorem setWorld_turnNo (s : State) (x : World) : (setWorld s x).turnNo = s.turnNo := rfl
@[simp] theorem setWorld_free (s : State) (x : World) : (setWorld s x).free = s.free := rfl
@[simp] theorem setWorld_issuer (s : State) (x : World) : (setWorld s x).issuer = s.issuer := rfl
@[simp] theorem setWorld_due (s : State) (x : World) : (setWorld s x).due = s.due := rfl
@[simp] theorem setWorld_moved (s : State) (x : World) : (setWorld s x).moved = s.moved := rfl
@[simp] theorem setWorld_time (s : State) (x : World) : (setWorld s x).time = s.time := rfl
@[simp] theorem setWorld_closing (s : State) (x : World) : (setWorld s x).closing = s.closing := rfl
@[simp] theorem setWorld_mem (s : State) (x : World) : (setWorld s x).mem = s.mem := rfl
@[simp] theorem setWorld_tags (s : State) (x : World) : (setWorld s x).tags = s.tags := rfl
@[simp] theorem setWorld_lineKeys (s : State) (x : World) : (setWorld s x).lineKeys = s.lineKeys := rfl
@[simp] theorem setWorld_poison (s : State) (x : World) : (setWorld s x).poison = s.poison := rfl
@[simp] theorem setWorld_dcache (s : State) (x : World) : (setWorld s x).dcache = s.dcache := rfl
@[simp] theorem setWorld_slices (s : State) (x : World) : (setWorld s x).slices = s.slices := rfl
@[simp] theorem setWorld_acquire (s : State) (x : World) : (setWorld s x).acquire = s.acquire := rfl
@[simp] theorem setWorld_tlb (s : State) (x : World) : (setWorld s x).tlb = s.tlb := rfl
@[simp] theorem setWorld_utlb (s : State) (x : World) : (setWorld s x).utlb = s.utlb := rfl
@[simp] theorem setWorld_walks (s : State) (x : World) : (setWorld s x).walks = s.walks := rfl
@[simp] theorem setWorld_walkCache (s : State) (x : World) : (setWorld s x).walkCache = s.walkCache := rfl
@[simp] theorem setWorld_pend (s : State) (x : World) : (setWorld s x).pend = s.pend := rfl
@[simp] theorem setWorld_nextId (s : State) (x : World) : (setWorld s x).nextId = s.nextId := rfl
@[simp] theorem setWorld_weight (s : State) (x : World) : (setWorld s x).weight = s.weight := rfl
@[simp] theorem setWorld_wregions (s : State) (x : World) : (setWorld s x).wregions = s.wregions := rfl
@[simp] theorem setWorld_scratch (s : State) (x : World) : (setWorld s x).scratch = s.scratch := rfl
@[simp] theorem setWorld_writers (s : State) (x : World) : (setWorld s x).writers = s.writers := rfl
@[simp] theorem setWorld_segments (s : State) (x : World) : (setWorld s x).segments = s.segments := rfl
@[simp] theorem setWorld_limbWorld (s : State) (x : World) : (setWorld s x).limbWorld = s.limbWorld := rfl
@[simp] theorem setWorld_groupWorld (s : State) (x : World) : (setWorld s x).groupWorld = s.groupWorld := rfl
@[simp] theorem setWorld_cleared (s : State) (x : World) : (setWorld s x).cleared = s.cleared := rfl
@[simp] theorem setWorld_used (s : State) (x : World) : (setWorld s x).used = s.used := rfl
@[simp] theorem setWorld_lanes (s : State) (x : World) : (setWorld s x).lanes = s.lanes := rfl
@[simp] theorem setWorld_strands (s : State) (x : World) : (setWorld s x).strands = s.strands := rfl
@[simp] theorem setWorld_gens (s : State) (x : World) : (setWorld s x).gens = s.gens := rfl
@[simp] theorem setWorld_groves (s : State) (x : World) : (setWorld s x).groves = s.groves := rfl
@[simp] theorem setWorld_launches (s : State) (x : World) : (setWorld s x).launches = s.launches := rfl
@[simp] theorem setWorld_nextLaunch (s : State) (x : World) : (setWorld s x).nextLaunch = s.nextLaunch := rfl
@[simp] theorem setWorld_channels (s : State) (x : World) : (setWorld s x).channels = s.channels := rfl
@[simp] theorem setWorld_chains (s : State) (x : World) : (setWorld s x).chains = s.chains := rfl
@[simp] theorem setWorld_insts (s : State) (x : World) : (setWorld s x).insts = s.insts := rfl
@[simp] theorem setWorld_rr (s : State) (x : World) : (setWorld s x).rr = s.rr := rfl
@[simp] theorem setWorld_mx (s : State) (x : World) : (setWorld s x).mx = s.mx := rfl
@[simp] theorem setWorld_nreqs (s : State) (x : World) : (setWorld s x).nreqs = s.nreqs := rfl
@[simp] theorem setWorld_queues (s : State) (x : World) : (setWorld s x).queues = s.queues := rfl
@[simp] theorem setWorld_packets (s : State) (x : World) : (setWorld s x).packets = s.packets := rfl
@[simp] theorem setWorld_nodes (s : State) (x : World) : (setWorld s x).nodes = s.nodes := rfl
@[simp] theorem setWorld_graphs (s : State) (x : World) : (setWorld s x).graphs = s.graphs := rfl
@[simp] theorem setWorld_notify (s : State) (x : World) : (setWorld s x).notify = s.notify := rfl
@[simp] theorem setWorld_ntable (s : State) (x : World) : (setWorld s x).ntable = s.ntable := rfl
@[simp] theorem setWorld_qrr (s : State) (x : World) : (setWorld s x).qrr = s.qrr := rfl
@[simp] theorem setWorld_budgets (s : State) (x : World) : (setWorld s x).budgets = s.budgets := rfl
@[simp] theorem setWorld_period (s : State) (x : World) : (setWorld s x).period = s.period := rfl
@[simp] theorem setWorld_ures (s : State) (x : World) : (setWorld s x).ures = s.ures := rfl
@[simp] theorem setWorld_wsloads (s : State) (x : World) : (setWorld s x).wsloads = s.wsloads := rfl
@[simp] theorem setWorld_tlbinvs (s : State) (x : World) : (setWorld s x).tlbinvs = s.tlbinvs := rfl
@[simp] theorem setWorld_draws (s : State) (x : World) : (setWorld s x).draws = s.draws := rfl
@[simp] theorem setWorld_heads (s : State) (x : World) : (setWorld s x).heads = s.heads := rfl
@[simp] theorem setWorld_planes (s : State) (x : World) : (setWorld s x).planes = s.planes := rfl
@[simp] theorem setWorld_descs (s : State) (x : World) : (setWorld s x).descs = s.descs := rfl
@[simp] theorem setWorld_grants (s : State) (x : World) : (setWorld s x).grants = s.grants := rfl
@[simp] theorem setWorld_lf (s : State) (x : World) : (setWorld s x).lf = s.lf := rfl
@[simp] theorem setWorld_presents (s : State) (x : World) : (setWorld s x).presents = s.presents := rfl
@[simp] theorem setWorld_pacing (s : State) (x : World) : (setWorld s x).pacing = s.pacing := rfl
@[simp] theorem setWorld_suppressed (s : State) (x : World) : (setWorld s x).suppressed = s.suppressed := rfl
@[simp] theorem setWorld_discardSeen (s : State) (x : World) : (setWorld s x).discardSeen = s.discardSeen := rfl
@[simp] theorem setWorld_composing (s : State) (x : World) : (setWorld s x).composing = s.composing := rfl
@[simp] theorem setWorld_frames (s : State) (x : World) : (setWorld s x).frames = s.frames := rfl
@[simp] theorem setWorld_ats (s : State) (x : World) : (setWorld s x).ats = s.ats := rfl
@[simp] theorem setWorld_atsinvs (s : State) (x : World) : (setWorld s x).atsinvs = s.atsinvs := rfl
@[simp] theorem setWorld_ports (s : State) (x : World) : (setWorld s x).ports = s.ports := rfl
@[simp] theorem setWorld_host (s : State) (x : World) : (setWorld s x).host = s.host := rfl
@[simp] theorem setWorld_power (s : State) (x : World) : (setWorld s x).power = s.power := rfl

/-! ### setLaunch -/

@[simp] theorem setLaunch_turns (s : State) (x : Launch) : (setLaunch s x).turns = s.turns := rfl
@[simp] theorem setLaunch_turnNo (s : State) (x : Launch) : (setLaunch s x).turnNo = s.turnNo := rfl
@[simp] theorem setLaunch_free (s : State) (x : Launch) : (setLaunch s x).free = s.free := rfl
@[simp] theorem setLaunch_issuer (s : State) (x : Launch) : (setLaunch s x).issuer = s.issuer := rfl
@[simp] theorem setLaunch_due (s : State) (x : Launch) : (setLaunch s x).due = s.due := rfl
@[simp] theorem setLaunch_moved (s : State) (x : Launch) : (setLaunch s x).moved = s.moved := rfl
@[simp] theorem setLaunch_time (s : State) (x : Launch) : (setLaunch s x).time = s.time := rfl
@[simp] theorem setLaunch_closing (s : State) (x : Launch) : (setLaunch s x).closing = s.closing := rfl
@[simp] theorem setLaunch_mem (s : State) (x : Launch) : (setLaunch s x).mem = s.mem := rfl
@[simp] theorem setLaunch_tags (s : State) (x : Launch) : (setLaunch s x).tags = s.tags := rfl
@[simp] theorem setLaunch_lineKeys (s : State) (x : Launch) : (setLaunch s x).lineKeys = s.lineKeys := rfl
@[simp] theorem setLaunch_poison (s : State) (x : Launch) : (setLaunch s x).poison = s.poison := rfl
@[simp] theorem setLaunch_dcache (s : State) (x : Launch) : (setLaunch s x).dcache = s.dcache := rfl
@[simp] theorem setLaunch_slices (s : State) (x : Launch) : (setLaunch s x).slices = s.slices := rfl
@[simp] theorem setLaunch_acquire (s : State) (x : Launch) : (setLaunch s x).acquire = s.acquire := rfl
@[simp] theorem setLaunch_tlb (s : State) (x : Launch) : (setLaunch s x).tlb = s.tlb := rfl
@[simp] theorem setLaunch_utlb (s : State) (x : Launch) : (setLaunch s x).utlb = s.utlb := rfl
@[simp] theorem setLaunch_walks (s : State) (x : Launch) : (setLaunch s x).walks = s.walks := rfl
@[simp] theorem setLaunch_walkCache (s : State) (x : Launch) : (setLaunch s x).walkCache = s.walkCache := rfl
@[simp] theorem setLaunch_pend (s : State) (x : Launch) : (setLaunch s x).pend = s.pend := rfl
@[simp] theorem setLaunch_nextId (s : State) (x : Launch) : (setLaunch s x).nextId = s.nextId := rfl
@[simp] theorem setLaunch_weight (s : State) (x : Launch) : (setLaunch s x).weight = s.weight := rfl
@[simp] theorem setLaunch_wregions (s : State) (x : Launch) : (setLaunch s x).wregions = s.wregions := rfl
@[simp] theorem setLaunch_scratch (s : State) (x : Launch) : (setLaunch s x).scratch = s.scratch := rfl
@[simp] theorem setLaunch_writers (s : State) (x : Launch) : (setLaunch s x).writers = s.writers := rfl
@[simp] theorem setLaunch_segments (s : State) (x : Launch) : (setLaunch s x).segments = s.segments := rfl
@[simp] theorem setLaunch_limbWorld (s : State) (x : Launch) : (setLaunch s x).limbWorld = s.limbWorld := rfl
@[simp] theorem setLaunch_groupWorld (s : State) (x : Launch) : (setLaunch s x).groupWorld = s.groupWorld := rfl
@[simp] theorem setLaunch_cleared (s : State) (x : Launch) : (setLaunch s x).cleared = s.cleared := rfl
@[simp] theorem setLaunch_used (s : State) (x : Launch) : (setLaunch s x).used = s.used := rfl
@[simp] theorem setLaunch_worlds (s : State) (x : Launch) : (setLaunch s x).worlds = s.worlds := rfl
@[simp] theorem setLaunch_lanes (s : State) (x : Launch) : (setLaunch s x).lanes = s.lanes := rfl
@[simp] theorem setLaunch_strands (s : State) (x : Launch) : (setLaunch s x).strands = s.strands := rfl
@[simp] theorem setLaunch_gens (s : State) (x : Launch) : (setLaunch s x).gens = s.gens := rfl
@[simp] theorem setLaunch_groves (s : State) (x : Launch) : (setLaunch s x).groves = s.groves := rfl
@[simp] theorem setLaunch_nextLaunch (s : State) (x : Launch) : (setLaunch s x).nextLaunch = s.nextLaunch := rfl
@[simp] theorem setLaunch_channels (s : State) (x : Launch) : (setLaunch s x).channels = s.channels := rfl
@[simp] theorem setLaunch_chains (s : State) (x : Launch) : (setLaunch s x).chains = s.chains := rfl
@[simp] theorem setLaunch_insts (s : State) (x : Launch) : (setLaunch s x).insts = s.insts := rfl
@[simp] theorem setLaunch_rr (s : State) (x : Launch) : (setLaunch s x).rr = s.rr := rfl
@[simp] theorem setLaunch_mx (s : State) (x : Launch) : (setLaunch s x).mx = s.mx := rfl
@[simp] theorem setLaunch_nreqs (s : State) (x : Launch) : (setLaunch s x).nreqs = s.nreqs := rfl
@[simp] theorem setLaunch_queues (s : State) (x : Launch) : (setLaunch s x).queues = s.queues := rfl
@[simp] theorem setLaunch_packets (s : State) (x : Launch) : (setLaunch s x).packets = s.packets := rfl
@[simp] theorem setLaunch_nodes (s : State) (x : Launch) : (setLaunch s x).nodes = s.nodes := rfl
@[simp] theorem setLaunch_graphs (s : State) (x : Launch) : (setLaunch s x).graphs = s.graphs := rfl
@[simp] theorem setLaunch_notify (s : State) (x : Launch) : (setLaunch s x).notify = s.notify := rfl
@[simp] theorem setLaunch_ntable (s : State) (x : Launch) : (setLaunch s x).ntable = s.ntable := rfl
@[simp] theorem setLaunch_qrr (s : State) (x : Launch) : (setLaunch s x).qrr = s.qrr := rfl
@[simp] theorem setLaunch_budgets (s : State) (x : Launch) : (setLaunch s x).budgets = s.budgets := rfl
@[simp] theorem setLaunch_period (s : State) (x : Launch) : (setLaunch s x).period = s.period := rfl
@[simp] theorem setLaunch_ures (s : State) (x : Launch) : (setLaunch s x).ures = s.ures := rfl
@[simp] theorem setLaunch_wsloads (s : State) (x : Launch) : (setLaunch s x).wsloads = s.wsloads := rfl
@[simp] theorem setLaunch_tlbinvs (s : State) (x : Launch) : (setLaunch s x).tlbinvs = s.tlbinvs := rfl
@[simp] theorem setLaunch_draws (s : State) (x : Launch) : (setLaunch s x).draws = s.draws := rfl
@[simp] theorem setLaunch_heads (s : State) (x : Launch) : (setLaunch s x).heads = s.heads := rfl
@[simp] theorem setLaunch_planes (s : State) (x : Launch) : (setLaunch s x).planes = s.planes := rfl
@[simp] theorem setLaunch_descs (s : State) (x : Launch) : (setLaunch s x).descs = s.descs := rfl
@[simp] theorem setLaunch_grants (s : State) (x : Launch) : (setLaunch s x).grants = s.grants := rfl
@[simp] theorem setLaunch_lf (s : State) (x : Launch) : (setLaunch s x).lf = s.lf := rfl
@[simp] theorem setLaunch_presents (s : State) (x : Launch) : (setLaunch s x).presents = s.presents := rfl
@[simp] theorem setLaunch_pacing (s : State) (x : Launch) : (setLaunch s x).pacing = s.pacing := rfl
@[simp] theorem setLaunch_suppressed (s : State) (x : Launch) : (setLaunch s x).suppressed = s.suppressed := rfl
@[simp] theorem setLaunch_discardSeen (s : State) (x : Launch) : (setLaunch s x).discardSeen = s.discardSeen := rfl
@[simp] theorem setLaunch_composing (s : State) (x : Launch) : (setLaunch s x).composing = s.composing := rfl
@[simp] theorem setLaunch_frames (s : State) (x : Launch) : (setLaunch s x).frames = s.frames := rfl
@[simp] theorem setLaunch_ats (s : State) (x : Launch) : (setLaunch s x).ats = s.ats := rfl
@[simp] theorem setLaunch_atsinvs (s : State) (x : Launch) : (setLaunch s x).atsinvs = s.atsinvs := rfl
@[simp] theorem setLaunch_ports (s : State) (x : Launch) : (setLaunch s x).ports = s.ports := rfl
@[simp] theorem setLaunch_host (s : State) (x : Launch) : (setLaunch s x).host = s.host := rfl
@[simp] theorem setLaunch_power (s : State) (x : Launch) : (setLaunch s x).power = s.power := rfl

/-! ### setQueue -/

@[simp] theorem setQueue_turns (s : State) (x : Queue) : (setQueue s x).turns = s.turns := rfl
@[simp] theorem setQueue_turnNo (s : State) (x : Queue) : (setQueue s x).turnNo = s.turnNo := rfl
@[simp] theorem setQueue_free (s : State) (x : Queue) : (setQueue s x).free = s.free := rfl
@[simp] theorem setQueue_issuer (s : State) (x : Queue) : (setQueue s x).issuer = s.issuer := rfl
@[simp] theorem setQueue_due (s : State) (x : Queue) : (setQueue s x).due = s.due := rfl
@[simp] theorem setQueue_moved (s : State) (x : Queue) : (setQueue s x).moved = s.moved := rfl
@[simp] theorem setQueue_time (s : State) (x : Queue) : (setQueue s x).time = s.time := rfl
@[simp] theorem setQueue_closing (s : State) (x : Queue) : (setQueue s x).closing = s.closing := rfl
@[simp] theorem setQueue_mem (s : State) (x : Queue) : (setQueue s x).mem = s.mem := rfl
@[simp] theorem setQueue_tags (s : State) (x : Queue) : (setQueue s x).tags = s.tags := rfl
@[simp] theorem setQueue_lineKeys (s : State) (x : Queue) : (setQueue s x).lineKeys = s.lineKeys := rfl
@[simp] theorem setQueue_poison (s : State) (x : Queue) : (setQueue s x).poison = s.poison := rfl
@[simp] theorem setQueue_dcache (s : State) (x : Queue) : (setQueue s x).dcache = s.dcache := rfl
@[simp] theorem setQueue_slices (s : State) (x : Queue) : (setQueue s x).slices = s.slices := rfl
@[simp] theorem setQueue_acquire (s : State) (x : Queue) : (setQueue s x).acquire = s.acquire := rfl
@[simp] theorem setQueue_tlb (s : State) (x : Queue) : (setQueue s x).tlb = s.tlb := rfl
@[simp] theorem setQueue_utlb (s : State) (x : Queue) : (setQueue s x).utlb = s.utlb := rfl
@[simp] theorem setQueue_walks (s : State) (x : Queue) : (setQueue s x).walks = s.walks := rfl
@[simp] theorem setQueue_walkCache (s : State) (x : Queue) : (setQueue s x).walkCache = s.walkCache := rfl
@[simp] theorem setQueue_pend (s : State) (x : Queue) : (setQueue s x).pend = s.pend := rfl
@[simp] theorem setQueue_nextId (s : State) (x : Queue) : (setQueue s x).nextId = s.nextId := rfl
@[simp] theorem setQueue_weight (s : State) (x : Queue) : (setQueue s x).weight = s.weight := rfl
@[simp] theorem setQueue_wregions (s : State) (x : Queue) : (setQueue s x).wregions = s.wregions := rfl
@[simp] theorem setQueue_scratch (s : State) (x : Queue) : (setQueue s x).scratch = s.scratch := rfl
@[simp] theorem setQueue_writers (s : State) (x : Queue) : (setQueue s x).writers = s.writers := rfl
@[simp] theorem setQueue_segments (s : State) (x : Queue) : (setQueue s x).segments = s.segments := rfl
@[simp] theorem setQueue_limbWorld (s : State) (x : Queue) : (setQueue s x).limbWorld = s.limbWorld := rfl
@[simp] theorem setQueue_groupWorld (s : State) (x : Queue) : (setQueue s x).groupWorld = s.groupWorld := rfl
@[simp] theorem setQueue_cleared (s : State) (x : Queue) : (setQueue s x).cleared = s.cleared := rfl
@[simp] theorem setQueue_used (s : State) (x : Queue) : (setQueue s x).used = s.used := rfl
@[simp] theorem setQueue_worlds (s : State) (x : Queue) : (setQueue s x).worlds = s.worlds := rfl
@[simp] theorem setQueue_lanes (s : State) (x : Queue) : (setQueue s x).lanes = s.lanes := rfl
@[simp] theorem setQueue_strands (s : State) (x : Queue) : (setQueue s x).strands = s.strands := rfl
@[simp] theorem setQueue_gens (s : State) (x : Queue) : (setQueue s x).gens = s.gens := rfl
@[simp] theorem setQueue_groves (s : State) (x : Queue) : (setQueue s x).groves = s.groves := rfl
@[simp] theorem setQueue_launches (s : State) (x : Queue) : (setQueue s x).launches = s.launches := rfl
@[simp] theorem setQueue_nextLaunch (s : State) (x : Queue) : (setQueue s x).nextLaunch = s.nextLaunch := rfl
@[simp] theorem setQueue_channels (s : State) (x : Queue) : (setQueue s x).channels = s.channels := rfl
@[simp] theorem setQueue_chains (s : State) (x : Queue) : (setQueue s x).chains = s.chains := rfl
@[simp] theorem setQueue_insts (s : State) (x : Queue) : (setQueue s x).insts = s.insts := rfl
@[simp] theorem setQueue_rr (s : State) (x : Queue) : (setQueue s x).rr = s.rr := rfl
@[simp] theorem setQueue_mx (s : State) (x : Queue) : (setQueue s x).mx = s.mx := rfl
@[simp] theorem setQueue_nreqs (s : State) (x : Queue) : (setQueue s x).nreqs = s.nreqs := rfl
@[simp] theorem setQueue_packets (s : State) (x : Queue) : (setQueue s x).packets = s.packets := rfl
@[simp] theorem setQueue_nodes (s : State) (x : Queue) : (setQueue s x).nodes = s.nodes := rfl
@[simp] theorem setQueue_graphs (s : State) (x : Queue) : (setQueue s x).graphs = s.graphs := rfl
@[simp] theorem setQueue_notify (s : State) (x : Queue) : (setQueue s x).notify = s.notify := rfl
@[simp] theorem setQueue_ntable (s : State) (x : Queue) : (setQueue s x).ntable = s.ntable := rfl
@[simp] theorem setQueue_qrr (s : State) (x : Queue) : (setQueue s x).qrr = s.qrr := rfl
@[simp] theorem setQueue_budgets (s : State) (x : Queue) : (setQueue s x).budgets = s.budgets := rfl
@[simp] theorem setQueue_period (s : State) (x : Queue) : (setQueue s x).period = s.period := rfl
@[simp] theorem setQueue_ures (s : State) (x : Queue) : (setQueue s x).ures = s.ures := rfl
@[simp] theorem setQueue_wsloads (s : State) (x : Queue) : (setQueue s x).wsloads = s.wsloads := rfl
@[simp] theorem setQueue_tlbinvs (s : State) (x : Queue) : (setQueue s x).tlbinvs = s.tlbinvs := rfl
@[simp] theorem setQueue_draws (s : State) (x : Queue) : (setQueue s x).draws = s.draws := rfl
@[simp] theorem setQueue_heads (s : State) (x : Queue) : (setQueue s x).heads = s.heads := rfl
@[simp] theorem setQueue_planes (s : State) (x : Queue) : (setQueue s x).planes = s.planes := rfl
@[simp] theorem setQueue_descs (s : State) (x : Queue) : (setQueue s x).descs = s.descs := rfl
@[simp] theorem setQueue_grants (s : State) (x : Queue) : (setQueue s x).grants = s.grants := rfl
@[simp] theorem setQueue_lf (s : State) (x : Queue) : (setQueue s x).lf = s.lf := rfl
@[simp] theorem setQueue_presents (s : State) (x : Queue) : (setQueue s x).presents = s.presents := rfl
@[simp] theorem setQueue_pacing (s : State) (x : Queue) : (setQueue s x).pacing = s.pacing := rfl
@[simp] theorem setQueue_suppressed (s : State) (x : Queue) : (setQueue s x).suppressed = s.suppressed := rfl
@[simp] theorem setQueue_discardSeen (s : State) (x : Queue) : (setQueue s x).discardSeen = s.discardSeen := rfl
@[simp] theorem setQueue_composing (s : State) (x : Queue) : (setQueue s x).composing = s.composing := rfl
@[simp] theorem setQueue_frames (s : State) (x : Queue) : (setQueue s x).frames = s.frames := rfl
@[simp] theorem setQueue_ats (s : State) (x : Queue) : (setQueue s x).ats = s.ats := rfl
@[simp] theorem setQueue_atsinvs (s : State) (x : Queue) : (setQueue s x).atsinvs = s.atsinvs := rfl
@[simp] theorem setQueue_ports (s : State) (x : Queue) : (setQueue s x).ports = s.ports := rfl
@[simp] theorem setQueue_host (s : State) (x : Queue) : (setQueue s x).host = s.host := rfl
@[simp] theorem setQueue_power (s : State) (x : Queue) : (setQueue s x).power = s.power := rfl

/-! ### setChannel -/

@[simp] theorem setChannel_turns (s : State) (x : Channel) : (setChannel s x).turns = s.turns := rfl
@[simp] theorem setChannel_turnNo (s : State) (x : Channel) : (setChannel s x).turnNo = s.turnNo := rfl
@[simp] theorem setChannel_free (s : State) (x : Channel) : (setChannel s x).free = s.free := rfl
@[simp] theorem setChannel_issuer (s : State) (x : Channel) : (setChannel s x).issuer = s.issuer := rfl
@[simp] theorem setChannel_due (s : State) (x : Channel) : (setChannel s x).due = s.due := rfl
@[simp] theorem setChannel_moved (s : State) (x : Channel) : (setChannel s x).moved = s.moved := rfl
@[simp] theorem setChannel_time (s : State) (x : Channel) : (setChannel s x).time = s.time := rfl
@[simp] theorem setChannel_closing (s : State) (x : Channel) : (setChannel s x).closing = s.closing := rfl
@[simp] theorem setChannel_mem (s : State) (x : Channel) : (setChannel s x).mem = s.mem := rfl
@[simp] theorem setChannel_tags (s : State) (x : Channel) : (setChannel s x).tags = s.tags := rfl
@[simp] theorem setChannel_lineKeys (s : State) (x : Channel) : (setChannel s x).lineKeys = s.lineKeys := rfl
@[simp] theorem setChannel_poison (s : State) (x : Channel) : (setChannel s x).poison = s.poison := rfl
@[simp] theorem setChannel_dcache (s : State) (x : Channel) : (setChannel s x).dcache = s.dcache := rfl
@[simp] theorem setChannel_slices (s : State) (x : Channel) : (setChannel s x).slices = s.slices := rfl
@[simp] theorem setChannel_acquire (s : State) (x : Channel) : (setChannel s x).acquire = s.acquire := rfl
@[simp] theorem setChannel_tlb (s : State) (x : Channel) : (setChannel s x).tlb = s.tlb := rfl
@[simp] theorem setChannel_utlb (s : State) (x : Channel) : (setChannel s x).utlb = s.utlb := rfl
@[simp] theorem setChannel_walks (s : State) (x : Channel) : (setChannel s x).walks = s.walks := rfl
@[simp] theorem setChannel_walkCache (s : State) (x : Channel) : (setChannel s x).walkCache = s.walkCache := rfl
@[simp] theorem setChannel_pend (s : State) (x : Channel) : (setChannel s x).pend = s.pend := rfl
@[simp] theorem setChannel_nextId (s : State) (x : Channel) : (setChannel s x).nextId = s.nextId := rfl
@[simp] theorem setChannel_weight (s : State) (x : Channel) : (setChannel s x).weight = s.weight := rfl
@[simp] theorem setChannel_wregions (s : State) (x : Channel) : (setChannel s x).wregions = s.wregions := rfl
@[simp] theorem setChannel_scratch (s : State) (x : Channel) : (setChannel s x).scratch = s.scratch := rfl
@[simp] theorem setChannel_writers (s : State) (x : Channel) : (setChannel s x).writers = s.writers := rfl
@[simp] theorem setChannel_segments (s : State) (x : Channel) : (setChannel s x).segments = s.segments := rfl
@[simp] theorem setChannel_limbWorld (s : State) (x : Channel) : (setChannel s x).limbWorld = s.limbWorld := rfl
@[simp] theorem setChannel_groupWorld (s : State) (x : Channel) : (setChannel s x).groupWorld = s.groupWorld := rfl
@[simp] theorem setChannel_cleared (s : State) (x : Channel) : (setChannel s x).cleared = s.cleared := rfl
@[simp] theorem setChannel_used (s : State) (x : Channel) : (setChannel s x).used = s.used := rfl
@[simp] theorem setChannel_worlds (s : State) (x : Channel) : (setChannel s x).worlds = s.worlds := rfl
@[simp] theorem setChannel_lanes (s : State) (x : Channel) : (setChannel s x).lanes = s.lanes := rfl
@[simp] theorem setChannel_strands (s : State) (x : Channel) : (setChannel s x).strands = s.strands := rfl
@[simp] theorem setChannel_gens (s : State) (x : Channel) : (setChannel s x).gens = s.gens := rfl
@[simp] theorem setChannel_groves (s : State) (x : Channel) : (setChannel s x).groves = s.groves := rfl
@[simp] theorem setChannel_launches (s : State) (x : Channel) : (setChannel s x).launches = s.launches := rfl
@[simp] theorem setChannel_nextLaunch (s : State) (x : Channel) : (setChannel s x).nextLaunch = s.nextLaunch := rfl
@[simp] theorem setChannel_chains (s : State) (x : Channel) : (setChannel s x).chains = s.chains := rfl
@[simp] theorem setChannel_insts (s : State) (x : Channel) : (setChannel s x).insts = s.insts := rfl
@[simp] theorem setChannel_rr (s : State) (x : Channel) : (setChannel s x).rr = s.rr := rfl
@[simp] theorem setChannel_mx (s : State) (x : Channel) : (setChannel s x).mx = s.mx := rfl
@[simp] theorem setChannel_nreqs (s : State) (x : Channel) : (setChannel s x).nreqs = s.nreqs := rfl
@[simp] theorem setChannel_queues (s : State) (x : Channel) : (setChannel s x).queues = s.queues := rfl
@[simp] theorem setChannel_packets (s : State) (x : Channel) : (setChannel s x).packets = s.packets := rfl
@[simp] theorem setChannel_nodes (s : State) (x : Channel) : (setChannel s x).nodes = s.nodes := rfl
@[simp] theorem setChannel_graphs (s : State) (x : Channel) : (setChannel s x).graphs = s.graphs := rfl
@[simp] theorem setChannel_notify (s : State) (x : Channel) : (setChannel s x).notify = s.notify := rfl
@[simp] theorem setChannel_ntable (s : State) (x : Channel) : (setChannel s x).ntable = s.ntable := rfl
@[simp] theorem setChannel_qrr (s : State) (x : Channel) : (setChannel s x).qrr = s.qrr := rfl
@[simp] theorem setChannel_budgets (s : State) (x : Channel) : (setChannel s x).budgets = s.budgets := rfl
@[simp] theorem setChannel_period (s : State) (x : Channel) : (setChannel s x).period = s.period := rfl
@[simp] theorem setChannel_ures (s : State) (x : Channel) : (setChannel s x).ures = s.ures := rfl
@[simp] theorem setChannel_wsloads (s : State) (x : Channel) : (setChannel s x).wsloads = s.wsloads := rfl
@[simp] theorem setChannel_tlbinvs (s : State) (x : Channel) : (setChannel s x).tlbinvs = s.tlbinvs := rfl
@[simp] theorem setChannel_draws (s : State) (x : Channel) : (setChannel s x).draws = s.draws := rfl
@[simp] theorem setChannel_heads (s : State) (x : Channel) : (setChannel s x).heads = s.heads := rfl
@[simp] theorem setChannel_planes (s : State) (x : Channel) : (setChannel s x).planes = s.planes := rfl
@[simp] theorem setChannel_descs (s : State) (x : Channel) : (setChannel s x).descs = s.descs := rfl
@[simp] theorem setChannel_grants (s : State) (x : Channel) : (setChannel s x).grants = s.grants := rfl
@[simp] theorem setChannel_lf (s : State) (x : Channel) : (setChannel s x).lf = s.lf := rfl
@[simp] theorem setChannel_presents (s : State) (x : Channel) : (setChannel s x).presents = s.presents := rfl
@[simp] theorem setChannel_pacing (s : State) (x : Channel) : (setChannel s x).pacing = s.pacing := rfl
@[simp] theorem setChannel_suppressed (s : State) (x : Channel) : (setChannel s x).suppressed = s.suppressed := rfl
@[simp] theorem setChannel_discardSeen (s : State) (x : Channel) : (setChannel s x).discardSeen = s.discardSeen := rfl
@[simp] theorem setChannel_composing (s : State) (x : Channel) : (setChannel s x).composing = s.composing := rfl
@[simp] theorem setChannel_frames (s : State) (x : Channel) : (setChannel s x).frames = s.frames := rfl
@[simp] theorem setChannel_ats (s : State) (x : Channel) : (setChannel s x).ats = s.ats := rfl
@[simp] theorem setChannel_atsinvs (s : State) (x : Channel) : (setChannel s x).atsinvs = s.atsinvs := rfl
@[simp] theorem setChannel_ports (s : State) (x : Channel) : (setChannel s x).ports = s.ports := rfl
@[simp] theorem setChannel_host (s : State) (x : Channel) : (setChannel s x).host = s.host := rfl
@[simp] theorem setChannel_power (s : State) (x : Channel) : (setChannel s x).power = s.power := rfl

/-! ### setChain -/

@[simp] theorem setChain_turns (s : State) (x : Chain) : (setChain s x).turns = s.turns := rfl
@[simp] theorem setChain_turnNo (s : State) (x : Chain) : (setChain s x).turnNo = s.turnNo := rfl
@[simp] theorem setChain_free (s : State) (x : Chain) : (setChain s x).free = s.free := rfl
@[simp] theorem setChain_issuer (s : State) (x : Chain) : (setChain s x).issuer = s.issuer := rfl
@[simp] theorem setChain_due (s : State) (x : Chain) : (setChain s x).due = s.due := rfl
@[simp] theorem setChain_moved (s : State) (x : Chain) : (setChain s x).moved = s.moved := rfl
@[simp] theorem setChain_time (s : State) (x : Chain) : (setChain s x).time = s.time := rfl
@[simp] theorem setChain_closing (s : State) (x : Chain) : (setChain s x).closing = s.closing := rfl
@[simp] theorem setChain_mem (s : State) (x : Chain) : (setChain s x).mem = s.mem := rfl
@[simp] theorem setChain_tags (s : State) (x : Chain) : (setChain s x).tags = s.tags := rfl
@[simp] theorem setChain_lineKeys (s : State) (x : Chain) : (setChain s x).lineKeys = s.lineKeys := rfl
@[simp] theorem setChain_poison (s : State) (x : Chain) : (setChain s x).poison = s.poison := rfl
@[simp] theorem setChain_dcache (s : State) (x : Chain) : (setChain s x).dcache = s.dcache := rfl
@[simp] theorem setChain_slices (s : State) (x : Chain) : (setChain s x).slices = s.slices := rfl
@[simp] theorem setChain_acquire (s : State) (x : Chain) : (setChain s x).acquire = s.acquire := rfl
@[simp] theorem setChain_tlb (s : State) (x : Chain) : (setChain s x).tlb = s.tlb := rfl
@[simp] theorem setChain_utlb (s : State) (x : Chain) : (setChain s x).utlb = s.utlb := rfl
@[simp] theorem setChain_walks (s : State) (x : Chain) : (setChain s x).walks = s.walks := rfl
@[simp] theorem setChain_walkCache (s : State) (x : Chain) : (setChain s x).walkCache = s.walkCache := rfl
@[simp] theorem setChain_pend (s : State) (x : Chain) : (setChain s x).pend = s.pend := rfl
@[simp] theorem setChain_nextId (s : State) (x : Chain) : (setChain s x).nextId = s.nextId := rfl
@[simp] theorem setChain_weight (s : State) (x : Chain) : (setChain s x).weight = s.weight := rfl
@[simp] theorem setChain_wregions (s : State) (x : Chain) : (setChain s x).wregions = s.wregions := rfl
@[simp] theorem setChain_scratch (s : State) (x : Chain) : (setChain s x).scratch = s.scratch := rfl
@[simp] theorem setChain_writers (s : State) (x : Chain) : (setChain s x).writers = s.writers := rfl
@[simp] theorem setChain_segments (s : State) (x : Chain) : (setChain s x).segments = s.segments := rfl
@[simp] theorem setChain_limbWorld (s : State) (x : Chain) : (setChain s x).limbWorld = s.limbWorld := rfl
@[simp] theorem setChain_groupWorld (s : State) (x : Chain) : (setChain s x).groupWorld = s.groupWorld := rfl
@[simp] theorem setChain_cleared (s : State) (x : Chain) : (setChain s x).cleared = s.cleared := rfl
@[simp] theorem setChain_used (s : State) (x : Chain) : (setChain s x).used = s.used := rfl
@[simp] theorem setChain_worlds (s : State) (x : Chain) : (setChain s x).worlds = s.worlds := rfl
@[simp] theorem setChain_lanes (s : State) (x : Chain) : (setChain s x).lanes = s.lanes := rfl
@[simp] theorem setChain_strands (s : State) (x : Chain) : (setChain s x).strands = s.strands := rfl
@[simp] theorem setChain_gens (s : State) (x : Chain) : (setChain s x).gens = s.gens := rfl
@[simp] theorem setChain_groves (s : State) (x : Chain) : (setChain s x).groves = s.groves := rfl
@[simp] theorem setChain_launches (s : State) (x : Chain) : (setChain s x).launches = s.launches := rfl
@[simp] theorem setChain_nextLaunch (s : State) (x : Chain) : (setChain s x).nextLaunch = s.nextLaunch := rfl
@[simp] theorem setChain_channels (s : State) (x : Chain) : (setChain s x).channels = s.channels := rfl
@[simp] theorem setChain_insts (s : State) (x : Chain) : (setChain s x).insts = s.insts := rfl
@[simp] theorem setChain_rr (s : State) (x : Chain) : (setChain s x).rr = s.rr := rfl
@[simp] theorem setChain_mx (s : State) (x : Chain) : (setChain s x).mx = s.mx := rfl
@[simp] theorem setChain_nreqs (s : State) (x : Chain) : (setChain s x).nreqs = s.nreqs := rfl
@[simp] theorem setChain_queues (s : State) (x : Chain) : (setChain s x).queues = s.queues := rfl
@[simp] theorem setChain_packets (s : State) (x : Chain) : (setChain s x).packets = s.packets := rfl
@[simp] theorem setChain_nodes (s : State) (x : Chain) : (setChain s x).nodes = s.nodes := rfl
@[simp] theorem setChain_graphs (s : State) (x : Chain) : (setChain s x).graphs = s.graphs := rfl
@[simp] theorem setChain_notify (s : State) (x : Chain) : (setChain s x).notify = s.notify := rfl
@[simp] theorem setChain_ntable (s : State) (x : Chain) : (setChain s x).ntable = s.ntable := rfl
@[simp] theorem setChain_qrr (s : State) (x : Chain) : (setChain s x).qrr = s.qrr := rfl
@[simp] theorem setChain_budgets (s : State) (x : Chain) : (setChain s x).budgets = s.budgets := rfl
@[simp] theorem setChain_period (s : State) (x : Chain) : (setChain s x).period = s.period := rfl
@[simp] theorem setChain_ures (s : State) (x : Chain) : (setChain s x).ures = s.ures := rfl
@[simp] theorem setChain_wsloads (s : State) (x : Chain) : (setChain s x).wsloads = s.wsloads := rfl
@[simp] theorem setChain_tlbinvs (s : State) (x : Chain) : (setChain s x).tlbinvs = s.tlbinvs := rfl
@[simp] theorem setChain_draws (s : State) (x : Chain) : (setChain s x).draws = s.draws := rfl
@[simp] theorem setChain_heads (s : State) (x : Chain) : (setChain s x).heads = s.heads := rfl
@[simp] theorem setChain_planes (s : State) (x : Chain) : (setChain s x).planes = s.planes := rfl
@[simp] theorem setChain_descs (s : State) (x : Chain) : (setChain s x).descs = s.descs := rfl
@[simp] theorem setChain_grants (s : State) (x : Chain) : (setChain s x).grants = s.grants := rfl
@[simp] theorem setChain_lf (s : State) (x : Chain) : (setChain s x).lf = s.lf := rfl
@[simp] theorem setChain_presents (s : State) (x : Chain) : (setChain s x).presents = s.presents := rfl
@[simp] theorem setChain_pacing (s : State) (x : Chain) : (setChain s x).pacing = s.pacing := rfl
@[simp] theorem setChain_suppressed (s : State) (x : Chain) : (setChain s x).suppressed = s.suppressed := rfl
@[simp] theorem setChain_discardSeen (s : State) (x : Chain) : (setChain s x).discardSeen = s.discardSeen := rfl
@[simp] theorem setChain_composing (s : State) (x : Chain) : (setChain s x).composing = s.composing := rfl
@[simp] theorem setChain_frames (s : State) (x : Chain) : (setChain s x).frames = s.frames := rfl
@[simp] theorem setChain_ats (s : State) (x : Chain) : (setChain s x).ats = s.ats := rfl
@[simp] theorem setChain_atsinvs (s : State) (x : Chain) : (setChain s x).atsinvs = s.atsinvs := rfl
@[simp] theorem setChain_ports (s : State) (x : Chain) : (setChain s x).ports = s.ports := rfl
@[simp] theorem setChain_host (s : State) (x : Chain) : (setChain s x).host = s.host := rfl
@[simp] theorem setChain_power (s : State) (x : Chain) : (setChain s x).power = s.power := rfl

/-! ### setSegment -/

@[simp] theorem setSegment_turns (s : State) (x : Segment) : (setSegment s x).turns = s.turns := rfl
@[simp] theorem setSegment_turnNo (s : State) (x : Segment) : (setSegment s x).turnNo = s.turnNo := rfl
@[simp] theorem setSegment_free (s : State) (x : Segment) : (setSegment s x).free = s.free := rfl
@[simp] theorem setSegment_issuer (s : State) (x : Segment) : (setSegment s x).issuer = s.issuer := rfl
@[simp] theorem setSegment_due (s : State) (x : Segment) : (setSegment s x).due = s.due := rfl
@[simp] theorem setSegment_moved (s : State) (x : Segment) : (setSegment s x).moved = s.moved := rfl
@[simp] theorem setSegment_time (s : State) (x : Segment) : (setSegment s x).time = s.time := rfl
@[simp] theorem setSegment_closing (s : State) (x : Segment) : (setSegment s x).closing = s.closing := rfl
@[simp] theorem setSegment_mem (s : State) (x : Segment) : (setSegment s x).mem = s.mem := rfl
@[simp] theorem setSegment_tags (s : State) (x : Segment) : (setSegment s x).tags = s.tags := rfl
@[simp] theorem setSegment_lineKeys (s : State) (x : Segment) : (setSegment s x).lineKeys = s.lineKeys := rfl
@[simp] theorem setSegment_poison (s : State) (x : Segment) : (setSegment s x).poison = s.poison := rfl
@[simp] theorem setSegment_dcache (s : State) (x : Segment) : (setSegment s x).dcache = s.dcache := rfl
@[simp] theorem setSegment_slices (s : State) (x : Segment) : (setSegment s x).slices = s.slices := rfl
@[simp] theorem setSegment_acquire (s : State) (x : Segment) : (setSegment s x).acquire = s.acquire := rfl
@[simp] theorem setSegment_tlb (s : State) (x : Segment) : (setSegment s x).tlb = s.tlb := rfl
@[simp] theorem setSegment_utlb (s : State) (x : Segment) : (setSegment s x).utlb = s.utlb := rfl
@[simp] theorem setSegment_walks (s : State) (x : Segment) : (setSegment s x).walks = s.walks := rfl
@[simp] theorem setSegment_walkCache (s : State) (x : Segment) : (setSegment s x).walkCache = s.walkCache := rfl
@[simp] theorem setSegment_pend (s : State) (x : Segment) : (setSegment s x).pend = s.pend := rfl
@[simp] theorem setSegment_nextId (s : State) (x : Segment) : (setSegment s x).nextId = s.nextId := rfl
@[simp] theorem setSegment_weight (s : State) (x : Segment) : (setSegment s x).weight = s.weight := rfl
@[simp] theorem setSegment_wregions (s : State) (x : Segment) : (setSegment s x).wregions = s.wregions := rfl
@[simp] theorem setSegment_scratch (s : State) (x : Segment) : (setSegment s x).scratch = s.scratch := rfl
@[simp] theorem setSegment_writers (s : State) (x : Segment) : (setSegment s x).writers = s.writers := rfl
@[simp] theorem setSegment_limbWorld (s : State) (x : Segment) : (setSegment s x).limbWorld = s.limbWorld := rfl
@[simp] theorem setSegment_groupWorld (s : State) (x : Segment) : (setSegment s x).groupWorld = s.groupWorld := rfl
@[simp] theorem setSegment_cleared (s : State) (x : Segment) : (setSegment s x).cleared = s.cleared := rfl
@[simp] theorem setSegment_used (s : State) (x : Segment) : (setSegment s x).used = s.used := rfl
@[simp] theorem setSegment_worlds (s : State) (x : Segment) : (setSegment s x).worlds = s.worlds := rfl
@[simp] theorem setSegment_lanes (s : State) (x : Segment) : (setSegment s x).lanes = s.lanes := rfl
@[simp] theorem setSegment_strands (s : State) (x : Segment) : (setSegment s x).strands = s.strands := rfl
@[simp] theorem setSegment_gens (s : State) (x : Segment) : (setSegment s x).gens = s.gens := rfl
@[simp] theorem setSegment_groves (s : State) (x : Segment) : (setSegment s x).groves = s.groves := rfl
@[simp] theorem setSegment_launches (s : State) (x : Segment) : (setSegment s x).launches = s.launches := rfl
@[simp] theorem setSegment_nextLaunch (s : State) (x : Segment) : (setSegment s x).nextLaunch = s.nextLaunch := rfl
@[simp] theorem setSegment_channels (s : State) (x : Segment) : (setSegment s x).channels = s.channels := rfl
@[simp] theorem setSegment_chains (s : State) (x : Segment) : (setSegment s x).chains = s.chains := rfl
@[simp] theorem setSegment_insts (s : State) (x : Segment) : (setSegment s x).insts = s.insts := rfl
@[simp] theorem setSegment_rr (s : State) (x : Segment) : (setSegment s x).rr = s.rr := rfl
@[simp] theorem setSegment_mx (s : State) (x : Segment) : (setSegment s x).mx = s.mx := rfl
@[simp] theorem setSegment_nreqs (s : State) (x : Segment) : (setSegment s x).nreqs = s.nreqs := rfl
@[simp] theorem setSegment_queues (s : State) (x : Segment) : (setSegment s x).queues = s.queues := rfl
@[simp] theorem setSegment_packets (s : State) (x : Segment) : (setSegment s x).packets = s.packets := rfl
@[simp] theorem setSegment_nodes (s : State) (x : Segment) : (setSegment s x).nodes = s.nodes := rfl
@[simp] theorem setSegment_graphs (s : State) (x : Segment) : (setSegment s x).graphs = s.graphs := rfl
@[simp] theorem setSegment_notify (s : State) (x : Segment) : (setSegment s x).notify = s.notify := rfl
@[simp] theorem setSegment_ntable (s : State) (x : Segment) : (setSegment s x).ntable = s.ntable := rfl
@[simp] theorem setSegment_qrr (s : State) (x : Segment) : (setSegment s x).qrr = s.qrr := rfl
@[simp] theorem setSegment_budgets (s : State) (x : Segment) : (setSegment s x).budgets = s.budgets := rfl
@[simp] theorem setSegment_period (s : State) (x : Segment) : (setSegment s x).period = s.period := rfl
@[simp] theorem setSegment_ures (s : State) (x : Segment) : (setSegment s x).ures = s.ures := rfl
@[simp] theorem setSegment_wsloads (s : State) (x : Segment) : (setSegment s x).wsloads = s.wsloads := rfl
@[simp] theorem setSegment_tlbinvs (s : State) (x : Segment) : (setSegment s x).tlbinvs = s.tlbinvs := rfl
@[simp] theorem setSegment_draws (s : State) (x : Segment) : (setSegment s x).draws = s.draws := rfl
@[simp] theorem setSegment_heads (s : State) (x : Segment) : (setSegment s x).heads = s.heads := rfl
@[simp] theorem setSegment_planes (s : State) (x : Segment) : (setSegment s x).planes = s.planes := rfl
@[simp] theorem setSegment_descs (s : State) (x : Segment) : (setSegment s x).descs = s.descs := rfl
@[simp] theorem setSegment_grants (s : State) (x : Segment) : (setSegment s x).grants = s.grants := rfl
@[simp] theorem setSegment_lf (s : State) (x : Segment) : (setSegment s x).lf = s.lf := rfl
@[simp] theorem setSegment_presents (s : State) (x : Segment) : (setSegment s x).presents = s.presents := rfl
@[simp] theorem setSegment_pacing (s : State) (x : Segment) : (setSegment s x).pacing = s.pacing := rfl
@[simp] theorem setSegment_suppressed (s : State) (x : Segment) : (setSegment s x).suppressed = s.suppressed := rfl
@[simp] theorem setSegment_discardSeen (s : State) (x : Segment) : (setSegment s x).discardSeen = s.discardSeen := rfl
@[simp] theorem setSegment_composing (s : State) (x : Segment) : (setSegment s x).composing = s.composing := rfl
@[simp] theorem setSegment_frames (s : State) (x : Segment) : (setSegment s x).frames = s.frames := rfl
@[simp] theorem setSegment_ats (s : State) (x : Segment) : (setSegment s x).ats = s.ats := rfl
@[simp] theorem setSegment_atsinvs (s : State) (x : Segment) : (setSegment s x).atsinvs = s.atsinvs := rfl
@[simp] theorem setSegment_ports (s : State) (x : Segment) : (setSegment s x).ports = s.ports := rfl
@[simp] theorem setSegment_host (s : State) (x : Segment) : (setSegment s x).host = s.host := rfl
@[simp] theorem setSegment_power (s : State) (x : Segment) : (setSegment s x).power = s.power := rfl

/-! ### setDraw -/

@[simp] theorem setDraw_turns (s : State) (x : Draw) : (setDraw s x).turns = s.turns := rfl
@[simp] theorem setDraw_turnNo (s : State) (x : Draw) : (setDraw s x).turnNo = s.turnNo := rfl
@[simp] theorem setDraw_free (s : State) (x : Draw) : (setDraw s x).free = s.free := rfl
@[simp] theorem setDraw_issuer (s : State) (x : Draw) : (setDraw s x).issuer = s.issuer := rfl
@[simp] theorem setDraw_due (s : State) (x : Draw) : (setDraw s x).due = s.due := rfl
@[simp] theorem setDraw_moved (s : State) (x : Draw) : (setDraw s x).moved = s.moved := rfl
@[simp] theorem setDraw_time (s : State) (x : Draw) : (setDraw s x).time = s.time := rfl
@[simp] theorem setDraw_closing (s : State) (x : Draw) : (setDraw s x).closing = s.closing := rfl
@[simp] theorem setDraw_mem (s : State) (x : Draw) : (setDraw s x).mem = s.mem := rfl
@[simp] theorem setDraw_tags (s : State) (x : Draw) : (setDraw s x).tags = s.tags := rfl
@[simp] theorem setDraw_lineKeys (s : State) (x : Draw) : (setDraw s x).lineKeys = s.lineKeys := rfl
@[simp] theorem setDraw_poison (s : State) (x : Draw) : (setDraw s x).poison = s.poison := rfl
@[simp] theorem setDraw_dcache (s : State) (x : Draw) : (setDraw s x).dcache = s.dcache := rfl
@[simp] theorem setDraw_slices (s : State) (x : Draw) : (setDraw s x).slices = s.slices := rfl
@[simp] theorem setDraw_acquire (s : State) (x : Draw) : (setDraw s x).acquire = s.acquire := rfl
@[simp] theorem setDraw_tlb (s : State) (x : Draw) : (setDraw s x).tlb = s.tlb := rfl
@[simp] theorem setDraw_utlb (s : State) (x : Draw) : (setDraw s x).utlb = s.utlb := rfl
@[simp] theorem setDraw_walks (s : State) (x : Draw) : (setDraw s x).walks = s.walks := rfl
@[simp] theorem setDraw_walkCache (s : State) (x : Draw) : (setDraw s x).walkCache = s.walkCache := rfl
@[simp] theorem setDraw_pend (s : State) (x : Draw) : (setDraw s x).pend = s.pend := rfl
@[simp] theorem setDraw_nextId (s : State) (x : Draw) : (setDraw s x).nextId = s.nextId := rfl
@[simp] theorem setDraw_weight (s : State) (x : Draw) : (setDraw s x).weight = s.weight := rfl
@[simp] theorem setDraw_wregions (s : State) (x : Draw) : (setDraw s x).wregions = s.wregions := rfl
@[simp] theorem setDraw_scratch (s : State) (x : Draw) : (setDraw s x).scratch = s.scratch := rfl
@[simp] theorem setDraw_writers (s : State) (x : Draw) : (setDraw s x).writers = s.writers := rfl
@[simp] theorem setDraw_segments (s : State) (x : Draw) : (setDraw s x).segments = s.segments := rfl
@[simp] theorem setDraw_limbWorld (s : State) (x : Draw) : (setDraw s x).limbWorld = s.limbWorld := rfl
@[simp] theorem setDraw_groupWorld (s : State) (x : Draw) : (setDraw s x).groupWorld = s.groupWorld := rfl
@[simp] theorem setDraw_cleared (s : State) (x : Draw) : (setDraw s x).cleared = s.cleared := rfl
@[simp] theorem setDraw_used (s : State) (x : Draw) : (setDraw s x).used = s.used := rfl
@[simp] theorem setDraw_worlds (s : State) (x : Draw) : (setDraw s x).worlds = s.worlds := rfl
@[simp] theorem setDraw_lanes (s : State) (x : Draw) : (setDraw s x).lanes = s.lanes := rfl
@[simp] theorem setDraw_strands (s : State) (x : Draw) : (setDraw s x).strands = s.strands := rfl
@[simp] theorem setDraw_gens (s : State) (x : Draw) : (setDraw s x).gens = s.gens := rfl
@[simp] theorem setDraw_groves (s : State) (x : Draw) : (setDraw s x).groves = s.groves := rfl
@[simp] theorem setDraw_launches (s : State) (x : Draw) : (setDraw s x).launches = s.launches := rfl
@[simp] theorem setDraw_nextLaunch (s : State) (x : Draw) : (setDraw s x).nextLaunch = s.nextLaunch := rfl
@[simp] theorem setDraw_channels (s : State) (x : Draw) : (setDraw s x).channels = s.channels := rfl
@[simp] theorem setDraw_chains (s : State) (x : Draw) : (setDraw s x).chains = s.chains := rfl
@[simp] theorem setDraw_insts (s : State) (x : Draw) : (setDraw s x).insts = s.insts := rfl
@[simp] theorem setDraw_rr (s : State) (x : Draw) : (setDraw s x).rr = s.rr := rfl
@[simp] theorem setDraw_mx (s : State) (x : Draw) : (setDraw s x).mx = s.mx := rfl
@[simp] theorem setDraw_nreqs (s : State) (x : Draw) : (setDraw s x).nreqs = s.nreqs := rfl
@[simp] theorem setDraw_queues (s : State) (x : Draw) : (setDraw s x).queues = s.queues := rfl
@[simp] theorem setDraw_packets (s : State) (x : Draw) : (setDraw s x).packets = s.packets := rfl
@[simp] theorem setDraw_nodes (s : State) (x : Draw) : (setDraw s x).nodes = s.nodes := rfl
@[simp] theorem setDraw_graphs (s : State) (x : Draw) : (setDraw s x).graphs = s.graphs := rfl
@[simp] theorem setDraw_notify (s : State) (x : Draw) : (setDraw s x).notify = s.notify := rfl
@[simp] theorem setDraw_ntable (s : State) (x : Draw) : (setDraw s x).ntable = s.ntable := rfl
@[simp] theorem setDraw_qrr (s : State) (x : Draw) : (setDraw s x).qrr = s.qrr := rfl
@[simp] theorem setDraw_budgets (s : State) (x : Draw) : (setDraw s x).budgets = s.budgets := rfl
@[simp] theorem setDraw_period (s : State) (x : Draw) : (setDraw s x).period = s.period := rfl
@[simp] theorem setDraw_ures (s : State) (x : Draw) : (setDraw s x).ures = s.ures := rfl
@[simp] theorem setDraw_wsloads (s : State) (x : Draw) : (setDraw s x).wsloads = s.wsloads := rfl
@[simp] theorem setDraw_tlbinvs (s : State) (x : Draw) : (setDraw s x).tlbinvs = s.tlbinvs := rfl
@[simp] theorem setDraw_heads (s : State) (x : Draw) : (setDraw s x).heads = s.heads := rfl
@[simp] theorem setDraw_planes (s : State) (x : Draw) : (setDraw s x).planes = s.planes := rfl
@[simp] theorem setDraw_descs (s : State) (x : Draw) : (setDraw s x).descs = s.descs := rfl
@[simp] theorem setDraw_grants (s : State) (x : Draw) : (setDraw s x).grants = s.grants := rfl
@[simp] theorem setDraw_lf (s : State) (x : Draw) : (setDraw s x).lf = s.lf := rfl
@[simp] theorem setDraw_presents (s : State) (x : Draw) : (setDraw s x).presents = s.presents := rfl
@[simp] theorem setDraw_pacing (s : State) (x : Draw) : (setDraw s x).pacing = s.pacing := rfl
@[simp] theorem setDraw_suppressed (s : State) (x : Draw) : (setDraw s x).suppressed = s.suppressed := rfl
@[simp] theorem setDraw_discardSeen (s : State) (x : Draw) : (setDraw s x).discardSeen = s.discardSeen := rfl
@[simp] theorem setDraw_composing (s : State) (x : Draw) : (setDraw s x).composing = s.composing := rfl
@[simp] theorem setDraw_frames (s : State) (x : Draw) : (setDraw s x).frames = s.frames := rfl
@[simp] theorem setDraw_ats (s : State) (x : Draw) : (setDraw s x).ats = s.ats := rfl
@[simp] theorem setDraw_atsinvs (s : State) (x : Draw) : (setDraw s x).atsinvs = s.atsinvs := rfl
@[simp] theorem setDraw_ports (s : State) (x : Draw) : (setDraw s x).ports = s.ports := rfl
@[simp] theorem setDraw_host (s : State) (x : Draw) : (setDraw s x).host = s.host := rfl
@[simp] theorem setDraw_power (s : State) (x : Draw) : (setDraw s x).power = s.power := rfl

/-! ### setScratch -/

@[simp] theorem setScratch_turns (s : State) (c : Nat) (m : Mem) : (setScratch s c m).turns = s.turns := rfl
@[simp] theorem setScratch_turnNo (s : State) (c : Nat) (m : Mem) : (setScratch s c m).turnNo = s.turnNo := rfl
@[simp] theorem setScratch_free (s : State) (c : Nat) (m : Mem) : (setScratch s c m).free = s.free := rfl
@[simp] theorem setScratch_issuer (s : State) (c : Nat) (m : Mem) : (setScratch s c m).issuer = s.issuer := rfl
@[simp] theorem setScratch_due (s : State) (c : Nat) (m : Mem) : (setScratch s c m).due = s.due := rfl
@[simp] theorem setScratch_moved (s : State) (c : Nat) (m : Mem) : (setScratch s c m).moved = s.moved := rfl
@[simp] theorem setScratch_time (s : State) (c : Nat) (m : Mem) : (setScratch s c m).time = s.time := rfl
@[simp] theorem setScratch_closing (s : State) (c : Nat) (m : Mem) : (setScratch s c m).closing = s.closing := rfl
@[simp] theorem setScratch_mem (s : State) (c : Nat) (m : Mem) : (setScratch s c m).mem = s.mem := rfl
@[simp] theorem setScratch_tags (s : State) (c : Nat) (m : Mem) : (setScratch s c m).tags = s.tags := rfl
@[simp] theorem setScratch_lineKeys (s : State) (c : Nat) (m : Mem) : (setScratch s c m).lineKeys = s.lineKeys := rfl
@[simp] theorem setScratch_poison (s : State) (c : Nat) (m : Mem) : (setScratch s c m).poison = s.poison := rfl
@[simp] theorem setScratch_dcache (s : State) (c : Nat) (m : Mem) : (setScratch s c m).dcache = s.dcache := rfl
@[simp] theorem setScratch_slices (s : State) (c : Nat) (m : Mem) : (setScratch s c m).slices = s.slices := rfl
@[simp] theorem setScratch_acquire (s : State) (c : Nat) (m : Mem) : (setScratch s c m).acquire = s.acquire := rfl
@[simp] theorem setScratch_tlb (s : State) (c : Nat) (m : Mem) : (setScratch s c m).tlb = s.tlb := rfl
@[simp] theorem setScratch_utlb (s : State) (c : Nat) (m : Mem) : (setScratch s c m).utlb = s.utlb := rfl
@[simp] theorem setScratch_walks (s : State) (c : Nat) (m : Mem) : (setScratch s c m).walks = s.walks := rfl
@[simp] theorem setScratch_walkCache (s : State) (c : Nat) (m : Mem) : (setScratch s c m).walkCache = s.walkCache := rfl
@[simp] theorem setScratch_pend (s : State) (c : Nat) (m : Mem) : (setScratch s c m).pend = s.pend := rfl
@[simp] theorem setScratch_nextId (s : State) (c : Nat) (m : Mem) : (setScratch s c m).nextId = s.nextId := rfl
@[simp] theorem setScratch_weight (s : State) (c : Nat) (m : Mem) : (setScratch s c m).weight = s.weight := rfl
@[simp] theorem setScratch_wregions (s : State) (c : Nat) (m : Mem) : (setScratch s c m).wregions = s.wregions := rfl
@[simp] theorem setScratch_writers (s : State) (c : Nat) (m : Mem) : (setScratch s c m).writers = s.writers := rfl
@[simp] theorem setScratch_segments (s : State) (c : Nat) (m : Mem) : (setScratch s c m).segments = s.segments := rfl
@[simp] theorem setScratch_limbWorld (s : State) (c : Nat) (m : Mem) : (setScratch s c m).limbWorld = s.limbWorld := rfl
@[simp] theorem setScratch_groupWorld (s : State) (c : Nat) (m : Mem) : (setScratch s c m).groupWorld = s.groupWorld := rfl
@[simp] theorem setScratch_cleared (s : State) (c : Nat) (m : Mem) : (setScratch s c m).cleared = s.cleared := rfl
@[simp] theorem setScratch_used (s : State) (c : Nat) (m : Mem) : (setScratch s c m).used = s.used := rfl
@[simp] theorem setScratch_worlds (s : State) (c : Nat) (m : Mem) : (setScratch s c m).worlds = s.worlds := rfl
@[simp] theorem setScratch_lanes (s : State) (c : Nat) (m : Mem) : (setScratch s c m).lanes = s.lanes := rfl
@[simp] theorem setScratch_strands (s : State) (c : Nat) (m : Mem) : (setScratch s c m).strands = s.strands := rfl
@[simp] theorem setScratch_gens (s : State) (c : Nat) (m : Mem) : (setScratch s c m).gens = s.gens := rfl
@[simp] theorem setScratch_groves (s : State) (c : Nat) (m : Mem) : (setScratch s c m).groves = s.groves := rfl
@[simp] theorem setScratch_launches (s : State) (c : Nat) (m : Mem) : (setScratch s c m).launches = s.launches := rfl
@[simp] theorem setScratch_nextLaunch (s : State) (c : Nat) (m : Mem) : (setScratch s c m).nextLaunch = s.nextLaunch := rfl
@[simp] theorem setScratch_channels (s : State) (c : Nat) (m : Mem) : (setScratch s c m).channels = s.channels := rfl
@[simp] theorem setScratch_chains (s : State) (c : Nat) (m : Mem) : (setScratch s c m).chains = s.chains := rfl
@[simp] theorem setScratch_insts (s : State) (c : Nat) (m : Mem) : (setScratch s c m).insts = s.insts := rfl
@[simp] theorem setScratch_rr (s : State) (c : Nat) (m : Mem) : (setScratch s c m).rr = s.rr := rfl
@[simp] theorem setScratch_mx (s : State) (c : Nat) (m : Mem) : (setScratch s c m).mx = s.mx := rfl
@[simp] theorem setScratch_nreqs (s : State) (c : Nat) (m : Mem) : (setScratch s c m).nreqs = s.nreqs := rfl
@[simp] theorem setScratch_queues (s : State) (c : Nat) (m : Mem) : (setScratch s c m).queues = s.queues := rfl
@[simp] theorem setScratch_packets (s : State) (c : Nat) (m : Mem) : (setScratch s c m).packets = s.packets := rfl
@[simp] theorem setScratch_nodes (s : State) (c : Nat) (m : Mem) : (setScratch s c m).nodes = s.nodes := rfl
@[simp] theorem setScratch_graphs (s : State) (c : Nat) (m : Mem) : (setScratch s c m).graphs = s.graphs := rfl
@[simp] theorem setScratch_notify (s : State) (c : Nat) (m : Mem) : (setScratch s c m).notify = s.notify := rfl
@[simp] theorem setScratch_ntable (s : State) (c : Nat) (m : Mem) : (setScratch s c m).ntable = s.ntable := rfl
@[simp] theorem setScratch_qrr (s : State) (c : Nat) (m : Mem) : (setScratch s c m).qrr = s.qrr := rfl
@[simp] theorem setScratch_budgets (s : State) (c : Nat) (m : Mem) : (setScratch s c m).budgets = s.budgets := rfl
@[simp] theorem setScratch_period (s : State) (c : Nat) (m : Mem) : (setScratch s c m).period = s.period := rfl
@[simp] theorem setScratch_ures (s : State) (c : Nat) (m : Mem) : (setScratch s c m).ures = s.ures := rfl
@[simp] theorem setScratch_wsloads (s : State) (c : Nat) (m : Mem) : (setScratch s c m).wsloads = s.wsloads := rfl
@[simp] theorem setScratch_tlbinvs (s : State) (c : Nat) (m : Mem) : (setScratch s c m).tlbinvs = s.tlbinvs := rfl
@[simp] theorem setScratch_draws (s : State) (c : Nat) (m : Mem) : (setScratch s c m).draws = s.draws := rfl
@[simp] theorem setScratch_heads (s : State) (c : Nat) (m : Mem) : (setScratch s c m).heads = s.heads := rfl
@[simp] theorem setScratch_planes (s : State) (c : Nat) (m : Mem) : (setScratch s c m).planes = s.planes := rfl
@[simp] theorem setScratch_descs (s : State) (c : Nat) (m : Mem) : (setScratch s c m).descs = s.descs := rfl
@[simp] theorem setScratch_grants (s : State) (c : Nat) (m : Mem) : (setScratch s c m).grants = s.grants := rfl
@[simp] theorem setScratch_lf (s : State) (c : Nat) (m : Mem) : (setScratch s c m).lf = s.lf := rfl
@[simp] theorem setScratch_presents (s : State) (c : Nat) (m : Mem) : (setScratch s c m).presents = s.presents := rfl
@[simp] theorem setScratch_pacing (s : State) (c : Nat) (m : Mem) : (setScratch s c m).pacing = s.pacing := rfl
@[simp] theorem setScratch_suppressed (s : State) (c : Nat) (m : Mem) : (setScratch s c m).suppressed = s.suppressed := rfl
@[simp] theorem setScratch_discardSeen (s : State) (c : Nat) (m : Mem) : (setScratch s c m).discardSeen = s.discardSeen := rfl
@[simp] theorem setScratch_composing (s : State) (c : Nat) (m : Mem) : (setScratch s c m).composing = s.composing := rfl
@[simp] theorem setScratch_frames (s : State) (c : Nat) (m : Mem) : (setScratch s c m).frames = s.frames := rfl
@[simp] theorem setScratch_ats (s : State) (c : Nat) (m : Mem) : (setScratch s c m).ats = s.ats := rfl
@[simp] theorem setScratch_atsinvs (s : State) (c : Nat) (m : Mem) : (setScratch s c m).atsinvs = s.atsinvs := rfl
@[simp] theorem setScratch_ports (s : State) (c : Nat) (m : Mem) : (setScratch s c m).ports = s.ports := rfl
@[simp] theorem setScratch_host (s : State) (c : Nat) (m : Mem) : (setScratch s c m).host = s.host := rfl
@[simp] theorem setScratch_power (s : State) (c : Nat) (m : Mem) : (setScratch s c m).power = s.power := rfl

/-! ### oweRecord -/

@[simp] theorem oweRecord_turns (s : State) (w : Nat) (r : List DWord) : (oweRecord s w r).turns = s.turns := rfl
@[simp] theorem oweRecord_turnNo (s : State) (w : Nat) (r : List DWord) : (oweRecord s w r).turnNo = s.turnNo := rfl
@[simp] theorem oweRecord_free (s : State) (w : Nat) (r : List DWord) : (oweRecord s w r).free = s.free := rfl
@[simp] theorem oweRecord_issuer (s : State) (w : Nat) (r : List DWord) : (oweRecord s w r).issuer = s.issuer := rfl
@[simp] theorem oweRecord_moved (s : State) (w : Nat) (r : List DWord) : (oweRecord s w r).moved = s.moved := rfl
@[simp] theorem oweRecord_time (s : State) (w : Nat) (r : List DWord) : (oweRecord s w r).time = s.time := rfl
@[simp] theorem oweRecord_closing (s : State) (w : Nat) (r : List DWord) : (oweRecord s w r).closing = s.closing := rfl
@[simp] theorem oweRecord_mem (s : State) (w : Nat) (r : List DWord) : (oweRecord s w r).mem = s.mem := rfl
@[simp] theorem oweRecord_tags (s : State) (w : Nat) (r : List DWord) : (oweRecord s w r).tags = s.tags := rfl
@[simp] theorem oweRecord_lineKeys (s : State) (w : Nat) (r : List DWord) : (oweRecord s w r).lineKeys = s.lineKeys := rfl
@[simp] theorem oweRecord_poison (s : State) (w : Nat) (r : List DWord) : (oweRecord s w r).poison = s.poison := rfl
@[simp] theorem oweRecord_dcache (s : State) (w : Nat) (r : List DWord) : (oweRecord s w r).dcache = s.dcache := rfl
@[simp] theorem oweRecord_slices (s : State) (w : Nat) (r : List DWord) : (oweRecord s w r).slices = s.slices := rfl
@[simp] theorem oweRecord_acquire (s : State) (w : Nat) (r : List DWord) : (oweRecord s w r).acquire = s.acquire := rfl
@[simp] theorem oweRecord_tlb (s : State) (w : Nat) (r : List DWord) : (oweRecord s w r).tlb = s.tlb := rfl
@[simp] theorem oweRecord_utlb (s : State) (w : Nat) (r : List DWord) : (oweRecord s w r).utlb = s.utlb := rfl
@[simp] theorem oweRecord_walks (s : State) (w : Nat) (r : List DWord) : (oweRecord s w r).walks = s.walks := rfl
@[simp] theorem oweRecord_walkCache (s : State) (w : Nat) (r : List DWord) : (oweRecord s w r).walkCache = s.walkCache := rfl
@[simp] theorem oweRecord_pend (s : State) (w : Nat) (r : List DWord) : (oweRecord s w r).pend = s.pend := rfl
@[simp] theorem oweRecord_nextId (s : State) (w : Nat) (r : List DWord) : (oweRecord s w r).nextId = s.nextId := rfl
@[simp] theorem oweRecord_weight (s : State) (w : Nat) (r : List DWord) : (oweRecord s w r).weight = s.weight := rfl
@[simp] theorem oweRecord_wregions (s : State) (w : Nat) (r : List DWord) : (oweRecord s w r).wregions = s.wregions := rfl
@[simp] theorem oweRecord_scratch (s : State) (w : Nat) (r : List DWord) : (oweRecord s w r).scratch = s.scratch := rfl
@[simp] theorem oweRecord_writers (s : State) (w : Nat) (r : List DWord) : (oweRecord s w r).writers = s.writers := rfl
@[simp] theorem oweRecord_segments (s : State) (w : Nat) (r : List DWord) : (oweRecord s w r).segments = s.segments := rfl
@[simp] theorem oweRecord_limbWorld (s : State) (w : Nat) (r : List DWord) : (oweRecord s w r).limbWorld = s.limbWorld := rfl
@[simp] theorem oweRecord_groupWorld (s : State) (w : Nat) (r : List DWord) : (oweRecord s w r).groupWorld = s.groupWorld := rfl
@[simp] theorem oweRecord_cleared (s : State) (w : Nat) (r : List DWord) : (oweRecord s w r).cleared = s.cleared := rfl
@[simp] theorem oweRecord_used (s : State) (w : Nat) (r : List DWord) : (oweRecord s w r).used = s.used := rfl
@[simp] theorem oweRecord_worlds (s : State) (w : Nat) (r : List DWord) : (oweRecord s w r).worlds = s.worlds := rfl
@[simp] theorem oweRecord_lanes (s : State) (w : Nat) (r : List DWord) : (oweRecord s w r).lanes = s.lanes := rfl
@[simp] theorem oweRecord_strands (s : State) (w : Nat) (r : List DWord) : (oweRecord s w r).strands = s.strands := rfl
@[simp] theorem oweRecord_gens (s : State) (w : Nat) (r : List DWord) : (oweRecord s w r).gens = s.gens := rfl
@[simp] theorem oweRecord_groves (s : State) (w : Nat) (r : List DWord) : (oweRecord s w r).groves = s.groves := rfl
@[simp] theorem oweRecord_launches (s : State) (w : Nat) (r : List DWord) : (oweRecord s w r).launches = s.launches := rfl
@[simp] theorem oweRecord_nextLaunch (s : State) (w : Nat) (r : List DWord) : (oweRecord s w r).nextLaunch = s.nextLaunch := rfl
@[simp] theorem oweRecord_channels (s : State) (w : Nat) (r : List DWord) : (oweRecord s w r).channels = s.channels := rfl
@[simp] theorem oweRecord_chains (s : State) (w : Nat) (r : List DWord) : (oweRecord s w r).chains = s.chains := rfl
@[simp] theorem oweRecord_insts (s : State) (w : Nat) (r : List DWord) : (oweRecord s w r).insts = s.insts := rfl
@[simp] theorem oweRecord_rr (s : State) (w : Nat) (r : List DWord) : (oweRecord s w r).rr = s.rr := rfl
@[simp] theorem oweRecord_mx (s : State) (w : Nat) (r : List DWord) : (oweRecord s w r).mx = s.mx := rfl
@[simp] theorem oweRecord_nreqs (s : State) (w : Nat) (r : List DWord) : (oweRecord s w r).nreqs = s.nreqs := rfl
@[simp] theorem oweRecord_queues (s : State) (w : Nat) (r : List DWord) : (oweRecord s w r).queues = s.queues := rfl
@[simp] theorem oweRecord_packets (s : State) (w : Nat) (r : List DWord) : (oweRecord s w r).packets = s.packets := rfl
@[simp] theorem oweRecord_nodes (s : State) (w : Nat) (r : List DWord) : (oweRecord s w r).nodes = s.nodes := rfl
@[simp] theorem oweRecord_graphs (s : State) (w : Nat) (r : List DWord) : (oweRecord s w r).graphs = s.graphs := rfl
@[simp] theorem oweRecord_notify (s : State) (w : Nat) (r : List DWord) : (oweRecord s w r).notify = s.notify := rfl
@[simp] theorem oweRecord_ntable (s : State) (w : Nat) (r : List DWord) : (oweRecord s w r).ntable = s.ntable := rfl
@[simp] theorem oweRecord_qrr (s : State) (w : Nat) (r : List DWord) : (oweRecord s w r).qrr = s.qrr := rfl
@[simp] theorem oweRecord_budgets (s : State) (w : Nat) (r : List DWord) : (oweRecord s w r).budgets = s.budgets := rfl
@[simp] theorem oweRecord_period (s : State) (w : Nat) (r : List DWord) : (oweRecord s w r).period = s.period := rfl
@[simp] theorem oweRecord_ures (s : State) (w : Nat) (r : List DWord) : (oweRecord s w r).ures = s.ures := rfl
@[simp] theorem oweRecord_wsloads (s : State) (w : Nat) (r : List DWord) : (oweRecord s w r).wsloads = s.wsloads := rfl
@[simp] theorem oweRecord_tlbinvs (s : State) (w : Nat) (r : List DWord) : (oweRecord s w r).tlbinvs = s.tlbinvs := rfl
@[simp] theorem oweRecord_draws (s : State) (w : Nat) (r : List DWord) : (oweRecord s w r).draws = s.draws := rfl
@[simp] theorem oweRecord_heads (s : State) (w : Nat) (r : List DWord) : (oweRecord s w r).heads = s.heads := rfl
@[simp] theorem oweRecord_planes (s : State) (w : Nat) (r : List DWord) : (oweRecord s w r).planes = s.planes := rfl
@[simp] theorem oweRecord_descs (s : State) (w : Nat) (r : List DWord) : (oweRecord s w r).descs = s.descs := rfl
@[simp] theorem oweRecord_grants (s : State) (w : Nat) (r : List DWord) : (oweRecord s w r).grants = s.grants := rfl
@[simp] theorem oweRecord_lf (s : State) (w : Nat) (r : List DWord) : (oweRecord s w r).lf = s.lf := rfl
@[simp] theorem oweRecord_presents (s : State) (w : Nat) (r : List DWord) : (oweRecord s w r).presents = s.presents := rfl
@[simp] theorem oweRecord_pacing (s : State) (w : Nat) (r : List DWord) : (oweRecord s w r).pacing = s.pacing := rfl
@[simp] theorem oweRecord_suppressed (s : State) (w : Nat) (r : List DWord) : (oweRecord s w r).suppressed = s.suppressed := rfl
@[simp] theorem oweRecord_discardSeen (s : State) (w : Nat) (r : List DWord) : (oweRecord s w r).discardSeen = s.discardSeen := rfl
@[simp] theorem oweRecord_composing (s : State) (w : Nat) (r : List DWord) : (oweRecord s w r).composing = s.composing := rfl
@[simp] theorem oweRecord_frames (s : State) (w : Nat) (r : List DWord) : (oweRecord s w r).frames = s.frames := rfl
@[simp] theorem oweRecord_ats (s : State) (w : Nat) (r : List DWord) : (oweRecord s w r).ats = s.ats := rfl
@[simp] theorem oweRecord_atsinvs (s : State) (w : Nat) (r : List DWord) : (oweRecord s w r).atsinvs = s.atsinvs := rfl
@[simp] theorem oweRecord_ports (s : State) (w : Nat) (r : List DWord) : (oweRecord s w r).ports = s.ports := rfl
@[simp] theorem oweRecord_host (s : State) (w : Nat) (r : List DWord) : (oweRecord s w r).host = s.host := rfl
@[simp] theorem oweRecord_power (s : State) (w : Nat) (r : List DWord) : (oweRecord s w r).power = s.power := rfl

/-! ### The field that each changes -/

theorem setStrand_get (s : State) (x : Strand) (h : Nat) :
    getStrand (setStrand s x) h = (getStrand s h).map fun y => if y.home = x.home then x else y := by
  have e : ((fun y : Strand => y.home == h) ∘ fun y => if y.home = x.home then x else y) = fun y => y.home == h := by
    funext y
    by_cases c : y.home = x.home <;> simp [c]
  simp only [getStrand, setStrand, List.find?_map, e]

theorem setWorld_get_other (s : State) (x : World) (w : Nat) (h : w ≠ x.no) : getWorld (setWorld s x) w = getWorld s w := by
  have e : ((fun y : World => y.no == w) ∘ fun y => if y.no = x.no then x else y) = fun y => y.no == w := by
    funext y
    by_cases c : y.no = x.no <;> simp [c]
  simp only [getWorld, setWorld, List.find?_map, e]
  cases k : s.worlds.find? (fun y => y.no == w) with
  | none => rfl
  | some y =>
    have n : y.no = w := by simpa using List.find?_some k
    have c : ¬ y.no = x.no := fun a => h (n ▸ a)
    simp [c]

@[simp] theorem oweRecord_due (s : State) (w : Nat) (r : List DWord) : (oweRecord s w r).due = s.due ++ [(w, r)] := rfl

end Sys2Proof.Machine
end

