-- ==== Sys2Proof/Tests/Slice0.lean ====
section
/-! SUPPORT. The model's own tests: terms that are not well-formed, words written out from the encoding tables, steps on
small states, and states that meet the hypotheses of the obligations. -/

namespace Sys2Proof.Tests

set_option maxRecDepth 4096
set_option Elab.async false

open Sys2Proof Sys2Proof.Machine

def h0 : Hd := ⟨false, .always⟩

/-! ### Well-formedness: each check refuses an ill-formed term -/

/-- R172, R174 to R180: types, `.sat`, pairs and the I form. -/
theorem test_wf_integer :
    (Instr.add h0 .b64 true (.v 2) (.v 4) (.reg (.v 6))).wf = false ∧
    (Instr.add h0 .b64 false (.v 1) (.v 4) (.reg (.v 6))).wf = false ∧
    (Instr.sub h0 .b64 false (.v 2) .sap (.reg (.v 6))).wf = false ∧
    (Instr.mul h0 .b64 false (.v 2) (.v 4) (.reg (.v 7))).wf = false ∧
    (Instr.mulhi h0 .b64 (.v 2) (.v 4) (.reg (.v 6))).wf = false ∧
    (Instr.mad h0 .b64 false (.v 2) (.v 4) (.v 6) (.v 9)).wf = false ∧
    (Instr.div h0 .u32 true (.v 2) (.v 4) (.reg (.v 6))).wf = false ∧
    (Instr.neg h0 .u32 false (.v 2) (.v 4)).wf = false ∧
    (Instr.not h0 .b64 (.v 2) (.v 5)).wf = false ∧
    (Instr.shl h0 .b64 true (.v 2) (.v 4) (.reg (.v 6))).wf = false ∧
    (Instr.shr h0 .i32 (.v 2) (.v 4) (.reg (.v 6))).wf = false ∧
    (Instr.sar h0 .u32 (.v 2) (.v 4) (.reg (.v 6))).wf = false ∧
    (Instr.bfx h0 .b64 (.v 3) (.v 4) (.imm 0)).wf = false ∧
    (Instr.bfi h0 .i32 (.v 2) (.v 4) (.v 6) (.v 8)).wf = false ∧
    (Instr.clz h0 .i32 (.v 2) (.v 4)).wf = false ∧
    (Instr.brev h0 .b64 (.v 3) (.v 4)).wf = false ∧
    (Instr.ilv h0 .i32 (.v 2) (.v 4) (.v 5) (.v 6)).wf = false ∧
    (Instr.dilv h0 .b64 (.v 2) (.v 5) (.imm 0)).wf = false ∧
    (Instr.lea h0 .b64 (.v 2) (.v 4) (.v 5) (.v 6)).wf = false ∧
    (Instr.lea h0 .u32 (.v 3) (.v 4) (.v 5) (.v 6)).wf = false ∧
    (Instr.mov h0 .b64 (.v 3) (.imm 0)).wf = false ∧
    (Instr.movi h0 .b64 (.v 3) 0).wf = false ∧
    (Instr.mulw h0 .u32 (.v 3) (.v 4) (.reg (.v 6))).wf = false := by decide

/-- R181 to R189: predicates, selection, votes, scans and the frame of a call. -/
theorem test_wf_predicate_and_control :
    (Instr.cmp h0 .b64 .eq 0 (.v 3) (.reg (.v 4))).wf = false ∧
    (Instr.sel h0 true (.v 2) (.v 3) (.v 4) 0).wf = false ∧
    (Instr.voteBallot h0 (.v 1) 0).wf = false ∧
    (Instr.scan h0 .b64 false .add (.v 2) (.reg (.v 4))).wf = false ∧
    (Instr.scan h0 .u32 true .min (.v 2) (.reg (.v 4))).wf = false ∧
    (Instr.scan h0 .u32 false .add (.s 2) (.reg (.v 4))).wf = false ∧
    (Instr.call h0 0 5).wf = false ∧ (Instr.call h0 97 5).wf = false := by decide

/-- R201 to R210: packed comparisons, conversion groups and scale registers, packing. -/
theorem test_wf_float :
    (Instr.fcmp h0 .f16x2 .lt 3 (.v 1) (.v 2)).wf = false ∧
    (Instr.cvt h0 (.fmt .fp16) (.fmt .fp32) .rn (.v 2) (.v 5) (.v 0) (.v 0)).wf = false ∧
    (Instr.cvt h0 (.fmt .fp32) (.fmt .fp16) .rn (.v 3) (.v 5) (.v 0) (.v 0)).wf = false ∧
    (Instr.cvt h0 (.fmt .fp32) (.fmt .fp16) .rn (.s 2) (.v 5) (.v 0) (.v 0)).wf = false ∧
    (Instr.cvt h0 (.fmt .fp32) (.fmt .i32) .rn (.v 2) (.v 5) (.v 1) (.v 0)).wf = false ∧
    (Instr.cvt h0 (.fmt .fp32) (.fmt .i32) .rn (.v 2) (.v 5) (.v 0) (.v 1)).wf = false ∧
    (Instr.pack h0 .b16 .rz (.v 2) (.v 4) (.v 5)).wf = false ∧
    (Instr.unpack h0 .f16 (.v 3) (.v 4)).wf = false := by decide

/-- R162, R216, R222, R227: registers of a size, base pairs, sizes of a store. -/
theorem test_wf_memory :
    (Instr.ld h0 false .relaxed .b64 (.v 3) (.v 4) .zero 0).wf = false ∧
    (Instr.ld h0 false .relaxed .b128 (.v 6) (.v 4) .zero 0).wf = false ∧
    (Instr.ld h0 false .relaxed .u32 (.v 6) (.v 5) .zero 0).wf = false ∧
    (Instr.lds h0 .relaxed .b128 (.s 4) (.v 5) .zero 0).wf = false ∧
    (Instr.st h0 false .relaxed .i8 (.v 6) (.v 4) .zero 0).wf = false ∧
    (Instr.sts h0 .relaxed .i16 (.v 6) (.v 4) .zero 0).wf = false ∧
    (Instr.ldw h0 .b64 (.v 7) (.v 4) .zero 0).wf = false ∧
    (Instr.pref h0 false (.v 5) .zero 0).wf = false ∧
    (Instr.atomAdd h0 false .relaxed .thread .global true (.v 3) (.v 4) .zero 0).wf = false ∧
    (Instr.atomMin h0 true false .relaxed .thread .global false (.v 3) (.v 5) .zero 0).wf = false ∧
    (Instr.atomCas h0 false .relaxed .thread .scratch false (.v 3) (.v 4) .zero 0).wf = false ∧
    (Instr.atomCas h0 false .relaxed .thread .scratch true (.v 2) (.v 4) .zero 0).wf = false ∧
    (Instr.atomFadd h0 false .relaxed .thread .global (.v 3) (.v 5) .zero 0).wf = false := by decide

/-- R110, R232, R240, R245, R256, R273, R276, R279, R284: the rest. -/
theorem test_wf_units :
    (Instr.bar h0 .grove (.red .and .f32) (.v 1) (.v 2)).wf = false ∧
    (Instr.bar h0 .grove .none (.v 1) (.v 0)).wf = false ∧
    (Instr.attach h0 .read 0 (.v 3)).wf = false ∧ (Instr.detach h0 (.v 3)).wf = false ∧
    (Instr.segfree h0 0 (.v 3)).wf = false ∧ (Instr.enq h0 0 true (.v 3) (.v 4)).wf = false ∧
    (Instr.seqw h0 0 true (.v 2) (.v 3)).wf = false ∧ (Instr.mmaSp h0 0 (.v 2) (.v 3) .zero 0 0).wf = false ∧
    (Instr.mconv h0 0 (.v 2) (.v 3) .zero 0 0).wf = false ∧ (Instr.pout h0 .rgba16f 0 (.v 3)).wf = false ∧
    (Instr.smp h0 false .rgba8 (.v 3) (.v 4) (.v 5)).wf = false ∧
    (Instr.smp h0 false .rgba16f (.v 2) (.v 4) (.v 5)).wf = false ∧
    (Instr.rqOpen h0 false false false (.v 2) (.v 3) (.v 4)).wf = false ∧
    (Instr.rqOpen h0 false false false (.v 4) (.v 3) (.v 5)).wf = false ∧ (Instr.rqNext h0 (.v 2) (.v 3)).wf = false ∧
    (Instr.mfs h0 (.v 2) 0x0e).wf = false ∧ (Instr.mfs h0 (.v 3) 0x10).wf = false ∧
    (Instr.mts h0 (.v 2) 0x00).wf = false ∧ (Instr.mts h0 (.v 3) 0x20).wf = false := by decide

/-! ### Words, bit by bit (R155 to R168) -/

/-- op at [63:56], fn at [55:48], rd at [40:34] and the rest: unguarded, rb bit clear (R155). -/
def word (op fn rd low : Nat) : Nat := op * 72057594037927936 + fn * 281474976710656 + rd * 17179869184 + low

/-- ra at [33:27], rb at [26:20], rc at [19:13], ext at [12:0] (R158). -/
def rForm (ra rb rc ext : Nat) : Nat := ra * 134217728 + rb * 1048576 + rc * 8192 + ext

/-- ra, rb, sp at [19], size at [18:16], off at [15:0] (R162). -/
def mForm (ra rb sp size off : Nat) : Nat := ra * 134217728 + rb * 1048576 + sp * 524288 + size * 65536 + off

/-- Guard and rb bit: bits 47, 46, 45 and 44 to 41 (R155). -/
theorem test_decode_common :
    decode (word 0x38 0 0 0 + 0x800000000000) = .ok (.nop ⟨true, .always⟩) ∧
    decode (word 0x38 0 0 0 + 0x400000000000 + 0x0e0000000000) = .ok (.nop ⟨false, .onTrue 7⟩) ∧
    decode (word 0x38 0 0 0 + 0x600000000000 + 0x1e0000000000) = .ok (.nop ⟨false, .onFalse 15⟩) ∧
    decode (word 0x38 0 0 0 + 0x200000000000) = .error 3 := ⟨rfl, rfl, rfl, rfl⟩

/-- Layout T: u32 01, i32 10, pairs 11 at [7:6]; i at [5]; sat at [4] (R168). -/
theorem test_decode_integer :
    decode (word 0x00 0x40 1 (rForm 2 3 0 0)) = .ok (.add h0 .u32 false (.v 1) (.v 2) (.reg (.v 3))) ∧
    decode (word 0x01 0xb0 1 (2 * 134217728 + 134217727)) = .ok (.sub h0 .i32 true (.v 1) (.v 2) (.imm 134217727)) ∧
    decode (word 0x02 0xc0 2 (rForm 4 6 0 0)) = .ok (.mul h0 .b64 false (.v 2) (.v 4) (.reg (.v 6))) ∧
    decode (word 0x03 0x80 1 (rForm 96 127 0 0)) = .ok (.mulhi h0 .i32 (.v 1) (.s 0) (.reg .zero)) ∧
    decode (word 0x04 0x50 1 (rForm 2 3 4 0)) = .ok (.mad h0 .u32 true (.v 1) (.v 2) (.v 3) (.v 4)) ∧
    decode (word 0x05 0x90 1 (rForm 2 3 0 0)) = .ok (.div h0 .i32 true (.v 1) (.v 2) (.reg (.v 3))) ∧
    decode (word 0x06 0x60 1 (2 * 134217728 + 10)) = .ok (.rem h0 .u32 (.v 1) (.v 2) (.imm 10)) ∧
    decode (word 0x07 0x80 1 (rForm 2 3 0 0)) = .ok (.min h0 .i32 (.v 1) (.v 2) (.reg (.v 3))) ∧
    decode (word 0x08 0x40 1 (rForm 2 3 0 0)) = .ok (.max h0 .u32 (.v 1) (.v 2) (.reg (.v 3))) ∧
    decode (word 0x09 0x90 1 (rForm 2 0 0 0)) = .ok (.abs h0 true (.v 1) (.v 2)) ∧
    decode (word 0x0a 0xc0 2 (rForm 4 0 0 0)) = .ok (.neg h0 .b64 false (.v 2) (.v 4)) ∧
    decode (word 0x1e 0x80 2 (rForm 3 5 0 0)) = .ok (.mulw h0 .i32 (.v 2) (.v 3) (.reg (.v 5))) :=
  ⟨rfl, rfl, rfl, rfl, rfl, rfl, rfl, rfl, rfl, rfl, rfl, rfl⟩

theorem test_decode_bits :
    decode (word 0x0b 0x40 1 (rForm 2 3 0 0)) = .ok (.and h0 .u32 (.v 1) (.v 2) (.reg (.v 3))) ∧
    decode (word 0x0c 0x80 1 (rForm 2 3 0 0)) = .ok (.or h0 .i32 (.v 1) (.v 2) (.reg (.v 3))) ∧
    decode (word 0x0d 0xe0 2 (4 * 134217728 + 7)) = .ok (.xor h0 .b64 (.v 2) (.v 4) (.imm 7)) ∧
    decode (word 0x0e 0x40 1 (rForm 2 0 0 0)) = .ok (.not h0 .u32 (.v 1) (.v 2)) ∧
    decode (word 0x0f 0x40 1 (rForm 2 3 0 0)) = .ok (.andn h0 .u32 (.v 1) (.v 2) (.reg (.v 3))) ∧
    decode (word 0x10 0x50 1 (rForm 2 3 0 0)) = .ok (.shl h0 .u32 true (.v 1) (.v 2) (.reg (.v 3))) ∧
    decode (word 0x11 0x40 1 (rForm 2 3 0 0)) = .ok (.shr h0 .u32 (.v 1) (.v 2) (.reg (.v 3))) ∧
    decode (word 0x12 0x80 1 (rForm 2 3 0 0)) = .ok (.sar h0 .i32 (.v 1) (.v 2) (.reg (.v 3))) ∧
    decode (word 0x13 0xc0 2 (rForm 4 3 0 0)) = .ok (.rotl h0 .b64 (.v 2) (.v 4) (.reg (.v 3))) ∧
    decode (word 0x14 0x80 1 (rForm 2 3 0 0)) = .ok (.bfx h0 .i32 (.v 1) (.v 2) (.reg (.v 3))) ∧
    decode (word 0x15 0x40 1 (rForm 2 3 4 0)) = .ok (.bfi h0 .u32 (.v 1) (.v 2) (.v 3) (.v 4)) ∧
    decode (word 0x16 0xc0 1 (rForm 2 0 0 0)) = .ok (.clz h0 .b64 (.v 1) (.v 2)) ∧
    decode (word 0x17 0x40 1 (rForm 2 0 0 0)) = .ok (.popc h0 .u32 (.v 1) (.v 2)) ∧
    decode (word 0x18 0x40 1 (rForm 2 0 0 0)) = .ok (.brev h0 .u32 (.v 1) (.v 2)) ∧
    decode (word 0x19 0xc0 2 (rForm 1 3 5 0)) = .ok (.ilv h0 .b64 (.v 2) (.v 1) (.v 3) (.v 5)) ∧
    decode (word 0x1a 0x60 1 (2 * 134217728 + 2)) = .ok (.dilv h0 .u32 (.v 1) (.v 2) (.imm 2)) ∧
    decode (word 0x1b 0x80 2 (rForm 4 5 6 0)) = .ok (.lea h0 .i32 (.v 2) (.v 4) (.v 5) (.v 6)) ∧
    decode (word 0x1c 0x40 104 (rForm 126 0 0 0)) = .ok (.mov h0 .u32 (.s 8) (.reg .sap)) ∧
    decode (word 0x1c 0xe0 2 5) = .ok (.mov h0 .b64 (.v 2) (.imm 5)) ∧
    decode (word 0x1d 0x80 1 0xfffffffe) = .ok (.movi h0 .i32 (.v 1) 0xfffffffe) :=
  ⟨rfl, rfl, rfl, rfl, rfl, rfl, rfl, rfl, rfl, rfl, rfl, rfl, rfl, rfl, rfl, rfl, rfl, rfl, rfl, rfl⟩

theorem test_decode_predicates :
    decode (word 0x20 0x83 5 (rForm 2 3 0 0)) = .ok (.cmp h0 .i32 .le 5 (.v 2) (.reg (.v 3))) ∧
    decode (word 0x21 0x01 5 (rForm 2 3 0 0)) = .ok (.pand h0 true 5 2 3) ∧
    decode (word 0x22 0x00 5 (rForm 2 3 0 0)) = .ok (.por h0 false 5 2 3) ∧
    decode (word 0x23 0x00 5 (rForm 2 3 0 0)) = .ok (.pxor h0 false 5 2 3) ∧
    decode (word 0x24 0x00 5 (rForm 2 0 0 0)) = .ok (.pnot h0 5 2) ∧
    decode (word 0x25 0x00 5 (rForm 2 0 0 0)) = .ok (.pmov h0 5 2) ∧
    decode (word 0x26 0x01 2 (rForm 4 6 9 0)) = .ok (.sel h0 true (.v 2) (.v 4) (.v 6) 9) ∧
    decode (word 0x27 0x00 5 (rForm 2 0 0 0)) = .ok (.voteAny h0 5 2) ∧
    decode (word 0x27 0x01 5 (rForm 2 0 0 0)) = .ok (.voteAll h0 5 2) ∧
    decode (word 0x27 0x02 6 (rForm 2 0 0 0)) = .ok (.voteBallot h0 (.v 6) 2) ∧
    decode (word 0x28 0x21 1 (2 * 134217728 + 4)) = .ok (.xch h0 .xor (.v 1) (.v 2) (.imm 4)) ∧
    decode (word 0x28 0x03 1 (rForm 2 3 0 0)) = .ok (.xch h0 .down (.v 1) (.v 2) (.reg (.v 3))) ∧
    decode (word 0x29 0x82 1 (rForm 2 0 0 0)) = .ok (.scan h0 .i32 false .max (.v 1) (.reg (.v 2))) :=
  ⟨rfl, rfl, rfl, rfl, rfl, rfl, rfl, rfl, rfl, rfl, rfl, rfl, rfl⟩

theorem test_decode_control :
    decode (word 0x30 0x00 0 0xfffffff8) = .ok (.bra h0 0xfffffff8) ∧ decode (word 0x30 0x01 0 3) = .ok (.braU h0 3) ∧
    decode (word 0x31 0x00 0 (rForm 2 0 0 0)) = .ok (.brx h0 (.v 2)) ∧ decode (word 0x32 0x00 96 7) = .ok (.call h0 96 7) ∧
    decode (word 0x33 0x00 0 (rForm 2 0 0 0)) = .ok (.callx h0 (.v 2)) ∧ decode (word 0x34 0x00 0 0) = .ok (.ret h0) ∧
    decode (word 0x35 0x00 0 9) = .ok (.meet h0 9) ∧ decode (word 0x35 0x01 0 0) = .ok (.meetPop h0) ∧
    decode (word 0x36 0x00 0 0) = .ok (.exit h0) ∧
    decode (word 0x37 0x00 0 (1 + 2 * 64 + 3 * 4096 + 63 * 262144)) = .ok (.wait false 1 2 3 63) ∧
    decode (word 0x38 0x00 0 0) = .ok (.nop h0) :=
  ⟨rfl, rfl, rfl, rfl, rfl, rfl, rfl, rfl, rfl, rfl, rfl⟩

/-- Layout F, and the rounding field ext[2:0] (R147, R168). -/
theorem test_decode_float :
    decode (word 0x40 0x00 1 (rForm 2 3 0 1)) = .ok (.fadd h0 .f32 .rz (.v 1) (.v 2) (.v 3)) ∧
    decode (word 0x41 0x40 1 (rForm 2 3 0 0)) = .ok (.fsub h0 .f16x2 .rn (.v 1) (.v 2) (.v 3)) ∧
    decode (word 0x42 0x80 1 (rForm 2 3 0 6)) = .ok (.fmul h0 .bf16x2 .dyn (.v 1) (.v 2) (.v 3)) ∧
    decode (word 0x43 0x00 1 (rForm 2 3 4 3)) = .ok (.fma h0 .f32 .rd (.v 1) (.v 2) (.v 3) (.v 4)) ∧
    decode (word 0x44 0x00 1 (rForm 2 3 0 0)) = .ok (.fmin h0 .f32 (.v 1) (.v 2) (.v 3)) ∧
    decode (word 0x45 0x00 1 (rForm 2 3 0 0)) = .ok (.fmax h0 .f32 (.v 1) (.v 2) (.v 3)) ∧
    decode (word 0x46 0x40 1 (rForm 2 0 0 0)) = .ok (.fabs h0 .f16x2 (.v 1) (.v 2)) ∧
    decode (word 0x47 0x00 1 (rForm 2 0 0 0)) = .ok (.fneg h0 .f32 (.v 1) (.v 2)) ∧
    decode (word 0x48 0x46 4 (rForm 2 3 0 0)) = .ok (.fcmp h0 .f16x2 .unordered 4 (.v 2) (.v 3)) ∧
    decode (word 0x49 0x00 1 (rForm 2 0 0 0)) = .ok (.fclass h0 .f32 (.v 1) (.v 2)) :=
  ⟨rfl, rfl, rfl, rfl, rfl, rfl, rfl, rfl, rfl, rfl⟩

theorem test_decode_convert :
    decode (word 0x60 0x12 2 (rForm 5 0 0 2)) = .ok (.cvt h0 (.fmt .fp32) (.fmt .fp16) .ru (.v 2) (.v 5) (.v 0) (.v 0)) ∧
    decode (word 0x60 0x01 2 (rForm 4 0 7 (3 * 64))) = .ok (.cvt h0 (.slot 3) (.fmt .fp32) .rn (.v 2) (.v 4) (.v 0) (.v 7)) ∧
    decode (word 0x60 0x10 2 (rForm 4 7 0 (5 * 8))) = .ok (.cvt h0 (.fmt .fp32) (.slot 5) .rn (.v 2) (.v 4) (.v 7) (.v 0)) ∧
    decode (word 0x61 0x00 1 (rForm 2 0 0 0)) = .ok (.pack6 h0 (.v 1) (.v 2)) ∧
    decode (word 0x62 0x00 1 (rForm 2 0 0 0)) = .ok (.unpack6 h0 (.v 1) (.v 2)) ∧
    decode (word 0x63 0x01 1 (rForm 2 3 0 5)) = .ok (.pack h0 .bf16 .ro (.v 1) (.v 2) (.v 3)) ∧
    decode (word 0x64 0x03 2 (rForm 3 0 0 0)) = .ok (.unpack h0 .i16 (.v 2) (.v 3)) ∧
    decode (word 0x65 0x00 1 (rForm 2 0 0 0)) = .ok (.sinr h0 (.v 1) (.v 2)) ∧
    decode (word 0x66 0x00 1 (rForm 2 0 0 0)) = .ok (.cosr h0 (.v 1) (.v 2)) ∧
    decode (word 0x67 0x00 1 (rForm 2 0 0 0)) = .ok (.exp2 h0 (.v 1) (.v 2)) ∧
    decode (word 0x68 0x00 1 (rForm 2 0 0 0)) = .ok (.log2 h0 (.v 1) (.v 2)) ∧
    decode (word 0x69 0x00 1 (rForm 2 0 0 0)) = .ok (.rcp h0 (.v 1) (.v 2)) ∧
    decode (word 0x6a 0x00 1 (rForm 2 0 0 0)) = .ok (.rsqrt h0 (.v 1) (.v 2)) ∧
    decode (word 0x6b 0x00 1 (rForm 2 0 0 4)) = .ok (.sqrt h0 .ra (.v 1) (.v 2)) :=
  ⟨rfl, rfl, rfl, rfl, rfl, rfl, rfl, rfl, rfl, rfl, rfl, rfl, rfl, rfl⟩

/-- Layout O: hint at [7:6], order at [5:3], scope at [2:0] (R165, R168). -/
theorem test_decode_memory :
    decode (word 0x70 0x4b 1 (mForm 2 127 0 4 0xfffc)) = .ok (.ld h0 true (.ordered .copse) .u32 (.v 1) (.v 2) .zero 0xfffc) ∧
    decode (word 0x70 0x00 4 (mForm 2 3 1 6 16)) = .ok (.lds h0 .relaxed .b128 (.v 4) (.v 2) (.v 3) 16) ∧
    decode (word 0x71 0x16 1 (mForm 2 127 0 0 0)) = .ok (.st h0 false (.ordered .system) .u8 (.v 1) (.v 2) .zero 0) ∧
    decode (word 0x71 0x00 2 (mForm 3 127 1 5 8)) = .ok (.sts h0 .relaxed .b64 (.v 2) (.v 3) .zero 8) ∧
    decode (word 0x72 0x00 1 (mForm 2 3 0 3 2)) = .ok (.ldw h0 .i16 (.v 1) (.v 2) (.v 3) 2) ∧
    decode (word 0x73 0x40 0 (mForm 2 3 0 0 2)) = .ok (.pref h0 true (.v 2) (.v 3) 2) :=
  ⟨rfl, rfl, rfl, rfl, rfl, rfl⟩

/-- Layout A: s at [7], nr at [6], order and scope (R168). -/
theorem test_decode_atomics :
    decode (word 0x90 0x1d 1 (mForm 2 127 0 4 0)) = .ok (.atomAdd h0 false .acqRel .forest .global false (.v 1) (.v 2) .zero 0) ∧
    decode (word 0x91 0x80 1 (mForm 3 127 1 4 0)) = .ok (.atomMin h0 true false .relaxed .thread .scratch false (.v 1) (.v 3) .zero 0) ∧
    decode (word 0x92 0x00 2 (mForm 3 127 1 5 0)) = .ok (.atomMax h0 false false .relaxed .thread .scratch true (.v 2) (.v 3) .zero 0) ∧
    decode (word 0x93 0x40 1 (mForm 2 127 0 4 0)) = .ok (.atomAnd h0 true .relaxed .thread .global false (.v 1) (.v 2) .zero 0) ∧
    decode (word 0x94 0x00 1 (mForm 2 127 0 4 0)) = .ok (.atomOr h0 false .relaxed .thread .global false (.v 1) (.v 2) .zero 0) ∧
    decode (word 0x95 0x00 1 (mForm 2 127 0 4 0)) = .ok (.atomXor h0 false .relaxed .thread .global false (.v 1) (.v 2) .zero 0) ∧
    decode (word 0x96 0x26 1 (mForm 2 127 0 4 0)) = .ok (.atomXchg h0 false .sc .system .global false (.v 1) (.v 2) .zero 0) ∧
    decode (word 0x97 0x00 4 (mForm 2 127 0 5 0)) = .ok (.atomCas h0 false .relaxed .thread .global true (.v 4) (.v 2) .zero 0) ∧
    decode (word 0x98 0x0a 1 (mForm 2 127 0 4 0)) = .ok (.atomInc h0 false .acquire .grove .global false (.v 1) (.v 2) .zero 0) ∧
    decode (word 0x99 0x11 1 (mForm 2 127 0 4 0)) = .ok (.atomFadd h0 false .release .strand .global (.v 1) (.v 2) .zero 0) :=
  ⟨rfl, rfl, rfl, rfl, rfl, rfl, rfl, rfl, rfl, rfl⟩

theorem test_decode_synchronisation :
    decode (word 0xa0 0x24 0 0) = .ok (.fence h0 .sc .stand) ∧
    decode (word 0xa1 0x49 1 (rForm 2 0 0 0)) = .ok (.bar h0 .copse (.red .min .f32) (.v 1) (.v 2)) ∧
    decode (word 0xa1 0x02 0 0) = .ok (.bar h0 .stand .none (.v 0) (.v 0)) ∧
    decode (word 0xa2 0x00 1 (rForm 2 3 4 0)) = .ok (.waitn h0 (.v 1) (.v 2) (.v 3) (.v 4)) ∧
    decode (word 0xa2 0x01 1 (rForm 2 3 4 0)) = .ok (.waitnTake h0 (.v 1) (.v 2) (.v 3) (.v 4)) ∧
    decode (word 0xa3 0x00 0 (rForm 2 3 0 0)) = .ok (.ntfy h0 (.v 2) (.v 3)) ∧
    decode (word 0xa4 0x00 6 (rForm 2 3 0 0)) = .ok (.graft h0 6 (.v 2) (.v 3)) ∧
    decode (word 0xb0 0x03 6 (rForm 2 0 0 0)) = .ok (.attach h0 .create 6 (.v 2)) ∧
    decode (word 0xb1 0x00 0 (rForm 2 0 0 0)) = .ok (.detach h0 (.v 2)) ∧
    decode (word 0xb2 0x00 6 (rForm 2 0 0 0)) = .ok (.segfree h0 6 (.v 2)) ∧
    decode (word 0xb3 0x02 2 (rForm 3 0 0 1)) = .ok (.enq h0 2 true (.v 2) (.v 3)) ∧
    decode (word 0xb4 0x01 1 (rForm 3 0 0 0)) = .ok (.seqw h0 1 false (.v 1) (.v 3)) :=
  ⟨rfl, rfl, rfl, rfl, rfl, rfl, rfl, rfl, rfl, rfl, rfl, rfl⟩

/-- The forms XM and XG (R163), and L for the special registers. -/
theorem test_decode_units :
    decode (word 0xc0 0x00 7 0) = .ok (.mz h0 7) ∧
    decode (word 0xc1 0x00 2 (rForm 100 101 127 (5 * 1024 + 6 * 128))) = .ok (.mma h0 2 (.s 4) (.s 5) .zero 5 6) ∧
    decode (word 0xc2 0x00 2 (rForm 100 101 102 0)) = .ok (.mmaSp h0 2 (.s 4) (.s 5) (.s 6) 0 0) ∧
    decode (word 0xc3 0x00 2 (rForm 100 101 102 1024)) = .ok (.mconv h0 2 (.s 4) (.s 5) (.s 6) 1 0) ∧
    decode (word 0xc4 0x01 2 (rForm 100 101 0 0)) = .ok (.mld h0 (.fmt .fp32) 2 (.s 4) (.s 5)) ∧
    decode (word 0xc5 0x00 2 (rForm 100 101 0 3072)) = .ok (.mst h0 (.slot 3) 2 (.s 4) (.s 5)) ∧
    decode (word 0xd0 0x00 1 (rForm 2 0 0 0)) = .ok (.bin h0 (.v 1) (.v 2)) ∧
    decode (word 0xd1 0x00 0 (rForm 2 0 0 7)) = .ok (.pout h0 .rgba16f 3 (.v 2)) ∧
    decode (word 0xd2 0x00 0 0) = .ok (.discard h0) ∧
    decode (word 0xd3 0x00 2 (rForm 3 4 0 4)) = .ok (.smp h0 true .rgba8 (.v 2) (.v 3) (.v 4)) ∧
    decode (word 0xd4 0x00 4 (rForm 3 6 0 6)) = .ok (.rqOpen h0 true true false (.v 4) (.v 3) (.v 6)) ∧
    decode (word 0xd4 0x01 4 (rForm 3 0 0 0)) = .ok (.rqNext h0 (.v 4) (.v 3)) ∧
    decode (word 0xd4 0x02 0 0) = .ok (.rqClose h0) ∧
    decode (word 0xd5 0x00 1 (rForm 2 3 4 0)) = .ok (.nreq h0 (.v 1) (.v 2) (.v 3) (.v 4)) ∧
    decode (word 0xd6 0x00 1 (rForm 2 0 0 0)) = .ok (.nget h0 (.v 1) (.v 2)) ∧
    decode (word 0xe0 0x00 98 0x14) = .ok (.mfs h0 (.s 2) 0x14) ∧ decode (word 0xe1 0x00 98 0x15) = .ok (.mts h0 (.s 2) 0x15) ∧
    decode (word 0xe2 0x00 0 0) = .ok (.bkpt h0) ∧ decode (word 0xe3 0x00 0 (rForm 2 0 0 0)) = .ok (.trap h0 (.v 2)) ∧
    decode (word 0xe4 0x00 1 (rForm 2 3 0 0)) = .ok (.fret h0 (.v 1) (.v 2) (.v 3)) :=
  ⟨rfl, rfl, rfl, rfl, rfl, rfl, rfl, rfl, rfl, rfl, rfl, rfl, rfl, rfl, rfl, rfl, rfl, rfl, rfl, rfl⟩

/-- R169: the details 1 to 6, the lowest first. -/
theorem test_decode_refuses :
    decode (word 0x1f 0x40 0 0) = .error 1 ∧ decode (word 0xf0 0 0 0) = .error 1 ∧ decode (word 0x2a 0 0 0) = .error 1 ∧
    decode (word 0x00 0x00 1 (rForm 2 3 0 0)) = .error 2 ∧ decode (word 0x0b 0x50 1 (rForm 2 3 0 0)) = .error 2 ∧
    decode (word 0x00 0x40 1 (rForm 2 3 4 0)) = .error 3 ∧ decode (word 0x30 0x00 1 0) = .error 3 ∧
    decode (word 0x40 0x00 1 (rForm 2 3 0 7)) = .error 4 ∧ decode (word 0x21 0x00 16 (rForm 2 3 0 0)) = .error 5 ∧
    decode (word 0x00 0xc0 1 (rForm 2 4 0 0)) = .error 5 ∧ decode (word 0x32 0x00 97 7) = .error 6 ∧
    decode (word 0x70 0x00 1 (mForm 2 127 0 7 0)) = .error 6 :=
  ⟨rfl, rfl, rfl, rfl, rfl, rfl, rfl, rfl, rfl, rfl, rfl, rfl⟩

/-! ### States that meet the hypotheses

Each theorem below shows a state and operands that meet the hypotheses of the claim that it is named after, all of them
together. -/

/-- A strand of 16 threads at address 0x200000, the first of them alone not exited. -/
def st0 : Strand := placedStrand 0 0

/-- The device with one strand, which holds lane 0. -/
def one (f : Strand → Strand) : State := { placeWord State.reset 64 0 with strands := [f st0] }

def s0 : State := one id

/-- The issue that the strand of a state makes. -/
def issueIn (s : State) : Issue :=
  (issueOf s .always).getD { st := st0, pc := 0, lr := {}, start := 0, present := [], active := [] }

/-- The strand with its first thread changed. -/
def thread0 (f : Thread → Thread) (st : Strand) : Strand := setThread st 0 (f (getThread st 0))

theorem meets_issuing : Issuing s0 .always (issueIn s0) ∧ (issueIn s0).active = [0] ∧
    Issuing (one (thread0 fun t => { t with preds := 4 })) (.onTrue 2)
      ((issueOf (one (thread0 fun t => { t with preds := 4 })) (.onTrue 2)).getD (issueIn s0)) :=
  ⟨⟨rfl, rfl, rfl, rfl, rfl, rfl⟩, by decide, ⟨rfl, rfl, rfl, rfl, rfl, rfl⟩⟩

/-- The register forms of every typed shape; with `meets_issuing`, the hypotheses of the claims of chapters 11 and 12 that
ask for no more. -/
theorem meets_register_results :
    (Instr.add h0 .b64 false (.v 2) (.v 4) (.imm 1)).WellFormed ∧ (Instr.sub h0 .i32 true .zero .sap (.reg .zero)).WellFormed ∧
    (Instr.mul h0 .b64 false (.v 2) (.v 4) (.reg (.v 6))).WellFormed ∧ (Instr.mad h0 .u32 true (.s 1) (.v 1) (.v 2) (.v 3)).WellFormed ∧
    (Instr.abs h0 true (.v 1) (.v 2)).WellFormed ∧ (Instr.neg h0 .b64 false (.v 2) (.v 4)).WellFormed ∧
    (Instr.mulhi h0 .i32 (.v 1) (.v 2) (.imm 3)).WellFormed ∧ (Instr.mulw h0 .u32 (.v 2) (.v 3) (.imm 3)).WellFormed ∧
    (Instr.min h0 .i32 (.v 1) (.v 2) (.imm 3)).WellFormed ∧ (Instr.max h0 .u32 (.v 1) (.v 2) (.reg (.v 3))).WellFormed ∧
    (Instr.div h0 .i32 true (.v 1) (.v 2) (.reg .zero)).WellFormed ∧ (Instr.rem h0 .u32 (.v 1) (.v 2) (.imm 0)).WellFormed ∧
    (Instr.and h0 .b64 (.v 2) (.v 4) (.imm 1)).WellFormed ∧ (Instr.or h0 .u32 (.v 1) (.v 2) (.imm 1)).WellFormed ∧
    (Instr.xor h0 .i32 (.v 1) (.v 2) (.reg (.v 3))).WellFormed ∧ (Instr.not h0 .b64 (.v 2) (.v 4)).WellFormed ∧
    (Instr.andn h0 .u32 (.v 1) (.v 2) (.imm 1)).WellFormed ∧ (Instr.shl h0 .i32 true (.v 1) (.v 2) (.imm 255)).WellFormed ∧
    (Instr.shr h0 .b64 (.v 2) (.v 4) (.imm 64)).WellFormed ∧ (Instr.sar h0 .i32 (.v 1) (.v 2) (.imm 31)).WellFormed ∧
    (Instr.rotl h0 .u32 (.v 1) (.v 2) (.imm 32)).WellFormed ∧ (Instr.bfx h0 .i32 (.v 1) (.v 2) (.imm 0)).WellFormed ∧
    (Instr.bfi h0 .b64 (.v 2) (.v 4) (.v 6) (.v 8)).WellFormed ∧ (Instr.clz h0 .b64 (.v 1) (.v 2)).WellFormed ∧
    (Instr.popc h0 .u32 (.v 1) (.v 2)).WellFormed ∧ (Instr.brev h0 .b64 (.v 2) (.v 4)).WellFormed ∧
    (Instr.ilv h0 .b64 (.v 2) (.v 3) (.v 4) (.v 5)).WellFormed ∧ (Instr.dilv h0 .b64 (.v 1) (.v 2) (.imm 2)).WellFormed ∧
    (Instr.mov h0 .b64 (.v 2) (.imm 5)).WellFormed ∧ (Instr.movi h0 .u32 .sap 5).WellFormed ∧
    (Instr.sel h0 true (.v 2) (.v 4) (.v 6) 3).WellFormed ∧ (Instr.lea h0 .i32 (.v 2) (.v 4) (.v 5) (.v 7)).WellFormed ∧
    (Instr.voteBallot h0 (.s 2) 3).WellFormed ∧ (Instr.xch h0 .down (.v 1) (.v 2) (.imm 15)).WellFormed ∧
    (Instr.fcmp h0 .bf16x2 .ordered 14 (.v 1) (.v 2)).WellFormed ∧ (Instr.unpack h0 .f16 (.v 2) (.v 3)).WellFormed ∧
    (Instr.mfs h0 (.s 2) 0x20).WellFormed := by decide

theorem meets_ScanResults : ∃ (s : State) (i : Issue), Issuing s .always i ∧ shadowed i.st .sap = false ∧
    (Instr.scan h0 .i32 true .add (.v 1) (.reg .sap)).WellFormed :=
  ⟨s0, issueIn s0, ⟨rfl, rfl, rfl, rfl, rfl, rfl⟩, by decide, by decide⟩

/-- call and callx: a callee's frame of the greatest size, and of one register. -/
theorem meets_CallResults :
    let s := one fun st => { (thread0 (fun t => { t with height := 10, fsize := 10 }) st) with depth := 107 }
    ∃ (i : Issue), Issuing s .always i ∧ (i.pc + 8 - i.lr.code).toNat / 8 < 2 ^ 25 ∧
      ∀ n ∈ [1, 96], ∀ k ∈ i.active, 1 ≤ n ∧ n ≤ 96 ∧ (getThread i.st k).fsize + 1 + n ≤ i.st.depth ∧
        (getThread i.st k).height + 1 + n - (getThread i.st k).floor ≤ i.st.depth :=
  ⟨_, ⟨rfl, rfl, rfl, rfl, rfl, rfl⟩, by decide, by decide⟩

theorem meets_CallResults_register :
    let s := one fun st => thread0 (fun t => { t with height := 10, fsize := 10 }) (writeReg st 0 (.v 2) (5 * 128 + 7))
    ∃ (i : Issue), Issuing s .always i ∧ ∀ k ∈ i.active, fld (readReg s.free i.st k (.v 2)).toNat 0 7 = 7 ∧
      (getThread i.st k).fsize + 1 + 7 ≤ i.st.depth :=
  ⟨_, ⟨rfl, rfl, rfl, rfl, rfl, rfl⟩, by decide⟩

theorem meets_ReturnResults :
    let s := one fun st => { (thread0 (fun t => { t with base := 11, height := 15, fsize := 4 }) st) with
      vregs := [(64 * 10, 3 * 128 + 10)] }
    ∃ (i : Issue), Issuing s .always i ∧
      let linkOf (k : Nat) : Nat := (mapGetD i.st.vregs (64 * ((getThread i.st k).base - 1) + k) 0).toNat
      let below (k : Nat) : Nat := (getThread i.st k).base - 1 - fld (linkOf k) 0 7
      ∀ k ∈ i.active, (getThread i.st k).base ≠ 0 ∧
        (mapGet i.st.vregs (64 * ((getThread i.st k).base - 1) + k)).isSome = true ∧
        (below k = 0 ∨ (getThread i.st k).floor < below k) :=
  ⟨_, ⟨rfl, rfl, rfl, rfl, rfl, rfl⟩, by decide⟩

theorem meets_MeetResults :
    let s := one fun st => thread0 (fun t => { t with mstack := [1, 2, 3, 4, 5, 6, 7] }) st
    ∃ (i : Issue), Issuing s .always i ∧
      (∀ k ∈ i.active, (getThread i.st k).mstack.length < i.st.diverge) ∧
      ∀ k ∈ i.active, (getThread i.st k).mstack ≠ [] :=
  ⟨_, ⟨rfl, rfl, rfl, rfl, rfl, rfl⟩, by decide, by decide⟩

theorem meets_ExitResults : ∃ (s : State) (i : Issue), Issuing s .always i ∧
    (∀ w ∈ s.strands, ∀ g, w.status = .waitGraft g → g.partner ≠ i.st.home) ∧
    ∀ k ∈ i.active, (getThread i.st k).base = 0 :=
  ⟨s0, issueIn s0, ⟨rfl, rfl, rfl, rfl, rfl, rfl⟩, by intro w hw g hg; simp [s0, one, st0, placedStrand] at hw; subst hw; simp at hg,
    by decide⟩

/-- The three cases: counters at their limits, a counter above its limit, and a grant that has issued. -/
theorem meets_WaitResults :
    let s := one fun st => { st with chains := 3, matrix := 63, outs := [{ tag := 0, cls := 0, left := 1 }] }
    let later : State := { s with lanes := mapSet s.lanes 0 { granted := some 0, issues := 1 } }
    ∃ (i : Issue), Issuing s .always i ∧ (getLane s (strandLane i.st)).issues = 0 ∧ i.active ≠ [] ∧
      ((i.st.outs.filter (·.cls == 0)).length ≤ 1 ∧ (i.st.outs.filter (·.cls == 1)).length ≤ 0 ∧ i.st.chains ≤ 3 ∧ i.st.matrix ≤ 63) ∧
      ¬ (i.st.outs.filter (·.cls == 0)).length ≤ 0 ∧
      Issuing later .always i ∧ (getLane later (strandLane i.st)).issues ≠ 0 :=
  ⟨_, ⟨rfl, rfl, rfl, rfl, rfl, rfl⟩, by decide, by decide, by decide, by decide, ⟨rfl, rfl, rfl, rfl, rfl, rfl⟩, by decide⟩

/-- A launch record whose first format slots are FP32 and FP16, unscaled, and E4M3 with a scale array. -/
def slotted (f : Strand → Strand) : State :=
  { one f with launches := (one f).launches.map fun l => { l with record := { l.record with slots :=
      ([(0x01, 0), (0x02, 0), (0x52004, 0)] ++ List.replicate 5 (0, 0)) } } }

/-- All threads of the strand stand at the word. -/
def full (st : Strand) : Strand :=
  { st with threads := List.replicate 16 { pc := placedCode, height := 96, fsize := 96 } }

theorem meets_ConversionResults :
    let s := slotted id
    ∃ (i : Issue) (d e : Slot), Issuing s .always i ∧ sideOf i.lr (.slot 1) = some d ∧ sideOf i.lr (.slot 0) = some e ∧
      d.ssrc ≠ 1 ∧ Reg.code (.v 0) = 0 ∧ groupOk (max (perReg e.fmt) (perReg d.fmt) / perReg e.fmt) (.v 4) = true ∧
      groupOk (max (perReg e.fmt) (perReg d.fmt) / perReg d.fmt) (.v 3) = true :=
  ⟨issueIn (slotted id), { fmt := .fp16 }, { fmt := .fp32 }, ⟨rfl, rfl, rfl, rfl, rfl, rfl⟩, by decide, by decide, by decide,
    by decide, by decide, by decide⟩

theorem meets_ScaleComputingResults :
    let s := slotted full
    ∃ (i : Issue) (d e : Slot), Issuing s .always i ∧ slotOf i.lr 2 = some d ∧ sideOf i.lr (.fmt .fp32) = some e ∧
      d.ssrc = 1 ∧ Reg.code (.v 0) = 0 ∧ Reg.isThread (.v 8) = true ∧
      groupOk (max (perReg e.fmt) (perReg d.fmt) / perReg e.fmt) (.v 4) = true ∧
      groupOk (max (perReg e.fmt) (perReg d.fmt) / perReg d.fmt) (.v 3) = true ∧ i.active = List.range i.st.width ∧
      0 < i.st.width ∧ Reg.v 8 ∉ (List.range (max (perReg e.fmt) (perReg d.fmt) / perReg d.fmt)).map (regAfter (.v 3)) :=
  ⟨issueIn (slotted full), { fmt := .e4m3, ssrc := 1 }, { fmt := .fp32 }, ⟨rfl, rfl, rfl, rfl, rfl, rfl⟩, by decide, by decide,
    by decide, by decide, by decide, by decide, by decide, by decide, by decide, by decide⟩

/-! #### Numbers -/

theorem meets_SourceValues : floatFormats[0]? = some f32 ∧ floatFormats[3]? = some ⟨8, 3, 4, 7, 2, 8⟩ ∧
    (∀ c ∈ [0x00000001, 0x3f800000, 0x7f800000, 0x7f800001, 0x7fc00000], c < 2 ^ f32.width) ∧
    isSubnormal f32 1 = true ∧ flushesIn f32 0x10 = true ∧ isSubnormal f32 0x3f800000 = false ∧ 0x3f800000 ≤ largestCode f32 ∧
    0x7f800000 = largestCode f32 + 1 ∧ largestCode f32 + 1 < 0x7f800001 ∧ largestCode ⟨8, 3, 4, 7, 2, 8⟩ < 0x7f :=
  ⟨rfl, rfl, by decide, by decide, by decide, by decide, by decide, by decide, by decide, by decide⟩

/-- A third, in the binade of a quarter. -/
theorem meets_Rounding : floatFormats[0]? = some f32 ∧ twoTo (-2) ≤ ((1 : Nat) : Rat) / ((3 : Nat) : Rat) ∧
    ((1 : Nat) : Rat) / ((3 : Nat) : Rat) < twoTo (-2 + 1) := ⟨rfl, by decide +kernel, by decide +kernel⟩

/-- Finite values whose sum is not 0, and is; infinities of both signs; a zero; NaN of both kinds. -/
theorem meets_FloatValues :
    let x (c : Nat) : FVal := decodeFlush f32 0 c
    (∀ c ∈ [0x3f800000, 0xbf800000, 0x7f800000, 0xff800000, 0, 0x7fc00000, 0x7f800001], c < 2 ^ f32.width) ∧
    (x 0x3f800000 = .fin false (2 ^ 23) (2 ^ 23) ∧ x 0xbf800000 = .fin true (2 ^ 23) (2 ^ 23) ∧ isZero (x 0) = true ∧
      amount (x 0x3f800000) + amount (x 0x3f800000) ≠ 0 ∧ amount (x 0x3f800000) + amount (x 0xbf800000) = 0) ∧
    x 0x7f800000 = .inf false ∧ x 0xff800000 = .inf true ∧ isNan (x 0x7fc00000) = true ∧ isSignalling (x 0x7f800001) = true := by
  decide +kernel

theorem meets_CompareValues : isNan (decodeFlush f32 0 0x7fc00000) = true ∧ isNan (decodeFlush f32 0 0x80000000) = false ∧
    0x80000000 < 2 ^ f32.width ∧ 0x7fc00000 < 2 ^ f32.width := by decide

theorem meets_ConversionValues : ({ fmt := .i8 } : Slot).fmt ≠ .o4 ∧ floatFormat .i8 = none ∧ (floatFormat .bf16).isSome = true ∧
    (127 < 255 ∧ ∀ y ∈ some (true, 3, 2), 0 < y.2.1 ∧ 0 < y.2.2) := by decide

theorem meets_AtomicFloatAdd :
    isNan (decodeFloat f32 0x7fc00000) = true ∧ decodeFloat f32 0x7f800000 = .inf false ∧ decodeFloat f32 0xff800000 = .inf true ∧
    decodeFloat f32 0x3f800000 = .fin false (2 ^ 23) (2 ^ 23) ∧ decodeFloat f32 0xbf800000 = .fin true (2 ^ 23) (2 ^ 23) := by decide

/-- A negative operand, a NaN, and operands of the exact cases and of those that overflow. -/
theorem meets_SpecialFunctionTable :
    decodeFlush f32 0 0x7f800001 = .nan true ∧ decodeFlush f32 0 0xc0800000 = .fin true (2 ^ 23) (2 ^ 21) ∧
    amount (decodeFlush f32 0 0xc0800000) = ((-4 : Int) : Rat) ∧ 128 ≤ amount (decodeFlush f32 0 0x43000000) ∧
    amount (decodeFlush f32 0 0x40800000) = twoTo 2 ∧ magnitude f32 0x40800000 = twoTo 2 ∧ magnitude f32 0x40800000 = twoTo (2 * 1) ∧
    magnitude f32 0x00200000 ≤ twoTo (-128) ∧ isSubnormal f32 0x40800000 = false := by decide +kernel

/-- 3 is no power of two. -/
theorem three_ne_twoTo (k : Int) : ((3 : Nat) : Rat) / ((1 : Nat) : Rat) ≠ twoTo k := by
  rw [show ((3 : Nat) : Rat) / ((1 : Nat) : Rat) = ((3 : Nat) : Rat) by decide +kernel]
  unfold twoTo
  split
  · intro h
    have h := Rat.natCast_inj.mp h
    generalize k.toNat = n at h
    match n, h with
    | n + 2, h => have : 2 ^ (n + 2) = 2 ^ n * 4 := by rw [Nat.pow_add]
                  omega
  · intro h
    have h := congrArg (· * ((2 ^ (-k).toNat : Nat) : Rat)) h
    have hp : ((2 ^ (-k).toNat : Nat) : Rat) ≠ 0 := by
      intro e
      have e := Rat.natCast_inj.mp (e.trans (rfl : (0 : Rat) = ((0 : Nat) : Rat)))
      exact Nat.ne_of_gt (Nat.pow_pos (by decide)) e
    simp only [Rat.div_def, Rat.one_mul, Rat.inv_mul_cancel _ hp] at h
    rw [← Rat.natCast_mul] at h
    have h := Rat.natCast_inj.mp (h.trans (rfl : (1 : Rat) = ((1 : Nat) : Rat)))
    have hp := Nat.pow_pos (a := 2) (n := (-k).toNat) (by decide)
    generalize 2 ^ (-k).toNat = m at h hp
    have h : 3 * m = 1 := h
    omega

/-- 3, whose square root, reciprocal and logarithm are inexact, and 2 ^ -13; -1/2 for `exp2`; and the values evaluated of their
sines and of 2 ^ -1/2. -/
theorem meets_SpecialBounds :
    (∃ n d, decodeFlush f32 0 0x40400000 = .fin false n d ∧ n ≠ 0 ∧
      ((n : Nat) : Rat) / ((d : Nat) : Rat) = ((3 : Nat) : Rat) / ((1 : Nat) : Rat) ∧ twoTo (-128) < ((n : Nat) : Rat) / ((d : Nat) : Rat) ∧
      twoTo (-149) ≤ max (((sinCos false false n d : Int) : Rat) / ((fixOne : Nat) : Rat)) (-(((sinCos false false n d : Int) : Rat) / ((fixOne : Nat) : Rat))) ∧
      max (((sinCos false false n d : Int) : Rat) / ((fixOne : Nat) : Rat)) (-(((sinCos false false n d : Int) : Rat) / ((fixOne : Nat) : Rat))) ≤ 1 ∧
      ((log2Fix n d : Int) : Rat) / ((fixOne : Nat) : Rat) ≠ 0 ∧
      max (((log2Fix n d : Int) : Rat) / ((fixOne : Nat) : Rat)) (-(((log2Fix n d : Int) : Rat) / ((fixOne : Nat) : Rat))) ≤ 150) ∧
    (∃ n d, decodeFlush f32 0 0x39000000 = .fin false n d ∧ n ≠ 0 ∧ ((n : Nat) : Rat) / ((d : Nat) : Rat) < twoTo (-12)) ∧
    (∃ n d, decodeFlush f32 0 0xbf000000 = .fin true n d ∧ n ≠ 0 ∧ (-(((n : Nat) : Rat) / ((d : Nat) : Rat))).den = 2 ∧
      0 < (((exp2Fix true n d).1 : Nat) : Rat) * twoTo (exp2Fix true n d).2 / ((fixOne : Nat) : Rat) ∧
      (((exp2Fix true n d).1 : Nat) : Rat) * twoTo (exp2Fix true n d).2 / ((fixOne : Nat) : Rat) ≤ magnitude f32 0x7f7fffff) :=
  ⟨⟨2 ^ 23 + 2 ^ 22, 2 ^ 22, by decide +kernel⟩, ⟨2 ^ 23, 2 ^ 36, by decide +kernel⟩, ⟨2 ^ 23, 2 ^ 24, by decide +kernel⟩⟩

/-- The strand with registers and a grove of 1 KiB of scratch, a region of the weight store, an assigned notify register
and a segment of that core. -/
def seg : Segment :=
  { uid := 5, world := 0, name := 7, backing := 0, owner := 255, life := .kept, state := .resident, core := 0, swizzle := 0
    size := 1, vbase := 64, stored := true, pbase := 4096 }

def dev (f : Strand → Strand) : State :=
  { one f with
    groves := (one f).groves.map fun g => { g with size := 1024 }
    wregions := [{ die := 0, entry := 0, base := 0, len := 65536, world := 0 }]
    ntable := [(9, { world := 0, arm := false, node := 0, thresh := 0 })]
    notify := [(9, 40)]
    segments := [seg] }

/-- Its grove. -/
def grove1 (s : State) : Grove := (getGrove s 0).getD (placedGrove 0 0)

/-- A read at the first address of the placed page, at the last of the weight region, and of the last bytes of scratch. -/
theorem meets_LoadStoreRequests :
    let f (st : Strand) : Strand := writeReg (writeReg (writeReg st 0 (.v 2) 0x200000) 0 (.v 4) 0xfffc) 0 (.v 5) 1020
    let s := dev f
    ∃ (i : Issue), Issuing s .always i ∧ i.st.partTag = none ∧ acquirePending s i.st = false ∧
      (∀ c ∈ [0, 1], (i.st.outs.filter (·.cls == c)).length < 63) ∧ (getWorld s i.st.world).fb.wpen = 0 ∧
      let q (space : MSpace) (kind : Nat) (ra : Reg) : MemReq :=
        { space := space, bytes := 4, kind := kind, rd := .v 1, ra := ra, rb := .zero, off := 0 }
      let meets (q : MemReq) : Prop := requesters q i ≠ [] ∧ ∀ k ∈ requesters q i, reqAddress q s.free i.st k % 4 = 0
      meets (q .global 0 (.v 2)) ∧ meets (q .global 1 (.v 2)) ∧ meets (q .scratch 0 (.v 5)) ∧ meets (q .scratch 1 (.v 5)) ∧
      meets (q .weight 0 (.v 4)) ∧
      Reaches (q .global 0 (.v 2)) s i.st 0x200000 (fun o => .global (0x200000 + o) 0) ∧
      Reaches (q .global 1 (.v 2)) s i.st 0x200000 (fun o => .global (0x200000 + o) 0) ∧
      Reaches (q .scratch 0 (.v 5)) s i.st 1020 (scratchPlace s (grove1 s) 1020) ∧
      (∀ o, o < 4 → scratchPlace s (grove1 s) 1020 o = .scratch (1020 + o)) ∧
      Reaches (q .weight 0 (.v 4)) s i.st 0xfffc (fun o => .weight (0xfffc + o)) :=
  ⟨issueIn (dev fun st => writeReg (writeReg (writeReg st 0 (.v 2) 0x200000) 0 (.v 4) 0xfffc) 0 (.v 5) 1020),
    ⟨rfl, rfl, rfl, rfl, rfl, rfl⟩, by decide, by decide, by decide, by decide, by decide, by decide, by decide, by decide,
    by decide, ⟨0x200000, 0, rfl, rfl⟩, ⟨0x200000, 0, rfl, rfl⟩, ⟨_, 1020, false, rfl, rfl, rfl, by decide, by decide⟩,
    by decide, ⟨rfl, by decide⟩⟩

theorem meets_AtomicRequests :
    let s := dev fun st => writeReg st 0 (.v 2) 0x200000
    ∃ (i : Issue), Issuing s .always i ∧ i.st.partTag = none ∧ acquirePending s i.st = false ∧
      let q0 : MemReq := { space := .global, bytes := 8, kind := 2, rd := .v 4, ra := .v 2, rb := .zero, off := 0 }
      let q (nr : Bool) : MemReq := { q0 with noResult := nr }
      (∀ nr, requesters (q nr) i ≠ [] ∧ ∀ k ∈ requesters (q nr) i, reqAddress (q nr) s.free i.st k % 8 = 0) ∧
      ∀ nr, Reaches (q nr) s i.st 0x200000 (fun o => .global (0x200000 + o) 0) :=
  ⟨issueIn (dev fun st => writeReg st 0 (.v 2) 0x200000), ⟨rfl, rfl, rfl, rfl, rfl, rfl⟩, by decide, by decide,
    by decide, fun nr => ⟨0x200000, 0, by cases nr <;> rfl, by cases nr <;> rfl⟩⟩

/-- No translation of the prefetch's address is at hand. -/
theorem meets_PrefetchResults : ∃ (s : State) (i : Issue), Issuing s .always i ∧
    ∀ k ∈ i.active, translate s i.st.core i.st.limb i.st.world (readPair s.free i.st k (.v 2)).toNat needRead = (.miss, s) :=
  ⟨s0, issueIn s0, ⟨rfl, rfl, rfl, rfl, rfl, rfl⟩, by
    intro k hk
    have : k = 0 := by simpa [show (issueIn s0).active = [0] from by decide] using hk
    subst this
    rfl⟩

/-- A load from the last bytes of a scratchpad, an atomic, and a store to uncached memory at the end of its line. -/
def pendAt (place : AccPlace) (len : Nat) (op : AccOp) : Access :=
  { id := 3, strand := 0, tix := 0, tag := 1, core := 0, world := 0, place := place, len := len, op := op, rd := .v 1
    dest := [.v 64] }

theorem meets_AccessPerformed :
    let at_ (a : Access) : State :=
      { dev (fun st => { st with outs := [{ tag := 1, cls := 0, left := 1 }] }) with pend := [a], tags := [(2, 0x80)] }
    let ok (a : Access) : Prop := (at_ a).pend.find? (·.id == 3) = some a ∧ mayPerform (at_ a) a (at_ a).pend = true ∧
      requestHeld (at_ a) a = false ∧ a.order = .relaxed ∧ (∃ st, getStrand (at_ a) a.strand = some st) ∧
      (at_ a).poison = [] ∧ a.dest.Nodup ∧ (∀ b c, a.op ≠ .texel b c) ∧ (∀ v, a.op = .store v → v.length = a.len) ∧
      a.len ∈ [1, 2, 4, 8] ∧ a.world = 0
    ok (pendAt (.scratch 0x3fff8) 8 .load) ∧ scratchOwned (at_ (pendAt (.scratch 0x3fff8) 8 .load)) 0 0 0x3fff8 = true ∧
    ok (pendAt (.scratch 0) 4 (.atom 0 false 5 0)) ∧
    ok (pendAt (.global 0x40007f 1) 1 (.store [5])) ∧
    (let s := at_ (pendAt (.global 0x40007f 1) 1 (.store [5]))
     tagOk s 0 0x40007f = true ∧ tagOk s 0 0x400000 = true ∧ getLine s.dcache 0 (0x40007f / 128) = none ∧
     getLine s.slices 0 (0x40007f / 128) = none ∧ ∀ j, j < 128 → encrypted s (0x400000 + j) = false) := by
  refine ⟨?_, by decide, ?_, ?_, ?_⟩
  · exact ⟨by decide, by decide, by decide, by decide, ⟨_, rfl⟩, by decide, by decide, (fun _ _ h => nomatch h),
      (fun _ h => nomatch h), by decide, rfl⟩
  · exact ⟨by decide, by decide, by decide, by decide, ⟨_, rfl⟩, by decide, by decide, (fun _ _ h => nomatch h),
      (fun _ h => nomatch h), by decide, rfl⟩
  · exact ⟨by decide, by decide, by decide, by decide, ⟨_, rfl⟩, by decide, by decide, (fun _ _ h => nomatch h),
      (fun _ h => by cases h; rfl), by decide, rfl⟩
  · exact ⟨by decide, by decide, by decide, by decide, by decide⟩

theorem meets_WriteBackCache : ∃ (s : State) (bs : List Byte), 0 < bs.length ∧ 0x20007c % 128 + bs.length ≤ 128 ∧
    getLine s.dcache 0 (0x20007c / 128) = none ∧
    (s.dcache.filter fun l => l.place == 0 && l.line % 128 == 0x20007c / 128 % 128).length < 16 :=
  ⟨s0, [1, 2, 3, 4], by decide, by decide, by decide, by decide⟩

/-- The extremes of the width: the greatest sum, equal and unequal compares, the increment at its bound. -/
theorem meets_AtomicTable : 4 ∈ [4, 8] ∧ 0xffffffff < 2 ^ (8 * 4) ∧ 0x80000000 < 2 ^ (8 * 4) ∧ 0 < 2 ^ (8 * 4) := by decide

/-- A fence of each kind of scope: the strand has nothing outstanding, and its core holds a dirty line. -/
theorem meets_FenceResults : ∃ (s : State) (i : Issue), Issuing s .always i ∧ i.st.outs = [] ∧ i.active ≠ [] ∧
    scopeWide .copse = true ∧ scopeStand .stand = true ∧ scopeWide .grove = false :=
  ⟨s0, issueIn s0, ⟨rfl, rfl, rfl, rfl, rfl, rfl⟩, by decide, by decide, by decide, by decide, by decide⟩

theorem meets_BarrierBegins : ∃ (s : State) (i : Issue), Issuing s .always i ∧
    i.active.length = (i.st.threads.filter fun th => !th.exited).length ∧ i.active ≠ [] :=
  ⟨one full, issueIn (one full), ⟨rfl, rfl, rfl, rfl, rfl, rfl⟩, by decide, by decide⟩

/-- The last strand to arrive, and one of two. -/
def atBar (arrived : Bool) : BarWait :=
  { level := .grove, red := .red .add .u32, rd := .v 3, pc := placedCode, arrived := arrived, payload := [(0, 5)] }

theorem meets_BarrierArrives :
    let s := one fun st => { st with status := .waitBar (atBar false) }
    ∃ (st : Strand) (g : Grove), getStrand s 0 = some st ∧ st.status = .waitBar (atBar false) ∧ st.outs = [] ∧
      getGrove s st.grove = some g ∧
      let s1 := setStrand (chargeBytes (releaseActs s st.core (barScope .grove)) st.world st.owner) { st with status := .waitBar (atBar true) }
      barMembers s1 .grove g ≠ [] ∧ ∀ m ∈ barMembers s1 .grove g, arrivedAt .grove m ≠ none ∧ m.stepm = 0 :=
  ⟨_, _, rfl, rfl, by decide, rfl, by decide, by decide⟩

theorem meets_BarrierArrives_first :
    let s : State := { s0 with strands := [{ st0 with status := .waitBar (atBar false) }, { st0 with home := 1, slot := 1 }] }
    ∃ (st : Strand) (g : Grove), getStrand s 0 = some st ∧ st.status = .waitBar (atBar false) ∧ getGrove s st.grove = some g ∧
      let s1 := setStrand (chargeBytes (releaseActs s st.core (barScope .grove)) st.world st.owner) { st with status := .waitBar (atBar true) }
      ∃ m ∈ barMembers s1 .grove g, arrivedAt .grove m = none :=
  ⟨_, _, rfl, rfl, rfl, by decide⟩

/-- Register 9 holds 40: a threshold that it just reaches, and one that it does not. -/
def waiting (v : Word) : State := dev fun st => writeReg (writeReg st 0 (.v 2) 9) 0 (.v 3) v

theorem meets_WaitnResults : ∃ (i : Issue), Issuing (waiting 40) .always i ∧ i.active = [0] ∧
    acquirePending (waiting 40) i.st = false ∧ owesRelease (waiting 40) i.st = false ∧ (readReg (waiting 40).free i.st 0 (.v 2)).toNat = 9 ∧
    (mapGet (waiting 40).ntable 9).map (·.world) = some i.st.world ∧
    (readReg (waiting 40).free i.st 0 (.v 3)).toNat ≤ (mapGetD (waiting 40).notify 9 0).toNat :=
  ⟨issueIn (waiting 40), ⟨rfl, rfl, rfl, rfl, rfl, rfl⟩, by decide, by decide, by decide, by decide, by decide, by decide⟩

theorem meets_WaitnResults_waits : ∃ (i : Issue), Issuing (waiting 41) .always i ∧ i.active = [0] ∧
    acquirePending (waiting 41) i.st = false ∧ (readReg (waiting 41).free i.st 0 (.v 2)).toNat = 9 ∧
    (mapGet (waiting 41).ntable 9).map (·.world) = some i.st.world ∧
    (mapGetD (waiting 41).notify 9 0).toNat < (readReg (waiting 41).free i.st 0 (.v 3)).toNat :=
  ⟨issueIn (waiting 41), ⟨rfl, rfl, rfl, rfl, rfl, rfl⟩, by decide, by decide, by decide, by decide, by decide⟩

/-- The condition does not hold at the end of the tick, and it holds. -/
theorem meets_WaitnTimeoutResults : ∀ least ∈ [50, 0],
    let n : NotifyWait := { index := 9, threshold := least, take := true, rd := .v 1, lead := 0, arrival := 0, until_ := some 0 }
    let s : State := { dev (fun st => { st with status := .waitNotify n }) with closing := true }
    (∃ st, getStrand s 0 = some st ∧ st.status = .waitNotify n ∧ n.until_ = some 0 ∧ 0 ≤ s.time ∧ s.closing = true ∧
      st.stepm = 0 ∧ st.rbWait = false) ∧ ((mapGetD s.notify n.index 0).toNat < n.threshold ↔ least = 50) := by
  intro least h
  exact ⟨⟨_, rfl, rfl, rfl, Nat.zero_le _, rfl, rfl, rfl⟩, by revert least; decide⟩

theorem meets_NotifyResults :
    let s := dev fun st => writeReg st 0 (.v 2) 9
    ∃ (i : Issue), Issuing s .always i ∧ i.active = [0] ∧ i.st.outs = [] ∧ (readReg s.free i.st 0 (.v 2)).toNat ≤ 4095 ∧
      (∃ e, mapGet s.ntable (readReg s.free i.st 0 (.v 2)).toNat = some e ∧ e.world = i.st.world ∧ e.arm = false) ∧
      ∀ w ∈ s.strands, ∀ n, w.status = .waitNotify n → n.index ≠ 9 :=
  ⟨issueIn (dev fun st => writeReg st 0 (.v 2) 9), ⟨rfl, rfl, rfl, rfl, rfl, rfl⟩, by decide, by decide, by decide,
    ⟨{ world := 0, arm := false, node := 0, thresh := 0 }, by decide, by decide, by decide⟩, by
      intro w hw n hn; simp [dev, one, st0, placedStrand, writeReg] at hw; subst hw; cases hn⟩

/-- The segment is held, or is not and its storage is there. -/
def holding (f : Strand → Strand) (x : Segment) : State :=
  { dev f with
    segments := [x]
    groves := (dev f).groves.map fun g => { g with attached := [{ uid := 5, name := 7, mode := .write }] } }

theorem meets_AttachResults :
    let s := dev fun st => writeReg st 0 (.v 2) 7
    ∃ (i : Issue) (g : Grove) (s1 : State), Issuing s .always i ∧ i.active = [0] ∧ getGrove s i.st.grove = some g ∧
      findSegment s i.st.world (readPair s.free i.st 0 (.v 2)) = some seg ∧ attachFault s g (some seg) .read = none ∧
      attachActs s g seg .read (i.st.evictionOf == some seg.uid) = .done s1 true :=
  ⟨issueIn (dev fun st => writeReg st 0 (.v 2) 7), grove1 (dev fun st => writeReg st 0 (.v 2) 7),
    attachTo (dev fun st => writeReg st 0 (.v 2) 7) (grove1 (dev fun st => writeReg st 0 (.v 2) 7)) 5 7 .read,
    ⟨rfl, rfl, rfl, rfl, rfl, rfl⟩, by decide, rfl, by decide, by decide, by rfl⟩

/-- A widened attach of a held segment fails. -/
theorem meets_AttachResults_fails :
    let s : State := { dev (fun st => writeReg st 0 (.v 2) 7) with
      groves := (dev id).groves.map fun g => { g with attached := [{ uid := 5, name := 7, mode := .read }] } }
    ∃ (i : Issue) (g : Grove), Issuing s .always i ∧ i.active = [0] ∧ getGrove s i.st.grove = some g ∧
      attachFault s g (some seg) .write = none ∧ attachActs s g seg .write (i.st.evictionOf == some seg.uid) = .done s false :=
  ⟨_, _, ⟨rfl, rfl, rfl, rfl, rfl, rfl⟩, by decide, rfl, by decide, by rfl⟩

/-- The last detach of a freed segment, of one of kernel lifetime, and one of several. -/
theorem meets_DetachResults : ∀ x ∈ [{ seg with attaches := 1, freed := true }, { seg with attaches := 1, life := .kernel },
      { seg with attaches := 2 }],
    let s := holding (fun st => writeReg st 0 (.v 2) 7) x
    (issueIn s).active = [0] ∧ getGrove s (issueIn s).st.grove = some (grove1 s) ∧
      heldSegment s (grove1 s) (readPair s.free (issueIn s).st 0 (.v 2)) = some x ∧
      ((issueIn s).st.outs.filter (·.cls == 1)) = [] ∧ s.chains = [] ∧ s.pend = [] := by decide

theorem meets_DetachResults_issuing :
    Issuing (holding (fun st => writeReg st 0 (.v 2) 7) seg) .always (issueIn (holding (fun st => writeReg st 0 (.v 2) 7) seg)) :=
  ⟨rfl, rfl, rfl, rfl, rfl, rfl⟩

/-- A name that the world knows, attached and not, and one that it does not. -/
theorem meets_SegfreeResults : ∃ (i : Issue), Issuing (dev fun st => writeReg st 0 (.v 2) 7) .always i ∧ i.active = [0] ∧
    findSegment (dev fun st => writeReg st 0 (.v 2) 7) i.st.world (readPair 0 i.st 0 (.v 2)) = some seg ∧ seg.attaches = 0 ∧
    findSegment (dev fun st => writeReg st 0 (.v 2) 7) i.st.world (readPair 0 i.st 0 (.v 4)) = none ∧
    findSegment (holding id { seg with attaches := 1 }) 0 7 = some { seg with attaches := 1 } :=
  ⟨_, ⟨rfl, rfl, rfl, rfl, rfl, rfl⟩, by decide, by decide, by decide, by decide, by decide⟩

/-- A chain of one card that ends it at offset 0 of scratch: the walk takes it. -/
theorem meets_EnqueueResults : ∃ (i : Issue) (g : Grove) (r : Except ChainFault (List Card)), Issuing (dev id) .always i ∧
    i.active = [0] ∧ (Instr.enq h0 3 true (.v 4) (.v 2)).WellFormed ∧ acquirePending (dev id) i.st = false ∧
    (i.st.outs.filter (·.cls == 1)) = [] ∧
    ((dev id).chains.filter fun c => c.core == i.st.core && c.ch == 3).length < 64 ∧ i.st.chains < 63 ∧
    enqWalk (dev id) i.st 0 3 (.v 2) = some (g, r) :=
  ⟨issueIn (dev id), _, _, ⟨rfl, rfl, rfl, rfl, rfl, rfl⟩, by decide, by decide, by decide, by decide, by decide, by decide, rfl⟩

/-- The channel has completed its chain, and has not. -/
theorem meets_SequenceWaitResults :
    let s : State := { dev (fun st => writeReg (writeReg st 0 (.v 2) 5) 0 (.v 4) 6) with
      channels := [{ core := 0, ch := 3, world := 0, issued := 9, completed := 5 }] }
    ∃ (i : Issue), Issuing s .always i ∧ i.active = [0] ∧ acquirePending s i.st = false ∧
      (Instr.seqw h0 3 true (.v 8) (.v 2)).WellFormed ∧
      (readPair s.free i.st 0 (.v 2)).toNat ≤ (getChannel s i.st.core 3 i.st.world).completed ∧
      ¬ (readPair s.free i.st 0 (.v 4)).toNat ≤ (getChannel s i.st.core 3 i.st.world).completed :=
  ⟨_, ⟨rfl, rfl, rfl, rfl, rfl, rfl⟩, by decide, by decide, by decide, by decide, by decide⟩

/-! #### The matrix unit -/

/-- A strand all of whose threads are active, in a grove of 4 KiB, with I8 in slots 0 and 1. -/
def mx (f : Strand → Strand) : State :=
  { one (fun st => f (full st)) with
    groves := (one id).groves.map fun g => { g with size := 4096 }
    launches := (one id).launches.map fun l => { l with record := { l.record with slots :=
      ([(0x0a, 0), (0x0a, 0)] ++ List.replicate 6 (0, 0)) } } }

theorem meets_MatrixQueued :
    let s := mx fun st => writeReg (writeReg st 0 (.v 2) 1024) 0 (.v 3) 2048
    ∃ (i : Issue) (rest : List Nat) (g : Grove) (m : OpMap), Issuing s .always i ∧ i.active = 0 :: rest ∧
      i.active.length = i.st.width ∧ (7 : Fin 8).val < i.st.ntiles ∧ getGrove s i.st.grove = some g ∧ i.st.matrix < 63 ∧
      slotOf i.lr 0 = some { fmt := .i8 } ∧ slotOf i.lr 1 = some { fmt := .i8 } ∧ mxFormat .i8 = true ∧ fmtWidth .i8 = 8 ∧
      mapOf s i.st g .mma none 0 1 { fmt := .i8 } { fmt := .i8 } = .ok (m, false) ∧
      operandsChk s i.st g .mma 1024 2048 m { fmt := .i8 } { fmt := .i8 } = .pass ∧
      sideOf i.lr (.slot 1) = some { fmt := .i8 } ∧ tileSlotBad i.lr (.slot 1) = none ∧
      operandChk s g 0 i.st.world false false 1024 0 (4 * fmtWidth .i8) 32 = .pass :=
  ⟨issueIn (mx fun st => writeReg (writeReg st 0 (.v 2) 1024) 0 (.v 3) 2048), _, _, _, ⟨rfl, rfl, rfl, rfl, rfl, rfl⟩, rfl, by decide,
    by decide, rfl, by decide, by decide, by decide, by decide, by decide, rfl, rfl, by decide, by decide, rfl⟩

/-- The map record at offset 0 asks for one group of 32, and a shape record at 64 has one dimension, of 32 channels of a byte. -/
theorem meets_MatrixChecksPass :
    let s (ws : List Nat) : State := { mx id with scratch := [(0, memWrite [] 0 (ws.flatMap (leList 8)))] }
    let conv := s [2 ^ 40, 0, 0, 64, 0, 0, 0, 0, 1, 32, 1]
    let x : Slot := { fmt := .i8 }
    ∃ g, getGrove (mx id) 0 = some g ∧ g.size ≤ 0x100000 ∧ (0 : Nat) % 64 = 0 ∧ 0 + 64 ≤ g.size ∧
      (∀ k, k < 192 → linePresent conv g.core (g.base + 0 + k) = true) ∧
      mapBad .mma ((dwords ((recordBytes (s [2 ^ 40]) st0 g 0 64).map (·.1))).map (·.toNat)) x x = false ∧
      mapBad .mconv ((dwords ((recordBytes conv st0 g 0 64).map (·.1))).map (·.toNat)) x x = false ∧ x.ssrc ≠ 1 ∧
      (let m := parseMap ((dwords ((recordBytes conv st0 g 0 64).map (·.1))).map (·.toNat))
       m.shape % 8 = 0 ∧ m.shape + 128 ≤ g.size ∧ shapeBad ((recordBytes conv st0 g m.shape 128).map (·.1)) m x = false ∧
       (∀ d ∈ boxPoints (convDims ((recordBytes conv st0 g m.shape 128).map (·.1))),
         0 ≤ ((1024 : Nat) : Int) + d ∧ (((1024 : Nat) : Int) + d).toNat + fmtWidth x.fmt / 8 ≤ g.size)) ∧
      (let m : OpMap := {}
       m.aws = false ∧ m.bws = false ∧ m.astride = 0 ∧ 1024 % 8 = 0 ∧
       ∀ j, j < 32 → 1024 + j * (4 * fmtWidth x.fmt) + 4 * fmtWidth x.fmt ≤ g.size ∧ 128 * m.kn ≤ g.size) :=
  ⟨_, rfl, by decide +kernel⟩

theorem meets_MatrixDefaultQueued :
    let s := mx fun st => writeReg (writeReg st 0 (.v 2) 1024) 0 (.v 3) 2048
    ∃ (i : Issue) (rest : List Nat) (g : Grove), Issuing s .always i ∧ i.active = 0 :: rest ∧ i.active.length = i.st.width ∧
      (7 : Fin 8).val < i.st.ntiles ∧ getGrove s i.st.grove = some g ∧ g.size ≤ 0x100000 ∧ i.st.matrix < 63 ∧ s.mx = [] ∧
      slotOf i.lr 0 = some { fmt := .i8 } ∧ slotOf i.lr 1 = some { fmt := .i8 } ∧ mxFormat .i8 = true ∧
      (readReg s.free i.st 0 (.v 2)).toNat = 1024 ∧ (readReg s.free i.st 0 (.v 3)).toNat = 2048 ∧
      2048 + 32 * (4 * fmtWidth .i8) ≤ g.size ∧ sideOf i.lr (.slot 1) = some { fmt := .i8 } ∧
      tileSlotBad i.lr (.slot 1) = none ∧ (readReg s.free i.st 0 .zero).toNat = 0 :=
  ⟨issueIn (mx fun st => writeReg (writeReg st 0 (.v 2) 1024) 0 (.v 3) 2048), _, _, ⟨rfl, rfl, rfl, rfl, rfl, rfl⟩, rfl, by decide,
    by decide, rfl, by decide⟩

/-- An operation of each kind at its end, and one that may start. -/
def mxOp (kind : MxKind) (running : Bool) : MxOp :=
  { id := 9, core := 0, limb := 0, strand := 0, grove := 0, world := 0, kind := kind, tile := 2, fmode := 0, after := []
    running := running, a := 1024, b := 2048, slotA := 0x0a, slotB := 0x0a }

theorem meets_MatrixStarts :
    let s : State := { mx id with mx := [mxOp .mma false] }
    (s.mx.filter fun x => x.core == 0 && x.limb == 0).head? = some (mxOp .mma false) ∧
    (∀ x ∈ s.mx, x.core = 0 → x.limb = 0 → x.running = false) ∧ s.nreqs = [] ∧
    (∀ g, getGrove s 0 = some g → ∀ r ∈ mxRanges (mxOp .mma false), absentLine s g r.1 r.2 = none) ∧
    (∀ st, getStrand s 0 = some st → ∀ x ∈ st.outs, x.tag ∉ (mxOp .mma false).after) := by
  refine ⟨by decide, by decide, by decide, ?_, ?_⟩
  · intro g hg; cases hg; decide
  · intro st hs; cases hs; decide

theorem meets_MatrixCompletes : ∀ kind ∈ [MxKind.mz, .mst, .mma],
    let s : State := { mx id with mx := [mxOp kind true] }
    (s.mx.find? fun x => x.core == 0 && x.limb == 0 && x.running) = some (mxOp kind true) ∧
    (getStrand s 0).isSome = true ∧ mxNotRefreshing s (mxOp kind true) = true ∧ (mxOp kind true).map = {} ∧
    mxSlot (mxOp kind true).slotA = { fmt := .i8 } ∧ (getGrove s 0).isSome = true := by decide

/-- Operations on 8-bit integers of every kind, one with a map of two blocks and a shape; and the slots of bf16 and e4m3. -/
theorem meets_MatrixValues :
    (∀ kind ∈ [MxKind.mma, .mmaSp, .mconv, .mld, .mst],
      let o := { mxOp kind true with map := { kn := 2, oext := [4, 5], dims := [(64, 1, 0, 0, 0, 0), (6, 64, 3, 1, 2, 1), (7, 300, 2, 1, 1, 2)] } }
      let s : State := { mx id with mx := [o] }
      (s.mx.find? fun x => x.core == 0 && x.limb == 0 && x.running) = some o ∧ (getStrand s 0).isSome = true ∧
      mxNotRefreshing s o = true ∧ o.map.kn ≤ 255 ∧ mxSlot o.slotA = { fmt := .i8 } ∧ mxSlot o.slotB = { fmt := .i8 }) ∧
    mxSlot 0x03 = { fmt := .bf16 } ∧ mxSlot 0x04 = { fmt := .e4m3 } ∧ accumulatesInt (mxSlot 0x03) (mxSlot 0x04) = false := by
  decide

/-! #### Grafts -/

/-- Two strands of a lane: the second does not wait, waits for the first, and has room to give. -/
def pair (status : Status) (f : Strand → Strand) : State :=
  { one f with
    groves := (one f).groves.map fun g => { g with count := 2 }
    launches := (one f).launches.map fun l => { l with record := { l.record with frame := 16 } }
    strands := [f { st0 with depth := 96 }, { st0 with home := 1, slot := 1, sidx := 1, depth := 128, status := status
                                                       threads := [{ pc := placedCode, height := 16, fsize := 16 }] }] }

def asks (st : Strand) : Strand := writeReg (writeReg st 0 (.v 2) 1) 0 (.v 3) 8

theorem meets_GraftBegins :
    let s := pair .ready asks
    ∃ (i : Issue) (w : Strand), Issuing s .always i ∧ i.active = [0] ∧ (readReg s.free i.st 0 (.v 2)).toNat = 1 ∧
      (readReg s.free i.st 0 (.v 3)).toInt = 8 ∧ 1 ≠ i.st.sidx ∧ 1 < ((getGrove s i.st.grove).map (·.count)).getD 0 ∧
      (s.strands.find? fun x => x.grove == i.st.grove && x.sidx == 1 && !x.threads.all (·.exited)) = some w ∧
      (∀ g, w.status = .waitGraft g → g.partner ≠ i.st.home) :=
  ⟨issueIn (pair .ready asks), _, ⟨rfl, rfl, rfl, rfl, rfl, rfl⟩, by decide, by decide, by decide, by decide, by decide, rfl,
    by intro g hg; cases hg⟩

def gives : GraftWait := { pc := placedCode, partner := 0, count := -8, pd := 3, arrival := 0 }

/-- The room test holds: 16 threads of 104 and of 120 registers. -/
theorem meets_GraftMatches :
    let s := pair (.waitGraft gives) asks
    ∃ (i : Issue) (w : Strand), Issuing s .always i ∧ i.active = [0] ∧ (readReg s.free i.st 0 (.v 2)).toNat = 1 ∧
      (readReg s.free i.st 0 (.v 3)).toInt = 8 ∧
      (s.strands.find? fun x => x.grove == i.st.grove && x.sidx == 1 && !x.threads.all (·.exited)) = some w ∧
      getStrand s w.home = some w ∧ w.home ≠ s.issuer ∧ w.stepm = 0 ∧ w.rbWait = false ∧ w.status = .waitGraft gives ∧
      gives.partner = i.st.home ∧ gives.count = -8 ∧ strandLane i.st = strandLane w ∧
      i.st.width * (i.st.depth + 8) * 4 + w.width * (w.depth - 8) * 4 ≤ 22528 ∧
      (∀ th ∈ w.threads, th.height - th.floor ≤ w.depth - 8) ∧ (strandRecord s w).frame ≤ w.depth - 8 :=
  ⟨issueIn (pair (.waitGraft gives) asks), _, ⟨rfl, rfl, rfl, rfl, rfl, rfl⟩, by decide, by decide, by decide, rfl, rfl, by decide,
    by decide, by decide, rfl, by decide, by decide, by decide, by decide, by decide, by decide⟩

/-! #### Graphics, ray queries and neural requests -/

/-- A target of 64 by 64 pixels of owner 0 at the placed page. -/
def surface : Desc := { base := 0x200000, width := 64, height := 64, pitch := 4 }

def draw0 : Draw :=
  { id := 4, queue := 0, index := 0, world := 0, owner := 0, frame := 0, key := 0, mesh := {}, pixel := {}
    outs := [some (3, surface), none, none, none], entries := 64, tiles := [{ index := 0, core := 0 }] }

def gfx (kind : Kind) (f : Strand → Strand) : State :=
  { dev (fun st => { f st with kind := kind }) with draws := [draw0], descs := [(3, surface)] }

/-- The record of a triangle (0, 0), (16, 0), (0, 16) at depth 0.5, and how many entries it needs: one listed, one culled
by its zero area, one without room. -/
def triangle (x1 : Nat) : List Byte :=
  [0, 0, 0x3f000000, x1, 0, 0x3f000000, 0, 0x41800000, 0x3f000000, 7, 0, 0].flatMap fun w => leList 4 w

theorem meets_BinningUnit :
    primRecord (triangle 0x41800000) = some ([0, 4096, 0], [0, 0, 4096], [0x3f000000, 0x3f000000, 0x3f000000], 7, 0) ∧
    signedArea [0, 4096, 0] [0, 0, 4096] = 4096 * 4096 ∧ tilesOf 64 64 [0, 4096, 0] [0, 0, 4096] = [0] ∧
    (primRecord (triangle 0)).map (fun r => signedArea r.1 r.2.1) = some 0 ∧ primRecord (triangle 0x7f800000) = none ∧
    { draw0 with entries := 0 }.entries < draw0.used + 1 ∧ draw0.used + 1 ≤ draw0.entries := by decide

theorem meets_BinResults :
    let s := gfx (.mesh 4) fun st => writeReg st 0 (.v 2) 976
    ∃ (i : Issue) (g : Grove), Issuing s .always i ∧ i.st.kind = .mesh 4 ∧ getDraw s 4 = some draw0 ∧
      getGrove s i.st.grove = some g ∧ MayBegin s i.st 0 ∧ takers i (.v 1) = [0] ∧
      (s.poison = [] ∧ (getWorld s i.st.world).fb.wpen = 0) ∧ Readable s i.st g (readReg s.free i.st 0 (.v 2)).toNat 48 16 :=
  ⟨issueIn (gfx (.mesh 4) fun st => writeReg st 0 (.v 2) 976), _, ⟨rfl, rfl, rfl, rfl, rfl, rfl⟩, rfl, by decide, rfl,
    ⟨by decide, by decide, by decide⟩, by decide, ⟨by decide, by decide⟩, by decide, by
      intro k hk
      exact ⟨976 + k, false, by
        have : (readReg 0 (issueIn (gfx (.mesh 4) fun st => writeReg st 0 (.v 2) 976)).st 0 (.v 2)).toNat = 976 := by decide
        show viewMap _ _ ((readReg 0 (issueIn (gfx (.mesh 4) fun st => writeReg st 0 (.v 2) 976)).st 0 (.v 2)).toNat + k) = _
        rw [this]
        revert k; decide, by revert k; decide, by revert k; decide⟩⟩

def pixels0 : List (Option Pixel) := [some { x := 5, y := 6, prim := 0 }]

theorem meets_PoutResults :
    let s := gfx (.pixel 4 0 true pixels0) id
    ∃ (i : Issue), Issuing s .always i ∧ (Instr.pout h0 .rgba16f 0 (.v 2)).WellFormed ∧
      i.st.kind = .pixel 4 0 true pixels0 ∧ ((getDraw s 4).bind fun x => x.outs.getD 0 none) = some (3, surface) ∧
      (pixelOwner s surface 5 6).1 = i.st.owner :=
  ⟨_, ⟨rfl, rfl, rfl, rfl, rfl, rfl⟩, by decide, rfl, by decide, by decide⟩

/-- A texel of 16-bit channels read into the form of 8-bit ones, from memory that no cache holds. -/
theorem meets_TexelsRead :
    let a : Access := { pendAt (.global 0x400088 1) 8 (.texel true false) with dest := [.v 256, .v 320] }
    let s : State := { dev (fun st => { st with outs := [{ tag := 1, cls := 0, left := 1 }] }) with pend := [a], tags := [(2, 0x80)] }
    s.pend.find? (·.id == 3) = some a ∧ mayPerform s a s.pend = true ∧ requestHeld s a = false ∧ a.order = .relaxed ∧
    (getStrand s a.strand).isSome = true ∧ a.dest.Nodup ∧ a.dest.length = 2 ∧ 0x400088 % 128 + a.len ≤ 128 ∧
    getLine s.dcache 0 (0x400088 / 128) = none ∧ getLine s.slices 0 (0x400088 / 128) = none ∧ tagOk s 0 0x400088 = true ∧
    tagOk s 0 0x400080 = true ∧ a.world = 0 ∧ (∀ j, j < 128 → encrypted s (0x400080 + j) = false) := by decide

/-- The last pixel of an image, of an owner that has had its record of the period, and of one that has not. -/
theorem meets_DiscardRecords :
    let s : State := { dev id with discardSeen := [3], suppressed := [(3, 2 ^ 32 - 1)] }
    65535 < 2 ^ 16 ∧ 3 ∈ s.discardSeen ∧ 9 ∉ s.discardSeen ∧ mapGetD s.suppressed 3 0 < 2 ^ 32 ∧ mapGetD s.suppressed 9 0 = 0 ∧
    st0.owner < 256 ∧ st0.world < 64 := by decide


theorem meets_DiscardResults :
    let s := gfx (.pixel 4 0 false pixels0) id
    ∃ (i : Issue), Issuing s .always i ∧ i.st.kind = .pixel 4 0 false pixels0 ∧
      ∀ w ∈ s.strands, ∀ g, w.status = .waitGraft g → g.partner ≠ i.st.home :=
  ⟨_, ⟨rfl, rfl, rfl, rfl, rfl, rfl⟩, rfl, by
    intro w hw g hg; simp [gfx, dev, one, st0, placedStrand] at hw; subst hw; cases hg⟩

/-- A texel of its own owner, inside; and one outside under `.zero`. -/
theorem meets_SampleResults :
    let s := gfx .compute fun st => writeReg (writeReg st 0 (.v 2) 3) 0 (.v 3) 0x0002003f
    ∃ (i : Issue), Issuing s .always i ∧ (Instr.smp h0 false .rgba8 (.v 4) (.v 2) (.v 3)).WellFormed ∧ MayBegin s i.st 0 ∧
      takers i (.v 4) = [0] ∧ (readReg s.free i.st 0 (.v 2)).toNat = 3 ∧ mapGet s.descs 3 = some surface ∧
      surface.world = i.st.world ∧ (readReg s.free i.st 0 (.v 3)).toNat % 65536 < surface.width ∧
      consent s 3 surface (pixelOwner s surface 63 2).1 i.st.owner 0 = none ∧
      (getWorld s i.st.world).fb.wpen = 0 ∧
      surface.height ≤ (0x00400000 : Word).toNat / 65536 ∧ consent s 3 surface 9 i.st.owner 0 = some 1 ∧
      translate s i.st.core i.st.limb 0 (0x200000 + 2 * 256 + 63 * 4) needRead = (.ok 0x2002fc 0, s) :=
  ⟨_, ⟨rfl, rfl, rfl, rfl, rfl, rfl⟩, by decide, ⟨by decide, by decide, by decide⟩, by decide, by decide, by decide, by decide,
    by decide, by decide, by decide, by decide, by decide, rfl⟩

theorem meets_SampleResults_outside :
    let s := gfx .compute fun st => writeReg (writeReg st 0 (.v 2) 3) 0 (.v 3) 0x00400000
    ∃ (i : Issue), Issuing s .always i ∧ (readReg s.free i.st 0 (.v 2)).toNat = 3 ∧
      surface.height ≤ (readReg s.free i.st 0 (.v 3)).toNat / 65536 :=
  ⟨_, ⟨rfl, rfl, rfl, rfl, rfl, rfl⟩, by decide, by decide⟩

/-- A launch record with frames of 256 bytes and one level, in a grove of 64 KiB. -/
def rays (clamp : Bool) (f : Strand → Strand) : State :=
  { dev f with
    groves := (dev f).groves.map fun g => { g with size := 0x10000 }
    launches := (dev f).launches.map fun l => { l with record := { l.record with tframe := 4, tdepth := 1, tclamp := clamp } } }

theorem meets_QueryBegins_opens :
    let s := rays false id
    ∃ (i : Issue) (g : Grove), Issuing s .always i ∧ i.active = [0] ∧ getGrove s i.st.grove = some g ∧
      Reg.isQuad (.v 4) = true ∧ 0 < i.st.threads.length ∧ (getThread i.st 0).ql < i.lr.tdepth ∧
      (readReg s.free i.st 0 (.v 2)).toNat = 0 ∧ frameOk i.lr g i.st 0 1 = true ∧ linePresent s i.st.core 31 = true ∧
      scratchOwned s i.st.core i.st.world 31 = true ∧ viewMap s g 31 = some (31, false) :=
  ⟨_, _, ⟨rfl, rfl, rfl, rfl, rfl, rfl⟩, by decide, rfl, by decide, by decide, by decide, by decide, by decide, by decide, by decide,
    by decide⟩

theorem meets_QueryBegins_clamps :
    let s := rays true (thread0 fun t => { t with ql := 1 })
    ∃ (i : Issue), Issuing s .always i ∧ i.active = [0] ∧ (getThread i.st 0).ql = i.lr.tdepth ∧ i.lr.tclamp = true ∧
      (getThread i.st 0).qe ≠ 255 ∧ i.st.queries = [] :=
  ⟨_, ⟨rfl, rfl, rfl, rfl, rfl, rfl⟩, by decide, by decide, by decide, by decide, by decide⟩

theorem meets_QueryBegins_next :
    let s := rays true (thread0 fun t => { t with ql := 1 })
    ∃ (i : Issue) (g : Grove), Issuing s .always i ∧ getGrove s i.st.grove = some g ∧ (getThread i.st 0).qe = 0 ∧
      0 < (getThread i.st 0).ql ∧ frameOk i.lr g i.st 0 1 = true ∧ (getThread (issueIn s0).st 0).ql = 0 :=
  ⟨_, _, ⟨rfl, rfl, rfl, rfl, rfl, rfl⟩, rfl, by decide, by decide, by decide, by decide⟩

/-- Two queries that have returned. -/
theorem meets_TraversalReturns :
    let q (k : Nat) : Query := { tix := k, pc := placedCode, rd := .v 4, ask := .miss }
    let s := rays false fun st => { st with status := .parked .traversal, queries := [q 0, q 15] }
    ∃ (st : Strand) (g : Grove) (rs : List (Query × QueryEnd)) (s1 : State), getStrand s 0 = some st ∧
      st.status = .parked .traversal ∧ getGrove s st.grove = some g ∧ st.stepm = 0 ∧ st.rbWait = false ∧ st.stopAfter = none ∧
      runQueries (strandRecord s st) g st st.queries [] s = (rs, none, s1) ∧
      (st.queries.map (·.tix)).Pairwise (· < ·) ∧ ∀ x ∈ st.queries, x.tix < st.threads.length ∧ x.tix < 64 :=
  ⟨_, _, _, _, rfl, rfl, rfl, rfl, rfl, rfl, rfl, by decide, by decide⟩

/-- A miss, then a query whose tree begins at an address that is not canonical, then another. -/
theorem meets_TraversalReturns_faults :
    let q (k : Nat) (ask : RqAsk) : Query := { tix := k, pc := placedCode, rd := .v 4, ask := ask }
    let s := rays false fun st => { st with
      status := .parked .traversal
      queries := [q 0 .miss, q 5 (.open_ (List.replicate 32 0) 0x7000000000000000 0), q 7 .miss] }
    ∃ (st : Strand) (g : Grove) (x : Query × QueryEnd) (c : Cause) (a : Nat) (s1 : State), getStrand s 0 = some st ∧
      st.status = .parked .traversal ∧ getGrove s st.grove = some g ∧ st.stepm = 0 ∧ st.rbWait = false ∧ st.stopAfter = none ∧
      runQueries (strandRecord s st) g st st.queries [] s = ([x], some (5, .fault c a), s1) ∧
      (st.queries.map (·.tix)).Pairwise (· < ·) ∧ ∀ x ∈ st.queries, x.tix < st.threads.length ∧ x.tix < 64 :=
  ⟨_, _, _, _, _, _, rfl, rfl, rfl, rfl, rfl, rfl, rfl, by decide, by decide⟩

/-- A header whose query has ended, and one with a candidate that is accepted. -/
def header (w5 w7 : Nat) : State :=
  { rays false (thread0 fun t => { t with ql := 1 }) with
    scratch := [(0, memWrite [] 36 (leList 4 0x80000003 ++ leList 4 0 ++ leList 4 w5 ++ leList 8 0 ++ leList 8 w7))] }

/-- A query handed back by that thread. -/
def asked (accept : Bool) : Query := { tix := 0, pc := placedCode, rd := .v 4, ask := .next accept }

theorem views_owned (w5 w7 : Nat) : ∀ a p d, viewMap (header w5 w7) (grove1 (header w5 w7)) a = some (p, d) →
    scratchOwned (header w5 w7) (grove1 (header w5 w7)).core 0 p = true := by
  intro a p d h
  have hs : (grove1 (header w5 w7)).size = 0x10000 := rfl
  have hb : (grove1 (header w5 w7)).base = 0 := rfl
  have hw : windowAt (header w5 w7) (grove1 (header w5 w7)) a = none := rfl
  simp only [viewMap, hs, hb, hw] at h
  split at h
  · rename_i lt
    cases h
    have : (0 + a) / 0x40000 = 0 := by omega
    simp only [scratchOwned, this]
    rfl
  · cases h

theorem meets_QueryResults :
    let h (s : State) : Header := readHeader s (grove1 s) 0 (frameAt (strandRecord s (issueIn s).st) (issueIn s).st 0 1)
    (h (header 0 8)).ended = true ∧ (h (header 0 8)).cand = none ∧ (h (header 0 8)).q.chit = some 3 ∧
    (h (header 0x80000005 0)).cand = some (5, 0, 0) ∧ (h (header 0x80000005 0)).q.mode % 2 = 0 ∧
    (h (header 0x80000005 1)).ended = false ∧ (h (header 0x80000005 1)).cand = some (5, 0, 0) ∧
    (h (header 0x80000005 1)).q.mode % 2 = 1 ∧ (h (header 0 0)).ended = false ∧ (h (header 0 0)).cand = none := by decide

/-- The tree of that header is not mapped: the traversal of it does not go on. -/
theorem meets_QueryResults_stops :
    let s := header 0 0
    let q := (readHeader s (grove1 s) 0 (frameAt (strandRecord s (issueIn s).st) (issueIn s).st 0 1)).q
    ∃ e, traverse 0 0 ((strandRecord s (issueIn s).st).tframe * 64) (some 0) { q with root := 0x7000000000000000 } s = .error e :=
  ⟨_, rfl⟩

/-- A candidate is accepted and the query ends: its header goes back to its frame, in a bank group of its world. -/
theorem meets_TraversalReturns_writes :
    let s0 := header 0x80000005 0
    let s : State := { s0 with strands := s0.strands.map fun st => { st with status := .parked .traversal, queries := [asked true] } }
    ∃ (st : Strand) (g : Grove) (x : Query × QueryEnd) (s1 : State) (a : Nat) (h : Header), getStrand s 0 = some st ∧
      getGrove s st.grove = some g ∧ runQueries (strandRecord s st) g st st.queries [] s = ([x], none, s1) ∧
      x.2.header = some (a, h) ∧ 63 < (headerBytes s1.free h).length ∧ scratchOwned s g.core st.world (g.base + a + 63) = true :=
  ⟨_, _, _, _, _, _, rfl, rfl, rfl, rfl, by decide, by decide⟩

/-- A net record of one layer at offset 64, with its weights at the base of the region, in E4M3 of slot 2. -/
def neural (f : Strand → Strand) : State :=
  { dev fun st => f (writeReg (writeReg (writeReg st 0 (.v 2) 0) 0 (.v 3) 64) 0 (.v 4) 128) with
    launches := (slotted id).launches.map fun l => { l with record := { l.record with slots :=
      ([(0x01, 0), (0x02, 0), (0x04, 0)] ++ List.replicate 5 (0, 0)) } }
    scratch := [(0, memWrite [] 64 (leList 8 (2 * 512) ++ leList 8 0))] }

theorem meets_NeuralRequests :
    let s := neural id
    ∃ (i : Issue) (g : Grove), Issuing s .always i ∧ getGrove s i.st.grove = some g ∧ takers i (.v 1) = [0] ∧
      0 < i.st.threads.length ∧ (readReg s.free i.st 0 (.v 2)).toNat = 0 ∧ (readReg s.free i.st 0 (.v 3)).toNat = 64 ∧
      (readReg s.free i.st 0 (.v 4)).toNat = 128 ∧ rangeChk s g false 0 64 = .pass ∧ rangeChk s g false 64 64 = .pass ∧
      rangeChk s g true 128 64 = .pass ∧ absentLine s g 0 64 = none ∧ absentLine s g 64 64 = none ∧
      absentLine s g 128 64 = none ∧ (parseNet ((recordBytes s i.st g 64 64).map (·.1))).bad = false ∧
      netSlot i.lr (parseNet ((recordBytes s i.st g 64 64).map (·.1))) = some { fmt := .e4m3 } ∧
      (parseNet ((recordBytes s i.st g 64 64).map (·.1))).wofs = [0] ∧
      weightOk s (dieOf i.st.core) i.st.world 0 (32 * (4 * fmtWidth .e4m3)) = true ∧ s.nreqs = [] ∧
      rangeChk s g false 128 64 = .pass ∧ (getWorld s i.st.world).fb.wpen = 0 ∧
      ∀ j, j < 64 → viewMap s g (64 + j) = some (64 + j, false) ∧ scratchOwned s i.st.core i.st.world (64 + j) = true :=
  ⟨issueIn (neural id), _, ⟨rfl, rfl, rfl, rfl, rfl, rfl⟩, rfl, by decide, by decide, by decide, by decide, by decide, rfl, rfl, rfl,
    by decide, by decide, by decide, by decide, by decide, by decide, by decide, by decide, rfl, by decide, by decide⟩

/-- A ticket that has completed, one with poison, and one that the thread does not hold. -/
theorem meets_NeuralGets : ∀ no : Fin 4,
    let st := thread0 (fun t => { t with tickets := [⟨0, true, false⟩, ⟨1, true, true⟩, ⟨2, true, false⟩] }) st0
    ∀ x, (getThread st 0).tickets.find? (·.no == no.val) = some x → x.done = true := by decide

def request (n : Nat) (started : Option (List Byte)) (dropped : Bool) : NReq :=
  { id := n, core := 0, limb := 0, world := 0, strand := 0, grove := 0, tix := 0, ticket := 0, input := 0, output := 128
    net := 64, wofs := [0], relu := false, slot := 4, fmode := 0, queued := 0, started := started, dropped := dropped }

theorem meets_NeuralBatches :
    let s : State := { neural id with nreqs := (List.range 33).map fun n => request n none false }
    (s.nreqs.map (·.id)).Nodup ∧ s.mx = [] ∧
    (∀ x ∈ s.nreqs, x.core = 0 → x.limb = 0 → x.started = none ∧ x.world = 0 ∧ x.net = 64 ∧ x.grove = 0) ∧
    32 ≤ (s.nreqs.filter fun x => x.core == 0 && x.limb == 0).length := by decide

theorem meets_NeuralBatches_complete : ∀ dropped : Bool,
    let r := request 1 (some (List.replicate 64 0)) dropped
    let s : State := { neural id with nreqs := [r] }
    (s.nreqs.map (·.id)).Nodup ∧ (s.nreqs.find? fun x => x.core == 0 && x.limb == 0 && x.id == 1) = some r ∧
    (getStrand s 0).isSome = true ∧ (getGrove s 0).isSome = true ∧
    weightsReady { s with time := 2000 } r (mxSlot r.slot) = true ∧ outputWaits s (grove1 s) r = false ∧
    outputWaits { s with pend := [{ pendAt (.scratch 130) 2 (.store [1, 2]) with id := 0 }] } (grove1 s) r = true ∧
    viewMap s (grove1 s) r.output = some (128, false) ∧ scratchOwned s 0 0 128 = true := by decide

/-! #### System instructions, translation, stops of strands -/

theorem of_isOk {ε α : Type} {x : Except ε α} (h : x.isOk = true) : ∃ a, x = .ok a := by
  cases x with
  | error e => cases h
  | ok a => exact ⟨a, rfl⟩

theorem of_toOption {ε α : Type} {x : Except ε α} {a : α} (h : x.toOption = some a) : x = .ok a := by
  cases x with
  | error e => cases h
  | ok b => cases h; rfl

theorem meets_SpecialRegisters : ∃ (i : Issue), Issuing s0 .always i ∧ i.active = [0] ∧ Reg.isPair (.v 2) = true ∧
    (Instr.mfs h0 (.v 2) 0x1e).WellFormed ∧ (Instr.mfs h0 (.v 3) 0x27).WellFormed ∧ (Instr.mts h0 (.v 2) 0x20).WellFormed :=
  ⟨issueIn s0, ⟨rfl, rfl, rfl, rfl, rfl, rfl⟩, by decide, by decide, by decide, by decide, by decide⟩

/-- A guard that is false for every thread leaves none active. -/
theorem meets_Breakpoints : ∃ (i j : Issue), Issuing s0 .always i ∧ i.active = [0] ∧ Issuing s0 (.onTrue 3) j ∧ j.active = [] :=
  ⟨issueIn s0, (issueOf s0 (.onTrue 3)).getD (issueIn s0), ⟨rfl, rfl, rfl, rfl, rfl, rfl⟩, by decide, ⟨rfl, rfl, rfl, rfl, rfl, rfl⟩, by decide⟩

/-- The handle of strand 1, and an action, in the registers of strand 0. -/
def returns (action : Word) (status : Status) (preempt : Nat) : State :=
  { pair status (fun st => writeReg (writeReg st 0 (.v 2) (BitVec.ofNat 32 (handleOf 1 0))) 0 (.v 3) action) with
    launches := (one id).launches.map fun l => { l with record := { l.record with preempt := preempt } } }

theorem meets_FaultReturn :
    let f : FaultInfo := { cls := 2, cause := 1, pc := placedCode }
    ∀ c ∈ [(0, Status.ready, 0), (0, .faulted f, 0), (1, .faulted f, 0), (1, .faulted f, 1), (2, .faulted f, 0), (3, .ready, 0)],
      let s := returns c.1 c.2.1 c.2.2
      (issueIn s).active = [0] ∧ (issueIn s).st.world = 0 ∧ (∀ y ∈ s.strands, y.stepm = 0) ∧
      (s.strands.find? fun x => handleOf x.home x.gen == (readReg s.free (issueIn s).st 0 (.v 2)).toNat).map (·.home) = some 1 ∧
      (readReg s.free (issueIn s).st 0 (.v 3)) = c.1 ∧ ((getStrand s 1).map (·.status)) = some c.2.1 ∧
      ((getStrand s 1).map fun x => (strandRecord s x).preempt) = some c.2.2 := by decide

/-- No thread but the first, which is the lead, with a full meet stack; a strand of world 3 with 2 tiles; and a strand of
which one thread of 16 is active. -/
def alone : State := one (thread0 fun t => { t with mstack := List.replicate 8 0 })

def foreign : State := { one (fun st => { st with world := 3, ntiles := 2 }) with limbWorld := [(0, 3)] }

def crowd : State := one fun st => thread0 (fun t => { t with preds := 2 }) (full st)

theorem meets_StopsWithoutEffect :
    (Issuing alone .always (issueIn alone) ∧ Issuing foreign .always (issueIn foreign) ∧
      Issuing crowd (.onTrue 1) ((issueOf crowd (.onTrue 1)).getD (issueIn crowd))) ∧
    (let i := issueIn alone
     i.active = [0] ∧ isMesh i.st.kind = false ∧ isPixel i.st.kind = false ∧ (readReg 0 i.st 0 .zero).toInt = 0 ∧
     i.active.length ≠ i.st.width ∧ i.st.diverge ≤ (getThread i.st 0).mstack.length ∧ (7 : Fin 8).val < i.st.ntiles ∧
     (i.pc + 8 - i.lr.code).toNat / 8 < 2 ^ 25 ∧ acquirePending alone i.st = false ∧ owesRelease alone i.st = false ∧
     (readReg 0 i.st 0 .zero).toNat ≤ 4095 ∧ (mapGet alone.ntable 0).map (·.world) ≠ some i.st.world ∧
     i.st.evictionOf = none ∧ findSegment alone i.st.world (readPair 0 i.st 0 .zero) = none ∧
     heldSegment alone (grove1 alone) (readPair 0 i.st 0 .zero) = none ∧ (∀ n : Fin 8, slotOf i.lr n = none) ∧
     (getThread (issueIn s0).st 0).mstack = []) ∧
    (let s := waiting 0
     let st := writeReg (issueIn s).st 0 (.v 2) 4096
     4095 < (readReg 0 st 0 (.v 2)).toNat ∧ acquirePending s st = false ∧ owesRelease s st = false) ∧
    (let i := issueIn foreign
     i.active = [0] ∧ i.st.world ≠ 0 ∧ i.st.ntiles ≤ (2 : Fin 8).val) ∧
    (let i := (issueOf crowd (.onTrue 1)).getD (issueIn crowd)
     i.active = [0] ∧ i.active.length ≠ (i.st.threads.filter fun th => !th.exited).length) :=
  ⟨⟨⟨rfl, rfl, rfl, rfl, rfl, rfl⟩, ⟨rfl, rfl, rfl, rfl, rfl, rfl⟩, ⟨rfl, rfl, rfl, rfl, rfl, rfl⟩⟩, by decide, by decide, by decide, by decide⟩

/-- Breakpoint 3 at the word, and breakpoint 0 disabled; and a strand that is stepped. -/
def broken : State :=
  { s0 with worlds := s0.worlds.map fun x => { x with fb := { x.fb with bpen := 8, bp := [0, 0, 0, placedCode] } } }

def stepped : State := one fun st => { st with stepm := 1 }

theorem meets_BreakpointsAndStepping :
    issueOf broken .always = some (issueIn broken) ∧ issueOf stepped .always = some (issueIn stepped) ∧
    (let i := issueIn broken
     i.going = false ∧ MayIssue broken i.st (.nop h0) ∧ i.st.skipBp = none ∧ (getWorld broken i.st.world).fb.bpen / 2 ^ 3 % 2 = 1 ∧
     (getWorld broken i.st.world).fb.bp.getD 3 0 = i.pc ∧
     ∀ m : Fin 4, m < 3 → (getWorld broken i.st.world).fb.bpen / 2 ^ m.val % 2 = 0) ∧
    (let i := issueIn stepped
     i.going = false ∧ i.st.status = .ready ∧ i.st.poisoned = [] ∧ i.st.cut = none ∧ breakpointAt stepped i.st i.pc = none ∧
     i.st.stepm = 1) :=
  ⟨rfl, rfl, ⟨rfl, fun _ _ _ _ _ h => (by cases h), rfl, by decide, by decide, by decide⟩, by decide⟩

/-- Tables at 0x210000: the first 1 GiB at its own addresses, with every permission; and one 4 KiB page, at 2^30, at
0x203000, through the tables at 0x230000 and 0x240000. -/
def bytesAt (at_ : Nat) (ws : List Nat) : Mem :=
  ((ws.flatMap (leList 8)).zipIdx.map fun (x : Byte × Nat) => (at_ + x.2, x.1)).filter (·.2 != 0)

def mapped (s : State) (leaf : Nat) (low : Mem := []) : State :=
  { s with
    mem := low ++ bytesAt 0x210000 [0x220001] ++ bytesAt 0x220000 [0xfd, 0x230001] ++ bytesAt 0x230000 [0x240001] ++ bytesAt 0x240000 [leaf]
    worlds := s.worlds.map fun x => { x with root := 0x210000 }
    tags := mapSet s.tags 1 0x80, utlb := [] }

/-- What makes the first GiB of world 0 stand at its own addresses, with its tables and its page's tag as `mapped` sets them. -/
abbrev Direct (s : State) : Prop :=
  (getWorld s 0).root = 0x210000 ∧ (readEntry s 3 0x210000).toOption = some 0x220001 ∧
  (readEntry s 2 0x220000).toOption = some 0xfd ∧
  memGet s.mem 0x220000 = 0xfd ∧ feature s 1 = 0x3000300030003000 ∧ mapGetD s.tags 1 0 = 0x80

theorem served_of_tag {s : State} {pa : Nat} (tier : tierOf s pa = .hbm) (tag : pageTag s pa = 0x80) :
    tableServed s pa = true := by
  unfold tableServed tableOwner tagOk
  rw [tier, tag]
  decide

theorem direct_translate {s : State} (h : Direct s) (need va : Nat) (lo : 0x200000 ≤ va) (hi : va < 0x400000) (hn : need < 4) :
    translateFront s 0 va need = (.ok va 0, s) := by
  obtain ⟨hr, h3, h2, hm, hf, ht⟩ := h
  have h3 := of_toOption h3
  have h2 := of_toOption h2
  have tier (pa : Nat) (hp : pa < 0x400000) : tierOf s pa = .hbm := by
    have e : pa / 0x800000000 = 0 := by omega
    have f : pa % 0x800000000 = pa := by omega
    have g : fld 0x3000300030003000 (16 * 0) 16 = 0x3000 := by decide
    unfold tierOf
    rw [hf, e, f, g, if_pos (by omega), if_pos (by omega)]
  have a3 : fld va 39 13 = 0 := by unfold fld; omega
  have a2 : fld va 30 9 = 0 := by unfold fld; omega
  have a1 : fld va 21 9 = 1 := by unfold fld; omega
  have can : canonical va = true := by
    have : fld va 51 13 = 0 := by unfold fld; omega
    unfold canonical; rw [this]; rfl
  have off : (0x200000 : Nat) + va % 0x200000 = va := by omega
  have tag : tagOk s 0 va = true := by
    have e : va / 0x200000 = 1 := by omega
    unfold tagOk; rw [tier va (by omega)]; simp only [pageTag, e, ht]; decide
  have walk : walkTables s 0 va = .ok (leafOf 0xfd 0x220000 va 0x200000 0x200000, none) := by
    have e3 : (0x210000 : DWord).toNat + 8 * 0 = 0x210000 := by decide
    have e2 : entryPa 0x220001 + 8 * 0 = 0x220000 := by decide
    have b2 : fld 0xfd 2 1 = 1 := by decide
    have b1 : entryPa 0xfd + 1 * 0x200000 = 0x200000 := by decide
    have tt : tierOf s 0x200000 = .hbm := tier _ (by decide)
    simp only [walkTables, hr, a3, a2, a1, e3, e2, h3, h2, b2, b1, tt, bind, Except.bind, if_true]
  have perm : permit true true true need = none := by
    have : need = 0 ∨ need = 1 ∨ need = 2 ∨ need = 3 := by omega
    rcases this with rfl | rfl | rfl | rfl <;> rfl
  have chk : walkChecked s 0 va need = .ok (leafOf 0xfd 0x220000 va 0x200000 0x200000, none) := by
    unfold walkChecked
    rw [can, walk]
    have : leafCheck s 0 va need (leafOf 0xfd 0x220000 va 0x200000 0x200000) = none := by
      unfold leafCheck
      have r : (fld 0xfd 3 1 == 1) = true := by decide
      have w : (fld 0xfd 4 1 == 1) = true := by decide
      have x : (fld 0xfd 5 1 == 1) = true := by decide
      have nb : (Tier.hbm = Tier.bad) = False := by simp
      simp only [leafOf, off, tier va (by omega), tag, r, w, x, perm, nb, if_true, if_false]
    simp only [this, Bool.not_true, Bool.false_eq_true, if_false]
  have served : tableServed s 0x220000 = true := served_of_tag (tier _ (by decide)) ht
  have mark : markLeaf s 0x220000 need = s := by
    unfold markLeaf
    rw [hm, served]
    have : (0xfd ||| (if need / 2 % 2 = 1 then 0xc0 else 0x80) : Byte) = 0xfd := by split <;> rfl
    simp only [this, if_true, Bool.not_true, Bool.false_eq_true, if_false]
  have cache : fld 0xfd 56 2 = 0 := by decide
  have nh : (Tier.hbm = Tier.host) = False := by simp
  simp only [translateFront, chk, leafOf, mark, off, tier va (by omega), cache, nh, if_false]

/-- The bytes that stand at an address. -/
def bytesOf (s : State) (va n : Nat) : List Byte := (List.range' va n).map (plainByte s 0)

theorem direct_read {s : State} (h : Direct s) : ∀ (n va : Nat), 0x200000 ≤ va → va + n ≤ 0x400000 →
    frontRead s 0 va n = .ok (bytesOf s va n, s)
  | 0, _, _, _ => rfl
  | n + 1, va, lo, hi => by
    unfold frontRead
    rw [direct_translate h needRead va lo (by omega) (by decide)]
    simp only [direct_read h n (va + 1) (by omega) (by omega), bytesOf, List.range'_succ, List.map_cons]

theorem direct_write {s : State} (h : Direct s) (va : Nat) (bs : List Byte) (lo : 0x200000 ≤ va) (hi : va < 0x400000) :
    ∃ t, frontWrite s 0 va bs = .ok t := by
  unfold frontWrite
  rw [direct_translate h needWrite va lo hi (by decide)]
  exact ⟨_, rfl⟩

/-- What a launch record at an address comes to. -/
theorem direct_record {s : State} (h : Direct s) (a : DWord) (n : Nat) (e : a.toNat = n) (lo : 0x200000 ≤ n)
    (hi : n + 256 ≤ 0x400000) (al : n % 64 = 0) : readRecord s 0 a = .ok
      (if recordBad s 0 (dwords (bytesOf s n 256)) = true then .error stBadRecord
        else .ok (parseRecord (dwords (bytesOf s n 256))), s) := by
  have e : ¬ n % 64 ≠ 0 := by omega
  simp only [readRecord, readRecordAs, ‹a.toNat = n›, e, if_false, direct_read h 256 n lo hi, id]

/-- An entry that is not valid, one with a reserved bit, a valid one; a table in no memory, in a page of no world, and poisoned. -/
theorem meets_PageEntries :
    (∀ e ∈ [0x2030fc, 0x2032ff, 0x2030fd], leVal (memRead (mapped s0 e).mem 0x240000 8) = e) ∧
    0x2030fc % 2 = 0 ∧ 0x2032ff / 2 % 2 = 1 ∧ 0x2030fd % 2 = 1 ∧
    tierOf s0 0x240000 ≠ .bad ∧ tableServed (mapped s0 0) 0x240000 = true ∧ memPoisoned s0 0x240000 8 = false ∧
    tierOf s0 0x2000000000 = .bad ∧ tableServed { mapped s0 0 with tags := [] } 0x240000 = false ∧
    memPoisoned { s0 with poison := [.memory 0x90000] } 0x240000 8 = true := by decide

/-- A leaf with each permission missing, one of a page without the world's tag, one of no memory, and one that serves; the
ends of the canonical ranges. -/
theorem meets_PageWalk :
    let s (leaf : Nat) := mapped s0 leaf
    let va := 0x40000123
    (∀ a, (a = 0x7ffffffffffff ∨ a = 0xfff8000000000000 → canonical a = true) ∧
      (a = 0x8000000000000 ∨ a = 0xfff7ffffffffffff → canonical a = false)) ∧
    (getWorld (s 0) 0).root.toNat + 8 * (va / 2 ^ 39 % 8192) = 0x210000 ∧
    (∀ leaf ∈ [0x2030f5, 0x2030ed, 0x2030dd, 0x4030fd, 0x20000030fd, 0x2030fd], (readEntry (s leaf) 3 0x210000).toOption = some 0x220001 ∧
      (readEntry (s leaf) 2 (0x220000 + 8 * (va / 2 ^ 30 % 512))).toOption = some 0x230001 ∧
      (readEntry (s leaf) 1 0x230000).toOption = some 0x240001 ∧ (readEntry (s leaf) 0 0x240000).toOption = some leaf ∧
      leaf / 256 % 2 = 0) ∧
    tierOf s0 (0x20000030fd / 4096 * 4096) = .bad ∧ tierOf s0 0x203000 ≠ .bad ∧ tagOk (s 0) 0 0x403000 = false ∧
    tagOk (s 0) 0 0x203123 = true ∧
    -- a 2 MiB leaf; and nothing valid at each level in turn
    (let big := { s 0 with mem := memWrite (s 0).mem 0x230000 (leList 8 0x2000fd) }
     (readEntry big 1 0x230000).toOption = some 0x2000fd ∧ 0x2000fd / 4 % 2 = 1) ∧
    (readEntry (s 0) 3 0x210008).toOption = none ∧ (readEntry (s 0) 2 0x220010).toOption = none ∧
    (readEntry (s 0) 1 0x230008).toOption = none ∧ (readEntry (s 0) 0 0x240000).toOption = none := by
  refine ⟨?_, by decide, by decide, by decide, by decide, by decide, by decide, by decide, by decide⟩
  rintro a
  exact ⟨by rintro (rfl | rfl) <;> decide, by rintro (rfl | rfl) <;> decide⟩

/-- A strand that waits on a walk which ends at the page, and one whose walk finds no entry. -/
def walking (va : Nat) : State :=
  { mapped (one fun st => { st with status := .parked (.walk 7) }) 0x20307d with
    walks := [{ id := 7, cluster := 0, core := 0, world := 0, page := va / 4096, waiters := [(0, needWrite, va)] }] }

theorem meets_WalkCompletes : ∀ va ∈ [0x40000123, 0x40001000],
    let s := walking va
    let s0 := { s with walks := s.walks.filter (·.id != 7) }
    (s.walks.find? (·.id == 7)).map (·.waiters) = some [(0, needWrite, va)] ∧ ((s.walks.filter (·.cluster == 0)).take 16).any (·.id == 7) = true ∧
    (getStrand s 0).map (·.status) = some (.parked (.walk 7)) ∧
    (walkCluster s0 0 0 va needWrite).isOk = (va == 0x40000123) := by decide

theorem meets_ParkWakes :
    ∃ (s : State) (st : Strand), getStrand s 0 = some st ∧ st.status = .parked (.walk 7) ∧ parkCleared s st (.walk 7) = false ∧
      parkCleared s st .drain = true :=
  ⟨walking 0x40000123, _, rfl, rfl, by decide, by decide⟩

/-- A translation that the host owes, to a world that runs and to one in ERROR: for a write, and for a fetch. -/
theorem meets_ParkWakes_ats : ∀ need ∈ [needWrite, needFetch],
    let c := Park.ats 0x300000 0x40000123 need
    let s := one fun st => { st with status := .parked c }
    let e : State := { s with worlds := s.worlds.map fun x => { x with tstate := .error } }
    need ≠ 0 ∧ (getStrand s 0).map (·.status) = some (.parked c) ∧ (getWorld s 0).tstate ≠ .error ∧ (getWorld e 0).tstate = .error ∧
    (getStrand e 0).map (fun st => parkCleared e st c) = some true := by decide

/-- Two strands of a lane that nothing holds, of which slot 1 is next after slot 0; and an understory strand. -/
theorem meets_LaneGrants :
    let two (slot : Nat) : State := { pair .ready id with
      lanes := [], strands := (pair .ready id).strands.map fun x => if x.home = 1 then { x with slot := slot } else x }
    ∀ slot ∈ [1, 8], let s := two slot
      (getLane s 0).granted = none ∧ ∀ st ∈ s.strands, st.home = 1 →
        st.resident = true ∧ strandLane st = 0 ∧ st.slot = slot ∧ eligible s st = true ∧
        (∀ x ∈ s.strands, x.slot = st.slot → x = st) ∧
        (slot < 8 → ∀ x ∈ s.strands, eligible s x = true → x.slot ≠ 8 ∧
          (st.slot + 7 - (getLane s 0).last % 8) % 8 ≤ (x.slot + 7 - (getLane s 0).last % 8) % 8) := by decide

theorem meets_ForcedIssues :
    let s := one fun st => { full st with threads := (full st).threads.set 5 { pc := placedCode + 8, waiting := 256 } }
    ∃ st, getStrand s 0 = some st ∧ (getLane s (strandLane st)).granted = some 0 ∧ st.interrupted = false ∧
      5 < st.threads.length ∧ 256 ≤ (getThread st 5).waiting ∧ (getThread st 5).exited = false ∧
      held (strandRecord s st).code st 5 = false :=
  ⟨_, rfl, by decide, by decide, by decide, by decide, by decide, by decide⟩

/-- Each strand of the grove waits for the other to give registers: the older, and of one age the lower index, is first. -/
def stuck : State :=
  let grow (partner : Nat) : Status := .waitGraft { pc := placedCode, partner := partner, count := 8, pd := 3, arrival := 5 }
  pair (grow 0) fun st => { st with status := grow 1 }

theorem meets_GraftDeadlocks :
    ∃ (x : Strand) (gw : GraftWait),
      let mates := stuck.strands.filter fun y => y.grove == 0
      (∀ y ∈ mates, y.resident = true → blocked mates y = true) ∧ x ∈ mates ∧ getStrand stuck x.home = some x ∧
      x.status = .waitGraft gw ∧ 0 < gw.count ∧ x.stepm = 0 ∧ x.rbWait = false ∧
      (∀ y ∈ mates, ∀ g, y.status = .waitGraft g → 0 < g.count →
        y = x ∨ gw.arrival < g.arrival ∨ (gw.arrival = g.arrival ∧ x.sidx < y.sidx)) := by
  refine ⟨stuck.strands.head!, { pc := placedCode, partner := 1, count := 8, pd := 3, arrival := 5 }, by decide, by decide,
    by decide, rfl, by decide, by decide, by decide, ?_⟩
  intro y hy g hg hc
  have all : ∀ y ∈ stuck.strands.filter fun y => y.grove == 0,
      y = stuck.strands.head! ∨ y = stuck.strands.getD 1 default := by decide
  have := all y hy
  rcases this with rfl | rfl
  · exact .inl rfl
  · right; right
    have : g = { pc := placedCode, partner := 0, count := 8, pd := 3, arrival := 5 } := by
      have h2 : (stuck.strands.getD 1 default).status =
        .waitGraft { pc := placedCode, partner := 0, count := 8, pd := 3, arrival := 5 } := rfl
      rw [h2] at hg; exact (Status.waitGraft.inj hg).symm
    subst this; decide

/-- A ring of 16 records: with none, with the whole ring, and with one record in it; and no ring. -/
def ringed (lsize wr rd : Nat) : State :=
  { mapped s0 0 with worlds := (mapped s0 0).worlds.map fun x =>
      { x with heldRecords := [[1, 2, 3, 4]], fb := { x.fb with ring := 0x208000, lsize := lsize, wridx := BitVec.ofNat 64 wr, rdidx := BitVec.ofNat 64 rd } } }

theorem meets_FaultRecords :
    (∀ lsize ∈ [3, 4, 15, 16], (ringed lsize 9 9).worlds.any (·.no == 0) = true) ∧
    ((getWorld (ringed 4 20 4) 0).fb.wridx - (getWorld (ringed 4 20 4) 0).fb.rdidx).toNat = 2 ^ 4 ∧
    ((getWorld (ringed 4 20 5) 0).fb.wridx - (getWorld (ringed 4 20 5) 0).fb.rdidx).toNat ≠ 2 ^ 4 ∧
    (getWorld (ringed 4 20 5) 0).fb.ne = false ∧ (getWorld (ringed 4 20 5) 0).heldRecords = [[1, 2, 3, 4]] ∧
    (frontWrite (ringed 4 20 5) 0 (0x208000 + 32 * (20 % 2 ^ 4)) ([1, 20, 3, 4].flatMap fun v => leList 8 v)).isOk = true := by
  decide

theorem meets_StrandRestarts :
    let s := one fun st => { st with
      status := .restarting, interrupted := true, step := 3, qregs := [(0, 5)]
      runEntry := some { threads := List.replicate 16 { pc := placedCode + 8 }, vregs := [], sregs := [], sap := 0 } }
    ∃ (st : Strand) (e : RunEntry), getStrand s 0 = some st ∧ st.status = .restarting ∧ (∀ o ∈ st.outs, o.left = 0) ∧ st.matrix = 0 ∧
      (∀ r ∈ s.nreqs, r.strand ≠ 0) ∧ st.queries = [] ∧ st.runEntry = some e ∧ e.threads.length = st.threads.length :=
  ⟨_, _, rfl, rfl, by decide, rfl, by decide, rfl, rfl, by decide⟩

theorem meets_ControlErrorKills :
    ∃ (st : Strand) (l : Launch), getStrand s0 0 = some st ∧ getLaunch s0 st.launch = some l ∧
      (∀ y ∈ s0.strands, y.stepm = 0 ∧ ∀ b, y.status ≠ .waitBar b) ∧ st.world < 64 ∧ st.owner < 256 ∧ st.step < 64 :=
  ⟨_, _, rfl, rfl, by intro y hy; simp [s0, one, st0, placedStrand] at hy; subst hy; exact ⟨rfl, fun b hb => by cases hb⟩,
    by decide, by decide, by decide⟩

/-- A slice holds the line at 0x200000, whose bytes 0 and 127 are dirty. -/
def epochs : State :=
  { s0 with
    time := 2 ^ 44
    slices := [{ place := 0, line := 0x4000, world := 0, valid := BitVec.allOnes 128, dirty := 1 ||| 1 <<< 127, data := List.replicate 128 7 }]
    tags := [(1, 0x80)] }

theorem meets_EpochAndRefresh : epochs.time % 2 ^ 44 = 0 ∧
    (∀ l ∈ epochs.slices, (∀ l' ∈ epochs.slices, l'.line = l.line → l' = l) ∧ served epochs l.world (128 * l.line) = true ∧
      encrypted epochs (128 * l.line) = false ∧ l.dirty.getLsbD 127 = true) ∧
    encrypted epochs 0x200001 = false ∧
    (∀ l ∈ epochs.slices, l.line = 0x200001 / 128 → l.dirty.getLsbD (0x200001 % 128) = false) ∧
    refreshing { s0 with time := 2000 } 0x1800000 = true ∧ refreshing { s0 with time := 1999 } 0x1800000 = false := by decide

/-- Every thread has exited: the last strand of its grove, and one with a mate. -/
def gone (st : Strand) : Strand := { st with threads := st.threads.map fun t => { t with exited := true } }

theorem meets_StrandEnds :
    let s := one gone
    let two := pair .ready gone
    (∃ st, getStrand s 0 = some st ∧ (∀ th ∈ st.threads, th.exited = true) ∧ (∀ o ∈ st.outs, o.left = 0) ∧ st.matrix = 0 ∧
      (∀ r ∈ s.nreqs, r.strand ≠ 0) ∧ (∀ y ∈ s.strands, y.grove = st.grove → y.home = 0) ∧ (∀ c ∈ s.chains, c.grove ≠ st.grove) ∧
      (∀ r ∈ s.strands, r.queries = []) ∧
      s.strands.Nodup ∧ ∃ (g : Grove) (l : Launch), getGrove s st.grove = some g ∧ g.attached = [] ∧ getLaunch s g.launch = some l ∧
        l.src = .packet 0 0 ∧ l.total ≤ l.next ∧ ∀ x ∈ s.groves, x.launch = g.launch → x.id = g.id) ∧
    (∃ st, getStrand two 0 = some st ∧ (∀ th ∈ st.threads, th.exited = true) ∧ ∃ y ∈ two.strands, y.grove = st.grove ∧ y.home ≠ 0) ∧
    (∀ y ∈ s.strands ++ two.strands, (∀ b, y.status ≠ .waitBar b) ∧ y.stepm = 0) := by
  refine ⟨⟨_, rfl, by decide, by decide, rfl, by decide, by decide, by decide, by decide, by decide, _, _, rfl, rfl, rfl, rfl,
    by decide, by decide⟩, ⟨_, rfl, by decide, by decide⟩, ?_⟩
  have : ∀ y ∈ (one gone).strands ++ (pair .ready gone).strands, y.status = .ready ∧ y.stepm = 0 := by decide
  intro y hy
  exact ⟨fun b => by rw [(this y hy).1]; simp, (this y hy).2⟩

/-- The grove holds a segment: another holds it too, it is freed, and it is neither. -/
theorem meets_StrandEnds_detaches : ∀ x ∈ [{ seg with attaches := 2 }, { seg with attaches := 1, freed := true },
      { seg with attaches := 1, life := .kernel }, { seg with attaches := 1 }],
    let s := holding gone x
    (∃ st g, getStrand s 0 = some st ∧ getGrove s st.grove = some g ∧ (g.attached.map (·.uid)).Nodup ∧
      (∀ a ∈ g.attached, getSegment s a.uid = some x) ∧ g.attached ≠ []) ∧
    ∀ y ∈ s.strands, (∀ th ∈ y.threads, th.exited = true) ∧ y.queries = [] ∧ y.stepm = 0 ∧ y.home = 0 := by
  intro x hx
  simp only [List.mem_cons, List.not_mem_nil, or_false] at hx
  rcases hx with rfl | rfl | rfl | rfl <;> exact ⟨⟨_, _, rfl, rfl, by decide, by decide, by decide⟩, by decide⟩

/-- A strand of one thread with one slot, whose state has its place at 0x240000. -/
def small (preempt : Nat) (f : Strand → Strand) : State :=
  let s := mapped (one fun st => f { st with
    width := 1, depth := 1, ntiles := 0, toSave := true, threads := [{ pc := placedCode, mstack := List.replicate 8 0 }], vregs := [(0, 0x55)]
    qregs := (List.range 6).map fun j => (64 * j, 0x66)
    runEntry := some { threads := [{ pc := placedCode }], vregs := [], sregs := [], sap := 0 } }) 0
  { s with
    lanes := [], worlds := s.worlds.map fun x => { x with fb := { x.fb with save := 0x240000 } }
    launches := s.launches.map fun l => { l with record := { l.record with preempt := preempt } } }

/-- The strand of the most registers and tiles that a strand may have. -/
theorem meets_SaveLayout :
    let st : Strand := { st0 with qregs := [(64 * 5 + 15, 7)], tiles := [(8191, 9)] }
    st.step < 64 ∧ st.stepm < 4 ∧ st.width ≤ 64 ∧ st.width * st.depth = 5632 ∧ 15 < st.width ∧ 351 < st.depth ∧
    mapGet st.vregs (64 * ((getThread st 0).floor + 95) + 0) = some 0 ∧ mapGet st.qregs (64 * 5 + 15) = some 7 ∧
    8191 < 1024 * st.ntiles ∧ mapGet st.tiles 8191 = some 9 ∧
    (0x100 + 64 * st.width ≤ 0x500 ∧ 0x500 < 0x1100) ∧ 24 ≤ (0x1118 - 0x1100) % 32 ∧ 0x1100 + 32 * st.width ≤ 0x1300 ∧
    0x2000 + 4 * (st.width * st.depth) ≤ 0x7800 ∧ 0x8000 + 4096 * st.ntiles ≤ 0x10000 := by decide

theorem meets_ContextSaves : ∀ preempt ∈ [1, 2],
    let s := small preempt id
    ∀ st, getStrand s 0 = some st → st.toSave = true ∧ st.resident = true ∧ st.halted = false ∧ st.status = .ready ∧
      (getLane s (strandLane st)).granted ≠ some 0 ∧ (∀ o ∈ st.outs, o.left = 0) ∧ st.matrix = 0 ∧
      (∀ r ∈ s.nreqs, r.strand ≠ 0) ∧ st.queries = [] ∧ (strandRecord s st).preempt = preempt ∧
      (getWorld s st.world).quiescing = false ∧ worldRuns s st.world = true ∧ st.runEntry.map (·.shadow) = some [] ∧
      (saveWords st (savedOffsets st) s).isOk = true := by
  intro p hp s st hst
  simp at hp
  rcases hp with rfl | rfl <;> cases hst <;> decide +kernel

theorem meets_ContextRestores : ∀ area : Bool,
    let s := small 2 fun st => { st with resident := false, toSave := false, inArea := area }
    ∀ st, getStrand s 0 = some st → st.resident = false ∧ mapGet s.limbWorld (4 * st.core + 0) = some st.world ∧
      worldRuns s st.world = true ∧ (getWorld s st.world).quiescing = false ∧ roomFor s st 0 31 0 = true ∧ st.inArea = area ∧
      ((restoreWords (savedOffsets st) s st).map fun r => (r.1.strands = s.strands : Bool) && r.2.home == 0).toOption = some true := by
  intro a s st hst
  cases hst; cases a <;> decide +kernel

theorem meets_WindowWrites :
    let f : FaultInfo := { cls := 2, cause := 1, pc := placedCode }
    ∃ st b, getStrand (one fun st => { st with status := .faulted f, halted := true }) 0 = some st ∧ st.status = .faulted f ∧
      st.halted = true ∧ 15 < st.width ∧ st.width ≤ 64 ∧ 15 < st.threads.length ∧
      getStrand s0 0 = some b ∧ (∀ f, b.status ≠ .faulted f) ∧ b.halted = false :=
  ⟨_, _, rfl, rfl, rfl, by decide, by decide, by decide, rfl, fun f hf => (by cases hf), rfl⟩

/-! #### The copy engine and segments -/

/-- A COPY of 16 bytes from view offset 0 to 64; a SEQ on channel 0 for count v; a PEER COPY. -/
def card (kind : Nat) (words : List Nat) : Card :=
  { off := 0x80, bytes := leList 8 (kind + 2 ^ 31) ++ words.flatMap (leList 8) ++ List.replicate (120 - 8 * words.length) 0 }

def copy : Card := card 1 ([0, 64, 16 + 0xa * 2 ^ 32, 0, 0, 0, 0, 0, 2 * 2 ^ 62 + 16, 0, 0, 64, 2 * 2 ^ 62 + 16])

def chain : Chain :=
  { core := 0, ch := 1, world := 0, seq := 6, strand := 0, gen := 0, launch := 0, grove := 0
    frames := [{ at_ := some 0x80 }], cards := [copy], pending := [] }

def inst (c : Card) (started : Bool) : Inst :=
  { id := 11, core := 0, ch := 1, world := 0, seq := 6, grove := 0, card := c, started := started }

/-- The channel is the next of the rotation, and its chain stands at its card, which scratch holds. -/
def chained (c : Chain) (insts : List Inst) : State :=
  { dev id with
    chains := [c], insts := insts, rr := [(0, 1)], channels := [{ core := 0, ch := 1, world := 0, issued := 6, completed := 5 }]
    scratch := [(0, memWrite [] 0x80 copy.bytes)] }

theorem meets_CardAdmitted :
    let s := chained chain []
    mapGetD s.rr 0 0 = 1 ∧ (s.chains.find? fun x => x.core == 0 && x.ch == 1 &&
      (x.rejected || x.frames != [] || !(undecided s x).isEmpty)) = some chain ∧ chain.frames = [{ at_ := some 0x80 }] ∧
    cardAt chain 0x80 = some copy ∧ chainInsts s chain = [] ∧ cardKind copy = 1 ∧
    ((getGrove s 0).bind fun g => readCard s 0 0 g 0x80) = some copy ∧ s.insts = [] ∧
    (let full := (List.range 32).map fun n => ({ inst copy true with id := 20 + n, ch := n % 2, seq := 50 } : Inst)
     (full.filter fun i => i.segment.isNone && i.core == 0).length = 32 ∧
     (full.filter fun i => i.segment.isNone && i.core == 0 && i.ch == 1).length = 16 ∧ chainInsts (chained chain full) chain = [] ∧
     ∀ x ∈ s.chains, x.core = 0 → x.ch = 1) := by decide +kernel

/-- A card whose last bit is set, with fields given by offset, bytes and value. -/
def fieldCard (kind : Nat) (fs : List (Nat × Nat × Nat)) : Card :=
  let put (bs : List Byte) (o n v : Nat) : List Byte := bs.take o ++ leList n v ++ bs.drop (o + n)
  { off := 0x80, bytes := fs.foldl (fun b f => put b f.1 f.2.1 f.2.2) (leList 4 (kind + 2 ^ 31) ++ List.replicate 124 0) }

/-- A scratch region of n bytes. -/
def inScratch (n : Nat) : Nat := 2 * 2 ^ 62 + n

/-- A copy, a fill, a gather of two elements, and an ND-COPY of a row of three bytes. -/
def startCards : List Card :=
  [ fieldCard 1 [(8, 8, 100), (16, 8, 300), (24, 4, 50), (28, 4, 0xa), (64, 8, 100), (72, 8, inScratch 50), (96, 8, 300), (104, 8, inScratch 50)],
    fieldCard 4 [(8, 8, 300), (16, 8, 0x0807060504030201), (24, 4, 21), (28, 4, 8), (96, 8, 300), (104, 8, inScratch 21)],
    fieldCard 3 [(8, 8, 100), (16, 8, 500), (24, 4, 400), (28, 4, 2), (32, 4, 6), (36, 4, 0xa), (64, 8, 100), (72, 8, inScratch 60),
      (80, 8, 400), (88, 8, inScratch 8), (96, 8, 500), (104, 8, inScratch 12)],
    fieldCard 2 [(8, 8, 100), (16, 8, 500), (24, 4, 400), (28, 4, 0xa), (64, 8, 100), (72, 8, inScratch 60),
      (80, 8, 400), (88, 8, inScratch 128), (96, 8, 500 + 64), (104, 8, inScratch 12)] ]

/-- What they find in scratch: the indices 1 and 9; and for the last the shape of its row. -/
def startScratch : List Mem :=
  [[], [], memWrite [] 400 (leList 4 1 ++ leList 4 9),
   memWrite [] 400 (leList 8 2 ++ leList 4 3 ++ leList 4 0 ++ leList 8 1 ++ leList 8 2 ++ leList 4 1)]

/-- The one instance of a chain of one card, admitted. -/
def working (k : Card) (m : Mem) : State :=
  { chained { chain with frames := [], cards := [k] } [inst k false] with scratch := [(0, m)] }

theorem meets_StartsNow (k : Card) (m : Mem) (h : mayStart (working k m) (inst k false) [inst k false] = true) :
    StartsNow (working k m) 0 11 (inst k false) (grove1 (dev id)) 0 1024 :=
  ⟨rfl, rfl, rfl, rfl, rfl, h, rfl, ⟨rfl, rfl, rfl, by decide⟩, rfl⟩

theorem meets_CardStarts :
    (∀ km ∈ startCards.zip startScratch, mayStart (working km.1 km.2) (inst km.1 false) [inst km.1 false] = true) ∧
    startCards.map cardKind = [1, 4, 3, 2] ∧ startCards.map (fun k => cardField k 28 4) = [0xa, 8, 2, 0xa] ∧
    startCards.map cardRegions = [[(false, 2, 100, 50), (true, 2, 300, 50)], [(true, 2, 300, 21)],
      [(false, 2, 100, 60), (false, 2, 400, 8), (true, 2, 500, 12)],
      [(false, 2, 100, 60), (false, 2, 400, 128), (true, 2, 564, 12)]] ∧
    (cardField (startCards.getD 2 copy) 36 4 = 0xa ∧ 0 < cardField (startCards.getD 2 copy) 32 4 ∧
      ∀ j, j < 2 → 100 ≤ 100 + [1, 9].getD j 0 * 6 ∧ 100 + [1, 9].getD j 0 * 6 + 6 ≤ 160 ∧ 500 + j * 6 = advance (500 + j * 6) 0) ∧
    (let m := startScratch.getD 3 []
     let shape (o n : Nat) : Nat := leVal ((List.range n).map fun b => memGet m (400 + o + b))
     shape 0 8 = 2 + 16 * 0 ∧ shape 12 4 = 0 ∧ shape 8 4 = 3 ∧ shape 32 4 = 1 ∧ shape 16 8 = 1 ∧ shape 24 8 = 2 ∧
     400 + 128 ≤ 400 + 128 ∧ (100 + 60 ≤ 564 ∧ 400 + 128 ≤ 564)) := by decide +kernel

/-- A LOOP of three turns and one of none that is not its chain's last, whose records scratch holds; a turn that ends, and a
loop that has run out. -/
theorem meets_LoopsRun : ∀ n ∈ [3, 0],
    let k := { fieldCard 5 [(0, 4, 5), (8, 4, 0x100), (12, 4, n), (16, 8, 2 ^ 64 - 4), (24, 8, 6), (64, 8, 100), (72, 8, inScratch 50)] with off := 0x80 }
    let c : Chain := { chain with frames := [{ at_ := some 0x80 }], cards := [k] }
    let s : State := { chained c [] with scratch := [(0, memWrite [] 0x80 k.bytes)] }
    let f : Frame := { at_ := none, loop := some 0x80, head := 0x100, iter := 1, count := 3, srcStep := 4, dstStep := -5 }
    mapGetD s.rr 0 0 = 1 ∧ (s.chains.find? fun x => x.core == 0 && x.ch == 1 &&
      (x.rejected || x.frames != [] || !(undecided s x).isEmpty)) = some c ∧ getChain s 0 1 0 6 = some c ∧ c.rejected = false ∧
    (getGrove s c.grove).isSome = true ∧ cardAt c 0x80 = some k ∧ chainInsts s c = [] ∧ cardKind k = 5 ∧
    ((getGrove s 0).bind fun g => readCard s 0 0 g 0x80) = some k ∧ (∀ r ∈ cardRegions k, r.2.1 ≠ 1) ∧
    cardField k 12 4 = n ∧ cardLast k = false ∧
    (f.at_ = none ∧ f.loop.isSome = true ∧ f.iter + 1 < f.count) ∧ ({ f with iter := 2 } : Frame).count ≤ 2 + 1 ∧
    ∃ x ∈ [({ at_ := some 0x200 } : Frame)], x.at_.isSome = true := by decide +kernel

/-- An IF on a word, a NOTE on a register of the world, and a PEER COPY of 600 bytes on a port that is up. -/
theorem meets_CardActs :
    let if_ := fieldCard 6 [(8, 4, 256), (12, 4, 3), (16, 8, 77), (24, 4, 0x100), (28, 4, 0x180), (32, 4, 3), (64, 8, 256), (72, 8, inScratch 8)]
    let note := fieldCard 8 [(8, 4, 9), (12, 4, 5)]
    let peer := fieldCard 9 [(8, 8, 10), (16, 8, 0x123400), (24, 4, 600), (28, 4, 2 + 4 * 3), (64, 8, 10), (72, 8, inScratch 600),
      (96, 8, 0x123400), (104, 8, 3 * 2 ^ 62 + 600)]
    (∀ k ∈ [if_, note, peer], mayStart (working k []) (inst k false) [inst k false] = true ∧
      (getChain (working k []) 0 1 0 6).map (·.rejected) = some false) ∧
    (cardKind if_ = 6 ∧ cardRegions if_ = [(false, 2, 256, 8)] ∧ cardField if_ 8 4 + 8 ≤ 1024 ∧ cardField if_ 12 4 < 4) ∧
    (cardKind note = 8 ∧ (mapGet (dev id).ntable 9).map (fun e => (e.world, e.arm)) = some (0, false) ∧
      ∀ x ∈ (dev id).strands, x.status = .ready) ∧
    (cardKind peer = 9 ∧ cardField peer 28 4 % 4 = 2 ∧ cardRegions peer = [(false, 2, 10, 600), (true, 3, 0x123400, 600)] ∧
      600 ≤ 232 * 64 ∧
      let s : State := { working peer [] with ports := List.replicate 8 { trained := true, session := true, keys := true } }
      portUp s 3 = true ∧ ∀ x ∈ s.ports, x.window = [] ∧ x.backlog = [] ∧ x.sent + 64 ≤ 2 ^ 48) := by decide +kernel

/-- A rejected chain whose instances are gone; a NOTE on a register past the table, a PEER COPY on a port that is down, and a
COPY and a FILL without a write region. -/
theorem meets_ChainFaults :
    let f : ChainFault := { cause := 13, code := 0, off := 5, note := 4, addr := 9 }
    let c : Chain := { chain with frames := [], rejected := true, fault := some f }
    let note := fieldCard 8 [(8, 4, 4096), (12, 4, 5)]
    let peer := fieldCard 9 [(8, 8, 10), (16, 8, 0x123400), (24, 4, 8), (28, 4, 2 + 4 * 3), (64, 8, 10), (72, 8, inScratch 8)]
    let copy := fieldCard 1 [(8, 8, 100), (16, 8, 300), (24, 4, 50), (28, 4, 0xa), (64, 8, 100), (72, 8, inScratch 50)]
    let fill := fieldCard 4 [(8, 8, 300), (16, 8, 5), (24, 4, 21), (28, 4, 8)]
    (mapGetD (chained c []).rr 0 0 = 1 ∧ ((chained c []).chains.find? fun x => x.core == 0 && x.ch == 1 &&
      (x.rejected || x.frames != [] || !(undecided (chained c []) x).isEmpty)) = some c ∧ chainInsts (chained c []) c = [] ∧
      getChain (chained c []) 0 1 0 6 = some c ∧ ∀ y ∈ (chained c []).strands, y.status = .ready) ∧
    (∀ k ∈ [note, peer, copy, fill], mayStart (working k []) (inst k false) [inst k false] = true ∧
      ((working k []).insts.map (·.id)).Nodup ∧ ∀ r ∈ cardRegions k, r.2.1 ≠ 1) ∧
    (cardKind note = 8 ∧ cardRegions note = [] ∧ 4095 < cardField note 8 4) ∧
    (cardKind peer = 9 ∧ portUp (working peer []) 3 = false ∧ ∀ r ∈ cardRegions peer, r.1 = false) ∧
    (cardKind copy = 1 ∧ cardField copy 28 4 = 0xa ∧ cardRegions copy = [(false, 2, 100, 50)] ∧ 0 < cardField copy 24 4) ∧
    (cardKind fill = 4 ∧ cardField fill 28 4 = 8 ∧ cardRegions fill = [] ∧ 0 < cardField fill 24 4) := by decide +kernel

/-- The last instance of a chain that is next in order; a SEQ of which the count has come, and one of which it has not. -/
theorem meets_CardCompletes : ∀ k ∈ [copy, card 7 [0, 0], card 7 [1, 5], card 7 [1, 6], card 9 []],
    let i := inst k true
    let c := { chain with frames := [] }
    let s := chained c [i]
    (s.insts.find? fun x => x.id == 11 && x.core == 0 && x.segment.isNone) = some i ∧ getChain s 0 1 0 6 = some c ∧
    chainInsts s c = [i] ∧ (s.insts.map (·.id)).Nodup ∧ (getGrove s 0).isSome = true ∧
    ((getStrand s 0).map (·.gen)) = some 0 ∧ (∀ y ∈ s.strands, y.status = .ready) ∧ (getChannel s 0 1 0).ahead = [] ∧
    c.seq = (getChannel s 0 1 0).completed + 1 ∧ c.rejected = false ∧ c.fault = none ∧ c.pending = [] ∧
    (∀ x ∈ s.ports, x.window = [] ∧ x.backlog = []) ∧
    (∃ x ∈ ({ s with ports := [{ window := [{ counter := 0, payload := [], inst := some 11 }] }] } : State).ports,
      ∃ f ∈ x.window ++ x.backlog, f.inst = some 11) ∧
    (cardKind k = 7 → (cardField k 16 8 ≤ (getChannel s 0 (cardField k 8 4) 0).completed ↔ k ≠ card 7 [1, 6])) := by decide

theorem meets_ChainRecords :
    let f : ChainFault := { cause := 13, code := 255, off := 2 ^ 20 - 1, note := 255, addr := 2 ^ 64 - 1 }
    let c := { chain with seq := 2 ^ 64 - 1, core := 95, ch := 3, world := 63 }
    c.seq < 2 ^ 64 ∧ c.core < 96 ∧ c.ch < 4 ∧ c.world < 64 ∧ f.off < 2 ^ 20 ∧ f.addr < 2 ^ 64 ∧ f.cause < 14 ∧ f.code < 256 ∧
    f.note < 256 := by decide

/-- A segment at work: of 1 KiB, backed at 0x203000, with its last line to come; and one that is evicted, free or freed. -/
def segging (state : SegState) (pending : List Nat) (freed : Bool) : State :=
  { mapped (dev id) 0 with
    segments := [{ seg with state := state, pending := pending, freed := freed, backing := 0x203000, swizzle := 4, pbase := 0 }]
    insts := [{ inst copy true with id := 21, segment := some (5, state == .evicting) }] }

/-- The core's TLB holds the page of the line, whose table entry has its bits. -/
theorem meets_SegmentLineLands : ∀ pending ∈ [[7], [2, 7]],
    let s := (translateEngine (segging .loading pending false) 0 0 (0x203000 + 128 * 7) needRead).2
    ∀ x ∈ s.segments, ∀ i ∈ s.insts,
      (s.segments.find? fun y => y.world == 0 && y.name == 7 && y.state == .loading && y.pending.contains 7) = some x ∧
      findSegmentInst s x.uid = some i ∧ mayStart s i s.insts = true ∧ s.poison = [] ∧ getSegment s x.uid = some x ∧
      mayDma s 0 = true ∧ x.core = 0 ∧ x.backing.toNat = 0x203000 ∧ 0x203380 % 128 = 0 ∧
      getLine s.slices (x.core / 8) (0x203380 / 128) = none ∧ tagOk s 0 0x203380 = true ∧
      (∀ j, j < 128 → encrypted s (0x203380 + j) = false) ∧
      (∀ j, j < 128 → scratchOwned s x.core 0 (x.pbase + swz (128 * 7 + j) x.swizzle) = true) ∧ x.swizzle ≤ 6 := by decide

theorem meets_SegmentLineLands_translates : ∀ pending ∈ [[7], [2, 7]],
    let s := (translateEngine (segging .loading pending false) 0 0 (0x203000 + 128 * 7) needRead).2
    translateEngine s 0 0 (0x203000 + 128 * 7) needRead = (.ok 0x203380 0, s) := by
  intro p hp
  simp at hp
  rcases hp with rfl | rfl <;> rfl

theorem meets_SegmentEvictionCompletes : ∀ freed : Bool,
    let s := { segging .evicting [] freed with segments := (segging .evicting [] freed).segments.map fun x => { x with size := 1 } }
    ∀ x ∈ s.segments, ∀ i ∈ s.insts,
      (s.segments.find? fun y => y.world == 0 && y.name == 7 && y.state == .evicting) = some x ∧
      findSegmentInst s x.uid = some i ∧ mayStart s i s.insts = true ∧ getSegment s x.uid = some x ∧ x.pending = [] ∧
      mayDma s 0 = true ∧
      ((evictLines x (x.size * 8) 0 s).toOption.map fun s1 => decide (s1.segments = s.segments ∧ s1.insts = s.insts)) = some true := by
  decide +kernel

/-! #### Queues, packets and launches -/

/-- Queue 3: best-effort, of world 0, its ring of 16 packets at 0x210400, its indices at 0x210800 and 0x210808. -/
def queue : Queue :=
  { no := 3, ring := 0x201000, rdaddr := 0x202000, wraddr := 0x202008, world := 0, owner := 0, cls := 0, lsize := 4, weight := 1
    paced := false, period := 0, cost := 0, lead := 0, pin := 0, pinlen := 0, deficit := 5 }

def p0 : PktHd := { queue := 3, index := 15, bar := false, ne := true, nidx := 9, deadline := 0, signal := 0x202010 }

def qs (f : State → State) (low : Mem := []) : State :=
  f { mapped s0 0 low with queues := [queue], host := { State.reset.host with committed := true } }

/-- Indices wr and rd, and in slot rd of the ring a packet of some words. -/
def ringOf (wr rd : Nat) (ws : List Nat) : State :=
  qs id (bytesAt (0x201000 + 64 * (rd % 16)) ws ++ bytesAt 0x202000 [rd, wr])

/-- At the wrap of the ring: a NOTIFY, a packet with bar, one of no kind, one with a stale tag; and a queue with none. -/
theorem meets_PacketTaken :
    ∀ c ∈ [(16, 4 * 65536 + 15), (16, 4 * 65536 + 15 + 2 ^ 24), (16, 15), (16, 14), (15, 15)],
      let s := ringOf c.1 15 [c.2]
      getQueue s 3 = some queue ∧ s.host.committed = true ∧ s.power.state = .s0 ∧ s.power.entering = none ∧
      s.power.tripped = false ∧ s.host.held = [] ∧ s.host.bootStep = 0 ∧ (getWorld s 0).live = true ∧
      (getWorld s 0).quiescing = false ∧ Direct s ∧ bytesOf s 0x202008 8 = leList 8 c.1 ∧ bytesOf s 0x202000 8 = leList 8 15 ∧
      leVal ((bytesOf s (0x201000 + 64 * (15 % 2 ^ 4)) 64).take 8) = c.2 := by decide +kernel

/-- The record of a LAUNCH lies in a page of the host that has no translation yet. -/
theorem meets_PacketTaken_waits :
    let m := mapped s0 0x8000000000fd
    let q : Queue := { queue with world := 5 }
    let s : State := { m with queues := [q], worlds := m.worlds ++ m.worlds.map (fun x => { x with no := 5, tstate := .run }), tags := [(1, 0x85)] }
    waitsAtHead s q (.launch p0 0x40000000) = false ∧
    (sourceWanting s 5 (.launch p0 0x40000000)).map (fun r => (r.1, r.2.1)) = some (5, 0) := by decide

/-- With `Direct`, what is read is what `bytesOf` says, and the index can be written: the rest of the hypotheses. -/
theorem meets_PacketTaken_reads (s : State) (h : Direct s) :
    frontRead s 0 0x202008 8 = .ok (bytesOf s 0x202008 8, s) ∧ frontRead s 0 0x202000 8 = .ok (bytesOf s 0x202000 8, s) ∧
    frontRead s 0 (0x201000 + 64 * (15 % 2 ^ 4)) 64 = .ok (bytesOf s (0x201000 + 64 * (15 % 2 ^ 4)) 64, s) ∧
    ∀ bs, ∃ t, frontWrite s 0 0x202000 bs = .ok t :=
  ⟨direct_read h _ _ (by decide) (by decide), direct_read h _ _ (by decide) (by decide), direct_read h _ _ (by decide) (by decide),
    fun bs => direct_write h _ bs (by decide) (by decide)⟩

theorem meets_QueueStalls : ∀ faulted : Bool,
    let s := qs fun s => { s with queues := [{ queue with wraddr := 0x7000000000000000, faulted := faulted }] }
    (getQueue s 3).map (·.faulted) = some faulted ∧ s.host.committed = true ∧ s.power.state = .s0 ∧ s.power.tripped = false ∧
    (getWorld s 0).live = true ∧ (getWorld s 0).quiescing = false ∧
    (match frontRead s 0 0x7000000000000000 8 with | .error c => c.1 | .ok _ => 0xff) ≠ 0xff := by decide

/-- A device not committed; one asleep, with room in its latch and without; a write held; the boot order under way; and a
queue of another world than the requester's. -/
theorem meets_FrontEndAsleep :
    let asleep (n : Nat) : State :=
      { s0 with power := { s0.power with state := .s1 }, host := { s0.host with latch := List.replicate n (4099, 0, 0) } }
    State.reset.host.committed = false ∧ (asleep 255).power.state ≠ .s0 ∧ (asleep 255).host.held = [] ∧
    (asleep 255).host.latch.length < 256 ∧ 256 ≤ (asleep 256).host.latch.length ∧
    ({ s0 with host := { s0.host with held := [.doorbellWrite ⟨3, 0⟩] } } : State).host.held ≠ [] ∧
    (let s : State := { s0 with host := { s0.host with bootStep := 7 } }
     s.host.bootStep ≠ 0 ∧ s.host.held = [] ∧ s.host.latch.length < 256) ∧
    (let s := qs id
     s.power.state = .s0 ∧ s.power.entering = none ∧ s.host.bootStep = 0 ∧ s.host.held = [] ∧
     getQueue s 3 = some queue ∧ queue.world ≠ 5) := by decide

theorem meets_PacketForm : ((leList 8 (65536 * 4) ++ List.replicate 56 (0 : Byte)).length = 64) ∧
    leVal ((leList 8 (65536 * 4) ++ List.replicate 56 (0 : Byte)).take 8) / 2 ^ 38 = 0 := by decide

def taken (ins : Instr) (status : Option Nat) (s : State) : State :=
  { s with packets := [{ hd := p0, act := ins, world := 0, owner := 4, begun := status.isSome, status := status }] }

theorem due (ins : Instr) (s : State) : ∃ x, Due (taken ins none s) p0 ins x ∧ x.world = 0 ∧ x.owner = 4 ∧ x.status = none :=
  ⟨{ hd := p0, act := ins, world := 0, owner := 4 }, by simp [Due, taken], rfl, rfl, rfl⟩

theorem meets_PacketCompletes : ∀ signal ∈ [0, 0x202010, 0x7000000000000000],
    let s := { taken (.launch p0 0) (some 8) (qs id) with packets :=
      [{ hd := { p0 with signal := signal }, act := .launch p0 0, world := 0, owner := 4, begun := true, status := some 8 }] }
    (s.packets.find? fun y => y.hd.queue == 3 && y.hd.index == 15).map (·.status) = some (some 8) ∧
    (getWorld s 0).live = true ∧
    (signal ≠ 0 → (frontWriteAll s 0 signal (leList 8 (15 % 2 ^ 48 * 2 ^ 16 + 8))).isOk = (signal == 0x202010)) := by decide

/-- A launch record of one grove of 16 threads, with what is to change in its words 1 to 3. -/
def recordWords (w1 w2 w3 w6 : Nat) : List Nat :=
  [0x200000, w1, w2, w3, 0, 0, w6, 0, 0, 0, 0, 0, 7, 9, 0, 0] ++ List.replicate 16 0

/-- It stands at 0x203000; f changes the state before. -/
def recorded (f : State → State) (ws : List Nat) : State :=
  qs f (bytesAt 0x203000 ws)

def plain : List Nat := recordWords (8 * 512 / 8 + 4) (1 + 2 ^ 32 + 2 ^ 48) (16 + 2 ^ 11 + 2 ^ 22) 0

/-- The record of the greatest frame and depth of 64 threads, and of an understory strand. -/
theorem meets_LaunchRecords : ∀ w1 ∈ [2 + 88 * 4 + 11 * 512, 4 + 4 * 512 + 3 * 2 ^ 26],
    let s := recorded id (recordWords w1 (2 ^ 32 - 1 + 2 ^ 32 + 2 ^ 48) (64 + 16 * 2 ^ 11 + 2 ^ 22) 0)
    ∃ r, readRecord s 0 0x203000 = .ok (.ok r, s) := by
  have h : ∀ w1 ∈ [2 + 88 * 4 + 11 * 512, 4 + 4 * 512 + 3 * 2 ^ 26],
      let s := recorded id (recordWords w1 (2 ^ 32 - 1 + 2 ^ 32 + 2 ^ 48) (64 + 16 * 2 ^ 11 + 2 ^ 22) 0)
      Direct s ∧ recordBad s 0 (dwords (bytesOf s 0x203000 256)) = false := by decide +kernel
  intro w1 hw
  obtain ⟨hd, hb⟩ := h w1 hw
  exact ⟨_, by rw [direct_record hd 0x203000 0x203000 (by decide) (by decide) (by decide) (by decide), hb]; rfl⟩

def named (life : Life) (state : SegState) (name : DWord) (core vbase owner : Nat) : Segment :=
  { seg with uid := name.toNat, name := name, life := life, state := state, core := core, vbase := vbase, owner := owner }

/-- A record that passes, one that does not, one whose segment is missing; an address that is misaligned, unmapped, of
another world. -/
theorem meets_LaunchPackets :
    let s (ws : List Nat) := begun (taken (.launch p0 0x203000) none (recorded id ws)) p0
    let r (ws : List Nat) := parseRecord (dwords (bytesOf (s ws) 0x203000 256))
    (getQueue (recorded id plain) 3).map (·.paced) = some false ∧ (0x203008 : DWord).toNat % 64 ≠ 0 ∧
    (frontRead (s []) 0 0x7000000000000000 256).isOk = false ∧ (frontRead (s []) 0 0x400000 256).isOk = false ∧
    (∀ c ∈ [(plain, false, 0), (recordWords 0 0 0 0, true, 0), (recordWords 516 (1 + 2 ^ 32 + 2 ^ 48) (16 + 2 ^ 11 + 2 ^ 22) 1, false, 3)],
      Direct (s c.1) ∧ recordBad (s c.1) 0 (dwords (bytesOf (s c.1) 0x203000 256)) = c.2.1 ∧
      (c.2.1 = false → segmentStatus (s c.1) 0 4 (r c.1) = c.2.2)) := by decide +kernel

/-- With `Direct`, the record is what its words come to: the rest of the hypotheses. -/
theorem meets_LaunchPackets_reads (s : State) (h : Direct s) : readRecord s 0 0x203000 = .ok
    (if recordBad s 0 (dwords (bytesOf s 0x203000 256)) = true then .error stBadRecord
      else .ok (parseRecord (dwords (bytesOf s 0x203000 256))), s) :=
  direct_record h 0x203000 0x203000 (by decide) (by decide) (by decide) (by decide)

theorem meets_LaunchSegments :
    let s : State := { s0 with segments := [named .kept .resident 7 0 64 4, named .kept .resident 9 1 80 255, named .kept .resident 6 0 0 255] }
    let r (segs : List (AttachMode × DWord)) : LaunchRec := { segs := segs, scratch := 4 }
    (findSegment s 0 8 = none ∧ (findSegment s 0 7).map (·.owner) = some 4) ∧
    (findSegment s 0 6).map (fun g => decide (g.size ≠ 0 ∧ g.vbase * 1024 < (r []).scratch * 256)) = some true ∧
    (findSegment s 0 7).map (fun g => (g.core, g.stored, g.life == .pinned)) = some (0, true, false) ∧
    (findSegment s 0 9).map (fun g => (g.core, g.stored, g.life == .pinned)) = some (1, true, false) := by
  decide +kernel

/-- Nodes 4094 and 4095 of queue 3: idle, of no queue, of another world's queue, and armed. -/
def graphed (ins : Instr) (nd : Node) : State :=
  taken ins none (qs fun s => { s with
    queues := [queue, { queue with no := 5, world := 1 }]
    nodes := [(4094, { queue := 3, init := 1 }), (4095, nd)] })

theorem meets_GraphPackets : ∀ c ∈ [(({ queue := 3, init := 2 } : Node), some 0), ({ queue := 4 }, none), ({ queue := 5 }, some 1),
      ({ queue := 3, armed := true }, some 0)],
    let s := graphed (.graph p0 4094 2) c.1
    (∀ n ∈ [4094, 4095], 4094 ≤ n ∧ n < 4094 + 2) ∧ 4094 + 2 ≤ 4096 ∧ (getNode s 4095).armed = c.1.armed ∧
    (getQueue s (getNode s 4094).queue).map (·.world) = some 0 ∧ (getNode s 4094).init ≠ 0 ∧
    (getQueue s (getNode s 4095).queue).map (·.world) = c.2 := by decide

/-- A relay node, one whose record passes, and one whose record does not. -/
theorem meets_NodeReadiness : ∀ c ∈ [((0 : DWord), 0), (0x203000, 0x203000), (0x203040, 0x203040)],
    let s := { graphed (.graph p0 4095 1) { queue := 3, record := c.1, rdl := 7 } with mem := (recorded id plain).mem }
    let g : GraphRun := { queue := 3, index := 15, first := 4095, count := 1 }
    let nd : Node := { getNode s 4095 with
      run := (3, 15), world := 0, frame := currentFrame s queue.owner, armed := true, count := 0, ready := false, done := none }
    let s0 : State := { begun s p0 with graphs := s.graphs ++ [g], nodes := mapSet s.nodes 4095 nd }
    (getNode s 4095).armed = false ∧ (getNode s 4095).init = 0 ∧ getQueue s (getNode s 4095).queue = some queue ∧
    (getQueue s 3).map (·.world) = some 0 ∧ queue.paced = false ∧ Direct s0 ∧
    (c.2 ≠ 0 → recordBad s0 0 (dwords (bytesOf s0 c.2 256)) = (c.2 == 0x203040)) ∧
    (c.2 = 0x203000 → segmentStatus s0 0 queue.owner (parseRecord (dwords (bytesOf s0 0x203000 256))) = 0) := by decide +kernel

/-- Node 4095 is done; node 4094 is its successor, of count 1 or 2, disarmed, or at work. -/
def running (st : Nat) (succ : List Nat) (other : Node) : State :=
  { qs id with
    graphs := [{ queue := 3, index := 15, first := 4094, count := 2 }]
    nodes := [(4094, { other with queue := 3, run := (3, 15) }),
      (4095, { queue := 3, run := (3, 15), armed := true, ready := true, done := some st, succ := succ })] }

theorem meets_NodeCompletes :
    ∀ c ∈ [(0, [], ({ armed := true, count := 1 } : Node)), (8, [], {}), (0, [4094], { armed := true, count := 2 }),
      (0, [4094], { armed := true, count := 1 }), (0, [4093, 4094], {}), (7, [4094], { armed := true, count := 1 }),
      (7, [4094], { armed := true, ready := true })],
    let s := running c.1 c.2.1 c.2.2
    (mapGet s.nodes 4095).map (fun nd => (nd.armed, nd.done, nd.succ)) = some (true, some c.1, c.2.1) ∧
    c.2.1.Nodup ∧ 4095 ∉ c.2.1 ∧
    (s.graphs.find? fun y => inGraph y 4095 (getNode s 4095)) = some { queue := 3, index := 15, first := 4094, count := 2 } ∧
    (∀ y ∈ s.graphs, y.queue = 3 → y.index = 15 → y = { queue := 3, index := 15, first := 4094, count := 2 }) ∧
    (getNode s 4094).run = (3, 15) ∧ (getNode s 4094).record = 0 ∧ (getNode s 4094).armed = c.2.2.armed ∧
    ((getQueue s (getNode s 4094).queue).map (·.world)) = some (getNode s 4094).world := by decide

/-- The last two nodes and the last two notify registers, from sources that can be read and that cannot. -/
theorem meets_NodeDefinitions :
    let s (armed : Bool) := graphed (.nodedef p0 4094 2 0x203000) { armed := armed }
    4094 + 2 ≤ 4096 ∧ ¬ 4095 + 2 ≤ 4096 ∧ (getNode (s true) 4095).armed = true ∧
    (∀ n ∈ [4094, 4095], (getNode (s false) n).armed = false) ∧
    Direct (begun (s false) p0) ∧
    (frontRead (begun (s false) p0) 0 0x400000 (32 * 2)).isOk = false ∧
    (∀ no ∈ [3, 5], let s1 : State := { s false with mem := (recorded id [0, 0, no * 2 ^ 48]).mem }
      wordBits ((dwords (bytesOf s1 0x203000 32)).getD 2 0) 55 48 = no ∧
      (getQueue s1 no).map (·.world) = some (if no = 5 then 1 else 0)) := by decide

theorem meets_NotifyTable :
    let s := taken (.nmap p0 4094 2 0x203000) none (qs id)
    Direct (begun s p0) ∧ (frontRead (begun s p0) 0 0x400000 (8 * 2)).isOk = false := by decide

def registers (arm : Bool) (thresh : Nat) (f : Strand → Strand) (g : State → State) : State :=
  g { one f with ntable := [(9, { world := 0, arm := arm, node := 4095, thresh := thresh })], notify := [(9, 0xffffffff)] }

theorem meets_NotifyPackets :
    let s := taken (.notify p0 9 2) none (registers false 0 id id)
    mapGet s.ntable 8 = none ∧ (mapGet s.ntable 9).map (fun e => (e.world, e.arm)) = some (0, false) ∧
    ∀ y ∈ s.strands, y.status = .ready := by decide

/-- An add that wraps; thresholds 0 and 1 that it reaches, and 2 that it does not; a waiter; a register of nobody; a
quiesced world; a device asleep, with room in its latch and without. -/
theorem meets_NotifyWrites :
    let w : NotifyWait := { index := 9, threshold := 1, take := true, rd := .v 1, lead := 0, until_ := none, arrival := 0 }
    let asleep (n : Nat) (s : State) : State :=
      { s with power := { s.power with state := .s2 }, host := { s.host with latch := List.replicate n (9, 1, 0) } }
    let quiet (s : State) : State := { s with worlds := s.worlds.map fun x => { x with tstate := .quiesced } }
    (∀ thresh ∈ [0, 1, 2], let s := registers true thresh id id
      s.power.state = .s0 ∧ s.power.entering = none ∧ s.host.bootStep = 0 ∧ s.host.held = [] ∧
      (getWorld s 0).live = true ∧ (getWorld s 0).tstate ≠ .quiesced ∧
      (mapGet s.ntable 9).map (fun e => (e.world, e.arm, decide (max 1 e.thresh ≤ (mapGetD s.notify 9 0 + 2).toNat))) = some (0, true, decide (thresh ≤ 1)) ∧
      mapGet s.ntable 8 = none ∧ ∀ y ∈ s.strands, y.status = .ready) ∧
    (let s := registers false 0 (fun st => { st with status := .waitNotify w }) id
     (mapGet s.ntable 9).map (·.arm) = some false ∧ s.strands.Nodup ∧ s.strands.length = 1 ∧ w.threshold ≤ (mapGetD s.notify 9 0 + 2).toNat ∧
     ∀ y ∈ s.strands, getStrand s y.home = some y ∧ y.status = .waitNotify w ∧ y.stepm = 0 ∧ y.rbWait = false) ∧
    (getWorld (registers false 0 id quiet) 0).tstate = .quiesced ∧
    (registers false 0 id (asleep 255)).power.state ≠ .s0 ∧ (registers false 0 id (asleep 255)).host.latch.length < 256 ∧
    256 ≤ (registers false 0 id (asleep 256)).host.latch.length ∧ (registers false 0 id (asleep 256)).host.held = [] ∧
    (registers false 0 id fun s => { s with host := { s.host with held := [.notifyWrite 9 1 0] } }).host.held ≠ [] := by decide

/-! #### Draws, segments, the weight store and definitions -/

/-- A surface of the world, one of another, a plane image, a backdrop and a smaller surface. -/
def targets (s : State) : State :=
  { s with descs := [(0, surface), (1, { surface with world := 1 }), (2, { surface with kind := 1 }), (3, { surface with kind := 2 }),
      (4, { surface with width := 63 })] }

theorem meets_DrawOutputs :
    let s := targets s0
    wordBits 0xffffffffffff0000 15 0 = 0 ∧ (∀ k ∈ [1, 2, 3], wordBits 0xffffffffffff0000 (16 * k + 15) (16 * k) = 0xffff) ∧
    wordBits 0xffffffff00020000 31 16 = 2 ∧ mapGet s.descs 5 = none ∧
    (mapGet s.descs 0).map (fun d => (d.kind, d.world, d.width)) = some (0, 0, 64) ∧
    (mapGet s.descs 1).map (fun d => (d.kind, d.world)) = some (0, 1) ∧ (mapGet s.descs 2).map (fun d => (d.kind, d.width)) = some (1, 64) ∧
    (mapGet s.descs 3).map (·.kind) = some 2 := by decide

/-- Output 0 is the surface, and output 3 is not there, of another world, a backdrop and too small; outputs 1 and 2 are unused. -/
theorem meets_DrawOutputs_refuses : ∀ n ∈ [5, 1, 3, 4],
    let outs : DWord := BitVec.ofNat 64 (n * 2 ^ 48 + 0xffffffff0000)
    wordBits outs 15 0 = 0 ∧ wordBits outs 63 48 = n ∧ n ≠ 0xffff ∧ (∀ j ∈ [1, 2], wordBits outs (16 * j + 15) (16 * j) = 0xffff) ∧
    (mapGet (targets s0).descs n).all (fun e => e.world == 1 || e.kind == 2 || decide (e.width < 64)) = true := by decide

/-- Both records pass, the pixel record with the shape of a pass and no grid; entry counts 65,536 and 65,537. -/
theorem meets_DrawPackets :
    let s := begun (taken (.draw p0 0x203000 0x203200 0xffffffffffff0000 65536) none
      (targets (recorded id (plain ++ List.replicate 32 0 ++ recordWords 516 0 (1024 + 2 ^ 11 + 2 ^ 22) 0)))) p0
    let mesh := dwords (bytesOf s 0x203000 256)
    let pixel := pixelGrid (dwords (bytesOf s 0x203200 256))
    Direct s ∧ recordBad s 0 mesh = false ∧ segmentStatus s 0 4 (parseRecord mesh) = 0 ∧ recordBad s 0 pixel = false ∧
    segmentStatus s 0 4 (parseRecord pixel) = 0 ∧ (parseRecord pixel).x = 1024 ∧ (parseRecord pixel).y = 1 ∧
    (parseRecord pixel).z = 1 ∧ recordBad s 0 (dwords (bytesOf s 0x203200 256)) = true ∧
    (drawOutputs s 0 0xffffffffffff0000).isOk = true ∧ (getQueue s 3).map (·.paced) = some false := by decide +kernel

/-- With `Direct`, the records are these. -/
theorem meets_DrawPackets_reads (s : State) (h : Direct s) (x : Packet) (hw : x.world = 0) (ho : x.owner = 4)
    (hb : recordBad s 0 (dwords (bytesOf s 0x203000 256)) = false)
    (hs : segmentStatus s 0 4 (parseRecord (dwords (bytesOf s 0x203000 256))) = 0) :
    drawRecord s x 0x203000 false = (.ok (parseRecord (dwords (bytesOf s 0x203000 256))), s) := by
  have r := direct_record h 0x203000 0x203000 (by decide) (by decide) (by decide) (by decide)
  rw [hb] at r
  have n : ¬ segmentStatus s 0 4 (parseRecord (dwords (bytesOf s 0x203000 256))) ≠ stOk := fun c => c hs
  have r' : readRecordAs id s 0 0x203000 = .ok (.ok (parseRecord (dwords (bytesOf s 0x203000 256))), s) := r
  simp only [drawRecord, hw, ho, r', n, Bool.false_and, Bool.false_eq_true, if_false]

/-- The greatest window, and one that passes it; a world field of another world and of the packet's own. -/
theorem meets_SegmentDefinitions :
    (∃ x, Due (taken (.segdef p0 7 0 0) none s0) p0 (.segdef p0 7 0 0) x ∧ x.world = 0) ∧
    (let w2 : DWord := BitVec.ofNat 64 (1 * 2 ^ 21 + 1023 * 2 ^ 11)
     wordBits w2 31 21 + wordBits w2 20 11 = 1024 ∧ wordBits w2 31 21 ≠ 0 ∧ wordBits w2 49 48 ≠ 3 ∧ wordBits w2 37 35 ≠ 7) ∧
    (let w2 : DWord := BitVec.ofNat 64 (5 * 2 ^ 58)
     wordBits w2 63 58 ≠ 0 ∧ wordBits w2 63 58 ≠ 0 ∧
     (∃ x, Due ({ s0 with packets := [{ hd := p0, act := .segdef p0 7 0 w2, world := 5, owner := 4 }] }) p0 (.segdef p0 7 0 w2) x ∧
       wordBits w2 63 58 = x.world)) ∧
    findSegment s0 0 7 = none ∧ (findSegment (dev id) 0 7).isSome = true ∧ s0.segments.length < 16384 := by
  refine ⟨?_, by decide, ⟨by decide, by decide, ?_⟩, by decide⟩
  · obtain ⟨x, h, hw, -⟩ := due (.segdef p0 7 0 0) s0
    exact ⟨x, h, hw⟩
  · exact ⟨{ hd := p0, act := .segdef p0 7 0 (BitVec.ofNat 64 (5 * 2 ^ 58)), world := 5, owner := 4 }, by simp [Due], by decide⟩

theorem meets_WeightLoads :
    let s := dev id
    (∀ c ∈ [(0x8000, 0), (0, 0x8000), (0x30000000, 0x10000)], c.1 % 0x10000 ≠ 0 ∨ c.2 % 0x10000 ≠ 0 ∨ 0x30000000 < c.1 + c.2) ∧
    0x2fff0000 + 0x10000 ≤ 0x30000000 ∧ (∀ r ∈ s.wregions, r.world = 0) ∧
    (∃ r ∈ s.wregions, 1 / 2 ^ r.die % 2 = 1 ∧ r.world ≠ 1 ∧ r.base < 0 + 0x10000 ∧ 0 < r.base + r.len) ∧
    (let r : WsLoad := { queue := 4, index := 0, world := 1, source := 0, region := 9, dies := 3, offset := 0x10000, len := 0x10000 }
     (1 &&& r.dies) % 4 ≠ 0 ∧ r.world ≠ 0 ∧ r.offset < 0 + 0x20000 ∧ 0 < r.offset + r.len) := by decide

theorem meets_WeightRegionWritten :
    let x : WsLoad := { queue := 3, index := 15, world := 0, source := 0x203000, region := 1, dies := 1, offset := 0x10000, len := 16 }
    let s : State := { qs id with wsloads := [x] }
    (s.wsloads.find? fun y => y.queue == 3 && y.index == 15) = some x ∧ mayDma s 0 = true ∧ (∃ g ∈ s.groves, g.world = 0 ∧ x.dies / 2 ^ (g.core / 48) % 2 = 1) ∧
    (∀ g ∈ ({ s with groves := [] } : State).groves, g.world = 0 → x.dies / 2 ^ (g.core / 48) % 2 = 0) ∧
    ((frontRead { s with groves := [] } 0 x.source.toNat x.len).toOption.map fun r => r.2.weight.length) = some 2 ∧
    (frontRead { s with groves := [] } 0 0x400000 x.len).isOk = false := by decide

/-- A best-effort descriptor, and a real-time one whose term is the whole limit. -/
def queueWords (cls weight period cost : Nat) : List Nat :=
  [0x201000, 0x202000, 0x202008, cls * 2 ^ 48 + 4 * 2 ^ 44 + weight * 2 ^ 36, period, cost * 2 ^ 32, 0, 0]

theorem meets_QueueDefinitions :
    (∀ ws ∈ [queueWords 0 255 0 0, queueWords 3 0 0 0, queueWords 1 0 1000 0],
      let s := begun (taken (.qdef p0 4 0x203000) none (recorded id ws)) p0
      Direct s ∧ (dwords (bytesOf s 0x203000 64)).map (·.toNat) = ws) ∧
    (frontRead (begun (taken (.qdef p0 4 0x400000) none (recorded id [])) p0) 0 0x400000 64).isOk = false := by decide +kernel

theorem meets_QueueResets :
    let s := taken (.qreset p0 3 16) none (qs id)
    getQueue s 2 = none ∧ getQueue s 3 = some queue ∧
    ((frontWrite (begun s p0) 0 0x202000 (leList 8 16)).toOption.map fun s1 => (frontWrite s1 0 0x202008 (leList 8 16)).isOk) = some true := by
  decide

/-- With a real-time queue that needs 65,536 / 1,000 units: reserve 1 serves, 0 does not. -/
theorem meets_BudgetPackets :
    let s := taken (.budget p0 0 255 0 0 1) none { qs id with queues := [queue, { queue with no := 5, cls := 1, period := 1000, cost := 1 }] }
    let need := ((s.queues.filter fun y => y.cls == 1 && y.no != 256).map fun y => (y.cost * 65536 + y.period - 1) / y.period).sum
    need ≤ 4 * 1 * 256 / 5 ∧ ¬ need ≤ 4 * 0 * 256 / 5 := by decide

/-- An access and an instance that used translations, done and not. -/
theorem meets_Invalidations :
    let v : TlbInv := { queue := 3, index := 15, world := 0, base := 0x200000, len := 4096, accesses := [3], insts := [11] }
    let s : State := { qs id with tlbinvs := [v] }
    (s.tlbinvs.find? fun y => y.queue == 3 && y.index == 15) = some v ∧ (∀ a ∈ s.pend, a.id ∉ v.accesses) ∧
    (∀ i ∈ s.insts, i.id ∉ v.insts) ∧
    (∃ i ∈ ({ s with insts := [inst copy true] } : State).insts, i.id ∈ v.insts) ∧
    (∃ x, Due (taken (.tlbinv p0 63 0 0) none s) p0 (.tlbinv p0 63 0 0) x) := by
  refine ⟨by decide, by decide, by decide, by decide, ?_⟩
  exact ⟨_, (due (.tlbinv p0 63 0 0) _).choose_spec.1⟩

/-- A queue pins the one line at its pin, of the range or beside it; the line's page is mapped, and is not. -/
theorem meets_InvalidationCompletes : ∀ pin ∈ [0x203000, 0x50000000],
    let v : TlbInv := { queue := 3, index := 15, world := 0, base := pin + 127, len := 1, accesses := [3], insts := [11] }
    let q : Queue := { queue with cls := 1, pin := BitVec.ofNat 64 pin, pinlen := 1 }
    let s : State := { qs id with tlbinvs := [v], queues := [q] }
    (s.tlbinvs.find? fun y => y.queue == 3 && y.index == 15) = some v ∧ (∀ a ∈ s.pend, a.id ∉ v.accesses) ∧
    (∀ i ∈ s.insts, i.id ∉ v.insts) ∧ (∃ i ∈ ({ s with insts := [inst copy true] } : State).insts, i.id ∈ v.insts) ∧
    q.world = v.world ∧ q.cls = 1 ∧ q.pin ≠ 0 ∧ q.pin.toNat < v.base + v.len ∧ v.base < q.pin.toNat + 128 ∧
    q.pin.toNat + 128 * q.pinlen ≤ v.base + 1 ∧
    (match (translateFront s q.world q.pin.toNat needFetch).1 with
     | .ok .. => pin == 0x203000
     | .bad _ => pin != 0x203000
     | _ => false) = true := by decide

/-! #### Arbitration, placement and tiles -/

theorem mem_rotate {α : Type} {x : α} (k : Nat) {l : List α} (h : x ∈ l) : x ∈ rotate k l := by
  rw [← List.take_append_drop (k % l.length) l] at h
  simp only [rotate, List.mem_append] at h ⊢
  exact h.symm

/-- Ready work of queue 3, whose deficit serves, does not, and a heap that is full. -/
def readyWork (n : Nat) : Launch := { placedLaunch n with queue := 3, next := 0, total := 2 }

theorem meets_DeficitRoundRobin :
    let s (n heap : Nat) (d : Int) : State := { qs id with
      qrr := 4, queues := [{ queue with deficit := d }]
      launches := (List.range n).map readyWork ++ (List.range heap).map fun k => { readyWork (k + 100) with inHeap := true } }
    (∀ y ∈ (s 0 0 5).queues, y.no = 3 ∧ y.cls = 0 ∧ getQueue (s 0 0 5) 3 = some y) ∧
    (∀ d, d < (3 + 256 - 4) % 256 → getQueue (s 0 0 5) ((4 + d) % 256) = none) ∧
    ((s 2 222 5).launches.filter (·.inHeap)).length + 2 + 32 ≤ 256 ∧ 256 ≤ ((s 2 224 5).launches.filter (·.inHeap)).length + 32 ∧
    (0 : Int) < 5 + 1 * 4096 * 128 ∧ (-524288 : Int) + 1 * 4096 * 128 ≤ 0 ∧ ((s 2 222 5).launches.map (·.id)).Nodup := by
  decide +kernel

/-- The launch whose last grove is to be placed, on the only limb of its world. -/
def placing : State :=
  { s0 with
    strands := [], groves := []
    launches := [{ placedLaunch 0 with inHeap := true, next := 1, total := 2, src := .node 5
                                       record := { (placedLaunch 0).record with acc := 0, depth := 8, frame := 8, scratch := 4 } }] }

theorem placing_extent (used : List (Nat × Nat)) (h : used = []) : ∃ b, freeExtent placing 0 0 1024 used = some b := by
  have : ((rotate (Config.freeChoice placing.free 35) (List.range 1024)).find? fun k =>
      decide (k * 1024 + 1024 ≤ 0x100000) && rangeOwned placing 0 0 (k * 1024) 1024
        && used.all fun (b, m) => !overlaps (k * 1024) 1024 b m).isSome = true := by
    rw [List.find?_isSome]
    exact ⟨0, mem_rotate _ (by decide), by subst h; decide⟩
  obtain ⟨k, hk⟩ := Option.isSome_iff_exists.mp this
  exact ⟨k * 1024, by unfold freeExtent; rw [if_neg (by decide), hk]; rfl⟩

theorem meets_GrovePlaced :
    ∃ l : Launch, placing.launches = [l] ∧ l.inHeap = true ∧ (∀ d t b, l.src ≠ .tilePass d t b) ∧ l.record.copse = 1 ∧
      l.record.segs = [] ∧ l.waitCore = none ∧ l.next < l.total ∧ l.paused = false ∧ (getWorld placing l.world).live = true ∧
      l.world = 0 ∧ (getWorld placing l.world).quiescing = false ∧
      cyclesExhausted placing l.world l.owner = false ∧ placing.wsloads = [] ∧ 0 ∈ usableCores placing l ∧
      (placeGrove placing l l.next 0).isSome = true := by
  refine ⟨placing.launches.head!, rfl, by decide, fun d t b h => (by cases h), by decide, by decide, by decide, by decide,
    by decide, by decide, by decide, by decide, by decide, by decide, by decide, ?_⟩
  obtain ⟨b, hb⟩ := placing_extent (usedRanges placing 0) (by decide)
  have e : freeExtent placing 0 placing.launches.head!.world (scratchBytes placing.launches.head!) (usedRanges placing 0) = some b := hb
  unfold placeGrove
  rw [e]
  show (placeStrands placing.launches.head! _ _ 0 1 0 _).isSome = true
  generalize hs : acquireActs _ 0 Scope.system = s
  have hl : (findLane s placing.launches.head!.world placing.launches.head!.record 0).isSome = true := by
    unfold findLane
    rw [List.findSome?_isSome_iff]
    refine ⟨0, mem_rotate _ (by decide), ?_⟩
    subst hs
    have : (placeOnLane (acquireActs placing 0 Scope.system) 0 placing.launches.head!.record 0 0 0).isSome = true := by decide
    rw [Option.isSome_map]
    exact this
  obtain ⟨⟨limb, lane, k, slot⟩, hf⟩ := Option.isSome_iff_exists.mp hl
  unfold placeStrands
  rw [hf]; rfl

theorem meets_CopsePlaced :
    ∃ (t : State) (l : Launch), 0 ∈ usableCores placing l ∧ placeAt placing l 0 = some t ∧ l.record.segs = [] ∧ 1 ≤ l.record.copse := by
  obtain ⟨l, hl, h1, -, h2, h3, -, -, -, -, -, -, -, -, h4, h5⟩ := meets_GrovePlaced
  obtain ⟨t, ht⟩ := Option.isSome_iff_exists.mp h5
  have hls : listed placing l = some [] := by unfold listed; rw [h3]; rfl
  have hp : placeFirst placing l l.next 0 = some t := by unfold placeFirst; rw [ht, hls]; rfl
  refine ⟨t, l, h4, ?_, h3, by omega⟩
  unfold placeAt
  rw [if_pos (.inl h2), hp, h2]
  rfl

theorem meets_PlacementHeld :
    let s : State := { placing with worlds := placing.worlds.map fun x => { x with quiescing := true } }
    ∃ l : Launch, s.launches = [l] ∧ l.inHeap = true ∧ (∀ d t b, l.src ≠ .tilePass d t b) ∧ (getWorld s l.world).quiescing = true :=
  ⟨placing.launches.head!, rfl, by decide, fun d t b h => (by cases h), by decide⟩

/-- An entry that is urgent, and a launch of each mode whose strand stands where it could go. -/
def contended (preempt : Nat) : State :=
  { s0 with
    time := 5000
    launches := [{ readyWork 8 with inHeap := true, key := 4000, since := 3000 },
      { placedLaunch 0 with key := 9000, next := 1, total := 2, record := { (placedLaunch 0).record with preempt := preempt } }] }

theorem meets_Preempted : ∀ preempt ∈ [0, 1, 2],
    let s := contended preempt
    ((heapOrder s).find? (urgent s)).map (·.id) = some 8 ∧
    ((heapOrder s).find? (urgent s)).bind (fun e => (victim s e).map fun v => (v.1.id, v.1.record.preempt, v.2)) = some (0, preempt, [0]) ∧
    (s.strands.map (·.home)).Nodup := by decide

/-- With no time to lose nothing is urgent. -/
theorem meets_Preempted_not : ∀ y ∈ ({ contended 0 with time := 2000 } : State).launches, y.inHeap = true →
    2000 + 2000 ≤ y.key ∨ 2000 < y.since + 2000 := by decide

theorem meets_PreemptionVictim : ∀ preempt ∈ [0, 1, 2],
    let s := contended preempt
    ∃ e l cs, e ∈ s.launches ∧ victim s e = some (l, cs) ∧ (∀ d t b, e.src ≠ .tilePass d t b) := by
  intro preempt hp
  simp only [List.mem_cons, List.not_mem_nil, or_false] at hp
  rcases hp with rfl | rfl | rfl <;>
    exact ⟨{ readyWork 8 with inHeap := true, key := 4000, since := 3000 }, _, _, by decide, rfl, fun d t b h => (by cases h)⟩

/-- Two triangles on either side of the edge from (0, 0) to (16, 16), whose centre samples lie on it. -/
def prim (n : Nat) (xs ys : List Int) : Prim :=
  { id := n, xs := xs, ys := ys, zs := [0x3f000000, 0x3f000000, 0x3f800000], attr := 0, mayDiscard := false, tiles := [0] }

theorem meets_SharedEdges :
    let p := prim 0 [0, 4096, 0] [0, 4096, 4096]
    let q := prim 1 [0, 4096, 4096] [0, 0, 4096]
    (0, 0, 4096, 4096) ∈ [(0, 0, 4096, 4096), (4096, 4096, 0, 4096), (0, 4096, 0, (0 : Int))] ∧
    (4096, 4096, 0, 0) ∈ [(0, 0, 4096, 0), (4096, 0, 4096, 4096), (4096, 4096, 0, (0 : Int))] ∧
    ((4096 : Int) - 0) * (256 * 5 + 128 - 0) - (4096 - 0) * (256 * 5 + 128 - 0) = 0 ∧
    ((coverPixel p 5 5).isSome || (coverPixel q 5 5).isSome) = true := by decide

theorem meets_PixelCoverage :
    let p := prim 0 [0, 0, 4096] [0, 4096, 0]
    p.zs = [0x3f000000, 0x3f000000, 0x3f800000] ∧ (fixed32 0x3f000000).isSome = true ∧ (fixed32 0x3f800000).isSome = true := by decide

/-- A draw with one primitive in tile 3 of 2 by 2, and a tile of it at work. -/
def drawing (binned : Bool) (tiles : List Tile) : State :=
  { gfx .compute id with
    mem := (mapped s0 0).mem, worlds := (mapped s0 0).worlds
    draws := [{ draw0 with binned := binned, tiles := tiles, prims := [{ prim 0 [0, 0, 4096] [0, 4096, 0] with tiles := [3] }] }] }

theorem meets_TileResolution :
    (∀ b : Bool, ∀ d ∈ (drawing b []).draws, getDraw (drawing b []) 4 = some d ∧ d.binned = b ∧
      (∃ m, m < 4 ∧ mapGet (drawing b []).limbWorld (4 * 0 + m) = some d.world) ∧
      (d.nextTile ≤ 3 ∧ 3 < tilesAlong (targetExtent d).1 * tilesAlong (targetExtent d).2 ∧ ∃ p ∈ d.prims, 3 ∈ p.tiles) ∧
      ∀ j, j < 3 → ∀ p ∈ d.prims, j ∉ p.tiles) ∧
    ∃ y ∈ (drawing true [{ index := 2, core := 0 }]).draws, ∃ t ∈ y.tiles, t.core = 0 := by decide

/-- The second of two primitives, of ascending number, may discard and covers a pixel of tile 0. -/
theorem meets_PassThreads :
    let d : Draw := { draw0 with prims := [prim 3 [0, 4096, 0] [0, 0, 4096], { prim 8 [0, 4096, 4096] [0, 0, 4096] with mayDiscard := true }] }
    d.prims.Pairwise (fun a b => a.id < b.id) ∧ 0 < d.pixel.width ∧
    (∃ q ∈ d.prims, q.mayDiscard = true ∧ 0 ∈ q.tiles ∧ (coverPixel q 12 5).isSome = true ∧ firstFront d 0 12 5 = none) := by decide

/-- A pinned pixel kernel, and a core of another stand; and a core of no group of the world. -/
theorem meets_TileResolution_pinned :
    let s := drawing true []
    ∀ d ∈ ({ s with draws := s.draws.map fun d => { d with pixel := { d.pixel with place := 1, stand := 1 } } } : State).draws,
      d.pixel.place = 1 ∧ 23 / 24 ≠ d.pixel.stand ∧ 24 / 24 = d.pixel.stand ∧ ∀ m, m < 4 → mapGet s.limbWorld (4 * 95 + m) ≠ some d.world := by
  decide

theorem meets_TileSecondResolution :
    let s := drawing true [{ index := 3, core := 0 }]
    let busy : State := { s with launches := [{ placedLaunch 6 with src := .tilePass 4 3 false }] }
    (∀ d ∈ s.draws, getDraw s 4 = some d ∧ (getTile d 3).map (·.shading) = some false) ∧
    (∀ l ∈ s.launches, l.src ≠ .tilePass 4 3 false) ∧ ∃ l ∈ busy.launches, l.src = .tilePass 4 3 false := by decide

theorem meets_TileOutputs :
    let s (out : Map DWord) := drawing true [{ index := 3, core := 0, shading := true, out := out }]
    (∀ d ∈ (s [(33, 5)]).draws, getDraw (s [(33, 5)]) 4 = some d ∧ (getTile d 3).map (fun t => (t.shading, t.out)) = some (true, [(33, 5)]) ∧
      d.outs[33 / 1024]? = some (some (3, surface))) ∧
    (∀ l ∈ (s []).launches, l.src ≠ .tilePass 4 3 true) ∧ (∀ d ∈ (s []).draws, d.world = 0) ∧
    (getWorld (s []) 0).live = true ∧ (getWorld (s [(33, 5)]) 0).live = true ∧
    (frontWrite (s [(33, 5)]) 0 ((surface.base.toNat + (33 * 64 * surface.pitch + 33 * 4)) % 2 ^ 64) (leList 4 5)).isOk = true := by decide

/-! #### Owner maps, heads, frames, grants and composition -/

/-- Head 4, a virtual head of 8 by 4 pixels that latches; head 0, which has no timing yet; a plane of each. -/
def displays (f : State → State) (ws : List Nat) : State :=
  recorded (fun s => f { targets s with
    heads := [(0, { width := 8, height := 4 }), (4, { width := 8, height := 4, en := true, period := 2000000, guard := 1000, nextLatch := 3 })]
    planes := [(16, { omap := 0x204000, opac := 255, en := true })] }) ws

theorem meets_MapRectangles :
    let s := taken (.maprect p0 4 0 7 6 2 2 2) none (displays id [])
    6 + 2 ≤ (mapGetD s.heads 4 {}).width ∧ 2 + 2 ≤ (mapGetD s.heads 4 {}).height ∧ (mapGetD s.heads 4 {}).width < 7 + 2 ∧
    ((frontWriteAll (begun s p0) 0 ((mapGetD s.planes 16 {}).omap.toNat + 2 * 8 + 6) [7, 7]).toOption.map fun t =>
      (frontWriteAll t 0 ((mapGetD s.planes 16 {}).omap.toNat + 3 * 8 + 6) [7, 7]).isOk) = some true := by decide +kernel

/-- The owner map's first row is mapped, and its second is not. -/
theorem meets_MapRectangles_fails :
    let s := taken (.maprect p0 4 0 7 6 2 2 2) none (displays (fun s => { s with planes := [(16, { omap := 0x3fffe8, en := true })] }) [])
    (match frontWriteAll (begun s p0) 0 ((mapGetD s.planes 16 {}).omap.toNat + 2 * 8 + 6) [7, 7] with
     | .ok t => (frontWriteAll t 0 ((mapGetD s.planes 16 {}).omap.toNat + 3 * 8 + 6) [7, 7]).isOk
     | .error _ => true) = false := by decide +kernel

/-- The words of a surface of 64 by 64 with v set and clear, of kind 3; of a plane record; of a head record that serves, and
one with a period that is too short; of a grant. -/
theorem meets_SourceWrites :
    ∀ c ∈ [(.desc p0 0xfffe 0x203000, [0x200000, 63 * 2 ^ 50 + 63 * 2 ^ 36 + 4 * 2 ^ 20, 2 ^ 50 + 2 ^ 47, 0]),
      (.desc p0 0xfffe 0x203000, [0x200000, 63 * 2 ^ 50 + 63 * 2 ^ 36 + 4 * 2 ^ 20, 2 ^ 50, 0]),
      (.desc p0 0xfffe 0x203000, [0x200000, 63 * 2 ^ 50 + 63 * 2 ^ 36 + 4 * 2 ^ 20, 2 ^ 50 + 2 ^ 47 + 3 * 2 ^ 48, 0]),
      (.plane p0 4 3 0x203000, [0x204000, 2 ^ 55 + 200 * 2 ^ 56, 0, 0]),
      (.grant p0 4095 0x203000, [50 * 2 ^ 32 + 60, 0 * 2 ^ 16 + 5 * 2 ^ 8 + 6, 1, 0])],
    let s := begun (taken c.1 none (displays id c.2)) p0
    Direct s ∧ (dwords (bytesOf s 0x203000 32)).map (·.toNat) = c.2 ∧ (frontRead s 0 0x400000 32).isOk = false := by decide +kernel

theorem meets_HeadWrites : ∀ period ∈ [1999999, 2000000],
    let ws := [7 * 2 ^ 50 + 3 * 2 ^ 36, 0, 1000 * 2 ^ 32 + period, 0, 0, 0, 0, 0]
    let s := begun (taken (.head p0 4 0x203000) none (displays id ws)) p0
    Direct s ∧ (dwords (bytesOf s 0x203000 64)).map (·.toNat) = ws ∧ (frontRead s 0 0x400000 64).isOk = false ∧
    (mapGetD s.heads 4 {}).en = true ∧ (mapGetD s.heads 0 {}).en = false := by decide +kernel

theorem meets_HeadReads :
    let hd : Head := { width := 16384, height := 1, shead := 127, capr := 255, guard := 2 ^ 32 - 1, odesc := 0xffff, nidx := 4095
                       newTiming := some (2 ^ 64 - 1, 2 ^ 32 - 1) }
    let s : State := { displays id [] with
      turns := [.headRead 4 2]
      heads := [(4, hd)] }
    let h := mapGetD s.heads 4 {}
    s.turns = .headRead 4 2 :: [] ∧ s.power.tripped = false ∧ s.host.bootStep = 0 ∧ 4 < 100 ∧ 1 ≤ h.width ∧ h.width ≤ 2 ^ 14 ∧
    1 ≤ h.height ∧ h.height ≤ 2 ^ 14 ∧ h.shead < 2 ^ 7 ∧ h.capr < 2 ^ 8 ∧ h.guard < 2 ^ 32 ∧
    (h.newTiming.getD (h.t0, h.period)).1 < 2 ^ 64 ∧ (h.newTiming.getD (h.t0, h.period)).2 < 2 ^ 32 ∧ h.odesc < 2 ^ 16 ∧
    h.nidx < 2 ^ 12 := by decide

theorem meets_LinkTraining : (mapGetD (displays id []).heads 0 {}).en = false ∧ (2000000 : DWord).toNat < 2 ^ 32 ∧
    (mapGetD ({ s0 with heads := [(0, { en := true, period := 5 })] } : State).heads 0 {}).en = true := by decide

/-- Owner 4 has presented number 7: its plane image of head 4, plane 0, with its last PRESENT waiting and not. -/
def presenting (frame : Nat) (waiting : Option (Nat × Nat)) : State :=
  taken (.present p0 4 0 9 frame) none { displays id [] with
    lf := [(4, 7)], descs := [(9, { surface with kind := 1, head := 4, plane := 0, world := 0 })]
    presents := [{ owner := 4, head := 4, plane := 0, desc := 9, waiting := waiting
                   image := { surface with kind := 1, head := 4, plane := 0, world := 0 } }] }

theorem meets_Presents : ∀ frame ∈ [6, 7, 8, 9],
    let s := presenting frame (some (3, 14))
    (mapGetD s.lf 4 0xffffffff + 1) % 2 ^ 32 = 8 ∧ (mapGet s.descs 9).map (fun d => (d.kind, d.head, d.plane)) = some (1, 4, 0) ∧
    (s.presents.find? fun y => y.owner == 4 && y.head == 4 && y.plane == 0).map (·.waiting) = some (some (3, 14)) ∧
    ∀ y ∈ (presenting frame none).presents, y.waiting = none := by decide

def granted (g : Grant) : State := { displays id [] with grants := [(4095, g)], lf := [(5, 7)] }

theorem meets_Withdrawals :
    let g : Grant := { first := 0, expiry := 90, surface := 0, grantee := 5, grantor := 6, sample := true, state := .active }
    let w : Grant := { g with state := .withdrawn, wframe := 8 }
    (mapGetD (granted g).grants 4095 {}).state = .active ∧ (mapGetD (granted g).grants 4094 {}).state ≠ .active ∧
    (mapGetD (granted w).grants 4095 {}).state = .withdrawn ∧ (mapGetD (granted w).grants 4095 {}).wframe ≤ (mapGetD (granted w).lf 5 0xffffffff + 1) % 2 ^ 32 ∧
    (mapGetD (granted w).lf 5 0xffffffff + 1) % 2 ^ 32 < 9 ∧ (∀ l ∈ (granted w).launches, l.owner ≠ 5) ∧ (granted w).draws = [] ∧
    (let c : State := { granted { w with sample := false, capture := true } with heads := [(4, { cap := true, nextLatch := 8 })] }
     (c.heads.find? fun y => y.2.cap && y.2.odesc == 0).map (fun y => (y.1, y.2.nextLatch)) = some (4, 8) ∧ c.composing = []) := by decide

/-- A capture grant whose head serves, and whose head is disabled; a node that waits under an earlier frame; a composition
of an earlier latch. -/
theorem meets_Withdrawals_capture : ∀ en : Bool,
    let g : Grant := { first := 0, expiry := 90, surface := 0, grantee := 5, grantor := 6, capture := true, state := .active }
    let s : State := { granted g with heads := [(4, { cap := true, en := en, nextLatch := 8 })] }
    (mapGetD s.grants 4095 {}).state = .active ∧ (mapGetD s.grants 4095 {}).capture = true ∧
    ((s.heads.find? fun y => y.2.en && y.2.cap && y.2.odesc == g.surface) = if en then some (4, { cap := true, en := true, nextLatch := 8 }) else none) ∧
    (s.heads.find? fun y => y.2.cap && y.2.odesc == g.surface).map (·.1) = some 4 ∧
    (let w : Grant := { g with capture := false, sample := true, state := .withdrawn, wframe := 8 }
     let t : State := { granted w with queues := [{ queue with owner := 5 }], nodes := [(7, { queue := 3, armed := true, frame := 7 })] }
     ∃ n ∈ t.nodes, n.2.armed = true ∧ n.2.ready = false ∧ n.2.frame < w.wframe ∧
      (getQueue t n.2.queue).map (·.owner) = some w.grantee) ∧
    (let w : Grant := { g with state := .withdrawn, wframe := 8 }
     let c : Composition := { head := 4, latch := 7, end_ := 50, pixels := [], backdrops := [], record := { cap := true } }
     c.record.cap = true ∧ c.record.odesc = w.surface ∧ c.latch < w.wframe) := by decide

theorem meets_Pacing :
    let s : State := { displays id [] with pacing := [(4, 4)], time := 6000000 }
    let q : Queue := { queue with paced := true, owner := 4, lead := 100 }
    let later (t : Nat) : State :=
      { s with time := t, heads := s.heads.map fun y => (y.1, { y.2 with newTiming := some (8000000, 3000000) }) }
    mapGet s.pacing q.owner = some 4 ∧ (mapGetD s.heads 4 {}).newTiming = none ∧ 0 < (mapGetD s.heads 4 {}).period ∧
    mapGet s.pacing queue.owner = none ∧
    (∀ t ∈ [5999999, 6000000], let h := mapGetD (later t).heads 4 {}
      mapGet (later t).pacing q.owner = some 4 ∧ h.newTiming = some (8000000, 3000000) ∧
      ((later t).time < h.t0 + h.nextLatch * h.period ↔ t = 5999999)) := by decide

/-- A latch that is due, at its tick and one before it. -/
theorem meets_Latches :
    let s (t : Nat) : State := { displays id [] with time := t, closing := true }
    let h := mapGetD (s 0).heads 4 {}
    (displays id []).closing = false ∧ h.en = true ∧ h.period ≠ 0 ∧ h.t0 + h.nextLatch * h.period ≤ (s 6000000).time ∧ (s 5999999).time < h.t0 + h.nextLatch * h.period ∧
    (mapGetD (s 0).heads 0 {}).en = false := by decide

/-- Head 4 with plane 0 alone: a pixel of owner 4 with an image, in a picture that is 0. -/
def composed : State :=
  { displays id [] with
    mem := bytesAt 0x204000 [0x04] ++ (displays id []).mem, descs := [(9, { surface with kind := 1, head := 4 })]
    presents := [{ owner := 4, head := 4, plane := 0, desc := 9, image := { surface with kind := 1, head := 4 } }] }

theorem meets_ComposedPixels :
    (∀ m, m < 4 → ((mapGetD composed.planes (4 * 4 + m) {}).en = true ↔ m = 0)) ∧
    (∀ n, n < 4 → (mapGetD composed.planes (4 * 0 + n) {}).en = false) ∧
    (composed.presents.find? fun p => p.owner == 4 && p.head == 4 && p.plane == 0).map (·.image.base) = some surface.base ∧
    (composerRead composed ((mapGetD composed.planes 16 {}).omap.toNat + 0 * 8 + 0) 1).1 = some ([4], false, 0x204000) ∧
    (composerRead composed ((surface.base.toNat + (0 * 64 * surface.pitch + 0 * 4)) % 2 ^ 64) 4).1
      = some ([0, 0, 0, 0], false, 0x200000) := by decide

/-- Both heads latch with nothing enabled over them: a head of 2 by 1 pixels, with no backdrop and with one. -/
theorem meets_LatchPictures : ∀ bd : Bool,
    let hv : Head := { width := 2, height := 1, en := true, period := 2000000, nextLatch := 2 }
    let d : Desc := { surface with kind := 2, head := 4, plane := 1 }
    let s : State := { s0 with closing := true, time := 4000000, heads := [(4, hv)], descs := if bd then [(12, d)] else [] }
    let h := mapGetD s.heads 4 {}
    s.closing = true ∧ h.en = true ∧ h.period ≠ 0 ∧ h.t0 + h.nextLatch * h.period ≤ s.time ∧
    (∀ i, i < h.width * h.height → (composePixel h h 4 h.nextLatch 4 s (i % h.width) (i / h.width)).2.2 = s ∧
      (composePixel h h 4 h.nextLatch d.plane s (i % h.width) (i / h.width)).2.2 = s) ∧ d.kind = 2 ∧ d.head = 4 := by decide

theorem meets_Blur : (1 : Nat) < 3 ∧ (List.replicate 3 (0x01020304 : Word)).length = 3 := by decide

theorem meets_CompositionCompletes : ∀ head ∈ [0, 4],
    let c : Composition := { head := head, latch := 2, end_ := 50, pixels := [0x11223344], backdrops := []
                             record := { mapGetD (displays id []).heads head {} with out := some surface } }
    let s : State := { displays id [] with composing := [c], time := 50 }
    (s.composing.find? (·.head == head)) = some c ∧ c.end_ ≤ s.time ∧ ¬ s.time < c.end_ ∧
    c.record.out = some surface ∧ surface.kind = 0 ∧ surface.fmt = 0 ∧
    (frontWrite { s with composing := [], frames := mapSet s.frames head c.pixels } 0
      ((surface.base.toNat + (0 / 8 * 64 * surface.pitch + 0 % 8 * 4)) % 2 ^ 64) (leList 4 0x11223344)).isOk = true := by decide

/-- A composition with a backdrop of one pixel. -/
theorem meets_CompositionCompletes_backdrop :
    let d : Desc := { surface with kind := 2, base := 0x206000 }
    let c : Composition := { head := 0, latch := 2, end_ := 50, pixels := [0x11223344], backdrops := [(d, [0x01020304])]
                             record := mapGetD (displays id []).heads 0 {} }
    let s : State := { displays id [] with composing := [c], time := 50 }
    (s.composing.find? (·.head == 0)) = some c ∧ c.end_ ≤ s.time ∧ d.kind = 2 ∧ d.fmt = 0 ∧
    (frontWrite { s with composing := [], frames := mapSet s.frames 0 c.pixels } 0
      ((d.base.toNat + (0 / c.record.width * 64 * d.pitch + 0 % c.record.width * 4)) % 2 ^ 64) (leList 4 0x01020304)).isOk = true := by
  decide

/-! #### The mailbox, worlds, firmware, links and power -/

/-- The mailbox holds a command and its operands, and its status. -/
def commanded (ws : List Nat) (status : Nat) (f : State → State := id) : State :=
  f { mapped s0 0 with host := { State.reset.host with
        mailbox := ws.map (BitVec.ofNat 64) ++ List.replicate (7 - ws.length) 0 ++ [BitVec.ofNat 64 status], committed := true
        accepted := [0x3f, 0, 0, 0] } }

theorem meets_Mailbox :
    operand (commanded [1] 0xff) 7 = 0xff ∧ operand (commanded [1] 0) 7 ≠ 0xff ∧ (commanded [1] 0).host.mailbox.length = 8 ∧
    (commanded [1] 0).power.state = .s0 ∧ (commanded [1] 0).power.entering = none ∧
    Commanded (commanded [7] 0xff) 7 ∧ Commanded (commanded [0x100] 0xff) 0 := by decide

/-- Limb 3 and group 3 of core 95 for world 0; limb 0 of core 0, which has a strand; a limb mask out of range. -/
theorem meets_WorldBinding : ∀ ws ∈ [[2, 0, 95, 8, 8], [2, 0, 0, 1, 0], [2, 0, 95, 16, 0], [2, 5, 95, 1, 1]],
    Commanded (commanded ws 0xff) 2 ∧ Commanded (commanded (3 :: ws.drop 2) 0xff) 3 ∧
    (ws = [2, 0, 95, 8, 8] → (∀ st ∈ (commanded ws 0xff).strands, st.core ≠ 95) ∧ usedRanges (commanded ws 0xff) 95 = [] ∧
      (getWorld (commanded ws 0xff) 0).live = true) ∧
    (ws = [2, 0, 0, 1, 0] → ∃ st ∈ (commanded ws 0xff).strands, st.resident = true ∧ st.core = 0 ∧ st.limb = 0) ∧
    (ws = [2, 5, 95, 1, 1] → (getWorld (commanded ws 0xff) 5).live = false) := by decide

/-- World 63, confidential, its root in the tagged page and its block at 0x203000; world 0; a reseed under way; and a DRBG
without a seed. -/
theorem meets_WorldCreation :
    let s (f : State → State) := commanded [1, 63, 1, 63, 0x210000, 2 ^ 32 - 1, 0x203000] 0xff f
    let host (f : HostIf → HostIf) (s : State) : State := { s with host := f s.host }
    Commanded (s id) 1 ∧ operand (s id) 1 < 64 ∧ (getWorld (s id) 63).live = false ∧ operand (s id) 2 = 1 ∧
    wordBits ((s id).host.accepted.getD 0 0) 4 4 = 1 ∧ operand (s id) 3 = operand (s id) 1 ∧ operand (s id) 4 % 0x10000 = 0 ∧
    tierOf (s id) (operand (s id) 4) = .hbm ∧ tagOk (s id) 0 (operand (s id) 4) = true ∧ operand (s id) 5 < 2 ^ 32 ∧
    Direct (s id) ∧ (s id).host.reseeding = none ∧ (s id).host.seeded = true ∧
    (s (host fun h => { h with reseeding := some (0, 0) })).host.reseeding ≠ none ∧
    (s (host fun h => { h with seeded := false })).host.seeded = false ∧ Commanded (commanded [1, 0] 0xff) 1 ∧
    (frontRead (s id) 0 0x400000 112).isOk = false := by decide +kernel

/-- World 5: running, being torn down with a strand left, and drained. -/
def worldly (f : World → World) (strands : Bool) : State :=
  commanded [4, 5] 0xff fun s => { s with
    worlds := s.worlds ++ [f { no := 5, tstate := .run }]
    strands := if strands then [{ st0 with world := 5 }] else [], groves := [], launches := [], tags := mapSet s.tags 2 0x85 }

theorem meets_Teardown :
    Commanded (worldly id true) 4 ∧ operand (worldly id true) 1 = 5 ∧ (getWorld (worldly id true) 5).live = true ∧
    (getWorld (worldly id true) 5).dying = false ∧ ((worldly id true).strands.map (·.home)).Nodup ∧
    (∀ y ∈ (worldly id true).strands, y.world = 5) ∧
    (let dying (b : Bool) := worldly (fun x => { x with dying := true, quiescing := true }) b
     (getWorld (dying true) 5).dying = true ∧ worldDrained (dying true) 5 = false ∧ worldDrained (dying false) 5 = true ∧
     mapGet (dying false).tags 2 = some (BitVec.ofNat 8 (0x80 + 5)) ∧ ((dying false).tags.map (·.1)).Nodup) ∧
    (let seq : State := { worldly (fun x => { x with dying := true, quiescing := true }) false with
        insts := [{ inst (card 7 [0, 1]) true with world := 5 }] }
     (getWorld seq 5).dying = true ∧ worldDrained seq 5 = false ∧
     (∀ i ∈ seq.insts, i.world = 5 ∧ i.started = true ∧ i.segment = none ∧ cardKind i.card = kSeq) ∧
     (∃ c ∈ ({ seq with channels := [{ core := 0, ch := 1, world := 5 }] } : State).channels, c.world = 5)) ∧
    Commanded (commanded [4, 0] 0xff) 4 ∧ (getWorld (commanded [4, 6] 0xff) 6).live = false := by decide

theorem meets_InterfaceStates : ∀ st ∈ [TState.unlocked, .locked, .run, .error, .quiesced], ∀ keyed : Bool,
    let s := worldly (fun x => { x with tstate := st, ideKeyed := keyed }) true
    (getWorld s 5).no = 5 ∧ (∃ y ∈ s.worlds, y.no = 5) ∧ (getWorld s 5).live = true ∧ (getWorld s 5).dying = false ∧
    (getWorld s 5).tstate = st ∧ (getWorld s 5).ideKeyed = keyed ∧ wordBits (s.host.accepted.getD 0 0) 1 1 = 1 := by decide

theorem meets_Quiescing :
    (∀ q b : Bool, let s := worldly (fun x => { x with quiescing := q }) b
      (getWorld s 5).no = 5 ∧ (getWorld s 5).live = true ∧ (getWorld s 5).dying = false ∧ (getWorld s 5).tstate = .run ∧
      (getWorld s 5).quiescing = q ∧ ((∃ y ∈ s.strands, y.world = 5 ∧ y.resident = true) ↔ b = true) ∧ s.chains = [] ∧ s.insts = [] ∧
      s.pend = [] ∧ s.mx = [] ∧ s.nreqs = []) ∧
    (let s := { worldly (fun x => { x with tstate := .quiesced }) false with
        ntable := [(9, ({ world := 5, arm := false, node := 0, thresh := 0 } : NotifyEntry))] }
     (getWorld s 5).tstate = .quiesced ∧ s.host.latch = [] ∧ (mapGet s.ntable 9).map (·.world) = some 5 ∧
     (let t : State := { s with host := { s.host with latch := [(9, 3, 5)] } }
      t.host.latch = [(9, 3, 5)] ∧ t.host.held = [])) ∧
    (let s := worldly (fun x => { x with quiescing := true }) false
     s.dcache = [] ∧ s.slices = [] ∧ s.wsloads = [] ∧ (∀ p ∈ s.packets, p.world ≠ 5) ∧ s.draws = []) ∧
    (let s : State := { worldly (fun x => { x with quiescing := true }) false with
        packets := [{ hd := p0, act := .nop h0, world := 5, owner := 0, status := some 0 }] }
     ∃ p ∈ s.packets, p.world = 5 ∧ p.status ≠ none) := by decide

theorem meets_FirmwareUpdate :
    Commanded (commanded [5, 0x203000, 64] 0xff) 5 ∧ Direct (commanded [5, 0x203000, 64] 0xff) ∧
    (frontRead (commanded [5, 0x400000, 64] 0xff) 0 0x400000 64).isOk = false ∧ Commanded (commanded [6] 0xff) 6 ∧
    (∀ x ∈ (commanded [6] 0xff).worlds, x.no = 0) ∧ (commanded [6] 0xff).host.latch = [] ∧
    (let s := worldly id true
     (∃ x ∈ s.worlds, x.no ≠ 0 ∧ x.live = true ∧ x.tstate = .run ∧ x.dying = false ∧ x.quiescing = false) ∧ (s.worlds.map (·.no)).Nodup) := by
  decide +kernel

theorem meets_HostTranslations :
    let v : AtsInv := { id := 7, world := 5, base := 0, len := 4096, arrived := 10, accesses := [], insts := [11] }
    let s (t : Nat) (is : List Inst) : State := { worldly id true with
      time := t, ats := [{ id := 3, world := 5, page := 0, host := none }], atsinvs := [v], insts := is, nodes := [] }
    (∀ q ∈ (s 0 []).queues, q.pinLines = []) ∧
    ((s 0 []).ats.find? fun a => a.id == 3 && a.host.isNone).isSome = true ∧ (s 0 []).atsinvs.find? (·.id == 7) = some v ∧
    (getWorld (s 0 []) 5).live = true ∧ (getWorld (s 0 []) 5).tstate = .run ∧ (∀ i ∈ (s 0 []).insts, i.id ∉ v.insts) ∧
    (∃ i ∈ (s 1000010 [inst copy true]).insts, i.id ∈ v.insts) ∧ v.arrived + 1000000 ≤ (s 1000010 []).time ∧
    (s 1000009 []).time < v.arrived + 1000000 ∧ ∃ y ∈ (s 0 []).worlds, y.no = v.world := by decide

/-- The page of world 0, and one of nobody. -/
theorem meets_CxlAccesses :
    let s := commanded [] 0
    wordBits (s.host.accepted.getD 0 0) 0 0 = 1 ∧ tierOf s 0x3fffff = .hbm ∧ tagOk s 0 0x3fffff = true ∧ tierOf s 0x400000 = .hbm ∧
    tagOk s 0 0x400000 = false ∧ encrypted s 0x3fffff = false := by decide

/-- Reseeds that have time and that have not, with two tried; a re-run that is due. -/
theorem meets_Entropy :
    let s (t n : Nat) : State := { commanded [1, 5, 1] 0xff with
      time := t, host := { (commanded [1, 5, 1] 0xff).host with reseeding := some (0, n), seeded := false } }
    (s 1000000 2).host.reseeding = some (0, 2) ∧ (s 1000000 2).time ≤ 0 + 1000000 ∧ 0 + 1000000 < (s 1000001 0).time ∧
    (operand (s 1 0) 7 = 0xff ∧ operand (s 1 0) 0 % 256 = 1 ∧ operand (s 1 0) 2 = 1) ∧ State.reset.host.reseeding = none ∧
    (({ State.reset.host with sourceOk := false } : HostIf).lastRerun + 100000000 ≤ 100000000) := by decide

/-- A port untrained, trained, and up with one failure to spare, as the last Oxzer port and as the port of the other device;
a DRBG without a seed; and a device asleep. -/
theorem meets_Links : ∀ p ∈ [({} : Port), { trained := true }, { trained := true, session := true, keys := true, failures := 7, received := 2 ^ 32 }],
    let s : State := { commanded [] 0 with ports := List.replicate 7 {} ++ [p, p] }
    s.ports[7]? = some p ∧ s.ports[8]? = some p ∧ s.host.seeded = true ∧ wordBits (s.host.accepted.getD 0 0) 2 2 = 1 ∧
    s.power.state = .s0 ∧ s.power.entering = none ∧ p.window = [] ∧ p.backlog = [] ∧
    (let t : State := { s with host := { s.host with seeded := false }, power := { s.power with state := .s2 } }
     t.host.seeded = false ∧ t.ports[7]? = some p ∧ t.power.state ≠ .s0) := by decide

theorem meets_Resets : State.reset.power.tripped = false ∧ State.reset.host.bootStep ≠ 1 ∧ State.reset.host.bootStep ≠ 2 ∧
    ({ State.reset with power := { State.reset.power with tripped := true } } : State).power.tripped = true ∧
    ∀ b ∈ [1, 2], ({ State.reset with host := { State.reset.host with bootStep := b } } : State).host.bootStep = b := by decide

theorem meets_BootOrder : ∀ b ∈ List.range 8,
    let s : State := { State.reset with turns := [.bootStep], host := { State.reset.host with bootStep := b } }
    s.turns = [.bootStep] ∧ s.power.tripped = false ∧ s.host.bootStep = b ∧ s.host.offered.length = 4 ∧ s.host.latch = [] := by decide

theorem meets_FeatureVector : State.reset.host.held = [] ∧ (commanded [] 0).host.held = [] ∧ State.reset.host.committed = false ∧ State.reset.host.accepted.length = 4 ∧
    (commanded [] 0).host.committed = true := by decide

/-- Idle states for S1, for S2 and for S3, with the tolerance that allows each; a head whose latch is near. -/
theorem meets_PowerEntry :
    let at_ (t : Nat) (f : State → State) : State := { f State.reset with power := { State.reset.power with tolerance := t } }
    let waits (s : State) : State := { s with strands := [{ st0 with status := .parked .drain }] }
    let shows (s : State) : State := { s with heads := [(0, { en := true, period := 2000000, nextLatch := 1 })] }
    (∀ t ∈ [2000, 39999, 40000, 399999, 400000], ∀ s ∈ [at_ t id, at_ t waits, at_ t shows], s.power.tripped = false ∧ s.power.state = .s0 ∧
      s.power.entering = none ∧ s.power.exiting = none ∧ s.power.pendingExit = false ∧ s.host.bootStep = 0 ∧
      ∀ st ∈ s.strands, eligible s st = false) ∧
    (let deeper : State := { State.reset with power := { State.reset.power with tolerance := 400000, state := .s1 } }
     deeper.power.tripped = false ∧ deeper.power.entering = none ∧ deeper.power.exiting = none ∧
     deeper.power.pendingExit = false ∧ deeper.power.state ≠ .s3 ∧ deeper.strands = [] ∧ deeper.heads = []) ∧
    (at_ 400000 id).heads = [] ∧ (at_ 40000 shows).strands = [] ∧ (∃ st ∈ (at_ 2000 waits).strands, st.resident = true) ∧
    (∃ h ∈ ({ at_ 40000 shows with time := 1956000 } : State).heads, h.2.en = true ∧ h.2.period ≠ 0 ∧
      h.2.t0 + h.2.nextLatch * h.2.period - 4000 - 40000 ≤ 1956000) := by decide

theorem meets_PowerTransitions : ∀ p ∈ [PState.s1, .s2, .s3],
    let s (f : Power → Power) : State := { commanded [] 0 with power := f {}, ntable := [(9, { world := 0, arm := false, node := 0, thresh := 0 })] }
    (let w := s fun x => { x with entering := some p }
     w.power.entering = some p ∧ w.power.pendingExit = false ∧ w.heads = [] ∧ (∀ st ∈ w.strands, st.status = .ready) ∧
     ({ w with power := { w.power with pendingExit := true } } : State).power.pendingExit = true) ∧
    (let w := s fun x => { x with state := p, pendingExit := true }
     w.power.state ≠ .s0 ∧ w.power.exiting = none ∧ w.power.entering = none ∧ w.power.pendingExit = true) ∧
    (let w := { s fun x => { x with state := p } with strands := [] }
     w.power.state ≠ .s0 ∧ w.power.exiting = none ∧ w.power.entering = none ∧ w.power.pendingExit = false ∧ w.heads = [] ∧
     w.strands = [] ∧ w.chains = [] ∧ w.mx = [] ∧ w.insts = [] ∧ ∀ l ∈ w.launches, l.inHeap = false) ∧
    (let w := s fun x => { x with state := p, exiting := some 0 }
     w.power.exiting = some 0 ∧ 0 ≤ w.time ∧ w.host.latch = [] ∧ (mapGet w.ntable 9).map (·.world) = some 0 ∧
     (getWorld w 0).live = true ∧ (getWorld w 0).tstate ≠ .quiesced ∧
     (let v : State := { w with host := { w.host with latch := [(9, 1, 0)] } }
      v.host.latch = [(9, 1, 0)] ∧ v.host.held = [])) := by decide

/-- Readings at and past the limits of a die and of the board, whatever those are; a cool one, where a limit leaves room for
it; and a die that has been above Tc for 100 ms. -/
theorem meets_ThermalLimits :
    let s (p : Power) : State := { s0 with time := 100000000, power := p }
    (let p := (s { sensors := [tj + 1, 0, 0], watts := [(95000000, powerCap + 1)] }).power
     p.lastSensor + 100000 ≤ 100000000 ∧ p.lastStep + 1000000 ≤ 100000000 ∧ (∃ t ∈ p.sensors, tj < t) ∧
     (∀ x ∈ p.watts, 100000000 < x.1 + 10000000) ∧ powerCap * 1 < (p.watts.map (·.2)).sum ∧ 1600 < p.mhz) ∧
    (3 ≤ tj → 0 < powerCap → let p : Power := { sensors := [tj - 3, 0, 0], watts := [(95000000, 0)] }
     (∀ t ∈ p.sensors, t + 3 ≤ tj) ∧ 100 * (p.watts.map (·.2)).sum < 95 * powerCap * 1) ∧
    tc < tc + 1 ∧ (let t := s { critSince := some 0 }; t.power.critSince = some 0 ∧ 0 + 100000000 ≤ t.time) ∧
    s0.host.held = [] ∧ s0.host.latch.length < 256 := by
  refine ⟨⟨by decide, by decide, ⟨tj + 1, by simp [s0], by omega⟩, by decide, ?_, by decide⟩, fun h1 h2 => ⟨?_, ?_⟩, by omega,
    by decide, by decide, by decide⟩
  · show powerCap * 1 < powerCap + 1 + 0; omega
  · intro t ht; simp at ht; rcases ht with rfl | rfl | rfl <;> omega
  · show 100 * (0 + 0) < 95 * powerCap * 1; omega

/-- The first step after the word of a nop is placed: the issue of lane 0. -/
def placedNop : State := State.reset.withFetchWord 64 (word 0x38 0 0 0)

theorem meets_IssueRunsDecoded :
    let s : State := { placedNop with turns := [], free := placedNop.free + 1 }
    (placedNop.turns = [.issue 0 0 0] ∧ placedNop.power.state = .s0 ∧ placedNop.power.tripped = false ∧
      (getLane placedNop (laneIndex 0 0 0)).granted = some 0 ∧ getStrand placedNop 0 = some st0 ∧ st0.status = .ready ∧
      st0.halted = false ∧ st0.resident = true ∧ issuePc (strandRecord placedNop st0).code st0 = some placedCode) ∧
    (translate s 0 0 0 placedCode.toNat needFetch).1 = .ok 0x200000 0 ∧
    (let r := sliceRead (translate s 0 0 0 placedCode.toNat needFetch).2 0 0 0x200000 8
     (r.1, r.2.1) = (leList 8 (word 0x38 0 0 0), false)) ∧
    decode (word 0x38 0 0 0) = .ok (.nop h0) :=
  ⟨by decide +kernel, by decide +kernel, by decide +kernel, rfl⟩

/-- An issue that goes on after a pause; and a part of an issue. -/
theorem meets_IssueRunsDecoded_goesOn :
    let b : Begun := { instr := .nop h0, threads := st0.threads, vregs := [], qregs := [], shadow := [], active := [0], next := 0, cycles := 0 }
    let s : State := { placedNop with
      turns := [.issuePart 0 0 0 3]
      strands := [{ st0 with interrupted := true }]
      lanes := [(0, { granted := some 0, begun := some b })] }
    s.turns = .issuePart 0 0 0 3 :: [] ∧ (getLane s (laneIndex 0 0 0)).granted = some 0 ∧
    (getStrand s 0).map (fun st => (st.status, st.halted, st.resident, pausedIssue s st)) = some (.ready, false, true, some b) ∧
    bytesExhausted s 0 0 = false := by decide +kernel

theorem meets_EventSteps :
    let s (p : PState) (trip : Bool) : State := { State.reset with turns := [.event .deficitRoundRobin], power := { state := p, tripped := trip } }
    Instr.deficitRoundRobin.isWord = false ∧ (s .s0 false).turns = [.event .deficitRoundRobin] ∧ (s .s2 false).power.state ≠ .s0 ∧
    (s .s1 false).power.state = .s1 ∧ coreWork .deficitRoundRobin = false ∧ coreWork (.laneGrant 0 0 0) = true ∧
    engineWork .grovePlacement = true ∧ displayWork (.latch 0) = true ∧
    ({ State.reset with host := { State.reset.host with noImage := true } } : State).host.noImage = true ∧
    (Instr.laneGrant 0 0 0).isWord = false ∧ State.reset.host.bootStep = 0 ∧ runsInBoot .deficitRoundRobin = false ∧
    ({ State.reset with host := { State.reset.host with bootStep := 7 } } : State).host.bootStep ≠ 0 ∧
    runsInBoot .pfFlr = true ∧ (s .s0 true).power.tripped = true ∧
    Instr.deficitRoundRobin ≠ .fundamentalReset ∧ State.reset.turns = [] := by decide

theorem meets_OnlyCvtDependsOnSlots :
    (slotOf ((slotted id).launches.head!).record 2).map (·.ssrc) = some 1 := by decide

theorem meets_WordsRoundTrip :
    (Instr.add h0 .b64 false (.v 2) (.v 4) (.imm 0x7ffffff)).isWord = true ∧
    (Instr.add h0 .b64 false (.v 2) (.v 4) (.imm 0x7ffffff)).WellFormed ∧ word 0x38 0 0 0 < 2 ^ 64 := by decide

/-- Fields at the ends of their places. -/
theorem meets_PacketsRoundTrip :
    let p : PktHd := { p0 with nidx := 4095, deadline := 2 ^ 64 - 1, signal := 2 ^ 64 - 8 }
    ∀ i ∈ [Instr.graph p (2 ^ 32 - 1) 0, .maprect p 255 255 255 65535 65535 65535 65535, .budget p 63 255 5 6 65535,
        .wsload p 5 63 3 (2 ^ 32 - 1) (2 ^ 32 - 1), .head p 255 7],
      (actBody i).isSome = true ∧ (actBody i).map (·.1) = some p ∧ p.nidx < 2 ^ 12 ∧ p.deadline < 2 ^ 64 ∧ p.signal < 2 ^ 64 := by decide

theorem meets_PacketsRoundTrip_fits (p : PktHd) : PacketFits (.graph p (2 ^ 32 - 1) 0) ∧
    PacketFits (.maprect p 255 255 255 65535 65535 65535 65535) ∧ PacketFits (.budget p 63 255 5 6 65535) ∧
    PacketFits (.wsload p 5 63 3 (2 ^ 32 - 1) (2 ^ 32 - 1)) ∧ PacketFits (.head p 255 7) := by
  refine ⟨?_, ?_, ?_, ?_, ?_⟩ <;> simp [PacketFits]

theorem meets_MemoryStaysCanonical : Memory.wf placedNop.mem = true ∧ (∀ m ∈ placedNop.weight, Memory.wf m = true) ∧
    (∀ x ∈ placedNop.scratch, Memory.wf x.2 = true) ∧ (match step placedNop with
      | .next _ => true
      | _ => false) = true := by decide +kernel

theorem meets_RegisterReads : regKey st0 0 (.v 2) = some (.v (64 * 2)) ∧ shadowed st0 (.v (64 * 2)) = false ∧
    Reg.isUniform (.s 23) = true := by decide

/-! #### One step each: results by hand from the tables -/

/-- The register of thread 0 after one instruction, with some registers set before. -/
def resultOf (ins : Instr) (regs : List (Reg × Word)) (rd : Reg) : Option Word :=
  match exec ins (one fun st => regs.foldl (fun st (x : Reg × Word) => writeReg st 0 x.1 x.2) st) with
  | .next t => (getStrand t 0).map fun st => readReg 0 st 0 rd
  | _ => none

/-- A predicate of it. -/
def predOf (ins : Instr) (regs : List (Reg × Word)) (p : Fin 16) : Option Bool :=
  match exec ins (one fun st => regs.foldl (fun st (x : Reg × Word) => writeReg st 0 x.1 x.2) st) with
  | .next t => (getStrand t 0).map fun st => getPred st 0 p
  | _ => none

/-- R172, R174: wraps, bounds of `.sat`, the high half, one clamp of the exact value, and pairs. -/
theorem test_arithmetic :
    resultOf (.add h0 .u32 false (.v 1) (.v 2) (.imm 1)) [(.v 2, 0xffffffff)] (.v 1) = some 0 ∧
    resultOf (.add h0 .i32 true (.v 1) (.v 2) (.imm 1)) [(.v 2, 0x7fffffff)] (.v 1) = some 0x7fffffff ∧
    resultOf (.sub h0 .u32 true (.v 1) (.v 2) (.reg (.v 3))) [(.v 2, 1), (.v 3, 2)] (.v 1) = some 0 ∧
    resultOf (.mulhi h0 .i32 (.v 1) (.v 2) (.reg (.v 3))) [(.v 2, 0xffffffff), (.v 3, 5)] (.v 1) = some 0xffffffff ∧
    resultOf (.mulhi h0 .u32 (.v 1) (.v 2) (.reg (.v 3))) [(.v 2, 0xffffffff), (.v 3, 5)] (.v 1) = some 4 ∧
    resultOf (.mad h0 .i32 true (.v 1) (.v 2) (.v 3) (.v 4)) [(.v 2, 0x10000), (.v 3, 0x10000), (.v 4, 0x80000000)] (.v 1) = some 0x7fffffff ∧
    resultOf (.abs h0 false (.v 1) (.v 2)) [(.v 2, 0x80000000)] (.v 1) = some 0x80000000 ∧
    resultOf (.neg h0 .b64 false (.v 2) (.v 4)) [(.v 4, 0), (.v 5, 1)] (.v 3) = some 0xffffffff ∧
    resultOf (.mulw h0 .u32 (.v 2) (.v 2) (.reg (.v 2))) [(.v 2, 0xffffffff)] (.v 3) = some 0xfffffffe ∧
    resultOf (.mulw h0 .u32 (.v 2) (.v 4) (.imm 0x7ffffff)) [(.v 4, 2)] (.v 3) = some 1 := by decide +kernel

/-- R175: the table's cases, and the sign of a remainder. -/
theorem test_division :
    resultOf (.div h0 .u32 false (.v 1) (.v 2) (.imm 0)) [(.v 2, 7)] (.v 1) = some 0xffffffff ∧
    resultOf (.div h0 .i32 false (.v 1) (.v 2) (.imm 0)) [(.v 2, 0)] (.v 1) = some 0x7fffffff ∧
    resultOf (.div h0 .i32 false (.v 1) (.v 2) (.imm 0)) [(.v 2, 0xffffffff)] (.v 1) = some 0x80000000 ∧
    resultOf (.div h0 .i32 true (.v 1) (.v 2) (.imm 0x7ffffff)) [(.v 2, 0x80000000)] (.v 1) = some 0x7fffffff ∧
    resultOf (.div h0 .i32 false (.v 1) (.v 2) (.imm 2)) [(.v 2, 0xfffffff9)] (.v 1) = some 0xfffffffd ∧
    resultOf (.rem h0 .i32 (.v 1) (.v 2) (.imm 2)) [(.v 2, 0xfffffff9)] (.v 1) = some 0xffffffff ∧
    resultOf (.rem h0 .u32 (.v 1) (.v 2) (.imm 0)) [(.v 2, 7)] (.v 1) = some 7 := by decide +kernel

/-- R176 to R180: shifts of the width and of 256, fields across the top, counts of 0, interleaving, addresses. -/
theorem test_bits :
    resultOf (.shl h0 .u32 false (.v 1) (.v 2) (.imm 32)) [(.v 2, 1)] (.v 1) = some 0 ∧
    resultOf (.shl h0 .u32 false (.v 1) (.v 2) (.imm 256)) [(.v 2, 9)] (.v 1) = some 9 ∧
    resultOf (.shl h0 .i32 true (.v 1) (.v 2) (.imm 255)) [(.v 2, 0xffffffff)] (.v 1) = some 0x80000000 ∧
    resultOf (.sar h0 .i32 (.v 1) (.v 2) (.imm 40)) [(.v 2, 0x80000000)] (.v 1) = some 0xffffffff ∧
    resultOf (.rotl h0 .u32 (.v 1) (.v 2) (.imm 36)) [(.v 2, 0x80000001)] (.v 1) = some 0x18 ∧
    resultOf (.andn h0 .u32 (.v 1) (.v 2) (.imm 0x7fffff0)) [(.v 2, 0x1234)] (.v 1) = some 0x4 ∧
    resultOf (.bfx h0 .i32 (.v 1) (.v 2) (.imm 0x41c)) [(.v 2, 0x90000000)] (.v 1) = some 0xfffffff9 ∧
    resultOf (.bfx h0 .u32 (.v 1) (.v 2) (.imm 0x81c)) [(.v 2, 0x90000000)] (.v 1) = some 9 ∧
    resultOf (.bfi h0 .u32 (.v 1) (.v 2) (.v 3) (.v 4)) [(.v 2, 0), (.v 3, 0xff), (.v 4, 0x81c)] (.v 1) = some 0xf0000000 ∧
    resultOf (.clz h0 .u32 (.v 1) (.v 2)) [(.v 2, 0)] (.v 1) = some 32 ∧
    resultOf (.clz h0 .b64 (.v 1) (.v 2)) [(.v 2, 1), (.v 3, 0)] (.v 1) = some 63 ∧
    resultOf (.popc h0 .b64 (.v 1) (.v 2)) [(.v 2, 7), (.v 3, 0x80000001)] (.v 1) = some 5 ∧
    resultOf (.brev h0 .u32 (.v 1) (.v 2)) [(.v 2, 1)] (.v 1) = some 0x80000000 ∧
    resultOf (.ilv h0 .u32 (.v 1) (.v 2) (.v 3) (.v 4)) [(.v 2, 1), (.v 3, 2), (.v 4, 0)] (.v 1) = some 0x14 ∧
    resultOf (.dilv h0 .u32 (.v 1) (.v 2) (.imm 1)) [(.v 2, 0x14)] (.v 1) = some 2 ∧
    resultOf (.lea h0 .i32 (.v 2) (.v 4) (.v 6) (.v 7)) [(.v 4, 0), (.v 5, 1), (.v 6, 0xffffffff), (.v 7, 3)] (.v 2) = some 0xfffffff8 ∧
    resultOf (.movi h0 .b64 (.v 2) 0x80000000) [] (.v 3) = some 0xffffffff := by decide +kernel

/-- R198 to R205 on FP32: rounding at the half, the sign of a zero sum, the canonical NaN, and conversions. -/
theorem test_float :
    resultOf (.fadd h0 .f32 .rn (.v 1) (.v 2) (.v 3)) [(.v 2, 0x3f800000), (.v 3, 0x33800000)] (.v 1) = some 0x3f800000 ∧
    resultOf (.fadd h0 .f32 .ru (.v 1) (.v 2) (.v 3)) [(.v 2, 0x3f800000), (.v 3, 0x33800000)] (.v 1) = some 0x3f800001 ∧
    resultOf (.fadd h0 .f32 .rd (.v 1) (.v 2) (.v 3)) [(.v 2, 0x3f800000), (.v 3, 0xbf800000)] (.v 1) = some 0x80000000 ∧
    resultOf (.fmul h0 .f32 .rn (.v 1) (.v 2) (.v 3)) [(.v 2, 0x7f800000), (.v 3, 0)] (.v 1) = some 0x7fc00000 ∧
    resultOf (.fma h0 .f32 .rn (.v 1) (.v 2) (.v 3) (.v 4)) [(.v 2, 0x3f800001), (.v 3, 0x3f800001), (.v 4, 0xbf800002)] (.v 1)
      = some 0x28800000 ∧
    resultOf (.cvt h0 (.fmt .fp32) (.fmt .i32) .rz (.v 1) (.v 2) (.v 0) (.v 0)) [(.v 2, 0xfffffff9)] (.v 1) = some 0xc0e00000 := by
  decide +kernel

/-- R181, R182: a signed and an unsigned comparison. -/
theorem test_compare :
    predOf (.cmp h0 .i32 .lt 3 (.v 2) (.imm 0)) [(.v 2, 0xffffffff)] 3 = some true ∧
    predOf (.cmp h0 .u32 .lt 3 (.v 2) (.imm 0)) [(.v 2, 0xffffffff)] 3 = some false ∧
    predOf (.cmp h0 .u32 .ge 3 (.v 2) (.imm 0x7ffffff)) [(.v 2, 0xffffffff)] 3 = some true := by decide +kernel

/-- Where thread 0 stands after one instruction. -/
def pcAfter (ins : Instr) : Option DWord :=
  match exec ins s0 with
  | .next t => (getStrand t 0).map fun st => (getThread st 0).pc
  | _ => none

/-- R161, R187: a branch counts words from the one after it; a guard that is false passes it by. -/
theorem test_branch :
    pcAfter (.bra h0 0xfffffffe) = some (placedCode - 8) ∧ pcAfter (.bra ⟨false, .onTrue 0⟩ 5) = some (placedCode + 8) ∧
    pcAfter (.nop h0) = some (placedCode + 8) := by decide +kernel

/-- R284: the registers of a strand: its width and its stack depth; R111: a reserved rounding mode is kept out of `fmode`. -/
theorem test_special :
    resultOf (.mfs h0 (.v 1) 0x0d) [] (.v 1) = some 16 ∧ resultOf (.mfs h0 (.v 1) 0x25) [] (.v 1) = some 352 ∧
    (match exec (.mts h0 (.v 2) 0x14) (one fun st => writeReg st 0 (.v 2) 0xfffff007) with
      | .next t => (getStrand t 0).map (·.fmode)
      | _ => none) = some 0 := by decide +kernel

/-- R131, R169: a word of an unassigned opcode stops the strand with ILLEGAL_OP, which is class 3. -/
theorem test_illegal :
    (match step (State.reset.withFetchWord 64 (word 0xff 0 0 0)) with
      | .next t => (getStrand t 0).map fun st => match st.status with
        | .faulted f => (f.cls, f.cause, f.pc)
        | _ => (0, 0, 0)
      | _ => none) = some (3, 0, placedCode) := by decide +kernel

/-- R216, R221: a store leaves the lane and is performed later; memory holds it then. -/
theorem test_store :
    (match exec (.st h0 false .relaxed .u32 (.v 8) (.v 2) .zero 16)
        (dev fun st => writeReg (writeReg st 0 (.v 2) 0x200000) 0 (.v 8) 0x12345678) with
      | .next t => some (t.pend.length, memGet t.mem 0x200010, (t.pend.map (·.place)).head?)
      | _ => none) = some (1, 0, some (.global 0x200010 0)) := by decide +kernel

end Sys2Proof.Tests
end

/-! PROOF. The feature vector, and the thermal and power limits (R7, R405, R410): what a write of BAR 0, commit, a sensor
reading, a clock step and the thermal trip do, one lemma for each outcome, and the obligation that they settle. -/

namespace Sys2Proof.Machine

/-! ### Writes of BAR 0 that the port takes at once (R7, R386) -/

/-- A port that holds nothing and has room in its latch takes a write at once (R408). -/
theorem exec_registerWrite_of_taken {s : State} (held : s.host.held = []) (room : s.host.latch.length < 256)
    (off : Nat) (v : Word) : exec (.registerWrite off v) s = .next (writeRegister s off v) := by
  have full : ¬ 256 ≤ s.host.latch.length := by omega
  have taken : execRegisterWrite off v s = .next (writeRegister s off v) := by simp [execRegisterWrite, held, full]
  exact taken

/-- The strand windows lie above the first 4 GiB of BAR 0 (R333, R386). -/
theorem windowPlace_of_lt {off : Nat} (h : off < 0x100000000) : windowPlace off = none := by
  simp [windowPlace, h]

theorem writeRegister_accepted_of_committed {s : State} (committed : s.host.committed = true) (v : Word) :
    writeRegister s 0x120 v = s := by
  simp [writeRegister, committed]

theorem writeRegister_accepted_of_open {s : State} (isOpen : s.host.committed = false) (v : Word) :
    writeRegister s 0x120 v = { s with host := { s.host with
      accepted := s.host.accepted.set 0 (mk64 (v &&& 0x3f) (hi32 (s.host.accepted.getD 0 0))) } } := by
  simp [writeRegister, isOpen, setWordHalf, setHalf]

/-- Nothing in the accepted vector but the low half of its word 0 is written through BAR 0 (R405). -/
theorem writeRegister_acceptedCopies {off : Nat} (above : 0x120 < off) (below : off < 0x140) (s : State) (v : Word) :
    writeRegister s off v = s := by
  by_cases aligned : off % 4 = 0
  · have mailbox : ¬ off < 0x38 := by omega
    have command : off ≠ 0x40 := by omega
    have word0 : off ≠ 0x120 := by omega
    have commit : off ≠ 0x140 := by omega
    have tolerance : off ≠ 0x200 := by omega
    have thermal : off ≠ 0x210 := by omega
    have window : windowPlace off = none := windowPlace_of_lt (by omega)
    simp [writeRegister, aligned, mailbox, command, word0, commit, tolerance, thermal, window]
  · simp [writeRegister, aligned]

theorem writeRegister_commit (s : State) (v : Word) :
    writeRegister s 0x140 v = { s with turns := .event .featureCommit :: s.turns } := by
  simp [writeRegister]

theorem writeRegister_tolerance (s : State) (v : Word) :
    writeRegister s 0x200 v = { s with turns := .event (.latencyToleranceWrite v) :: s.turns } := by
  simp [writeRegister]

/-- R410: a 1 clears the status bit it is written to. -/
theorem writeRegister_thermal (s : State) (v : Word) :
    writeRegister s 0x210 v = { s with power := { s.power with
      crit := s.power.crit && !v.getLsbD 3, pwr := s.power.pwr && !v.getLsbD 2
      therm := s.power.therm && !v.getLsbD 1 } } := by
  simp [writeRegister]

/-- Word 0 of the accepted vector after a write: six bits of the value, reserved bits 0, and the half above as it was. -/
theorem getLsbD_acceptedWrite (v : Word) (w : DWord) {b : Nat} (hb : b < 64) :
    (mk64 (v &&& 0x3f) (hi32 w)).getLsbD b = true ↔
      if b < 6 then v.getLsbD b = true else if b < 32 then False else w.getLsbD b = true := by
  have halves : (mk64 (v &&& 0x3f) (hi32 w)).getLsbD b =
      if b < 32 then (v &&& 0x3f).getLsbD b else (hi32 w).getLsbD (b - 32) := BitVec.getLsbD_append
  have mask : ∀ b < 32, (0x3f : Word).getLsbD b = decide (b < 6) := by decide
  rw [halves]
  by_cases low : b < 32
  · rw [if_pos low, BitVec.getLsbD_and, mask b low]
    by_cases six : b < 6 <;> simp [low, six]
  · have high : (hi32 w).getLsbD (b - 32) = w.getLsbD b := by
      simp [hi32, show b - 32 < 32 by omega, show 32 + (b - 32) = b by omega]
    simp [low, high, show ¬ b < 6 by omega]

/-! ### What BAR 0 reads (R7, R391, R405) -/

theorem registerValue_offered (s : State) {n : Nat} (h : n < 4) :
    registerValue s (0x100 + 8 * n) = lo32 (s.host.offered.getD n 0) := by
  have aligned : ¬ (0x100 + 8 * n) % 4 ≠ 0 := by omega
  have aboveMailbox : ¬ 0x100 + 8 * n < 0x40 := by omega
  have inside : 0x100 ≤ 0x100 + 8 * n ∧ 0x100 + 8 * n < 0x120 := by omega
  have lowHalf : ¬ (0x100 + 8 * n - 0x100) % 8 = 4 := by omega
  have place : (0x100 + 8 * n - 0x100) / 8 = n := by omega
  simp only [registerValue, if_neg aligned, if_neg aboveMailbox, if_pos inside, if_neg lowHalf, place]

theorem registerValue_accepted (s : State) {n : Nat} (h : n < 4) :
    registerValue s (0x120 + 8 * n) = lo32 (s.host.accepted.getD n 0) := by
  have aligned : ¬ (0x120 + 8 * n) % 4 ≠ 0 := by omega
  have aboveMailbox : ¬ 0x120 + 8 * n < 0x40 := by omega
  have aboveOffered : ¬ (0x100 ≤ 0x120 + 8 * n ∧ 0x120 + 8 * n < 0x120) := by omega
  have inside : 0x120 ≤ 0x120 + 8 * n ∧ 0x120 + 8 * n < 0x140 := by omega
  have lowHalf : ¬ (0x120 + 8 * n - 0x120) % 8 = 4 := by omega
  have place : (0x120 + 8 * n - 0x120) / 8 = n := by omega
  simp only [registerValue, if_neg aligned, if_neg aboveMailbox, if_neg aboveOffered, if_pos inside, if_neg lowHalf, place]

/-- The mailbox's start and commit are only written. -/
theorem registerValue_writeOnly (s : State) : registerValue s 0x40 = 0 ∧ registerValue s 0x140 = 0 := by
  simp [registerValue, windowPlace_of_lt]

/-! ### Commit (R405) -/

theorem exec_featureCommit_of_committed {s : State} (committed : s.host.committed = true) :
    exec .featureCommit s = .next s := by
  have again : execFeatureCommit s = .next s := by simp [execFeatureCommit, committed]
  exact again

theorem exec_featureCommit_of_open {s : State} (isOpen : s.host.committed = false) :
    exec .featureCommit s = .next { s with host := { s.host with
      committed := true
      accepted := [s.host.accepted.getD 0 0 &&& s.host.offered.getD 0 0, s.host.offered.getD 1 0,
        s.host.offered.getD 2 0, s.host.offered.getD 3 0] } } := by
  have first : execFeatureCommit s = _ := if_neg (by simp [isOpen])
  exact first

/-- R405: words 1 to 3 of the fixed vector are those offered. -/
theorem getD_committed_of_pos (w : DWord) (offered : List DWord) {n : Nat} (pos : 1 ≤ n) (lt : n < 4) :
    [w, offered.getD 1 0, offered.getD 2 0, offered.getD 3 0].getD n 0 = offered.getD n 0 := by
  match n, pos, lt with
  | 1, _, _ => rfl
  | 2, _, _ => rfl
  | 3, _, _ => rfl

/-- R405: what a first commit does to the vector, and that it does nothing else. -/
theorem exec_featureCommit_fixes {s : State} (isOpen : s.host.committed = false) :
    ∃ t, exec .featureCommit s = .next t ∧ { t with host := s.host } = s ∧ t.host.committed = true ∧
      t.host.accepted.length = 4 ∧
      (∀ b, b < 64 → ((t.host.accepted.getD 0 0).getLsbD b = true ↔
        (s.host.accepted.getD 0 0).getLsbD b = true ∧ (s.host.offered.getD 0 0).getLsbD b = true)) ∧
      (∀ n, 1 ≤ n → n < 4 → t.host.accepted.getD n 0 = s.host.offered.getD n 0) ∧
      { t.host with committed := false, accepted := s.host.accepted } = s.host := by
  refine ⟨_, exec_featureCommit_of_open isOpen, rfl, rfl, rfl, fun b _ => ?_, fun n => getD_committed_of_pos _ _, ?_⟩
  · simp only [List.getD_cons_zero, BitVec.getLsbD_and, Bool.and_eq_true]
  · rw [← isOpen]

/-- R405: before commit a write reaches word 0 below its reserved bits, and nothing else. -/
theorem writeRegister_accepted_reaches {s : State} (isOpen : s.host.committed = false)
    (four : s.host.accepted.length = 4) (v : Word) :
    (∀ b, b < 64 → (((writeRegister s 0x120 v).host.accepted.getD 0 0).getLsbD b = true ↔
      if b < 6 then v.getLsbD b = true else if b < 32 then False else (s.host.accepted.getD 0 0).getLsbD b = true)) ∧
    (∀ m, m ≠ 0 → (writeRegister s 0x120 v).host.accepted.getD m 0 = s.host.accepted.getD m 0) ∧
    { writeRegister s 0x120 v with host := s.host } = s := by
  rw [writeRegister_accepted_of_open isOpen]
  refine ⟨fun b hb => ?_, fun m hm => ?_, rfl⟩
  · have word0 (w : DWord) : (s.host.accepted.set 0 w).getD 0 0 = w := by simp [List.getD_eq_getElem?_getD, four]
    rw [word0]
    exact getLsbD_acceptedWrite v _ hb
  · simp [List.getD_eq_getElem?_getD, List.getElem?_set_ne hm.symm]

/-- R7, R405: the feature vector, from BAR 0 and from commit. -/
theorem featureVector : Claims.FeatureVector := by
  intro s held room
  have write := exec_registerWrite_of_taken held room
  have copies (off : Nat) (v : Word) (above : 0x120 < off) (below : off < 0x140) :
      exec (.registerWrite off v) s = .next s := by
    rw [write, writeRegister_acceptedCopies above below]
  refine ⟨fun committed => ⟨exec_featureCommit_of_committed committed, fun off v atLeast below => ?_⟩,
    fun isOpen => ⟨exec_featureCommit_fixes isOpen, fun v four =>
      ⟨_, write _ v, writeRegister_accepted_reaches isOpen four v⟩, copies⟩,
    fun v => by rw [write, writeRegister_commit], fun v => by rw [write, writeRegister_tolerance],
    fun n hn => ⟨registerValue_offered s hn, registerValue_accepted s hn⟩, registerValue_writeOnly s⟩
  rcases Nat.eq_or_lt_of_le atLeast with rfl | above
  · rw [write, writeRegister_accepted_of_committed committed]
  · exact copies off v above below

/-! ### Sensor readings (R410) -/

/-- The power manager once a reading is taken, whatever it finds: three dies, and the power beside the readings that are
younger than 10 ms. -/
def sensed (s : State) (d0 d1 base w : Nat) : Power :=
  { s.power with
    sensors := [d0, d1, base], lastSensor := s.time
    watts := (s.time, w) :: s.power.watts.filter fun x => decide (s.time < x.1 + 10000000) }

section
variable {s : State} {d0 d1 base w : Nat}

theorem exec_sensorRead_of_early (early : s.time < s.power.lastSensor + 100000) :
    exec (.sensorRead (d0, d1) base w) s = .next s := by
  have stays : execSensorRead (d0, d1) base w s = .next s := if_pos early
  exact stays

theorem exec_sensorRead_of_due (due : s.power.lastSensor + 100000 ≤ s.time) :
    exec (.sensorRead (d0, d1) base w) s =
      if diePasses { s with power := sensed s d0 d1 base w } tc then
        .next { s with power := { sensed s d0 d1 base w with
          crit := true, mhz := 800, critSince := some (s.power.critSince.getD s.time) } }
      else .next { s with power := { sensed s d0 d1 base w with critSince := none } } := by
  have taken : execSensorRead (d0, d1) base w s = _ := if_neg (Nat.not_lt.mpr due)
  exact taken

theorem diePasses_iff (s : State) (limit : Nat) : diePasses s limit = true ↔ ∃ t ∈ s.power.sensors, limit < t := by
  simp [diePasses]

theorem diePasses_sensed_iff (limit : Nat) :
    diePasses { s with power := sensed s d0 d1 base w } limit = true ↔ limit < d0 ∨ limit < d1 ∨ limit < base := by
  simp [diePasses_iff, sensed]

/-- R410: below Tc a reading ends what was critical. -/
theorem exec_sensorRead_of_below (due : s.power.lastSensor + 100000 ≤ s.time)
    (below : ¬ (tc < d0 ∨ tc < d1 ∨ tc < base)) : exec (.sensorRead (d0, d1) base w) s =
      .next { s with power := { sensed s d0 d1 base w with critSince := none } } := by
  rw [exec_sensorRead_of_due due, if_neg (mt (diePasses_sensed_iff tc).mp below)]

/-- R410: past Tc the clock falls to 800 MHz at once. -/
theorem exec_sensorRead_of_past (due : s.power.lastSensor + 100000 ≤ s.time)
    (past : tc < d0 ∨ tc < d1 ∨ tc < base) : exec (.sensorRead (d0, d1) base w) s =
      .next { s with power := { sensed s d0 d1 base w with
        crit := true, mhz := 800, critSince := some (s.power.critSince.getD s.time) } } := by
  rw [exec_sensorRead_of_due due, if_pos ((diePasses_sensed_iff tc).mpr past)]

end

/-! ### Clock steps (R410) -/

theorem tooHot_iff (s : State) : tooHot s = true ↔ ∃ t ∈ s.power.sensors, tj < t := diePasses_iff s tj

theorem tooMuch_iff (s : State) : tooMuch s = true ↔ powerCap * (recentWatts s).length < (recentWatts s).sum := by
  simp [tooMuch]

theorem coolEnough_iff (s : State) : coolEnough s = true ↔
    (∀ t ∈ s.power.sensors, t + 3 ≤ tj) ∧ 100 * (recentWatts s).sum < 95 * powerCap * (recentWatts s).length := by
  simp [coolEnough]

section
variable {s : State}

theorem exec_clockStep_of_early (early : s.time < s.power.lastStep + 1000000) : exec .clockStep s = .next s := by
  have stays : execClockStep s = .next s := if_pos early
  exact stays

theorem exec_clockStep_slows (due : s.power.lastStep + 1000000 ≤ s.time) (slow : tooHot s = true ∨ tooMuch s = true)
    (above : 1600 < s.power.mhz) : exec .clockStep s = .next { s with power := { s.power with
      lastStep := s.time, mhz := max 1600 (s.power.mhz - 100)
      therm := s.power.therm || tooHot s, pwr := s.power.pwr || tooMuch s } } := by
  have slows : execClockStep s = _ :=
    (if_neg (Nat.not_lt.mpr due)).trans ((if_pos (by simpa using slow)).trans (if_neg (Nat.not_le.mpr above)))
  exact slows

/-- R410: at the lowest clock nothing is slowed, and no bit is set. -/
theorem exec_clockStep_lowest (due : s.power.lastStep + 1000000 ≤ s.time) (slow : tooHot s = true ∨ tooMuch s = true)
    (lowest : s.power.mhz ≤ 1600) : exec .clockStep s = .next { s with power := { s.power with lastStep := s.time } } := by
  have stays : execClockStep s = _ :=
    (if_neg (Nat.not_lt.mpr due)).trans ((if_pos (by simpa using slow)).trans (if_pos lowest))
  exact stays

theorem exec_clockStep_rises (due : s.power.lastStep + 1000000 ≤ s.time) (slow : ¬ (tooHot s = true ∨ tooMuch s = true))
    (cool : coolEnough s = true) : exec .clockStep s = .next { s with power := { s.power with
      lastStep := s.time, mhz := min 3200 (s.power.mhz + 100) } } := by
  have rises : execClockStep s = _ :=
    (if_neg (Nat.not_lt.mpr due)).trans ((if_neg (by simpa using slow)).trans (if_pos cool))
  exact rises

theorem exec_clockStep_steady (due : s.power.lastStep + 1000000 ≤ s.time) (slow : ¬ (tooHot s = true ∨ tooMuch s = true))
    (warm : ¬ coolEnough s = true) : exec .clockStep s = .next { s with power := { s.power with lastStep := s.time } } := by
  have stays : execClockStep s = _ :=
    (if_neg (Nat.not_lt.mpr due)).trans ((if_neg (by simpa using slow)).trans (if_neg warm))
  exact stays

/-- R410: a clock step that is due, by what it finds: the four outcomes together. -/
theorem exec_clockStep_of_due (due : s.power.lastStep + 1000000 ≤ s.time) :
    ∃ t, exec .clockStep s = .next t ∧ t.power.lastStep = s.time ∧
      { t with power := { t.power with
        lastStep := s.power.lastStep, mhz := s.power.mhz, therm := s.power.therm, pwr := s.power.pwr } } = s ∧
      (tooHot s = true ∨ tooMuch s = true → 1600 < s.power.mhz → (t.power.mhz = max 1600 (s.power.mhz - 100)) ∧
        (t.power.therm = true ↔ s.power.therm = true ∨ tooHot s = true) ∧
        (t.power.pwr = true ↔ s.power.pwr = true ∨ tooMuch s = true)) ∧
      ((¬ tooHot s = true ∧ ¬ tooMuch s = true) ∨ s.power.mhz ≤ 1600 →
        t.power.therm = s.power.therm ∧ t.power.pwr = s.power.pwr) ∧
      (tooHot s = true ∨ tooMuch s = true → s.power.mhz ≤ 1600 → t.power.mhz = s.power.mhz) ∧
      (¬ tooHot s = true → ¬ tooMuch s = true → coolEnough s = true → t.power.mhz = min 3200 (s.power.mhz + 100)) ∧
      (¬ tooHot s = true → ¬ tooMuch s = true → ¬ coolEnough s = true → t.power.mhz = s.power.mhz) := by
  by_cases slow : tooHot s = true ∨ tooMuch s = true
  · have notCold : ¬ (¬ tooHot s = true ∧ ¬ tooMuch s = true) := fun neither => slow.elim neither.1 neither.2
    have never {P : Prop} (noHeat : ¬ tooHot s = true) (noLoad : ¬ tooMuch s = true) : P :=
      absurd ⟨noHeat, noLoad⟩ notCold
    rcases Nat.lt_or_ge 1600 s.power.mhz with above | lowest
    · have notLowest : ¬ s.power.mhz ≤ 1600 := Nat.not_le.mpr above
      exact ⟨_, exec_clockStep_slows due slow above, rfl, rfl,
        fun _ _ => ⟨rfl, Bool.or_eq_true_iff, Bool.or_eq_true_iff⟩, fun kept => absurd kept (not_or.mpr ⟨notCold, notLowest⟩),
        fun _ lowest => absurd lowest notLowest, fun h m _ => never h m, fun h m _ => never h m⟩
    · exact ⟨_, exec_clockStep_lowest due slow lowest, rfl, rfl, fun _ above => absurd lowest (Nat.not_le.mpr above),
        fun _ => ⟨rfl, rfl⟩, fun _ _ => rfl, fun h m _ => never h m, fun h m _ => never h m⟩
  · by_cases cool : coolEnough s = true
    · exact ⟨_, exec_clockStep_rises due slow cool, rfl, rfl, fun h => absurd h slow, fun _ => ⟨rfl, rfl⟩,
        fun h => absurd h slow, fun _ _ _ => rfl, fun _ _ warm => absurd cool warm⟩
    · exact ⟨_, exec_clockStep_steady due slow cool, rfl, rfl, fun h => absurd h slow, fun _ => ⟨rfl, rfl⟩,
        fun h => absurd h slow, fun _ _ c => absurd c cool, fun _ _ _ => rfl⟩

/-! ### The thermal trip, and the limits of the board (R410) -/

theorem exec_thermalTrip_of_cool (cool : s.power.critSince = none) : exec .thermalTrip s = .next s := by
  have stays : execThermalTrip s = .next s := by simp only [execThermalTrip, cool]
  exact stays

theorem exec_thermalTrip_of_crit {u : Nat} (crit : s.power.critSince = some u) :
    exec .thermalTrip s = if u + 100000000 ≤ s.time then .next (resetDevice s true) else .next s := by
  have judged : execThermalTrip s = if u + 100000000 ≤ s.time then .next (resetDevice s true) else .next s := by
    simp only [execThermalTrip, crit]
  exact judged

end

theorem powerCap_le : powerCap ≤ 450 := Nat.min_le_right _ _

theorem tj_lt_tc : tj < tc := Nat.le_max_right _ _

/-- R410: sensor readings, clock steps, the trip, and the bits that a write clears. -/
theorem thermalLimits : Claims.ThermalLimits := by
  intro s d0 d1 base w
  refine ⟨fun early => exec_sensorRead_of_early (Nat.not_le.mp early),
    fun due h0 h1 hb => exec_sensorRead_of_below due (by omega), exec_sensorRead_of_past,
    exec_clockStep_of_early, fun due => ?_, exec_thermalTrip_of_cool,
    fun u crit => ⟨fun early => ?_, fun late => ⟨resetDevice s true, ?_, rfl, rfl, rfl, rfl, rfl, rfl, rfl⟩⟩,
    powerCap_le, tj_lt_tc, fun v held room => by rw [exec_registerWrite_of_taken held room, writeRegister_thermal]⟩
  · have found := exec_clockStep_of_due due
    simp only [tooHot_iff, tooMuch_iff, coolEnough_iff] at found
    exact found
  · rw [exec_thermalTrip_of_crit crit, if_neg (Nat.not_le.mpr early)]
  · rw [exec_thermalTrip_of_crit crit, if_pos late]

/-- Settles O51: each clause is the lemma on the outcome of the write, of commit, or of the event that it speaks of. -/
theorem featuresAndLimits : Obligations.FeaturesAndLimits :=
  ⟨featureVector, thermalLimits⟩

end Sys2Proof.Machine
